-- ==== Sys2Proof/Word.lean ====
section
/-! DEFINITION. The plainest types of the model: the byte of the host link and of a line slot, sparse numbered storage,
and a position in millimetres. -/

namespace Sys2Proof

/-- One byte: of a host link frame (chapter 11) or one 8-bit slot value of a fixture line (chapter 10). -/
abbrev Byte := BitVec 8

/-- Numbered storage in canonical form: pairs of a number and a value, numbers strictly rising, no value equal to
what an unlisted number reads as (`Store.wf`). A `Store Byte` is a list of `Host.Cell`. -/
abbrev Store (α : Type) := List (Nat × α)

/-- A position or offset `x, y, z` in millimetres (opening file, Units). -/
structure Pos where
  x : Int
  y : Int
  z : Int
deriving DecidableEq, Repr

end Sys2Proof
end

