-- ==== Sys2Proof/Machine/Bytes.lean ====
section
/-! DEFINITION. Fields on the host link (11.8): little-endian, signed fields in two's complement, and how absent fields,
lists and sets of numbered things are written. -/

namespace Sys2Proof.Machine

/-! ### Writing -/

def byteOf (n : Nat) : Byte := BitVec.ofNat 8 n

/-- An unsigned field of 1, 2 or 4 bytes. -/
def le1 (n : Nat) : List Byte := [byteOf n]
def le2 (n : Nat) : List Byte := [byteOf n, byteOf (n / 256)]
def le4 (n : Nat) : List Byte := [byteOf n, byteOf (n / 256), byteOf (n / 65536), byteOf (n / 16777216)]

/-- A signed field of 2 or 4 bytes. -/
def se2 (i : Int) : List Byte := le2 (i % 65536).toNat
def se4 (i : Int) : List Byte := le4 (i % 4294967296).toNat

/-- A flag: 0 for clear, 1 for set. -/
def flagByte (b : Bool) : List Byte := if b then [1] else [0]

/-- A position: x, y, z, 4 bytes each. -/
def posBytes (p : Pos) : List Byte := se4 p.x ++ se4 p.y ++ se4 p.z

/-- Zero bytes. -/
def zeroBytes (n : Nat) : List Byte := List.replicate n 0

/-- A field that may be absent, of a given width: a byte that says whether it is present, then the field or zeros. -/
def optBytes {α : Type} (width : Nat) (enc : α → List Byte) : Option α → List Byte
  | some a => 1 :: enc a
  | none => 0 :: zeroBytes width

/-- A list of at most 255 members: their number in 1 byte, then the members. -/
def listBytes {α : Type} (enc : α → List Byte) (l : List α) : List Byte := le1 l.length ++ l.flatMap enc

/-- One byte of a bitmap: the members `8·i` to `8·i + 7`. -/
def bitmapByte (p : Nat → Bool) (i : Nat) : Byte :=
  byteOf ((List.range 8).foldl (fun v j => if p (8 * i + j) then v + 2 ^ j else v) 0)

/-- A set of numbered things: one bit for each possible member, member n at bit n mod 8 of byte n / 8. -/
def bitmap (p : Nat → Bool) (bytes : Nat) : List Byte := (List.range bytes).map (bitmapByte p)

/-! ### Reading -/

/-- The byte at an offset of a payload, 0 beyond its end. -/
def u1 (p : List Byte) (o : Nat) : Nat := (p.getD o 0).toNat

/-- An unsigned field of 2 or 4 bytes at an offset. -/
def u2 (p : List Byte) (o : Nat) : Nat := u1 p o + 256 * u1 p (o + 1)
def u4 (p : List Byte) (o : Nat) : Nat := u2 p o + 65536 * u2 p (o + 2)

/-- A signed field of 2 or 4 bytes at an offset. -/
def s2 (p : List Byte) (o : Nat) : Int := if u2 p o < 32768 then u2 p o else (u2 p o : Int) - 65536
def s4 (p : List Byte) (o : Nat) : Int := if u4 p o < 2147483648 then u4 p o else (u4 p o : Int) - 4294967296

/-- A position at an offset. -/
def posAt (p : List Byte) (o : Nat) : Pos := ⟨s4 p o, s4 p (o + 4), s4 p (o + 8)⟩

/-- `n` records of `w` bytes each, from the start of a payload. -/
def recordsAt {α : Type} (w : Nat) (get : List Byte → α) : Nat → List Byte → List α
  | 0, _ => []
  | n + 1, p => get p :: recordsAt w get n (p.drop w)

end Sys2Proof.Machine
end

