-- ==== Sys2Proof/Syntax.lean ====
section
/-! DEFINITION. The commands and events of the part: one constructor of `Instr` for each row of the opcode table, with
the row's operands as the host link carries them (11.8). Operands are raw: a value outside the range that a rule
accepts is a term of this type, and the rule's own check refuses it. -/

namespace Sys2Proof

/-- A cue entry as its 35 bytes give it (11.8): DIRECT_AIM, DIRECT_COLOUR and the STORE_CUE family carry it. -/
structure RawEntry where
  /-- first fixture of the range -/
  first : Nat
  /-- count of the range -/
  count : Nat
  /-- AIM spec code: 0 NONE, 1 POINT, 2 ANGLES, 3 SWEEP -/
  aim : Nat
  /-- law code: 0 TIMED, 1 CHASE -/
  law : Nat
  /-- unit flags: bit 0 move time, bit 1 leg time, bit 2 fade time in quarter-beats, bit 3 SWEEP centre by ANGLES -/
  units : Nat
  point : Nat
  pan : Int
  tilt : Int
  panAmp : Nat
  tiltAmp : Nat
  /-- leg count, 0 for endless -/
  legs : Nat
  /-- COLOUR spec code: 0 NONE, 1 HUESAT, 2 PALETTE, 3 WHEEL_SLOT -/
  colour : Nat
  moveTime : Nat
  legTime : Nat
  fadeTime : Nat
  /-- hue, palette number or wheel position -/
  hue : Int
  sat : Nat
deriving DecidableEq, Repr

/-- An emitter of a DEFINE_KIND payload: hue 0xFFFF is WHITE, fine offset 0xFF is absent (11.8). -/
structure RawEmitter where
  hue : Nat
  gain : Nat
  coarse : Nat
  fine : Nat
deriving DecidableEq, Repr

/-- A wheel position of a kind (1.1, 11.8). -/
structure WheelPos where
  hue : Nat
  sat : Nat
  value : Nat
deriving DecidableEq, Repr

/-- A DEFINE_KIND payload (11.8). Offsets of 0xFF are absent. -/
structure RawKind where
  kind : Nat
  panMin : Int
  panMax : Int
  tiltMin : Int
  tiltMax : Int
  vmaxPan : Nat
  vmaxTilt : Nat
  amaxPan : Nat
  amaxTilt : Nat
  gain : Nat
  footprint : Nat
  panCoarse : Nat
  panFine : Nat
  tiltCoarse : Nat
  tiltFine : Nat
  /-- colour model code: 0 NONE, 1 EMITTER, 2 WHEEL -/
  model : Nat
  /-- list count byte: emitters or wheel positions -/
  listCount : Nat
  wheelRole : Nat
  emitters : List RawEmitter
  wheel : List WheelPos
  pass : List Nat
deriving DecidableEq, Repr

/-- The parameters of PATCH (1.3, 11.8); the body byte holds mounting (bits 0, 1) and the invert flags (bits 2, 3). -/
structure PatchArgs where
  fixture : Nat
  kind : Nat
  line : Nat
  base : Nat
  truss : Nat
  pos : Pos
  yaw : Nat
  body : Nat
  homePan : Int
  homeTilt : Int
deriving DecidableEq, Repr

/-- The parameters of SET_POSE (R11, 11.8). -/
structure PoseArgs where
  fixture : Nat
  pos : Pos
  yaw : Nat
  /-- mounting byte: 0 HUNG, 1 STANDING -/
  mounting : Nat
  homePan : Int
  homeTilt : Int
deriving DecidableEq, Repr

/-- The parameters of COPY_RIG (1.6, 11.8). -/
structure CopyArgs where
  src : Nat
  dst : Nat
  count : Nat
  delta : Pos
  slotDelta : Int
deriving DecidableEq, Repr

/-- One tracking record of TRACK (2.4). -/
structure TrackRec where
  tag : Nat
  pos : Pos
deriving DecidableEq, Repr

/-- The parameters of RELEASE_DIRECT (R49, 11.8): selector 0 AIM, 1 COLOUR, 2 BOTH; unit 0 ms, 1 quarter-beats. -/
structure ReleaseArgs where
  first : Nat
  count : Nat
  selector : Nat
  unit : Nat
  time : Nat
deriving DecidableEq, Repr

/-- The fields of one STORE_CUE frame, the part mark apart (11.8, R209). -/
structure CueArgs where
  cue : Nat
  /-- link kind code: 0 MANUAL, 1 ON_DONE, 2 AFTER, 3 DONE_OR_AFTER, 4 NEXT_BAR -/
  link : Nat
  time : Nat
  entries : List RawEntry
deriving DecidableEq, Repr

/-- A palette override of a STORE_PALETTE payload (11.8): form 0 hue and saturation, form 1 wheel position. -/
structure RawOverride where
  kind : Nat
  form : Nat
  hue : Int
  sat : Nat
  wheel : Nat
deriving DecidableEq, Repr

/-- A STORE_PALETTE payload (11.8). -/
structure PaletteArgs where
  palette : Nat
  hue : Int
  sat : Nat
  fade : Nat
  overrides : List RawOverride
deriving DecidableEq, Repr

/-- The parameters of DEFINE_LIST (R155). -/
structure ListArgs where
  list : Nat
  first : Nat
  last : Nat
  wrap : Nat
  fade : Nat
deriving DecidableEq, Repr

/-- The parameters of SET_LINE (R193). -/
structure LineArgs where
  line : Nat
  min : Nat
  refresh : Nat
  gap : Nat
  sync : Nat
deriving DecidableEq, Repr

/-- A launch tag: list number and serial (3.2). -/
structure LaunchTag where
  list : Nat
  serial : Nat
deriving DecidableEq, Repr

/-- A report on its way to the Playback Unit: settled (R41) or superseded (R40). -/
structure Report where
  settled : Bool
  tag : LaunchTag
deriving DecidableEq, Repr

/-- A byte as it arrives on RXD: its value and whether it carried its stop bit (R198). -/
structure RxByte where
  value : Byte
  stopBit : Bool
deriving DecidableEq, Repr

/-- The steps of the part, one constructor for each row of `spec/opcode_table.json`, in the table's order.
Rows that a host command begins carry the command's parameters; rows of one fixture, point, list or line whose order the
spec leaves open carry its number; rows that take the next part of a command under way carry nothing. -/
inductive Instr where
  | powerOn
  | resetLow
  | resetEnd
  | receiveFrame (bytes : List RxByte)
  | interByteTimeout
  | transmitEnd
  | identify
  | start
  | standby
  | restart
  | setNotice (levels : List Nat)
  | setCounter (counter event mask : Nat)
  | readCounters
  | clearCounters
  | stopChange (high : Bool)
  | motionStopHigh
  | motionStopLow
  | colourStopHigh
  | colourResume
  | playbackStopLow (list : Nat)
  | startReaim
  | startMotion
  | startLines
  | standbyMotion
  | standbyColour
  | standbyList (list : Nat)
  | standbyLines
  | defineKind (k : RawKind)
  | dropKind (kind : Nat)
  | queryKind (kind : Nat)
  | patch (a : PatchArgs)
  | unpatch (first count : Nat)
  | unpatchFixture
  | setPose (a : PoseArgs)
  | setTrim (fixture : Nat) (trims : List Nat)
  | setPassthrough (fixture : Nat) (values : List Nat)
  | setTruss (truss : Nat) (offset : Pos)
  | copyRig (a : CopyArgs)
  | recordCopy
  | queryFixture (fixture : Nat)
  | setPoint (point : Nat) (pos : Pos)
  | bindTag (point tag : Nat) (offset : Pos)
  | unbindTag (point : Nat)
  | track (records : List TrackRec)
  | trackPointMove
  | staleTimerExpiry (point : Nat)
  | setStaleLimit (ms : Nat)
  | queryPoint (point : Nat)
  | setPriority (source priority : Nat)
  | directAim (e : RawEntry)
  | directAimFixture
  | directColour (e : RawEntry)
  | directColourFixture
  | releaseDirect (a : ReleaseArgs)
  | releaseDirectFixture
  | bindFollow (first count point : Nat)
  | bindFollowFixture
  | unbindFollow (first count : Nat)
  | unbindFollowFixture
  | queryClaims (fixture : Nat)
  | flushCache
  | querySolver
  | jobStart
  | jobCompletion
  | motionStep (fixture : Nat)
  | halt (first count : Nat)
  | haltFixture
  | queryMotion (fixture : Nat)
  | fadeStep (fixture : Nat)
  | queryColour (fixture : Nat)
  | storeCue (mark : Nat) (a : CueArgs)
  | storeCueFirst (a : CueArgs)
  | storeCueMore (a : CueArgs)
  | storeCueLast (a : CueArgs)
  | deleteCue (cue : Nat)
  | storePalette (a : PaletteArgs)
  | paletteUpdate
  | deletePalette (palette : Nat)
  | pack
  | packStep
  | abortPack
  | defineList (a : ListArgs)
  | go (list cue bar : Nat)
  | walkStep (list : Nat)
  | walkEnd (list : Nat)
  | launchReport (r : Report)
  | linkTimerExpiry (list : Nat)
  | listBarStart (list : Nat)
  | releaseList (list : Nat)
  | releaseListFixture
  | queryList (list : Nat)
  | queryMemory
  | beatRise
  | acceptedEdge
  | flywheelExpiry
  | setBeatSource (source filter : Nat)
  | setTempo (tempo : Nat)
  | setBar (beats : Nat)
  | queryClock
  | refreshExpiry (line : Nat)
  | frameEnd (line : Nat)
  | setLine (a : LineArgs)
  | queryLine (line first count : Nat)
  | beatPulseFall
deriving DecidableEq, Repr

end Sys2Proof
end

