-- ==== Sys2Proof/WellFormed.lean ====
section
/-! DEFINITION. What a command on the host link can carry: every operand fits the width that 11.8 gives its field, counts
are those the payload's length gives (11.9), and the rows of STORE_CUE stand for their part marks (R209). Rows that are
no host command's carry fixture, point and list numbers that the spec's tables have. -/

namespace Sys2Proof

def fits1 (n : Nat) : Bool := decide (n < 256)
def fits2 (n : Nat) : Bool := decide (n < 65536)
def fits4 (n : Nat) : Bool := decide (n < 4294967296)
def fitsS2 (i : Int) : Bool := decide (-32768 ≤ i) && decide (i < 32768)
def fitsS4 (i : Int) : Bool := decide (-2147483648 ≤ i) && decide (i < 2147483648)

def Pos.fits (p : Pos) : Bool := fitsS4 p.x && fitsS4 p.y && fitsS4 p.z

def RawEntry.fits (e : RawEntry) : Bool :=
  fits1 e.first && fits2 e.count && fits1 e.aim && fits1 e.law && fits1 e.units && fits1 e.point && fitsS4 e.pan &&
    fitsS2 e.tilt && fits2 e.panAmp && fits2 e.tiltAmp && fits1 e.legs && fits1 e.colour && fits4 e.moveTime &&
    fits4 e.legTime && fits4 e.fadeTime && fitsS2 e.hue && fits2 e.sat

def RawEmitter.fits (e : RawEmitter) : Bool := fits2 e.hue && fits2 e.gain && fits1 e.coarse && fits1 e.fine

def WheelPos.fits (w : WheelPos) : Bool := fits2 w.hue && fits2 w.sat && fits1 w.value

/-- The lists that a DEFINE_KIND payload of a colour model carries: as many emitters or wheel positions as its list count
says, and none for another model (11.8). -/
def RawKind.listsOk (k : RawKind) : Bool :=
  match k.model with
  | 1 => decide (k.emitters.length = k.listCount) && k.wheel.isEmpty
  | 2 => k.emitters.isEmpty && decide (k.wheel.length = k.listCount)
  | _ => k.emitters.isEmpty && k.wheel.isEmpty

/-- The bytes of a DEFINE_KIND payload's lists (11.8). -/
def RawKind.listBytes (k : RawKind) : Nat :=
  match k.model with
  | 1 => 6 * k.listCount
  | 2 => 5 * k.listCount
  | _ => 0

/-- The fixed fields of a DEFINE_KIND payload fit their widths. -/
def RawKind.fieldsFit (k : RawKind) : Bool :=
  fits1 k.kind && fitsS4 k.panMin && fitsS4 k.panMax && fitsS2 k.tiltMin && fitsS2 k.tiltMax && fits2 k.vmaxPan &&
    fits2 k.vmaxTilt && fits2 k.amaxPan && fits2 k.amaxTilt && fits2 k.gain && fits1 k.footprint && fits1 k.panCoarse &&
    fits1 k.panFine && fits1 k.tiltCoarse && fits1 k.tiltFine && fits1 k.model && fits1 k.listCount && fits1 k.wheelRole

/-- A DEFINE_KIND payload: its passthrough count fits a byte, and its length is at most 1,020 (R198). -/
def RawKind.fits (k : RawKind) : Bool :=
  k.fieldsFit && fits1 k.pass.length && k.listsOk && k.emitters.all (·.fits) && k.wheel.all (·.fits) &&
    k.pass.all fits1 && decide (32 + k.listBytes + k.pass.length ≤ 1020)

def PatchArgs.fits (a : PatchArgs) : Bool :=
  fits1 a.fixture && fits1 a.kind && fits1 a.line && fits2 a.base && fits1 a.truss && a.pos.fits && fits2 a.yaw &&
    fits1 a.body && fitsS4 a.homePan && fitsS2 a.homeTilt

def PoseArgs.fits (a : PoseArgs) : Bool :=
  fits1 a.fixture && a.pos.fits && fits2 a.yaw && fits1 a.mounting && fitsS4 a.homePan && fitsS2 a.homeTilt

def CopyArgs.fits (a : CopyArgs) : Bool :=
  fits1 a.src && fits1 a.dst && fits2 a.count && a.delta.fits && fitsS2 a.slotDelta

def TrackRec.fits (r : TrackRec) : Bool := fits1 r.tag && r.pos.fits

def ReleaseArgs.fits (a : ReleaseArgs) : Bool :=
  fits1 a.first && fits2 a.count && fits1 a.selector && fits1 a.unit && fits4 a.time

/-- One STORE_CUE frame carries at most 28 entries (11.8). -/
def CueArgs.fits (a : CueArgs) : Bool :=
  fits2 a.cue && fits1 a.link && fits4 a.time && decide (a.entries.length ≤ 28) && a.entries.all (·.fits)

def RawOverride.fits (o : RawOverride) : Bool :=
  fits1 o.kind && fits1 o.form && (if o.form = 1 then fits1 o.wheel && decide (o.hue = 0) && decide (o.sat = 0)
    else decide (o.wheel = 0) && fitsS2 o.hue && fits2 o.sat)

/-- A STORE_PALETTE payload's length is at most 1,020 (R198). -/
def PaletteArgs.fits (a : PaletteArgs) : Bool :=
  fits1 a.palette && fitsS2 a.hue && fits2 a.sat && fits2 a.fade && decide (a.overrides.length ≤ 168) &&
    a.overrides.all (·.fits)

def ListArgs.fits (a : ListArgs) : Bool :=
  fits1 a.list && fits2 a.first && fits2 a.last && fits1 a.wrap && fits4 a.fade

def LineArgs.fits (a : LineArgs) : Bool :=
  fits1 a.line && fits2 a.min && fits2 a.refresh && fits2 a.gap && fits1 a.sync

/-- A row of the table that a payload, an event or a block can bring about. -/
def Instr.wellFormed : Instr → Bool
  | .powerOn | .resetLow | .resetEnd | .receiveFrame _ | .interByteTimeout | .transmitEnd | .identify | .start
  | .standby | .restart | .readCounters | .clearCounters | .stopChange _ | .motionStopHigh | .motionStopLow
  | .colourStopHigh | .colourResume | .startReaim | .startMotion | .startLines | .standbyMotion | .standbyColour
  | .standbyLines | .unpatchFixture | .recordCopy | .trackPointMove | .directAimFixture | .directColourFixture
  | .releaseDirectFixture | .bindFollowFixture | .unbindFollowFixture | .flushCache | .querySolver | .jobStart
  | .jobCompletion | .haltFixture | .paletteUpdate | .pack | .packStep | .abortPack | .releaseListFixture
  | .queryMemory | .beatRise | .acceptedEdge | .flywheelExpiry | .queryClock | .beatPulseFall => true
  | .setNotice levels => decide (levels.length = 9) && levels.all fits1
  | .setCounter c e m => fits1 c && fits1 e && fits1 m
  | .playbackStopLow n | .standbyList n | .walkStep n | .walkEnd n | .linkTimerExpiry n | .listBarStart n =>
    decide (n < 8)
  | .defineKind k => k.fits
  | .dropKind k | .queryKind k => fits1 k
  | .patch a => a.fits
  | .unpatch first count | .halt first count | .unbindFollow first count => fits1 first && fits2 count
  | .setPose a => a.fits
  | .setTrim f ts => fits1 f && ts.all fits2 && decide (ts.length ≤ 509)
  | .setPassthrough f vs => fits1 f && vs.all fits1 && decide (vs.length ≤ 1019)
  | .setTruss t o => fits1 t && o.fits
  | .copyRig a => a.fits
  | .queryFixture f | .queryClaims f | .queryMotion f | .queryColour f => fits1 f
  | .setPoint p pos => fits1 p && pos.fits
  | .bindTag p t o => fits1 p && fits1 t && o.fits
  | .unbindTag p | .queryPoint p => fits1 p
  | .track rs => decide (rs.length ≤ 78) && rs.all (·.fits)
  | .staleTimerExpiry p => decide (p < 128)
  | .setStaleLimit ms => fits2 ms
  | .setPriority s p => fits1 s && fits1 p
  | .directAim e | .directColour e => e.fits
  | .releaseDirect a => a.fits
  | .bindFollow first count p => fits1 first && fits2 count && fits1 p
  | .motionStep f | .fadeStep f => decide (f < 256)
  | .storeCue mark a => fits1 mark && (decide (mark = 0) || decide (3 < mark)) && a.fits
  | .storeCueFirst a | .storeCueMore a | .storeCueLast a => a.fits
  | .deleteCue c => fits2 c
  | .storePalette a => a.fits
  | .deletePalette q => fits1 q
  | .defineList a => a.fits
  | .go l c b => fits1 l && fits2 c && fits1 b
  | .launchReport r => decide (r.tag.list < 8) && decide (r.tag.serial < 65536)
  | .releaseList l | .queryList l => fits1 l
  | .setBeatSource s f => fits1 s && fits1 f
  | .setTempo t => fits2 t
  | .setBar b => fits1 b
  | .refreshExpiry l | .frameEnd l => decide (l < 8)
  | .setLine a => a.fits
  | .queryLine l f c => fits1 l && fits2 f && fits2 c

end Sys2Proof
end

