-- ==== Sys2Proof/Decode.lean ====
section
/-! DEFINITION. The decoding of a command frame's kind and payload (R200, 11.8, 11.9), total on any bytes, and the payload
that carries a command. `decodeTableWord` is the host's question about the opcode table, whose rows have no bits. -/

namespace Sys2Proof

open Machine

/-- No row of the opcode table gives bits, so no word spells a command. -/
def decodeTableWord (_nbits _w : Nat) : Option Instr := none

/-- What the dispatcher's checks find (R200). -/
inductive Parsed where
  | unknownKind
  | badLength
  | command (c : Instr)
deriving DecidableEq, Repr

/-! ### Reading payloads (11.8) -/

/-- A cue entry of 35 bytes at the start of `p`. -/
def entryAt (p : List Byte) : RawEntry where
  first := u1 p 0
  count := u2 p 1
  aim := u1 p 3
  law := u1 p 4
  units := u1 p 5
  point := u1 p 6
  pan := s4 p 7
  tilt := s2 p 11
  panAmp := u2 p 13
  tiltAmp := u2 p 15
  legs := u1 p 17
  colour := u1 p 18
  moveTime := u4 p 19
  legTime := u4 p 23
  fadeTime := u4 p 27
  hue := s2 p 31
  sat := u2 p 33

def emitterAt (p : List Byte) : RawEmitter := ⟨u2 p 0, u2 p 2, u1 p 4, u1 p 5⟩

def wheelAt (p : List Byte) : WheelPos := ⟨u2 p 0, u2 p 2, u1 p 4⟩

/-- The bytes that the lists of a DEFINE_KIND payload take by its colour model and list count (11.8). -/
def kindListBytes (model count : Nat) : Nat :=
  match model with
  | 1 => 6 * count
  | 2 => 5 * count
  | _ => 0

/-- A DEFINE_KIND payload (11.8). -/
def kindAt (p : List Byte) : RawKind where
  kind := u1 p 0
  panMin := s4 p 1
  panMax := s4 p 5
  tiltMin := s2 p 9
  tiltMax := s2 p 11
  vmaxPan := u2 p 13
  vmaxTilt := u2 p 15
  amaxPan := u2 p 17
  amaxTilt := u2 p 19
  gain := u2 p 21
  footprint := u1 p 23
  panCoarse := u1 p 24
  panFine := u1 p 25
  tiltCoarse := u1 p 26
  tiltFine := u1 p 27
  model := u1 p 28
  listCount := u1 p 29
  wheelRole := u1 p 30
  emitters := if u1 p 28 = 1 then recordsAt 6 emitterAt (u1 p 29) (p.drop 32) else []
  wheel := if u1 p 28 = 2 then recordsAt 5 wheelAt (u1 p 29) (p.drop 32) else []
  pass := recordsAt 1 (fun q => u1 q 0) (u1 p 31) (p.drop (32 + kindListBytes (u1 p 28) (u1 p 29)))

def patchAt (p : List Byte) : PatchArgs where
  fixture := u1 p 0
  kind := u1 p 1
  line := u1 p 2
  base := u2 p 3
  truss := u1 p 5
  pos := posAt p 6
  yaw := u2 p 18
  body := u1 p 20
  homePan := s4 p 21
  homeTilt := s2 p 25

def poseAt (p : List Byte) : PoseArgs where
  fixture := u1 p 0
  pos := posAt p 1
  yaw := u2 p 13
  mounting := u1 p 15
  homePan := s4 p 16
  homeTilt := s2 p 20

def copyAt (p : List Byte) : CopyArgs where
  src := u1 p 0
  dst := u1 p 1
  count := u2 p 2
  delta := posAt p 4
  slotDelta := s2 p 16

def trackAt (p : List Byte) : TrackRec := ⟨u1 p 0, posAt p 1⟩

def releaseAt (p : List Byte) : ReleaseArgs := ⟨u1 p 0, u2 p 1, u1 p 3, u1 p 4, u4 p 5⟩

/-- A STORE_CUE payload, its part mark at offset 7 apart (11.8). -/
def cueAt (p : List Byte) : CueArgs := ⟨u2 p 0, u1 p 2, u4 p 3, recordsAt 35 entryAt (u1 p 8) (p.drop 9)⟩

/-- An override of a STORE_PALETTE payload: with form 1, offset 2 holds the wheel position and the rest is not read. -/
def overrideAt (p : List Byte) : RawOverride :=
  if u1 p 1 = 1 then ⟨u1 p 0, 1, 0, 0, u1 p 2⟩ else ⟨u1 p 0, u1 p 1, s2 p 2, u2 p 4, 0⟩

def paletteAt (p : List Byte) : PaletteArgs :=
  ⟨u1 p 0, s2 p 1, u2 p 3, u2 p 5, recordsAt 6 overrideAt (u1 p 7) (p.drop 8)⟩

def listAt (p : List Byte) : ListArgs := ⟨u1 p 0, u2 p 1, u2 p 3, u1 p 5, u4 p 6⟩

def lineAt (p : List Byte) : LineArgs := ⟨u1 p 0, u2 p 1, u2 p 3, u2 p 5, u1 p 7⟩

/-- The command of a payload of a fixed length (11.9), when the length is right. -/
def fixedLength (p : List Byte) (n : Nat) (c : Instr) : Parsed := if p.length = n then .command c else .badLength

/-- The length that a DEFINE_KIND payload's own counts require (11.8). -/
def kindLength (p : List Byte) : Nat := 32 + kindListBytes (u1 p 28) (u1 p 29) + u1 p 31

/-- DEFINE_KIND: its length follows from its counts, and a payload too short to hold them is too short (R200). -/
def parseKind (p : List Byte) : Parsed :=
  if 32 ≤ p.length ∧ p.length = kindLength p then .command (.defineKind (kindAt p)) else .badLength

/-- SET_TRIM: (length − 1) / 2 trims; a length of 0 or an even length is wrong (11.9). -/
def parseTrim (p : List Byte) : Parsed :=
  if p.length % 2 = 1 then
    .command (.setTrim (u1 p 0) (recordsAt 2 (fun q => u2 q 0) (p.length / 2) (p.drop 1)))
  else .badLength

/-- SET_PASSTHROUGH: length − 1 values; a length of 0 is wrong (11.9). -/
def parsePass (p : List Byte) : Parsed :=
  if p.length = 0 then .badLength
  else .command (.setPassthrough (u1 p 0) (recordsAt 1 (fun q => u1 q 0) (p.length - 1) (p.drop 1)))

/-- TRACK: 1 + 13 × count bytes (11.8). -/
def parseTrack (p : List Byte) : Parsed :=
  if 1 ≤ p.length ∧ p.length = 1 + 13 * u1 p 0 then .command (.track (recordsAt 13 trackAt (u1 p 0) (p.drop 1)))
  else .badLength

/-- The row of STORE_CUE that a part mark stands for (R209). -/
def cueRow (mark : Nat) (a : CueArgs) : Instr :=
  match mark with
  | 1 => .storeCueFirst a
  | 2 => .storeCueMore a
  | 3 => .storeCueLast a
  | _ => .storeCue mark a

/-- STORE_CUE: 9 + 35 × count bytes (11.8). -/
def parseCue (p : List Byte) : Parsed :=
  if 9 ≤ p.length ∧ p.length = 9 + 35 * u1 p 8 then .command (cueRow (u1 p 7) (cueAt p)) else .badLength

/-- STORE_PALETTE: 8 + 6 × count bytes (11.8). -/
def parsePalette (p : List Byte) : Parsed :=
  if 8 ≤ p.length ∧ p.length = 8 + 6 * u1 p 7 then .command (.storePalette (paletteAt p)) else .badLength

/-- The dispatcher's checks of a frame's kind and payload length, and the command it holds (R200, 11.9). -/
def parseCommand (kind : Nat) (p : List Byte) : Parsed :=
  match kind with
  | 0x01 => fixedLength p 0 .identify
  | 0x02 => fixedLength p 0 .start
  | 0x03 => fixedLength p 0 .standby
  | 0x04 => fixedLength p 0 .restart
  | 0x05 => fixedLength p 9 (.setNotice (recordsAt 1 (fun q => u1 q 0) 9 p))
  | 0x06 => fixedLength p 3 (.setCounter (u1 p 0) (u1 p 1) (u1 p 2))
  | 0x07 => fixedLength p 0 .readCounters
  | 0x08 => fixedLength p 0 .clearCounters
  | 0x10 => parseKind p
  | 0x11 => fixedLength p 1 (.dropKind (u1 p 0))
  | 0x12 => fixedLength p 1 (.queryKind (u1 p 0))
  | 0x13 => fixedLength p 27 (.patch (patchAt p))
  | 0x14 => fixedLength p 3 (.unpatch (u1 p 0) (u2 p 1))
  | 0x15 => fixedLength p 22 (.setPose (poseAt p))
  | 0x16 => parseTrim p
  | 0x17 => parsePass p
  | 0x18 => fixedLength p 13 (.setTruss (u1 p 0) (posAt p 1))
  | 0x19 => fixedLength p 18 (.copyRig (copyAt p))
  | 0x1A => fixedLength p 1 (.queryFixture (u1 p 0))
  | 0x20 => fixedLength p 13 (.setPoint (u1 p 0) (posAt p 1))
  | 0x21 => fixedLength p 14 (.bindTag (u1 p 0) (u1 p 1) (posAt p 2))
  | 0x22 => fixedLength p 1 (.unbindTag (u1 p 0))
  | 0x23 => parseTrack p
  | 0x24 => fixedLength p 2 (.setStaleLimit (u2 p 0))
  | 0x25 => fixedLength p 1 (.queryPoint (u1 p 0))
  | 0x28 => fixedLength p 0 .flushCache
  | 0x29 => fixedLength p 0 .querySolver
  | 0x30 => fixedLength p 3 (.halt (u1 p 0) (u2 p 1))
  | 0x31 => fixedLength p 1 (.queryMotion (u1 p 0))
  | 0x34 => fixedLength p 1 (.queryColour (u1 p 0))
  | 0x38 => fixedLength p 2 (.setPriority (u1 p 0) (u1 p 1))
  | 0x39 => fixedLength p 35 (.directAim (entryAt p))
  | 0x3A => fixedLength p 35 (.directColour (entryAt p))
  | 0x3B => fixedLength p 9 (.releaseDirect (releaseAt p))
  | 0x3C => fixedLength p 4 (.bindFollow (u1 p 0) (u2 p 1) (u1 p 3))
  | 0x3D => fixedLength p 3 (.unbindFollow (u1 p 0) (u2 p 1))
  | 0x3E => fixedLength p 1 (.queryClaims (u1 p 0))
  | 0x40 => parseCue p
  | 0x41 => fixedLength p 2 (.deleteCue (u2 p 0))
  | 0x42 => parsePalette p
  | 0x43 => fixedLength p 1 (.deletePalette (u1 p 0))
  | 0x44 => fixedLength p 0 .pack
  | 0x45 => fixedLength p 0 .abortPack
  | 0x46 => fixedLength p 10 (.defineList (listAt p))
  | 0x47 => fixedLength p 4 (.go (u1 p 0) (u2 p 1) (u1 p 3))
  | 0x48 => fixedLength p 1 (.releaseList (u1 p 0))
  | 0x49 => fixedLength p 1 (.queryList (u1 p 0))
  | 0x4A => fixedLength p 0 .queryMemory
  | 0x50 => fixedLength p 2 (.setBeatSource (u1 p 0) (u1 p 1))
  | 0x51 => fixedLength p 2 (.setTempo (u2 p 0))
  | 0x52 => fixedLength p 1 (.setBar (u1 p 0))
  | 0x53 => fixedLength p 0 .queryClock
  | 0x58 => fixedLength p 8 (.setLine (lineAt p))
  | 0x59 => fixedLength p 5 (.queryLine (u1 p 0) (u2 p 1) (u2 p 3))
  | _ => .unknownKind

/-! ### The payload that carries a command -/

def RawEntry.bytes (e : RawEntry) : List Byte :=
  le1 e.first ++ le2 e.count ++ le1 e.aim ++ le1 e.law ++ le1 e.units ++ le1 e.point ++ se4 e.pan ++ se2 e.tilt ++
    le2 e.panAmp ++ le2 e.tiltAmp ++ le1 e.legs ++ le1 e.colour ++ le4 e.moveTime ++ le4 e.legTime ++
    le4 e.fadeTime ++ se2 e.hue ++ le2 e.sat

def RawEmitter.bytes (e : RawEmitter) : List Byte := le2 e.hue ++ le2 e.gain ++ le1 e.coarse ++ le1 e.fine

def WheelPos.bytes (w : WheelPos) : List Byte := le2 w.hue ++ le2 w.sat ++ le1 w.value

/-- The fixed part of 32 bytes of a DEFINE_KIND payload (11.8). -/
def RawKind.header (k : RawKind) : List Byte :=
  le1 k.kind ++ se4 k.panMin ++ se4 k.panMax ++ se2 k.tiltMin ++ se2 k.tiltMax ++ le2 k.vmaxPan ++ le2 k.vmaxTilt ++
    le2 k.amaxPan ++ le2 k.amaxTilt ++ le2 k.gain ++ le1 k.footprint ++ le1 k.panCoarse ++ le1 k.panFine ++
    le1 k.tiltCoarse ++ le1 k.tiltFine ++ le1 k.model ++ le1 k.listCount ++ le1 k.wheelRole ++ le1 k.pass.length

def RawKind.bytes (k : RawKind) : List Byte :=
  k.header ++ k.emitters.flatMap RawEmitter.bytes ++ k.wheel.flatMap WheelPos.bytes ++ k.pass.flatMap le1

def PatchArgs.bytes (a : PatchArgs) : List Byte :=
  le1 a.fixture ++ le1 a.kind ++ le1 a.line ++ le2 a.base ++ le1 a.truss ++ posBytes a.pos ++ le2 a.yaw ++
    le1 a.body ++ se4 a.homePan ++ se2 a.homeTilt

def PoseArgs.bytes (a : PoseArgs) : List Byte :=
  le1 a.fixture ++ posBytes a.pos ++ le2 a.yaw ++ le1 a.mounting ++ se4 a.homePan ++ se2 a.homeTilt

def CopyArgs.bytes (a : CopyArgs) : List Byte :=
  le1 a.src ++ le1 a.dst ++ le2 a.count ++ posBytes a.delta ++ se2 a.slotDelta

def TrackRec.bytes (r : TrackRec) : List Byte := le1 r.tag ++ posBytes r.pos

def ReleaseArgs.bytes (a : ReleaseArgs) : List Byte :=
  le1 a.first ++ le2 a.count ++ le1 a.selector ++ le1 a.unit ++ le4 a.time

def CueArgs.bytes (mark : Nat) (a : CueArgs) : List Byte :=
  le2 a.cue ++ le1 a.link ++ le4 a.time ++ le1 mark ++ le1 a.entries.length ++ a.entries.flatMap RawEntry.bytes

def RawOverride.bytes (o : RawOverride) : List Byte :=
  if o.form = 1 then le1 o.kind ++ le1 1 ++ le1 o.wheel ++ zeroBytes 3
  else le1 o.kind ++ le1 o.form ++ se2 o.hue ++ le2 o.sat

def PaletteArgs.bytes (a : PaletteArgs) : List Byte :=
  le1 a.palette ++ se2 a.hue ++ le2 a.sat ++ le2 a.fade ++ le1 a.overrides.length ++
    a.overrides.flatMap RawOverride.bytes

def ListArgs.bytes (a : ListArgs) : List Byte :=
  le1 a.list ++ le2 a.first ++ le2 a.last ++ le1 a.wrap ++ le4 a.fade

def LineArgs.bytes (a : LineArgs) : List Byte :=
  le1 a.line ++ le2 a.min ++ le2 a.refresh ++ le2 a.gap ++ le1 a.sync

/-- The kind and payload of the frame that carries a command (11.8, 11.9); `none` for a row that no frame carries. -/
def encodeCommand : Instr → Option (Nat × List Byte)
  | .identify => some (0x01, [])
  | .start => some (0x02, [])
  | .standby => some (0x03, [])
  | .restart => some (0x04, [])
  | .setNotice levels => some (0x05, levels.flatMap le1)
  | .setCounter c e m => some (0x06, le1 c ++ le1 e ++ le1 m)
  | .readCounters => some (0x07, [])
  | .clearCounters => some (0x08, [])
  | .defineKind k => some (0x10, k.bytes)
  | .dropKind k => some (0x11, le1 k)
  | .queryKind k => some (0x12, le1 k)
  | .patch a => some (0x13, a.bytes)
  | .unpatch first count => some (0x14, le1 first ++ le2 count)
  | .setPose a => some (0x15, a.bytes)
  | .setTrim f ts => some (0x16, le1 f ++ ts.flatMap le2)
  | .setPassthrough f vs => some (0x17, le1 f ++ vs.flatMap le1)
  | .setTruss t o => some (0x18, le1 t ++ posBytes o)
  | .copyRig a => some (0x19, a.bytes)
  | .queryFixture f => some (0x1A, le1 f)
  | .setPoint p pos => some (0x20, le1 p ++ posBytes pos)
  | .bindTag p t o => some (0x21, le1 p ++ le1 t ++ posBytes o)
  | .unbindTag p => some (0x22, le1 p)
  | .track rs => some (0x23, le1 rs.length ++ rs.flatMap TrackRec.bytes)
  | .setStaleLimit ms => some (0x24, le2 ms)
  | .queryPoint p => some (0x25, le1 p)
  | .flushCache => some (0x28, [])
  | .querySolver => some (0x29, [])
  | .halt first count => some (0x30, le1 first ++ le2 count)
  | .queryMotion f => some (0x31, le1 f)
  | .queryColour f => some (0x34, le1 f)
  | .setPriority s p => some (0x38, le1 s ++ le1 p)
  | .directAim e => some (0x39, e.bytes)
  | .directColour e => some (0x3A, e.bytes)
  | .releaseDirect a => some (0x3B, a.bytes)
  | .bindFollow first count p => some (0x3C, le1 first ++ le2 count ++ le1 p)
  | .unbindFollow first count => some (0x3D, le1 first ++ le2 count)
  | .queryClaims f => some (0x3E, le1 f)
  | .storeCue mark a => some (0x40, a.bytes mark)
  | .storeCueFirst a => some (0x40, a.bytes 1)
  | .storeCueMore a => some (0x40, a.bytes 2)
  | .storeCueLast a => some (0x40, a.bytes 3)
  | .deleteCue c => some (0x41, le2 c)
  | .storePalette a => some (0x42, a.bytes)
  | .deletePalette q => some (0x43, le1 q)
  | .pack => some (0x44, [])
  | .abortPack => some (0x45, [])
  | .defineList a => some (0x46, a.bytes)
  | .go l c b => some (0x47, le1 l ++ le2 c ++ le1 b)
  | .releaseList l => some (0x48, le1 l)
  | .queryList l => some (0x49, le1 l)
  | .queryMemory => some (0x4A, [])
  | .setBeatSource s f => some (0x50, le1 s ++ le1 f)
  | .setTempo t => some (0x51, le2 t)
  | .setBar b => some (0x52, le1 b)
  | .queryClock => some (0x53, [])
  | .setLine a => some (0x58, a.bytes)
  | .queryLine l f c => some (0x59, le1 l ++ le2 f ++ le2 c)
  | .powerOn | .resetLow | .resetEnd | .receiveFrame _ | .interByteTimeout | .transmitEnd | .stopChange _
  | .motionStopHigh | .motionStopLow | .colourStopHigh | .colourResume | .playbackStopLow _ | .startReaim | .startMotion
  | .startLines | .standbyMotion | .standbyColour | .standbyList _ | .standbyLines | .unpatchFixture | .recordCopy
  | .trackPointMove | .staleTimerExpiry _ | .directAimFixture | .directColourFixture | .releaseDirectFixture
  | .bindFollowFixture | .unbindFollowFixture | .jobStart | .jobCompletion | .motionStep _ | .haltFixture | .fadeStep _
  | .paletteUpdate | .packStep | .walkStep _ | .walkEnd _ | .launchReport _ | .linkTimerExpiry _ | .listBarStart _
  | .releaseListFixture | .beatRise | .acceptedEdge | .flywheelExpiry | .refreshExpiry _ | .frameEnd _ | .beatPulseFall =>
    none

end Sys2Proof
end

