-- ==== Sys2Proof/Machine/Arith.lean ====
section
/-! DEFINITION. The integer arithmetic of the opening file (Rounding and integer arithmetic), and the trigonometric values
that enter the aim computation through stated rounded integers (R58, R62, R63). -/

namespace Sys2Proof.Machine

/-- Round half up of `a / b`: the greatest integer not exceeding `a/b + 1/2`, for signed `a` too. -/
def roundHalfUp (a : Int) (b : Nat) : Int := (2 * a + b) / (2 * b)

/-- Round half up of a quotient of non-negative integers. -/
def roundHalfUpNat (a b : Nat) : Nat := (a + b / 2) / b

/-- The least integer not below `a / b`. -/
def ceilDiv (a b : Nat) : Nat := (a + (b - 1)) / b

/-- `x` set to the nearer limit when it lies outside `lo` to `hi`. -/
def clampInt (lo hi x : Int) : Int := if x < lo then lo else if hi < x then hi else x

/-- One bit of the floor square root: `r` is the root found so far, bits `b - 1` downward are still to be tried. -/
def isqrtBits (n : Nat) : Nat → Nat → Nat
  | 0, r => r
  | b + 1, r => if (r + 2 ^ b) * (r + 2 ^ b) ≤ n then isqrtBits n b (r + 2 ^ b) else isqrtBits n b r

/-- The floor square root of `n` (opening file). -/
def isqrt (n : Nat) : Nat := isqrtBits n (Nat.log2 n / 2 + 1) 0

/-- The least whole number whose square is at least `n`. -/
def ceilSqrt (n : Nat) : Nat := if n = 0 then 0 else isqrt (n - 1) + 1

/-- The number of fraction bits the trigonometric values are worked out with. -/
def trigBits : Nat := 200

/-- π with `trigBits` fraction bits, truncated. -/
def scaledPi : Nat := 5048344754617993871973410141242436836214643421488662971535368

/-- `t - t·x²/((i+1)(i+2)) + …`, the alternating series of sine and cosine from the term `t` of degree `i`, with `x2` the
square of the angle; `trigBits` fraction bits throughout. -/
def trigSeries (x2 : Nat) : Nat → Nat → Nat → Nat
  | 0, _, _ => 0
  | fuel + 1, t, i => t - trigSeries x2 fuel (t * x2 / 2 ^ trigBits / ((i + 1) * (i + 2))) (i + 2)

/-- The angle of `num / den` centidegrees in radians, with `trigBits` fraction bits. -/
def scaledAngle (num den : Nat) : Nat := num * scaledPi / (den * 18000)

/-- Sine of `num / den` centidegrees, for 0° to 90°. -/
def scaledSin (num den : Nat) : Nat :=
  trigSeries (scaledAngle num den * scaledAngle num den / 2 ^ trigBits) 32 (scaledAngle num den) 1

/-- Cosine of `num / den` centidegrees, for 0° to 90°. -/
def scaledCos (num den : Nat) : Nat :=
  trigSeries (scaledAngle num den * scaledAngle num den / 2 ^ trigBits) 32 (2 ^ trigBits) 0

/-- 16,384 times a value with `trigBits` fraction bits, rounded half up. -/
def toQ14 (x : Nat) : Int := ((16384 * x + 2 ^ (trigBits - 1)) / 2 ^ trigBits : Nat)

/-- The rotation coefficients `(c, s)` of a yaw in centidegrees (R58). -/
def yawCoefficients (yaw : Nat) : Int × Int :=
  let c := toQ14 (scaledCos (yaw % 9000) 1)
  let s := toQ14 (scaledSin (yaw % 9000) 1)
  match yaw / 9000 with
  | 0 => (c, s)
  | 1 => (-s, c)
  | 2 => (-c, -s)
  | _ => (s, -c)

/-- Whether the angle of the first quadrant whose tangent squared is `opp2 / adj2` lies above `n + 1/2` centidegrees. -/
def angleAbove (opp2 adj2 n : Nat) : Bool :=
  decide (adj2 * (scaledSin (2 * n + 1) 2 * scaledSin (2 * n + 1) 2) <
    opp2 * (scaledCos (2 * n + 1) 2 * scaledCos (2 * n + 1) 2))

/-- The least `n` of `lo` to `hi` with `p n` false, for a `p` that is true up to some number and false from there on. -/
def leastFalse (p : Nat → Bool) : Nat → Nat → Nat → Nat
  | 0, lo, _ => lo
  | fuel + 1, lo, hi =>
    if lo < hi then
      if p ((lo + hi) / 2) then leastFalse p fuel ((lo + hi) / 2 + 1) hi
      else leastFalse p fuel lo ((lo + hi) / 2)
    else lo

/-- The angle of the first quadrant whose tangent squared is `opp2 / adj2`, in whole centidegrees, 0 to 9,000, rounded to
the nearest: the number of half-way marks that it passes. No angle met here lies on a mark (log entry 8). -/
def quadrantAngle (opp2 adj2 : Nat) : Nat := leastFalse (angleAbove opp2 adj2) 14 0 9000

/-- The pan angle of `u, v` not both 0 (R62): `atan2(v, u)` in centidegrees, 0 to 35,999. -/
def panAngle (u v : Int) : Nat :=
  let q := quadrantAngle (v.natAbs ^ 2) (u.natAbs ^ 2)
  if 0 ≤ v then (if 0 ≤ u then q else 18000 - q)
  else if 0 ≤ u then (36000 - q) % 36000
  else 18000 + q

/-- The tilt angle of `u, v, w` not all 0 (R63): `atan2(√(u² + v²), w)` in centidegrees, 0 to 18,000. -/
def tiltAngle (u v w : Int) : Nat :=
  let q := quadrantAngle (u.natAbs ^ 2 + v.natAbs ^ 2) (w.natAbs ^ 2)
  if 0 ≤ w then q else 18000 - q

end Sys2Proof.Machine
end

