-- ==== Sys2Proof/Config.lean ====
section
/-! DEFINITION. The capacities the spec fixes (R208) and the free values: constants without a body that stand for what
the spec leaves open, so that no proof can see their value. -/

namespace Sys2Proof.Config

/-- The capacities of the part, in the order of R208. -/
def capacities : List Nat := [32, 256, 16, 128, 64, 8, 8192, 512, 64, 8, 32, 32, 8]

/-- The silicon revision of the identity block (R208, 11.8): the spec names the field and no value (log entry 3). -/
opaque siliconRevision : Byte

/-- The four bytes of a reply field for a stored time of 2^32 ms or more: a quarter-beat time may convert to such a
value (R45), and 11.8 gives a time field four bytes (log entry 4). -/
opaque wideTime : Nat → BitVec 32

/-- The "count at the walk's end" of a CUE_STEP notice with outcome DROPPED, for which no walk took place (R169).
It is applied to the state's counter `freeUses` (log entry 5). -/
opaque droppedCount : Nat → BitVec 32

end Sys2Proof.Config
end

