-- ==== Sys2Proof/Machine/State.lean ====
section
/-! DEFINITION. The state of the part as plain data, block by block in the order of the spec's block diagram, and its
value right after a reset. Fields marked MODEL are the model's own; every other field is named by the spec. -/

namespace Sys2Proof.Machine

/-- No rule of the spec stops the part, so there is no fault: the type has no constructor, which is safe. -/
inductive Fault where
deriving DecidableEq, Repr

/-- The reasons a step has no meaning. -/
inductive Refusal where
  /-- Raised by `exec` for a row that has no meaning yet (none is left); safe. -/
  | notModelled (mnemonic : String)
deriving DecidableEq, Repr

/-! ### Shared names -/

/-- The part state (R205). -/
inductive PartState where
  | standby | live
deriving DecidableEq, Repr

/-- What a reset under way came from (R207). -/
inductive ResetCause where
  | powerOn | pin | restart
deriving DecidableEq, Repr

/-- The four request classes (5.1), in the order of the class mask. -/
inductive Cls where
  | cue | direct | track | rig
deriving DecidableEq, Repr

/-- The laws of an AIM target (3.5). -/
inductive Law where
  | timed | chase
deriving DecidableEq, Repr

/-- The two attributes a claim governs (opening file, Terms). -/
inductive Attribute where
  | aim | colour
deriving DecidableEq, Repr

/-- The centre of a SWEEP (3.5). -/
inductive Centre where
  | point (p : Nat)
  | angles (pan tilt : Int)
deriving DecidableEq, Repr

/-- An AIM target spec other than NONE, times converted to milliseconds (3.5, R45). -/
inductive AimTarget where
  | point (p : Nat)
  | angles (pan tilt : Int)
  | sweep (centre : Centre) (panAmp tiltAmp legMs legs : Nat)
deriving DecidableEq, Repr

/-- A COLOUR target spec other than NONE (3.5). -/
inductive ColourTarget where
  | hueSat (hue : Int) (sat : Nat)
  | palette (q : Nat)
  | wheelSlot (i : Nat)
deriving DecidableEq, Repr

/-- The activity events (11.9), in the order of their codes 1 to 13. -/
inductive Activity where
  | jobShared | jobReserved | jobRejected | cacheHit | cacheMiss | resultDiscarded | queueOccupancy
  | limitClamp | gamutClamp | retarget | trackSkipped | lineFrames | linkError
deriving DecidableEq, Repr

/-! ### Rig Table (chapter 1) -/

/-- An emitter of a stored kind; hue `none` is WHITE (1.1). -/
structure Emitter where
  hue : Option Nat
  gain : Nat
  coarse : Nat
  fine : Option Nat
deriving DecidableEq, Repr

/-- The colour model of a kind with its list (1.1). -/
inductive ColourModel where
  | none
  | emitter (list : List Emitter)
  | wheel (list : List WheelPos) (role : Nat)
deriving DecidableEq, Repr

/-- The fields of a DEFINED kind profile (1.1). -/
structure Profile where
  panMin : Int
  panMax : Int
  tiltMin : Int
  tiltMax : Int
  vmaxPan : Nat
  vmaxTilt : Nat
  amaxPan : Nat
  amaxTilt : Nat
  gain : Nat
  footprint : Nat
  panCoarse : Nat
  panFine : Option Nat
  tiltCoarse : Nat
  tiltFine : Option Nat
  model : ColourModel
  pass : List Nat
deriving DecidableEq, Repr

/-- The mounting of a fixture body (1.2). -/
inductive Mounting where
  | hung | standing
deriving DecidableEq, Repr

/-- The fields of a PATCHED fixture record, the pose generation apart (1.2). -/
structure Patch where
  kind : Nat
  line : Nat
  base : Nat
  truss : Nat
  pos : Pos
  yaw : Nat
  mounting : Mounting
  panInvert : Bool
  tiltInvert : Bool
  homePan : Int
  homeTilt : Int
  trims : List Nat
  pass : List Nat
deriving DecidableEq, Repr

/-- A fixture record: UNPATCHED when `patch` is `none`; the pose generation is kept either way (1.2, R5). -/
structure Fixture where
  patch : Option Patch
  gen : Nat
deriving DecidableEq, Repr

/-- An UNPATCHED record with pose generation 0 (R19). -/
def Fixture.free : Fixture := ⟨none, 0⟩

/-- The Rig Table: 32 kinds (`none` is UNDEFINED), 256 fixtures, 16 truss offsets. -/
structure Rig where
  kinds : Store (Option Profile)
  fixtures : Store Fixture
  trusses : Store Pos
deriving DecidableEq, Repr

/-! ### Point Table (chapter 2) -/

/-- A tag binding: the tag and the offset held with it (2.1). -/
structure Binding where
  tag : Nat
  offset : Pos
deriving DecidableEq, Repr

/-- A focus point record (2.1): UNSET when `pos` is `none`; the stale timer is the time (µs) at which it expires, or
`none` when stopped. -/
structure Point where
  pos : Option Pos
  binding : Option Binding
  gen : Nat
  stale : Bool
  timer : Option Nat
deriving DecidableEq, Repr

/-- An UNSET, unbound point (R35). -/
def Point.unset : Point := ⟨none, none, 0, false, none⟩

/-- The Point Table: 128 points and the stale limit in ms. -/
structure Points where
  points : Store Point
  staleLimit : Nat
deriving DecidableEq, Repr

/-! ### Claim Table (chapter 3) -/

/-- What an AIM entry asks for (3.2). -/
structure AimClaim where
  target : AimTarget
  law : Law
  ms : Nat
deriving DecidableEq, Repr

/-- What a COLOUR entry asks for (3.2). -/
structure ColourClaim where
  target : ColourTarget
  ms : Nat
deriving DecidableEq, Repr

/-- An entry of a claim stack (3.2); sources are numbered 0 to 7 LIST0 to LIST7, 8 FOLLOW, 9 DIRECT (3.1). -/
structure Entry (α : Type) where
  source : Nat
  prio : Nat
  body : α
  tag : Option LaunchTag
  owed : Bool
deriving DecidableEq, Repr

/-- The Claim Table: ten source priorities and, for each fixture, its stacks, top entry first. -/
structure Claims where
  prio : List Nat
  aim : Store (List (Entry AimClaim))
  colour : Store (List (Entry ColourClaim))
deriving DecidableEq, Repr

/-! ### Solve Queue and Solve Cache (chapters 4 and 5) -/

/-- A pool of job slots (5.3). -/
inductive Pool where
  | shared
  | reserve (c : Cls)
deriving DecidableEq, Repr

/-- A job (5.3). -/
structure Job where
  fixture : Nat
  point : Nat
  cls : Cls
  pool : Pool
deriving DecidableEq, Repr

/-- The geometry taken at a job's start (R56). -/
structure Snapshot where
  target : Pos
  pos : Pos
  yaw : Nat
  mounting : Mounting
  truss : Pos
  pointGen : Nat
  poseGen : Nat
deriving DecidableEq, Repr

/-- The result of a solve (R64). -/
structure SolveResult where
  phi : Nat
  theta : Nat
  degenerate : Bool
  axial : Bool
deriving DecidableEq, Repr

/-- The Solve Queue: the QUEUED jobs in order of arrival, the SOLVING job of the lane with its snapshot, and the owed
set (a class for each marked fixture). A slot is in use exactly when a job holds it. -/
structure Solver where
  queued : List Job
  solving : Option (Job × Snapshot)
  owed : Store (Option Cls)
deriving DecidableEq, Repr

/-- An entry of the Solve Cache (5.2). -/
structure CacheEntry where
  valid : Bool
  fixture : Nat
  point : Nat
  result : SolveResult
deriving DecidableEq, Repr

/-- An invalid entry, as reset leaves it (R95). -/
def CacheEntry.empty : CacheEntry := ⟨false, 0, 0, ⟨0, 0, false, false⟩⟩

/-- The Solve Cache: 32 entries and the replacement pointer. -/
structure Cache where
  entries : Store CacheEntry
  pointer : Nat
deriving DecidableEq, Repr

/-! ### Motion Engine (chapter 6) -/

/-- The states of a motion record (6.1). -/
inductive MotionMode where
  | held | timed | chase | sweep | braking
deriving DecidableEq, Repr

/-- Why a record brakes (6.1). -/
inductive BrakeCause where
  | halt | stop | release
deriving DecidableEq, Repr

/-- A timed plan (R105). -/
structure Plan where
  startPan : Int
  startTilt : Int
  dPan : Int
  dTilt : Int
  n : Nat
  k : Nat
deriving DecidableEq, Repr

/-- The phases of a sweep (6.1). -/
inductive SweepPhase where
  | toA | leg | toCentre | done
deriving DecidableEq, Repr

/-- A sweep record (6.1). `endless`, `nextToB` (the next leg runs to B) and `current` (the record belongs to the aim as
last handed over) are state that R110 and R112 imply. -/
structure Sweep where
  centrePan : Int
  centreTilt : Int
  aPan : Int
  aTilt : Int
  bPan : Int
  bTilt : Int
  panAmp : Nat
  tiltAmp : Nat
  legMs : Nat
  legsLeft : Nat
  endless : Bool
  nextToB : Bool
  phase : SweepPhase
  current : Bool
deriving DecidableEq, Repr

/-- A motion record (6.1). -/
structure Motion where
  mode : MotionMode
  pan : Int
  tilt : Int
  vPan : Int
  vTilt : Int
  aim : Option AimTarget
  tgtPan : Int
  tgtTilt : Int
  plan : Option Plan
  sweep : Option Sweep
  awaiting : Bool
  pendLaw : Law
  pendMs : Nat
  tag : Option LaunchTag
  brake : Option BrakeCause
  limited : Bool
  clamped : Bool
deriving DecidableEq, Repr

/-- The Motion Engine: a record for each PATCHED fixture, the step timer (the time in µs of its next expiry, `none` when
stopped), the level of STOP as the engine has taken it (R206), and (MODEL) the fixtures whose step of the last expiry is
still to be taken (R97). -/
structure MotionEngine where
  records : Store (Option Motion)
  timer : Option Nat
  stopSeen : Bool
  due : List Nat
deriving DecidableEq, Repr

/-! ### Colour Engine (chapter 7) -/

/-- A fade in progress (7.1). -/
structure Fade where
  start : List Nat
  target : List Nat
  steps : Nat
  k : Nat
deriving DecidableEq, Repr

/-- A colour record (7.1): FADING when `fade` is present. `outputs` holds one output for each emitter, or the wheel
value alone, or nothing, by the kind's model. -/
structure Colour where
  target : Option ColourTarget
  outputs : List Nat
  fade : Option Fade
  origin : Option Nat
  tag : Option LaunchTag
  gamut : Bool
deriving DecidableEq, Repr

/-- The Colour Engine, with its fade timer as `MotionEngine` holds the step timer (R123). -/
structure ColourEngine where
  records : Store (Option Colour)
  timer : Option Nat
  stopSeen : Bool
  due : List Nat
deriving DecidableEq, Repr

/-! ### Cue Memory and Playback Unit (chapter 8) -/

/-- The link kinds (R146), in the order of their codes. -/
inductive LinkKind where
  | manual | onDone | after | doneOrAfter | nextBar
deriving DecidableEq, Repr

/-- What a palette override gives (8.1). -/
inductive OverrideValue where
  | hueSat (hue : Int) (sat : Nat)
  | wheel (i : Nat)
deriving DecidableEq, Repr

/-- What one storage slot of Cue Memory holds (8.1). A cue entry is kept as given: its times are converted when a launch
claims it (R161). -/
inductive CueSlot where
  | cueHeader (cue entries : Nat) (link : LinkKind) (linkMs : Nat)
  | cueEntry (e : RawEntry)
  | paletteHeader (q : Nat) (hue : Int) (sat fade overrides : Nat)
  | override (kind : Nat) (value : OverrideValue)
deriving DecidableEq, Repr

/-- A directory entry (8.1). -/
structure DirEntry where
  number : Nat
  start : Nat
  length : Nat
deriving DecidableEq, Repr

/-- The packer's phase (8.2). -/
inductive PackPhase where
  | idle | cues | palettes
deriving DecidableEq, Repr

/-- The pack state (8.2). -/
structure PackState where
  phase : PackPhase
  taken : Nat
  total : Nat
  moved : Nat
deriving DecidableEq, Repr

/-- The staging record of a multi-frame cue (R209). -/
structure Staging where
  cue : Nat
  link : LinkKind
  linkMs : Nat
  entries : List RawEntry
deriving DecidableEq, Repr

/-- Cue Memory: 8,192 slots (`none` where no run stands), the two directories, the pack state, the staging record. -/
structure CueMemory where
  slots : Store (Option CueSlot)
  cues : List DirEntry
  palettes : List DirEntry
  pack : PackState
  staging : Option Staging
deriving DecidableEq, Repr

/-- The states of a cue list (8.3). -/
inductive ListMode where
  | released | armed | launching | running | settled
deriving DecidableEq, Repr

/-- The causes of a launch (R160). -/
inductive LaunchCause where
  | host | bar | done | time
deriving DecidableEq, Repr

/-- A link timer: running to a time in µs, or held with µs left while STOP is high (R164, R166). -/
inductive LinkTimer where
  | running (expiry : Nat)
  | held (left : Nat)
deriving DecidableEq, Repr

/-- A launch record, live or retired (8.3). The walk position counts the claims and passed-over fixtures behind the
walk in the cue's order (R161). `spent` says that the record's link makes no automatic GO any more: the list has entered
ARMED (R159), or an automatic GO has found no next cue (R164). -/
structure Launch where
  live : Bool
  cue : Nat
  serial : Nat
  count : Nat
  cause : LaunchCause
  link : LinkKind
  linkMs : Nat
  timer : Option LinkTimer
  wait : Bool
  due : Bool
  walk : Nat
  walkDone : Bool
  endCount : Nat
  spent : Bool
deriving DecidableEq, Repr

/-- A held GO: its cue number (`none` is NEXT) and BAR flag (8.3). -/
structure HeldGo where
  cue : Option Nat
  bar : Bool
deriving DecidableEq, Repr

/-- A cue list record (8.3). `paused` says STOP holds the list's walk until the list resumes (R166); `barsDue` counts
the bar starts handed to the list and not yet taken (R182), and `lowsDue` the changes of STOP to low given to it and not
yet taken (R166, R206). -/
structure CueList where
  first : Nat
  last : Nat
  wrap : Bool
  fade : Nat
  mode : ListMode
  current : Option Nat
  pendingGo : Option HeldGo
  armedGo : Option (Option Nat)
  serial : Nat
  launch : Option Launch
  paused : Bool
  barsDue : Nat
  lowsDue : Nat
deriving DecidableEq, Repr

/-- A list as reset leaves it (R172). -/
def CueList.fresh : CueList :=
  ⟨1, 9999, false, 0, .released, none, none, none, 0, none, false, 0, 0⟩

/-- The Playback Unit: eight lists, and the reports sent to it and not yet taken (R162). -/
structure Playback where
  lists : Store CueList
  reports : List Report
deriving DecidableEq, Repr

/-! ### Beat Clock (chapter 9) -/

inductive BeatSource where
  | external | manual
deriving DecidableEq, Repr

/-- The clock states (R179). -/
inductive ClockState where
  | locked | freewheel | manual
deriving DecidableEq, Repr

/-- The causes of a change of clock state (R179). -/
inductive ClockCause where
  | edge | lost | source
deriving DecidableEq, Repr

/-- A BEAT pulse under timing (R173): the time at which it is accepted, and whether the filter times it. -/
structure Pulse where
  accepts : Nat
  filtered : Bool
deriving DecidableEq, Repr

/-- The Beat Clock (9.1). Times are in µs; intervals and periods in 0.1 ms; `flywheel` is the time of the next expiry
(`none` only while a reset is under way) and `loaded` the period it was loaded with. -/
structure Beat where
  source : BeatSource
  filter : Bool
  clock : ClockState
  lastEdge : Option Nat
  ring : List Nat
  period : Nat
  tempo : Nat
  flywheel : Option Nat
  loaded : Nat
  lastBeat : Nat
  lone : Nat
  beatsPerBar : Nat
  beatsToBar : Nat
  bar : Nat
  pulse : Option Pulse
deriving DecidableEq, Repr

/-! ### Line Driver (chapter 10) -/

/-- Settings of a line (10.1). -/
structure LineSettings where
  min : Nat
  refresh : Nat
  gap : Nat
deriving DecidableEq, Repr

/-- A frame in progress: its snapshot, its slot count, its slot gap and the time in µs at which it ends (10.3). -/
structure LineFrame where
  snapshot : Store Byte
  count : Nat
  gap : Nat
  ends : Nat
deriving DecidableEq, Repr

/-- A line record (10.1). -/
structure Line where
  inForce : LineSettings
  waiting : Option LineSettings
  run : Bool
  sync : Bool
  buffer : Store Byte
  highest : Nat
  frame : Option LineFrame
  due : Bool
  timer : Option Nat
deriving DecidableEq, Repr

/-- A line as reset leaves it (R197). -/
def Line.fresh : Line := ⟨⟨512, 25, 0⟩, none, false, false, [], 0, none, false, none⟩

/-- The Line Driver: eight lines and the level of the SYNC output. -/
structure Lines where
  lines : Store Line
  sync : Bool
deriving DecidableEq, Repr

/-! ### Host Link (chapter 11) -/

/-- A frame on the link, the sync byte and length left out (11.8). -/
structure LinkFrame where
  kind : Nat
  tag : Nat
  payload : List Byte
deriving DecidableEq, Repr

/-- The receiver (R198): hunting, or in a frame with the bytes after the sync byte and the time of the last byte. -/
inductive Receiver where
  | hunting
  | inFrame (got : List Byte) (lastAt : Nat)
deriving DecidableEq, Repr

/-- The counts a claim command gathers (R47). -/
structure ClaimCounts where
  active : Nat
  below : Nat
  notPlaced : Nat
  skipped : Nat
  owed : Nat
deriving DecidableEq, Repr

/-- The counts a release command gathers (R49, R51). -/
structure ReleaseCounts where
  released : Nat
  nothing : Nat
  skipped : Nat
deriving DecidableEq, Repr

/-- The counts HALT gathers (R114). -/
structure HaltCounts where
  braking : Nat
  held : Nat
  skipped : Nat
deriving DecidableEq, Repr

/-- A command whose work takes several events, with what is still to be done (R200). -/
inductive Work where
  | unpatch (todo : List Nat) (done skipped : Nat)
  | copyRig (todo : List (Nat × Nat)) (delta : Pos) (slotDelta : Int) (copied : Nat)
  | track (moves : List (Nat × Pos)) (records applied ignored skipped moved : Nat)
  | directAim (todo : List Nat) (claim : AimClaim) (c : ClaimCounts)
  | directColour (todo : List Nat) (claim : ColourClaim) (c : ClaimCounts)
  | releaseDirect (todo : List Nat) (aim colour : Bool) (ms : Nat) (c : ReleaseCounts)
  | bindFollow (todo : List Nat) (point : Nat) (c : ClaimCounts)
  | unbindFollow (todo : List Nat) (c : ReleaseCounts)
  | halt (todo : List Nat) (c : HaltCounts)
  | storePalette (todo : List Nat) (palette start count : Nat)
  | releaseList (todo : List Nat) (list fade released : Nat)
  | start (reaim motion colour lines : Bool)
  | standby (motion colour lines : Bool) (lists : List Nat)
deriving DecidableEq, Repr

/-- Where a held command stands: handed to its owner, under way, or answered with its reply waiting or being sent. -/
inductive HeldPhase where
  | handed (c : Instr)
  | working (w : Work)
  | replyWaiting (f : LinkFrame)
  | replySending
deriving DecidableEq, Repr

/-- The command the dispatcher holds (R200), with the room found when it was taken (R201). -/
structure Held where
  kind : Nat
  tag : Nat
  room : Nat
  phase : HeldPhase
deriving DecidableEq, Repr

/-- What the transmitter is sending (R203). -/
inductive TxKind where
  | ready | reply | notice
deriving DecidableEq, Repr

/-- The frame being sent and the time in µs at which its last byte has gone. -/
structure Sending where
  frame : LinkFrame
  what : TxKind
  ends : Nat
deriving DecidableEq, Repr

/-- Outcome of a launch occasion in CUE_STEP (R169). -/
inductive StepOutcome where
  | launched | dropped
deriving DecidableEq, Repr

structure CueStepNotice where
  list : Nat
  outcome : StepOutcome
  cue : Nat
  serial : Nat
  count : Nat
  cause : LaunchCause
deriving DecidableEq, Repr

structure ListSettledNotice where
  list : Nat
  cue : Nat
  serial : Nat
deriving DecidableEq, Repr

inductive PackCause where
  | complete | aborted
deriving DecidableEq, Repr

structure PackDoneNotice where
  cause : PackCause
  taken : Nat
  moved : Nat
  fill : Nat
  floor : Nat
  hole : Nat
deriving DecidableEq, Repr

inductive StaleCause where
  | stale | fresh
deriving DecidableEq, Repr

structure TrackStaleNotice where
  cause : StaleCause
  point : Nat
deriving DecidableEq, Repr

structure BeatStateNotice where
  clock : ClockState
  cause : ClockCause
deriving DecidableEq, Repr

structure StopStateNotice where
  level : Bool
  part : PartState
deriving DecidableEq, Repr

structure SolveRejectedNotice where
  fixture : Nat
  cls : Cls
deriving DecidableEq, Repr

structure LinkOverrunNotice where
  drops : Nat
  kind : Nat
  tag : Nat
deriving DecidableEq, Repr

structure GamutClampNotice where
  fixture : Nat
  hue : Nat
  sat : Nat
  emitters : List Nat
deriving DecidableEq, Repr

/-- The nine notices in kind order: a notice's pending flag is set exactly when its content is present (R202). -/
structure Notices where
  cueStep : Option CueStepNotice
  listSettled : Option ListSettledNotice
  packDone : Option PackDoneNotice
  trackStale : Option TrackStaleNotice
  beatState : Option BeatStateNotice
  stopState : Option StopStateNotice
  solveRejected : Option SolveRejectedNotice
  linkOverrun : Option LinkOverrunNotice
  gamutClamp : Option GamutClampNotice
  /-- the nine levels, in kind order -/
  levels : List Nat
deriving DecidableEq, Repr

/-- An activity counter (R204): the event it counts, its class mask (bit 0 CUE to bit 3 RIG) and its value. -/
structure Counter where
  event : Activity
  mask : Nat
  value : Nat
deriving DecidableEq, Repr

/-- The Host Link: receiver, receive queue (oldest first), dispatcher, transmitter, the READY frame (waiting; sent),
notices and activity counters. -/
structure Link where
  receiver : Receiver
  queue : List LinkFrame
  held : Option Held
  sending : Option Sending
  readyWaiting : Bool
  readySent : Bool
  notices : Notices
  counters : List Counter
deriving DecidableEq, Repr

/-! ### The part -/

/-- The whole part. `pending` is the queue of commands and events that wait to be taken, first in first out; `now` is
the time in µs, and `freeUses` counts the uses of a free value: these three are the MODEL's own. `stop` is the level on
the STOP pin, `resetting` a reset under way. -/
structure State where
  now : Nat
  freeUses : Nat
  resetting : Option ResetCause
  part : PartState
  stop : Bool
  link : Link
  rig : Rig
  points : Points
  claims : Claims
  solver : Solver
  cache : Cache
  motion : MotionEngine
  colour : ColourEngine
  stopToMotion : List Bool
  stopToColour : List Bool
  memory : CueMemory
  playback : Playback
  beat : Beat
  lines : Lines
  pending : List Instr
deriving DecidableEq, Repr

/-! ### Reset values -/

/-- The notices after a reset: every flag clear, every level 1 (R207). -/
def Notices.reset : Notices :=
  ⟨none, none, none, none, none, none, none, none, none, [1, 1, 1, 1, 1, 1, 1, 1, 1]⟩

/-- The Host Link after a reset (R204, R207). READY becomes waiting at the end of the reset (R208). -/
def Link.reset : Link where
  receiver := .hunting
  queue := []
  held := none
  sending := none
  readyWaiting := false
  readySent := false
  notices := Notices.reset
  counters := [⟨.linkError, 15, 0⟩, ⟨.jobRejected, 15, 0⟩, ⟨.cacheMiss, 15, 0⟩, ⟨.lineFrames, 15, 0⟩]

/-- The Beat Clock after a reset (R186); the flywheel starts at the end of the reset. -/
def Beat.reset (now : Nat) : Beat where
  source := .external
  filter := true
  clock := .freewheel
  lastEdge := none
  ring := []
  period := 5000
  tempo := 1200
  flywheel := none
  loaded := 5000
  lastBeat := now
  lone := 3
  beatsPerBar := 4
  beatsToBar := 1
  bar := 0
  pulse := none

/-- Every block at its reset values (R19, R35, R55, R95, R121, R143, R172, R186, R197, R207), at time `now`, with the
STOP pin at level `stop` (an input, not a reset value), for a reset of the given cause, keeping the model's own fields. -/
def State.resetValues (now freeUses : Nat) (stop : Bool) (cause : ResetCause) (pending : List Instr) : State where
  now := now
  freeUses := freeUses
  resetting := some cause
  part := .standby
  stop := stop
  link := Link.reset
  rig := ⟨[], [], []⟩
  points := ⟨[], 500⟩
  claims := ⟨[8, 8, 8, 8, 8, 8, 8, 8, 10, 12], [], []⟩
  solver := ⟨[], none, []⟩
  cache := ⟨[], 0⟩
  motion := ⟨[], none, stop, []⟩
  colour := ⟨[], none, stop, []⟩
  stopToMotion := []
  stopToColour := []
  memory := ⟨[], [], [], ⟨.idle, 0, 0, 0⟩, none⟩
  playback := ⟨[], []⟩
  beat := Beat.reset now
  lines := ⟨[], false⟩
  pending := pending

/-- The machine right after power-on has reset it: every block at its reset values, STOP low, nothing pending. The event
RESET_END then ends the reset (R207, R208). -/
def State.reset : State := State.resetValues 0 0 false .powerOn []

end Sys2Proof.Machine
end

