-- ==== Sys2Proof/Machine/Store.lean ====
section
/-! DEFINITION. Reading and writing numbered storage in canonical form. What an unlisted number reads as is given to each
operation: 0 for a slot of a line buffer (R197), "no run here" for a slot of Cue Memory, an UNPATCHED record, and so on. -/

namespace Sys2Proof

variable {α : Type}

/-- The value stored under `k`, or `d` when `k` is not listed. -/
def Store.get (d : α) : Store α → Nat → α
  | [], _ => d
  | (j, v) :: m, k => if j = k then v else Store.get d m k

/-- `m` without an entry for `k`. -/
def Store.erase : Store α → Nat → Store α
  | [], _ => []
  | (j, v) :: m, k => if j = k then Store.erase m k else (j, v) :: Store.erase m k

/-- `m` with an entry for `k` put in at its place in the rising order. -/
def Store.insert (k : Nat) (v : α) : Store α → Store α
  | [] => [(k, v)]
  | (j, w) :: m => if k < j then (k, v) :: (j, w) :: m else (j, w) :: Store.insert k v m

/-- `m` with `v` under `k`; writing what an unlisted number reads as removes the entry. -/
def Store.set [DecidableEq α] (d : α) (m : Store α) (k : Nat) (v : α) : Store α :=
  if v = d then Store.erase m k else Store.insert k v (Store.erase m k)

/-- Writes a list of numbered values, in order. -/
def Store.setAll [DecidableEq α] (d : α) (m : Store α) : List (Nat × α) → Store α
  | [] => m
  | (k, v) :: ws => Store.setAll d (Store.set d m k v) ws

/-- The numbers of a store are strictly rising. -/
def Store.rising : Store α → Bool
  | [] => true
  | [_] => true
  | (j, _) :: (k, v) :: m => decide (j < k) && Store.rising ((k, v) :: m)

/-- The canonical form: numbers strictly rising, and no value equal to what an unlisted number reads as. -/
def Store.wf [DecidableEq α] (d : α) (m : Store α) : Bool :=
  Store.rising m && m.all fun e => decide (e.2 ≠ d)

end Sys2Proof
end

