-- ==== Sys2Proof/Machine/Ops.lean ====
section
/-! DEFINITION. Each block's state is replaced as a whole by one operation, and its records are read and written through
named accessors; the ranges of fixtures, the conversions of times and the sending of reports stand here too. -/

namespace Sys2Proof.Machine

/-! ### One block at a time -/

def State.withNow (s : State) (t : Nat) : State := { s with now := t }
def State.withFreeUses (s : State) (n : Nat) : State := { s with freeUses := n }
def State.withResetting (s : State) (r : Option ResetCause) : State := { s with resetting := r }
def State.withPart (s : State) (p : PartState) : State := { s with part := p }
def State.withStop (s : State) (b : Bool) : State := { s with stop := b }
def State.withLink (s : State) (l : Link) : State := { s with link := l }
def State.withRig (s : State) (r : Rig) : State := { s with rig := r }
def State.withPoints (s : State) (p : Points) : State := { s with points := p }
def State.withClaims (s : State) (c : Claims) : State := { s with claims := c }
def State.withSolver (s : State) (q : Solver) : State := { s with solver := q }
def State.withCache (s : State) (c : Cache) : State := { s with cache := c }
def State.withMotion (s : State) (m : MotionEngine) : State := { s with motion := m }
def State.withColour (s : State) (c : ColourEngine) : State := { s with colour := c }
def State.withStopToMotion (s : State) (q : List Bool) : State := { s with stopToMotion := q }
def State.withStopToColour (s : State) (q : List Bool) : State := { s with stopToColour := q }
def State.withMemory (s : State) (m : CueMemory) : State := { s with memory := m }
def State.withPlayback (s : State) (p : Playback) : State := { s with playback := p }
def State.withBeat (s : State) (b : Beat) : State := { s with beat := b }
def State.withLines (s : State) (l : Lines) : State := { s with lines := l }
def State.withPending (s : State) (q : List Instr) : State := { s with pending := q }

/-! ### Records -/

/-- The profile of kind `k`, `none` when it is UNDEFINED (1.1). -/
def State.kind (s : State) (k : Nat) : Option Profile := Store.get none s.rig.kinds k

def State.setKind (s : State) (k : Nat) (p : Option Profile) : State :=
  s.withRig { s.rig with kinds := Store.set none s.rig.kinds k p }

def State.fixture (s : State) (f : Nat) : Fixture := Store.get Fixture.free s.rig.fixtures f

def State.setFixture (s : State) (f : Nat) (r : Fixture) : State :=
  s.withRig { s.rig with fixtures := Store.set Fixture.free s.rig.fixtures f r }

/-- The fields of fixture `f` when it is PATCHED (1.2). -/
def State.patchOf (s : State) (f : Nat) : Option Patch := (s.fixture f).patch

def State.isPatched (s : State) (f : Nat) : Bool := (s.patchOf f).isSome

/-- The kind profile of a PATCHED fixture. -/
def State.profileOf (s : State) (f : Nat) : Option Profile :=
  match s.patchOf f with
  | some p => s.kind p.kind
  | none => none

def State.trussOffset (s : State) (t : Nat) : Pos := Store.get ⟨0, 0, 0⟩ s.rig.trusses t

def State.setTrussOffset (s : State) (t : Nat) (o : Pos) : State :=
  s.withRig { s.rig with trusses := Store.set ⟨0, 0, 0⟩ s.rig.trusses t o }

def State.point (s : State) (p : Nat) : Point := Store.get Point.unset s.points.points p

def State.setPoint (s : State) (p : Nat) (r : Point) : State :=
  s.withPoints { s.points with points := Store.set Point.unset s.points.points p r }

/-- The AIM stack of fixture `f`, top entry first (3.2). -/
def State.aimStack (s : State) (f : Nat) : List (Entry AimClaim) := Store.get [] s.claims.aim f

def State.setAimStack (s : State) (f : Nat) (l : List (Entry AimClaim)) : State :=
  s.withClaims { s.claims with aim := Store.set [] s.claims.aim f l }

/-- The COLOUR stack of fixture `f`, top entry first (3.2). -/
def State.colourStack (s : State) (f : Nat) : List (Entry ColourClaim) := Store.get [] s.claims.colour f

def State.setColourStack (s : State) (f : Nat) (l : List (Entry ColourClaim)) : State :=
  s.withClaims { s.claims with colour := Store.set [] s.claims.colour f l }

def State.motionOf (s : State) (f : Nat) : Option Motion := Store.get none s.motion.records f

def State.setMotionOf (s : State) (f : Nat) (r : Option Motion) : State :=
  s.withMotion { s.motion with records := Store.set none s.motion.records f r }

def State.colourOf (s : State) (f : Nat) : Option Colour := Store.get none s.colour.records f

def State.setColourOf (s : State) (f : Nat) (r : Option Colour) : State :=
  s.withColour { s.colour with records := Store.set none s.colour.records f r }

def State.cueList (s : State) (n : Nat) : CueList := Store.get CueList.fresh s.playback.lists n

def State.setCueList (s : State) (n : Nat) (l : CueList) : State :=
  s.withPlayback { s.playback with lists := Store.set CueList.fresh s.playback.lists n l }

def State.line (s : State) (l : Nat) : Line := Store.get Line.fresh s.lines.lines l

def State.setLine (s : State) (l : Nat) (r : Line) : State :=
  s.withLines { s.lines with lines := Store.set Line.fresh s.lines.lines l r }

/-! ### Fixture ranges -/

/-- The PATCHED fixtures, in ascending fixture order. -/
def State.patchedFixtures (s : State) : List Nat := (List.range 256).filter s.isPatched

/-- The members of a fixture range: from the first upward, as many as the count says, none above 255 (opening file). -/
def rangeMembers (first count : Nat) : List Nat :=
  (List.range 256).filter fun f => decide (first ≤ f) && decide (f < first + count)

/-- The PATCHED members of a range, ascending. -/
def State.rangePatched (s : State) (first count : Nat) : List Nat := (rangeMembers first count).filter s.isPatched

/-- How many members of a range are UNPATCHED. -/
def State.rangeSkipped (s : State) (first count : Nat) : Nat :=
  ((rangeMembers first count).filter fun f => !s.isPatched f).length

/-! ### Stepping -/

/-- Motion records are stepping: the part is LIVE and STOP, as the Motion Engine has taken it, is low (R102). -/
def State.motionStepping (s : State) : Bool := decide (s.part = .live) && !s.motion.stopSeen

/-- Colour records are stepping (7.2). -/
def State.colourStepping (s : State) : Bool := decide (s.part = .live) && !s.colour.stopSeen

/-! ### Times -/

/-- A stored time in ms of a time value and its unit flag: a quarter-beat time is converted with the beat period as it
stands (R45, R184). -/
def State.toMs (s : State) (quarterBeats : Bool) (t : Nat) : Nat :=
  if quarterBeats then roundHalfUpNat (t * s.beat.period) 40 else t

/-! ### Aims and reports -/

/-- The point a target aims at: POINT p, or a SWEEP whose centre is POINT p (2.1). -/
def AimTarget.pointOf : AimTarget → Option Nat
  | .point p => some p
  | .sweep (.point p) .. => some p
  | .angles .. => none
  | .sweep (.angles ..) .. => none

/-- The active AIM target of fixture `f` (3.2). -/
def State.activeAim (s : State) (f : Nat) : Option AimTarget := ((s.aimStack f).head?).map fun e => e.body.target

/-- The point that fixture `f` is aimed at, when it is aimed at one (2.1, R54). -/
def State.aimedAt (s : State) (f : Nat) : Option Nat :=
  match s.activeAim f with
  | some t => t.pointOf
  | none => none

/-- The PATCHED fixtures aimed at point `p`, ascending (R21, R54). -/
def State.fixturesAimedAt (s : State) (p : Nat) : List Nat :=
  s.patchedFixtures.filter fun f => decide (s.aimedAt f = some p)

/-- Sends a report to the Playback Unit, where it waits for its LAUNCH_REPORT (R162). -/
def State.sendReport (s : State) (r : Report) : State :=
  s.withPlayback { s.playback with reports := s.playback.reports ++ [r] }

/-- Sends a superseded report for a tag (R40). -/
def State.reportSuperseded (s : State) (t : LaunchTag) : State := s.sendReport ⟨false, t⟩

/-- Superseded reports, in order. -/
def State.reportAllSuperseded (s : State) : List LaunchTag → State
  | [] => s
  | t :: ts => (s.reportSuperseded t).reportAllSuperseded ts

/-- Clears report owed on the entry of a stack that carries the tag (R41). -/
def clearOwed {α : Type} (t : LaunchTag) : List (Entry α) → List (Entry α)
  | [] => []
  | e :: es => if e.tag = some t then { e with owed := false } :: clearOwed t es else e :: clearOwed t es

/-- A settled AIM item of fixture `f`: the report goes to the Playback Unit and the Claim Table (R41). -/
def State.settleAim (s : State) (f : Nat) (t : LaunchTag) : State :=
  (s.setAimStack f (clearOwed t (s.aimStack f))).sendReport ⟨true, t⟩

/-- A settled COLOUR item of fixture `f` (R41). -/
def State.settleColour (s : State) (f : Nat) (t : LaunchTag) : State :=
  (s.setColourStack f (clearOwed t (s.colourStack f))).sendReport ⟨true, t⟩

end Sys2Proof.Machine
end

