-- ==== Sys2Proof/Machine/Flags.lean ====
section
/-! DEFINITION. The Host Link's flags: the activity counters (R204) and the nine notices with their levels and the
NOTICE output (R202). -/

namespace Sys2Proof.Machine

/-- The code of an activity event (11.9). -/
def Activity.code : Activity → Nat
  | .jobShared => 1
  | .jobReserved => 2
  | .jobRejected => 3
  | .cacheHit => 4
  | .cacheMiss => 5
  | .resultDiscarded => 6
  | .queueOccupancy => 7
  | .limitClamp => 8
  | .gamutClamp => 9
  | .retarget => 10
  | .trackSkipped => 11
  | .lineFrames => 12
  | .linkError => 13

/-- All activity events, in code order. -/
def Activity.all : List Activity :=
  [.jobShared, .jobReserved, .jobRejected, .cacheHit, .cacheMiss, .resultDiscarded, .queueOccupancy, .limitClamp,
    .gamutClamp, .retarget, .trackSkipped, .lineFrames, .linkError]

/-- The event a code names, when the table of 11.9 has it. -/
def Activity.ofCode (c : Nat) : Option Activity := Activity.all.find? fun a => decide (a.code = c)

/-- The bit of a request class in a counter's mask: bit 0 CUE, 1 DIRECT, 2 TRACK, 3 RIG (11.8). -/
def Cls.code : Cls → Nat
  | .cue => 0
  | .direct => 1
  | .track => 2
  | .rig => 3

/-- The greatest value of an activity counter. -/
def counterMax : Nat := 4294967295

/-- Whether a counter counts an event raised with a class, or with none (R204). -/
def Counter.counts (c : Counter) (e : Activity) (cls : Option Cls) : Bool :=
  decide (c.event = e) &&
    match cls with
    | some k => c.mask.testBit k.code
    | none => true

/-- A counter after an event is raised: it adds the amount, held at the greatest value (R204). -/
def Counter.after (c : Counter) (e : Activity) (cls : Option Cls) (amount : Nat) : Counter :=
  if c.counts e cls then { c with value := Nat.min (c.value + amount) counterMax } else c

/-- Raises an activity event: every counter set to it counts it (R204). -/
def State.raise (s : State) (e : Activity) (cls : Option Cls) (amount : Nat) : State :=
  s.withLink { s.link with counters := s.link.counters.map fun c => c.after e cls amount }

/-- Raises an event without a class, once. -/
def State.raiseOnce (s : State) (e : Activity) : State := s.raise e none 1

/-- Raises a job event, once, with its class (R93). -/
def State.raiseJob (s : State) (e : Activity) (cls : Cls) : State := s.raise e (some cls) 1

/-- Replaces the notices' flags and contents. -/
def State.withNotices (s : State) (n : Notices) : State := s.withLink { s.link with notices := n }

/-! ### Making a notice pending (R202): the newer content replaces the older -/

def State.notifyCueStep (s : State) (c : CueStepNotice) : State :=
  s.withNotices { s.link.notices with cueStep := some c }

def State.notifyListSettled (s : State) (c : ListSettledNotice) : State :=
  s.withNotices { s.link.notices with listSettled := some c }

def State.notifyPackDone (s : State) (c : PackDoneNotice) : State :=
  s.withNotices { s.link.notices with packDone := some c }

def State.notifyTrackStale (s : State) (cause : StaleCause) (point : Nat) : State :=
  s.withNotices { s.link.notices with trackStale := some ⟨cause, point⟩ }

def State.notifyBeatState (s : State) (clock : ClockState) (cause : ClockCause) : State :=
  s.withNotices { s.link.notices with beatState := some ⟨clock, cause⟩ }

def State.notifyStopState (s : State) (level : Bool) (part : PartState) : State :=
  s.withNotices { s.link.notices with stopState := some ⟨level, part⟩ }

def State.notifySolveRejected (s : State) (f : Nat) (cls : Cls) : State :=
  s.withNotices { s.link.notices with solveRejected := some ⟨f, cls⟩ }

/-- A frame dropped at a full receive queue: the drop count rises, held at 65,535 (R199). -/
def State.notifyLinkOverrun (s : State) (kind tag : Nat) : State :=
  s.withNotices
    { s.link.notices with
      linkOverrun :=
        some ⟨Nat.min ((s.link.notices.linkOverrun.map fun o => o.drops).getD 0 + 1) 65535, kind, tag⟩ }

def State.notifyGamutClamp (s : State) (c : GamutClampNotice) : State :=
  s.withNotices { s.link.notices with gamutClamp := some c }

/-- The nine pending flags, in kind order (R202). -/
def Notices.flags (n : Notices) : List Bool :=
  [n.cueStep.isSome, n.listSettled.isSome, n.packDone.isSome, n.trackStale.isSome, n.beatState.isSome,
    n.stopState.isSome, n.solveRejected.isSome, n.linkOverrun.isSome, n.gamutClamp.isSome]

/-- The level of a notice kind, by its place in kind order (R202). -/
def Notices.level (n : Notices) (i : Nat) : Nat := n.levels.getD i 0

/-- The pending enabled notices, as places in kind order. -/
def Notices.ready (n : Notices) : List Nat :=
  (List.range 9).filter fun i => n.flags.getD i false && decide (0 < n.level i)

/-- The notice to be sent next: of the highest level, and among equals of the lowest kind code (R203). -/
def Notices.best (n : Notices) : Option Nat :=
  (n.ready).foldl
    (fun b i =>
      match b with
      | none => some i
      | some j => if n.level j < n.level i then some i else some j)
    none

/-- The flag of the notice at place `i` cleared, its content with it (R203). -/
def Notices.clear (n : Notices) : Nat → Notices
  | 0 => { n with cueStep := none }
  | 1 => { n with listSettled := none }
  | 2 => { n with packDone := none }
  | 3 => { n with trackStale := none }
  | 4 => { n with beatState := none }
  | 5 => { n with stopState := none }
  | 6 => { n with solveRejected := none }
  | 7 => { n with linkOverrun := none }
  | 8 => { n with gamutClamp := none }
  | _ => n

/-- The NOTICE output: high while at least one enabled notice is pending, low during a reset (R202, R207). -/
def State.noticePin (s : State) : Bool := s.resetting.isNone && !s.link.notices.ready.isEmpty

end Sys2Proof.Machine
end

