-- ==== Sys2Proof/Machine/Slots.lean ====
section
/-! DEFINITION. From motion positions and colour outputs to slot values (R72 to R74, R189), and the whole writes to the
slot buffers (R188). -/

namespace Sys2Proof.Machine

/-- The 16-bit count of a motion position across a range in centidegrees (R72). -/
def axisCount (lo hi pos : Int) : Nat :=
  (((pos - lo * 16) * 65535 + (hi - lo) * 16 / 2) / ((hi - lo) * 16)).toNat

/-- The count used on the line, after the invert flag (R73). -/
def invertCount (invert : Bool) (c : Nat) : Nat := if invert then 65535 - c else c

/-- A 16-bit value split over its roles: coarse and fine, or a rounded coarse value alone (R74, R189). -/
def splitValue (coarse : Nat) (fine : Option Nat) (v : Nat) : List (Nat × Nat) :=
  match fine with
  | some f => [(coarse, v / 256), (f, v % 256)]
  | none => [(coarse, Nat.min 255 ((v + 128) / 256))]

/-- The pan count on the line of a position (R72, R73). -/
def panCount (k : Profile) (p : Patch) (pan : Int) : Nat := invertCount p.panInvert (axisCount k.panMin k.panMax pan)

/-- The tilt count on the line of a position (R72, R73). -/
def tiltCount (k : Profile) (p : Patch) (tilt : Int) : Nat :=
  invertCount p.tiltInvert (axisCount k.tiltMin k.tiltMax tilt)

/-- The pan and tilt slot values of a position, as offset and value (R74). -/
def aimSlots (k : Profile) (p : Patch) (pan tilt : Int) : List (Nat × Nat) :=
  splitValue k.panCoarse k.panFine (panCount k p pan) ++ splitValue k.tiltCoarse k.tiltFine (tiltCount k p tilt)

/-- The slot values of the emitter outputs, emitter by emitter (R189). -/
def emitterSlots : List Emitter → List Nat → List (Nat × Nat)
  | e :: es, v :: vs => splitValue e.coarse e.fine v ++ emitterSlots es vs
  | _, _ => []

/-- The colour slot values of a kind: every emitter's, the wheel role's, or none (R188, R189). -/
def colourSlots (k : Profile) (outputs : List Nat) : List (Nat × Nat) :=
  match k.model with
  | .none => []
  | .emitter es => emitterSlots es outputs
  | .wheel _ role => [(role, outputs.headD 0)]

/-- The passthrough slot values (R189). -/
def passSlots (k : Profile) (p : Patch) : List (Nat × Nat) := k.pass.zip p.pass

/-- One whole write to a line's slot buffer, of values at offsets from a base slot (R188). -/
def State.writeSlots (s : State) (line base : Nat) (ws : List (Nat × Nat)) : State :=
  s.setLine line
    { s.line line with
      buffer := Store.setAll 0 (s.line line).buffer (ws.map fun w => (base + w.1, BitVec.ofNat 8 w.2)) }

/-- Zeros at every offset of a footprint. -/
def zeroSlots (footprint : Nat) : List (Nat × Nat) := (List.range footprint).map fun o => (o, 0)

/-- Writes a fixture's pan and tilt slots from a position (R97). -/
def State.writeAim (s : State) (f : Nat) (pan tilt : Int) : State :=
  match s.patchOf f, s.profileOf f with
  | some p, some k => s.writeSlots p.line p.base (aimSlots k p pan tilt)
  | _, _ => s

/-- Writes a fixture's colour slots from its outputs (R123, R134). -/
def State.writeColour (s : State) (f : Nat) (outputs : List Nat) : State :=
  match s.patchOf f, s.profileOf f with
  | some p, some k => s.writeSlots p.line p.base (colourSlots k outputs)
  | _, _ => s

/-- The last slot of the footprint of fixture `f`, when it is PATCHED on the line, else 0. -/
def State.lastSlotOn (s : State) (line f : Nat) : Nat :=
  match s.patchOf f, s.profileOf f with
  | some p, some k => if p.line = line then p.base + k.footprint - 1 else 0
  | _, _ => 0

/-- The last slot of the highest footprint of a PATCHED fixture on the line, 0 when it has none (10.1). -/
def State.highestPatched (s : State) (line : Nat) : Nat :=
  (List.range 256).foldl (fun m f => Nat.max m (s.lastSlotOn line f)) 0

/-- The highest patched slot of a line recomputed (R187). -/
def State.refreshHighest (s : State) (line : Nat) : State :=
  s.setLine line { s.line line with highest := s.highestPatched line }

/-- The old footprint of a fixture zeroed: the slots of `p`'s footprint on its line (R187). -/
def State.zeroFootprint (s : State) (p : Patch) (footprint : Nat) : State :=
  s.writeSlots p.line p.base (zeroSlots footprint)

/-- The whole footprint of a fixture: zeros, with the roles written over them (R7, R8). -/
def footprintSlots (k : Profile) (p : Patch) (pan tilt : Int) (outputs : List Nat) : List (Nat × Nat) :=
  zeroSlots k.footprint ++ aimSlots k p pan tilt ++ colourSlots k outputs ++ passSlots k p

end Sys2Proof.Machine
end

