-- ==== Sys2Proof/Machine/ColourOps.lean ====
section
/-! DEFINITION. What happens to one colour record: resolution (R127 to R129), the emitter solve (R130 to R133), the wheel
(R134), fades (R135), and the events that give a record a target (chapter 7). -/

namespace Sys2Proof.Machine

/-! ### The emitter solve (7.5) -/

/-- The hues of the hued emitters, each with its place in the emitter list, in list order (R130). -/
def huedFrom : Nat → List Emitter → List (Nat × Nat)
  | _, [] => []
  | i, e :: es =>
    match e.hue with
    | some h => (i, h) :: huedFrom (i + 1) es
    | none => huedFrom (i + 1) es

/-- Consecutive pairs of hued emitters: lower, upper (R130). -/
def huePairs : List (Nat × Nat) → List ((Nat × Nat) × (Nat × Nat))
  | a :: b :: l => (a, b) :: huePairs (b :: l)
  | _ => []

/-- A pair with its arc and the distance of the hue from its lower emitter (R130). -/
structure HuePair where
  lower : Nat
  upper : Nat
  arc : Nat
  offset : Nat
deriving DecidableEq, Repr

/-- The pair that covers a hue: the consecutive pair from hue_i up to but not including hue_j, else the wrap pair from
the last hued emitter to the first (R130). -/
def coveringPair (hued : List (Nat × Nat)) (h : Nat) : HuePair :=
  match (huePairs hued).find? fun q => decide (q.1.2 ≤ h) && decide (h < q.2.2) with
  | some q => ⟨q.1.1, q.2.1, q.2.2 - q.1.2, h - q.1.2⟩
  | none =>
    let first := hued.headD (0, 0)
    let last := hued.getLastD (0, 0)
    ⟨last.1, first.1, first.2 + 3600 - last.2, (h + 3600 - last.2) % 3600⟩

/-- The level of the emitter at place `i` after the pair and normalisation stages (R130, R131). -/
def pairLevel (q : HuePair) (i : Nat) : Nat :=
  let fj := roundHalfUpNat (q.offset * 4096) q.arc
  let fi := 4096 - fj
  let m := Nat.max fi fj
  if i = q.lower then (if fi = m then 4096 else roundHalfUpNat (fi * 4096) m)
  else if i = q.upper then (if fj = m then 4096 else roundHalfUpNat (fj * 4096) m)
  else 0

/-- The white amount of a saturation (R132). -/
def whiteAmount (s : Nat) : Nat := roundHalfUpNat ((1000 - s) * 4096) 1000

/-- The level of an emitter after the saturation stage (R132). -/
def satLevel (hasWhite : Bool) (s : Nat) (isWhite : Bool) (l : Nat) : Nat :=
  if isWhite then whiteAmount s
  else if hasWhite then roundHalfUpNat (l * s) 1000
  else Nat.min 4096 (roundHalfUpNat (l * s) 1000 + whiteAmount s)

/-- A level scaled by the calibration gain and the trim (R133). -/
def trimmedLevel (gain trim l : Nat) : Nat := ((l * gain + 2048) / 4096 * trim + 2048) / 4096

/-- The output of a trimmed level: full when it exceeds 4,096, and the emitter is then clamped (R133). -/
def levelOutput (b : Nat) : Nat := if b ≤ 4096 then (b * 65535 + 2048) / 4096 else 65535

/-- The trimmed levels of the emitters, from place `i` on (R130 to R133). -/
def trimmedLevels (q : HuePair) (hasWhite : Bool) (s : Nat) : Nat → List Emitter → List Nat → List Nat
  | _, [], _ => []
  | i, e :: es, trims =>
    trimmedLevel e.gain (trims.headD 4096) (satLevel hasWhite s e.hue.isNone (pairLevel q i)) ::
      trimmedLevels q hasWhite s (i + 1) es trims.tail

/-- The places of the clamped emitters (R133). -/
def clampedFrom : Nat → List Nat → List Nat
  | _, [] => []
  | i, b :: bs => if 4096 < b then i :: clampedFrom (i + 1) bs else clampedFrom (i + 1) bs

/-- The outputs and the clamped emitters for a hue 0 to 3,599 and a saturation 0 to 1,000 (R130 to R133). -/
def emitterSolve (es : List Emitter) (trims : List Nat) (h s : Nat) : List Nat × List Nat :=
  let bs := trimmedLevels (coveringPair (huedFrom 0 es) h) (es.any fun e => e.hue.isNone) s 0 es trims
  (bs.map levelOutput, clampedFrom 0 bs)

/-! ### The wheel (7.6) -/

/-- The circular distance of two hues (R134). -/
def hueDistance (a b : Nat) : Nat :=
  let d := (a - b) + (b - a)
  Nat.min d (3600 - d)

/-- The score of a wheel position (R134). -/
def wheelScore (h s : Nat) (p : WheelPos) : Nat :=
  hueDistance h p.hue * Nat.min s p.sat / 1000 + 2 * ((s - p.sat) + (p.sat - s))

/-- The slot value of the position of least score, the lowest number among equals (R134); 0 for an empty list. -/
def wheelMatch (h s : Nat) : List WheelPos → Option WheelPos
  | [] => none
  | p :: ps =>
    match wheelMatch h s ps with
    | none => some p
    | some q => if wheelScore h s q < wheelScore h s p then some q else some p

/-- Wheel position `i`, or the last one when `i` lies beyond the list (R129). -/
def wheelPosition (l : List WheelPos) (i : Nat) : Option WheelPos := l[Nat.min i (l.length - 1)]?

/-! ### Resolution (7.4) -/

/-- What a target comes to on a kind: new outputs to fade to, a wheel value to snap, or nothing (R127 to R129). -/
inductive Resolved where
  /-- emitter outputs, hue and saturation solved for, clamped emitters -/
  | levels (outputs : List Nat) (hue sat : Nat) (clamped : List Nat)
  /-- a wheel value; from the match, which clears GAMUT, or from a named position -/
  | snap (value : Nat) (matched : Bool)
  | ineffective
deriving DecidableEq, Repr

/-- A hue wrapped and a saturation clamped (R127). -/
def wrapHue (h : Int) : Nat := (h % 3600).toNat
def clampSat (s : Nat) : Nat := Nat.min s 1000

/-- A hue and saturation on a kind (R127, R129). -/
def resolveHueSat (k : Profile) (trims : List Nat) (hue : Int) (sat : Nat) : Resolved :=
  match k.model with
  | .none => .ineffective
  | .emitter es =>
    let o := emitterSolve es trims (wrapHue hue) (clampSat sat)
    .levels o.1 (wrapHue hue) (clampSat sat) o.2
  | .wheel l _ =>
    match wheelMatch (wrapHue hue) (clampSat sat) l with
    | some p => .snap p.value true
    | none => .ineffective

/-- A named wheel position on a kind (R129). -/
def resolveWheel (k : Profile) (i : Nat) : Resolved :=
  match k.model with
  | .wheel l _ =>
    match wheelPosition l i with
    | some p => .snap p.value false
    | none => .ineffective
  | _ => .ineffective

/-- The run that a directory entry names: the contents of its slots (8.1). -/
def State.readSlot (s : State) (i : Nat) : Option CueSlot := Store.get none s.memory.slots i

/-- A stored palette's directory entry. -/
def State.paletteEntry (s : State) (q : Nat) : Option DirEntry := s.memory.palettes.find? fun e => decide (e.number = q)

/-- The first override of palette run `e` that names the kind, from body slot `i` on (R128). -/
def State.findOverride (s : State) (e : DirEntry) (kind : Nat) : Nat → Nat → Option OverrideValue
  | 0, _ => none
  | n + 1, i =>
    match s.readSlot (e.start + i) with
    | some (.override k v) => if k = kind then some v else s.findOverride e kind n (i + 1)
    | _ => s.findOverride e kind n (i + 1)

/-- What a stored palette gives for a kind: an override or the default (R128). -/
def State.paletteValue (s : State) (q kind : Nat) : Option OverrideValue :=
  match s.paletteEntry q with
  | none => none
  | some e =>
    match s.findOverride e kind (e.length - 1) 1 with
    | some v => some v
    | none =>
      match s.readSlot e.start with
      | some (.paletteHeader _ h sat _ _) => some (.hueSat h sat)
      | _ => none

/-- A target resolved for a fixture of a kind; with it, the origin palette it gives when it is effective (R127 to R129). -/
def State.resolveColour (s : State) (k : Profile) (p : Patch) (t : ColourTarget) : Resolved × Option Nat :=
  match t with
  | .hueSat h sat => (resolveHueSat k p.trims h sat, none)
  | .wheelSlot i => (resolveWheel k i, none)
  | .palette q =>
    match s.paletteValue q p.kind with
    | none => (.ineffective, none)
    | some (.hueSat h sat) => (resolveHueSat k p.trims h sat, some q)
    | some (.wheel i) => (resolveWheel k i, some q)

/-! ### Events of one record -/

/-- Fade steps of a fade time in ms (R135). -/
def fadeSteps (ms : Nat) : Nat := Nat.min ((ms + 4) / 8) 16383

/-- What an event does to a colour record: the record, a settled report, a clamping solve (R133), and the wheel value
written at once (R134). -/
structure ColourOut where
  after : Colour
  report : Option LaunchTag
  clamp : Option (Nat × Nat × List Nat)
  write : Bool
deriving DecidableEq, Repr

def ColourOut.quiet (c : Colour) : ColourOut := ⟨c, none, none, false⟩

/-- The item settles: a tag is reported and dropped (R141). -/
def Colour.settle (c : Colour) : ColourOut := ⟨{ c with tag := none }, c.tag, none, false⟩

/-- A colour record as a fixture's creation makes it (R7, R122). -/
def Colour.fresh (m : ColourModel) : Colour where
  target := none
  outputs :=
    match m with
    | .none => []
    | .emitter es => List.replicate es.length 0
    | .wheel .. => [0]
  fade := none
  origin := none
  tag := none
  gamut := false

/-- The wheel snap: the value is written at once and a fade of 0 steps settles the item (R134). -/
def Colour.snap (c : Colour) (origin : Option Nat) (v : Nat) (matched : Bool) : ColourOut :=
  ⟨{ c with
      outputs := [v], fade := some ⟨[v], [v], 0, 0⟩, origin := origin,
      gamut := if matched then false else c.gamut }, none, none, true⟩

/-- A fade from the present outputs to solved values (R124), with the GAMUT flag of the solve (R133). -/
def Colour.fadeTo (c : Colour) (origin : Option Nat) (outs : List Nat) (hue sat : Nat) (clamped : List Nat)
    (steps : Nat) : ColourOut :=
  ⟨{ c with
      fade := some ⟨c.outputs, outs, steps, 0⟩, origin := origin, gamut := !clamped.isEmpty },
    none, if clamped.isEmpty then none else some (hue, sat, clamped), false⟩

/-- A stepping record carries out its target: the three courses of R124. -/
def Colour.carryOut (c : Colour) (r : Resolved × Option Nat) (steps : Nat) : ColourOut :=
  match r.1 with
  | .ineffective => ({ c with fade := none } : Colour).settle
  | .snap v matched => c.snap r.2 v matched
  | .levels outs hue sat clamped => c.fadeTo r.2 outs hue sat clamped steps

/-- A record whose stepping resumes (R140). -/
def Colour.resume (c : Colour) (r : Resolved × Option Nat) : ColourOut :=
  match r.1 with
  | .ineffective => c.settle
  | .snap v matched => c.snap r.2 v matched
  | .levels outs hue sat clamped =>
    let o := c.fadeTo r.2 outs hue sat clamped 0
    if outs ≠ c.outputs ∨ c.tag.isSome then o else { o with after := { o.after with fade := none } }

/-- An output part way between its start and target values, truncated toward zero (R135). -/
def fadeValue (a b k n : Nat) : Nat := if a ≤ b then a + (b - a) * k / n else a - (a - b) * k / n

/-- The outputs of a fade at step k of n (R135). -/
def fadeValues (k n : Nat) : List Nat → List Nat → List Nat
  | a :: as, b :: bs => fadeValue a b k n :: fadeValues k n as bs
  | _, _ => []

/-- One fade step of a record (R135); the slots are written when an output changes (R123). -/
def Colour.step (c : Colour) : ColourOut :=
  match c.fade with
  | none => .quiet c
  | some d =>
    if d.steps = 0 then
      { ({ c with outputs := d.target, fade := none } : Colour).settle with write := decide (d.target ≠ c.outputs) }
    else if d.k + 1 < d.steps then
      let outs := fadeValues (d.k + 1) d.steps d.start d.target
      ⟨{ c with outputs := outs, fade := some { d with k := d.k + 1 } }, none, none, decide (outs ≠ c.outputs)⟩
    else
      { ({ c with outputs := d.target, fade := none } : Colour).settle with write := decide (d.target ≠ c.outputs) }

/-- The COLOUR stack has become empty (R125). -/
def Colour.noTarget (c : Colour) : ColourOut := .quiet { c with target := none, tag := none, fade := none }

/-- STOP goes high: a fade is dropped, the tag kept (R138). -/
def Colour.stopHigh (c : Colour) : ColourOut := .quiet { c with fade := none }

/-- Entry into STANDBY: a fade is dropped and the item settled (R139). -/
def Colour.standby (c : Colour) : ColourOut := ({ c with fade := none } : Colour).settle

/-! ### On the state -/

/-- Carries out what an event does to the colour record of fixture `f`. -/
def State.applyColour (s : State) (f : Nat) (o : ColourOut) : State :=
  let s := s.setColourOf f (some o.after)
  let s :=
    match o.clamp with
    | some (h, sat, es) => (s.raiseOnce .gamutClamp).notifyGamutClamp ⟨f, h, sat, es⟩
    | none => s
  let s := if o.write then s.writeColour f o.after.outputs else s
  match o.report with
  | some t => s.settleColour f t
  | none => s

/-- An event on the colour record of one fixture, when it has one. -/
def State.onColour (s : State) (f : Nat) (g : Profile → Patch → Colour → ColourOut) : State :=
  match s.colourOf f, s.profileOf f, s.patchOf f with
  | some c, some k, some p => s.applyColour f (g k p c)
  | _, _, _ => s

/-- An event on the colour records of several fixtures, in order; `g` sees the state as each turn finds it. -/
def State.onColours (s : State) (g : State → Profile → Patch → Colour → ColourOut) : List Nat → State
  | [] => s
  | f :: fs => (s.onColour f (g s)).onColours g fs

/-- A COLOUR hand-over (R124, R126). -/
def State.handColour (s : State) (f : Nat) (t : ColourTarget) (ms : Nat) (tag : Option LaunchTag) : State :=
  s.onColour f fun k p c =>
    let c' : Colour := { c with target := some t, tag := tag }
    if s.colourStepping then c'.carryOut (s.resolveColour k p t) (fadeSteps ms) else .quiet c'

/-- The Claim Table reports an empty COLOUR stack (R125). -/
def State.handNoColour (s : State) (f : Nat) : State := s.onColour f fun _ _ c => c.noTarget

/-- A stored palette reaches the record of fixture `f`, when its target is that palette and it is stepping (R136). R141's
table of ends does not name a target that this finds ineffective: by the model's choice R129 holds there too, the fade is
dropped and the item settles at once (log entry 40). -/
def State.updatePalette (s : State) (f q ms : Nat) : State :=
  s.onColour f fun k p c =>
    if c.target = some (.palette q) ∧ s.colourStepping = true then
      c.carryOut (s.resolveColour k p (.palette q)) (fadeSteps ms)
    else .quiet c

/-- The record of a fixture as stepping resumes, when it has a target (R140). -/
def State.resumeColour (s : State) (k : Profile) (p : Patch) (c : Colour) : ColourOut :=
  match c.target with
  | some t => c.resume (s.resolveColour k p t)
  | none => .quiet c

end Sys2Proof.Machine
end

