-- ==== Sys2Proof/Machine/Operands.lean ====
section
/-! DEFINITION. The checks of target specs, ranges and units (R45, R47, R146) and what a cue entry asks for, its times
converted with the beat period as it stands (R45, R184). -/

namespace Sys2Proof.Machine

/-- A coordinate in the range of points and commanded coordinates (opening file, Units). -/
def coordOk (c : Int) : Bool := decide (-200000 ≤ c) && decide (c ≤ 200000)

def posOk (p : Pos) : Bool := coordOk p.x && coordOk p.y && coordOk p.z

/-- The range grounds of the direct and follow commands and HALT: first fixture 0 to 255, count 1 to 256 (R47, R114). -/
def rangeOk (first count : Nat) : Bool := decide (first ≤ 255) && decide (1 ≤ count) && decide (count ≤ 256)

/-- The angles a spec accepts (3.5). -/
def anglesOk (pan tilt : Int) : Bool :=
  decide (-54000 ≤ pan) && decide (pan ≤ 54000) && decide (-18000 ≤ tilt) && decide (tilt ≤ 18000)

end Sys2Proof.Machine

namespace Sys2Proof

open Machine

/-- Bit 3 of the unit flags: the SWEEP centre is given as ANGLES (11.8). -/
def RawEntry.centreByAngles (e : RawEntry) : Bool := e.units.testBit 3

/-- The centre of a SWEEP entry lies in its accepted range (3.5). -/
def RawEntry.centreOk (e : RawEntry) : Bool :=
  if e.centreByAngles then anglesOk e.pan e.tilt else decide (e.point ≤ 127)

/-- The AIM spec passes the checks of R45: a spec of the table with every field in range. -/
def RawEntry.aimSpecOk (e : RawEntry) : Bool :=
  match e.aim with
  | 0 => true
  | 1 => decide (e.point ≤ 127)
  | 2 => anglesOk e.pan e.tilt
  | 3 => e.centreOk && decide (e.panAmp ≤ 18000) && decide (e.tiltAmp ≤ 18000) && decide (e.legs ≤ 255)
  | _ => false

/-- The law passes the checks of R45: TIMED or CHASE, and not CHASE with a SWEEP. -/
def RawEntry.lawOk (e : RawEntry) : Bool := decide (e.law ≤ 1) && !(decide (e.law = 1) && decide (e.aim = 3))

/-- The COLOUR spec passes the checks of R45. -/
def RawEntry.colourSpecOk (e : RawEntry) : Bool :=
  match e.colour with
  | 0 => true
  | 1 => true
  | 2 => decide (0 ≤ e.hue) && decide (e.hue ≤ 63)
  | 3 => decide (0 ≤ e.hue) && decide (e.hue ≤ 255)
  | _ => false

/-- The checks of DIRECT_AIM: range, spec and law, an AIM spec other than NONE and no COLOUR spec (R47). -/
def RawEntry.directAimOk (e : RawEntry) : Bool :=
  rangeOk e.first e.count && e.aimSpecOk && e.lawOk && decide (e.aim ≠ 0) && decide (e.colour = 0)

/-- The checks of DIRECT_COLOUR: range and spec, a COLOUR spec other than NONE and no AIM spec (R48). -/
def RawEntry.directColourOk (e : RawEntry) : Bool :=
  rangeOk e.first e.count && e.colourSpecOk && decide (e.colour ≠ 0) && decide (e.aim = 0)

/-- The checks of an entry of STORE_CUE (R146). -/
def RawEntry.cueEntryOk (e : RawEntry) : Bool :=
  rangeOk e.first e.count && e.aimSpecOk && e.lawOk && e.colourSpecOk

/-- The law of an entry. -/
def RawEntry.lawOf (e : RawEntry) : Law := if e.law = 1 then .chase else .timed

/-- The centre of a SWEEP entry. -/
def RawEntry.centreOf (e : RawEntry) : Centre :=
  if e.centreByAngles then .angles e.pan e.tilt else .point e.point

/-- The AIM target of an entry, `none` for NONE; `legMs` is its converted leg time. -/
def RawEntry.aimTarget (e : RawEntry) (legMs : Nat) : Option AimTarget :=
  match e.aim with
  | 1 => some (.point e.point)
  | 2 => some (.angles e.pan e.tilt)
  | 3 => some (.sweep e.centreOf e.panAmp e.tiltAmp legMs e.legs)
  | _ => none

/-- The COLOUR target of an entry, `none` for NONE. -/
def RawEntry.colourTarget (e : RawEntry) : Option ColourTarget :=
  match e.colour with
  | 1 => some (.hueSat e.hue e.sat)
  | 2 => some (.palette e.hue.toNat)
  | 3 => some (.wheelSlot e.hue.toNat)
  | _ => none

/-- A stored override as its payload gives it (11.8). -/
def RawOverride.stored (o : RawOverride) : Nat × OverrideValue :=
  (o.kind, if o.form = 1 then .wheel o.wheel else .hueSat o.hue o.sat)

end Sys2Proof

namespace Sys2Proof.Machine

/-- The AIM claim of an entry, times converted at this moment (R45). -/
def State.aimClaim (s : State) (e : RawEntry) : Option AimClaim :=
  (e.aimTarget (s.toMs (e.units.testBit 1) e.legTime)).map fun t =>
    ⟨t, e.lawOf, s.toMs (e.units.testBit 0) e.moveTime⟩

/-- The COLOUR claim of an entry, its time converted at this moment (R45). -/
def State.colourClaim (s : State) (e : RawEntry) : Option ColourClaim :=
  e.colourTarget.map fun t => ⟨t, s.toMs (e.units.testBit 2) e.fadeTime⟩

end Sys2Proof.Machine
end

