-- ==== Sys2Proof/Machine/Solve.lean ====
section
/-! DEFINITION. The solve (R57 to R64) and the selection of an aim at delivery (R65 to R69). -/

namespace Sys2Proof.Machine

/-- The target minus the stage position (truss offset plus fixture position), axis by axis (R57). -/
def Snapshot.difference (g : Snapshot) : Pos :=
  ⟨g.target.x - (g.truss.x + g.pos.x), g.target.y - (g.truss.y + g.pos.y), g.target.z - (g.truss.z + g.pos.z)⟩

/-- `u, v, w` after rotation by the yaw and the mounting (R58 to R60). -/
def Snapshot.frame (g : Snapshot) : Pos :=
  let d := g.difference
  let r := yawCoefficients g.yaw
  let u := roundHalfUp (d.x * r.1 + d.y * r.2) 16384
  let v := roundHalfUp (-(d.x * r.2) + d.y * r.1) 16384
  match g.mounting with
  | .standing => ⟨u, v, d.z⟩
  | .hung => ⟨u, -v, -d.z⟩

/-- The result for a direction in the fixture frame (R61 to R64). -/
def solveDirection (q : Pos) : SolveResult :=
  if q.x = 0 ∧ q.y = 0 then
    if q.z = 0 then ⟨0, 0, true, false⟩
    else if 0 < q.z then ⟨0, 0, false, true⟩
    else ⟨0, 18000, false, true⟩
  else ⟨panAngle q.x q.y, tiltAngle q.x q.y q.z, false, false⟩

/-- The result of a solve, from its snapshot alone (R56, R64). -/
def Snapshot.solve (g : Snapshot) : SolveResult := solveDirection g.frame

/-- A motion position in whole centidegrees (R65). -/
def toCd (mu : Int) : Int := roundHalfUp mu 16

/-- A candidate pair (R66); branch A is `false`, branch B `true`. -/
structure Candidate where
  branchB : Bool
  pan : Int
  tilt : Int
deriving DecidableEq, Repr

/-- The turns tried for each branch: every `k` that any range of a kind allows (R66). -/
def turns : List Int := [-3, -2, -1, 0, 1, 2, 3]

/-- The candidates of a result with neither flag (R66). -/
def plainCandidates (k : Profile) (phi theta : Int) : List Candidate :=
  ((turns.map fun t => Candidate.mk false (phi + t * 36000) theta) ++
    (turns.map fun t => Candidate.mk true (phi + 18000 + t * 36000) (-theta))).filter
    fun c => decide (k.panMin ≤ c.pan) && decide (c.pan ≤ k.panMax)

/-- The candidates of an AXIAL result, from the present pan in centidegrees (R67). -/
def axialCandidates (k : Profile) (present theta : Int) : List Candidate :=
  ⟨false, present, theta⟩ ::
    if theta = 0 then []
    else
      [Candidate.mk true (present + 18000) (-theta), Candidate.mk true (present - 18000) (-theta)].filter
        fun c => decide (k.panMin ≤ c.pan) && decide (c.pan ≤ k.panMax)

/-- A candidate with its tilt set to the nearer limit, the distance by which it moved, and its cost (R68, R69). -/
structure Scored where
  clamp : Nat
  cost : Nat
  branchB : Bool
  pan : Int
  tilt : Int
deriving DecidableEq, Repr

def scoreCandidate (k : Profile) (pan tilt : Int) (c : Candidate) : Scored :=
  let t := clampInt k.tiltMin k.tiltMax c.tilt
  ⟨(t - c.tilt).natAbs, (c.pan - pan).natAbs + (t - tilt).natAbs, c.branchB, c.pan, t⟩

/-- The order of choice: least clamp amount (0 for a tilt in range), then least cost, then branch A, then the smaller
pan (R68, R69). -/
def Scored.before (a b : Scored) : Bool :=
  if a.clamp ≠ b.clamp then decide (a.clamp < b.clamp)
  else if a.cost ≠ b.cost then decide (a.cost < b.cost)
  else if a.branchB ≠ b.branchB then b.branchB
  else decide (a.pan < b.pan)

/-- The first of a list in the order of choice. -/
def bestScored : List Scored → Option Scored
  | [] => none
  | c :: cs =>
    match bestScored cs with
    | none => some c
    | some b => if b.before c then some b else some c

/-- The candidates of a result against the kind and the present position (R66, R67); none for DEGENERATE (R70). -/
def candidates (k : Profile) (pan : Int) (r : SolveResult) : List Candidate :=
  if r.degenerate then []
  else if r.axial then axialCandidates k pan r.theta
  else plainCandidates k r.phi r.theta

/-- The selected aim from a present position in mu: pan and tilt in centidegrees and whether the tilt was clamped (R65 to
R69); `none` for a DEGENERATE result. -/
def selectAim (k : Profile) (panMu tiltMu : Int) (r : SolveResult) : Option Scored :=
  bestScored ((candidates k (toCd panMu) r).map (scoreCandidate k (toCd panMu) (toCd tiltMu)))

end Sys2Proof.Machine
end

