-- ==== Sys2Proof/Machine/MotionOps.lean ====
section
/-! DEFINITION. What happens to one motion record: plans, steps, braking, sweeps, hand-overs and deliveries (chapter 6,
R70, R71), and the step timer (R97). Each function of a record says what becomes of it and what it reports; one operation
on the state carries that out. -/

namespace Sys2Proof.Machine

/-- What an event does to a motion record: the record after it, a settled report, and the RETARGET and LIMIT_CLAMP
activity events. -/
structure MotionOut where
  after : Motion
  report : Option LaunchTag
  retarget : Bool
  clampEvent : Bool
deriving DecidableEq, Repr

/-- The record changed, nothing reported. -/
def MotionOut.quiet (m : Motion) : MotionOut := ⟨m, none, false, false⟩

/-- The record's item reaches its end (R119): with a tag, and not awaiting a solve unless forced (R113, R117), it is
reported settled and the tag dropped. -/
def Motion.settle (m : Motion) (force : Bool) : MotionOut :=
  if m.awaiting && !force then .quiet m
  else ⟨{ m with tag := none }, m.tag, false, false⟩

/-- A motion record as a fixture's creation makes it, from its home in centidegrees (R7, R96). -/
def Motion.fresh (homePan homeTilt : Int) : Motion where
  mode := .held
  pan := homePan * 16
  tilt := homeTilt * 16
  vPan := 0
  vTilt := 0
  aim := none
  tgtPan := homePan * 16
  tgtTilt := homeTilt * 16
  plan := none
  sweep := none
  awaiting := false
  pendLaw := .timed
  pendMs := 0
  tag := none
  brake := none
  limited := false
  clamped := false

/-! ### TIMED plans (6.4) -/

/-- Requested steps of a move time in ms (R103). -/
def requestedSteps (ms : Nat) : Nat := Nat.min ((ms + 2) / 4) 32767

/-- The least step count for the speed limit (R104). -/
def speedSteps (d vmax : Nat) : Nat := ceilDiv (3 * d) (2 * vmax)

/-- The least step count for the acceleration limit: the least N with N²·amax at least 6·d (R104). -/
def accelSteps (d amax : Nat) : Nat := ceilSqrt (ceilDiv (6 * d) amax)

/-- The least step count the kind's limits allow for two distances; 0 when both are 0 (R104). -/
def limitSteps (k : Profile) (dPan dTilt : Int) : Nat :=
  Nat.max (Nat.max (speedSteps dPan.natAbs k.vmaxPan) (accelSteps dPan.natAbs k.amaxPan))
    (Nat.max (speedSteps dTilt.natAbs k.vmaxTilt) (accelSteps dTilt.natAbs k.amaxTilt))

/-- A plan from a position to a target in a time, with at least `least` steps, at k = 0 (R104, R105, R109). -/
def makePlan (k : Profile) (m : Motion) (pan tilt : Int) (ms least : Nat) : Plan :=
  ⟨m.pan, m.tilt, pan - m.pan, tilt - m.tilt,
    Nat.max least (Nat.max (requestedSteps ms) (limitSteps k (pan - m.pan) (tilt - m.tilt))), 0⟩

/-- LIMITED after a plan: the limits raised its step count above the requested steps (R104). A phase of a sweep with both
distances 0 and no requested steps has N = 1 by R109 and not by the limits: by the model's choice it clears LIMITED (log
entry 39). -/
def planLimited (k : Profile) (m : Motion) (pan tilt : Int) (ms : Nat) : Bool :=
  decide (requestedSteps ms < limitSteps k (pan - m.pan) (tilt - m.tilt))

/-- The fraction f of a plan at step k, 65,536 being the whole (R105). -/
def planFraction (n k : Nat) : Nat :=
  ((3 * k ^ 2 * n - 2 * k ^ 3) * 65536 + n ^ 3 / 2) / n ^ 3

/-- A plan's position on one axis (R105): the shift by 16 is arithmetic. -/
def planPosition (start d : Int) (f : Nat) : Int := start + (d * f + 32768) / 65536

/-- TIMED, CHASE or SWEEP: the record follows a law that a retarget or a brake ends (R101, R113). -/
def Motion.underWay (m : Motion) : Bool :=
  match m.mode with
  | .timed | .chase | .sweep => true
  | .held | .braking => false

/-! ### Starting a move on a stepping record (R101) -/

/-- Starts a TIMED move: a plan from rest, or settled at once when both distances are 0 (R101). -/
def Motion.startTimed (k : Profile) (m : Motion) (pan tilt : Int) (ms : Nat) : MotionOut :=
  let m' : Motion :=
    { m with tgtPan := pan, tgtTilt := tilt, sweep := none, brake := none, vPan := 0, vTilt := 0 }
  if pan = m.pan ∧ tilt = m.tilt then
    { ({ m' with mode := .held, plan := none, limited := false } : Motion).settle false with retarget := m.underWay }
  else
    { MotionOut.quiet
        { m' with
          mode := .timed
          plan := some (makePlan k m pan tilt ms 1)
          limited := planLimited k m pan tilt ms } with
      retarget := m.underWay }

/-- Starts a CHASE: the velocity is kept, and a record at rest on its target settles at once (R101). -/
def Motion.startChase (m : Motion) (pan tilt : Int) : MotionOut :=
  let m' : Motion :=
    { m with tgtPan := pan, tgtTilt := tilt, sweep := none, brake := none, plan := none, limited := false }
  if pan = m.pan ∧ tilt = m.tilt ∧ m.vPan = 0 ∧ m.vTilt = 0 then
    { ({ m' with mode := .held } : Motion).settle false with retarget := m.underWay }
  else { MotionOut.quiet { m' with mode := .chase } with retarget := m.underWay }

/-- Starts a move under a law and time (R101). -/
def Motion.startMove (k : Profile) (m : Motion) (law : Law) (ms : Nat) (pan tilt : Int) : MotionOut :=
  match law with
  | .timed => m.startTimed k pan tilt ms
  | .chase => m.startChase pan tilt

/-- A move on a record that is not stepping: only its target is stored (R102). -/
def Motion.storeTarget (m : Motion) (pan tilt : Int) : MotionOut :=
  .quiet { m with tgtPan := pan, tgtTilt := tilt }

/-! ### Sweeps (6.7) -/

/-- An endpoint of a sweep on one axis, set to the nearer range limit (R109). -/
def endpoint (lo hi centre offset : Int) : Int := clampInt (lo * 16) (hi * 16) (centre + offset)

/-- The sweep record with A and B formed from its centre (R109). -/
def Sweep.formEnds (k : Profile) (w : Sweep) : Sweep :=
  { w with
    aPan := endpoint k.panMin k.panMax w.centrePan (w.panAmp * 16)
    aTilt := endpoint k.tiltMin k.tiltMax w.centreTilt (w.tiltAmp * 16)
    bPan := endpoint k.panMin k.panMax w.centrePan (-(w.panAmp * 16))
    bTilt := endpoint k.tiltMin k.tiltMax w.centreTilt (-(w.tiltAmp * 16)) }

/-- A plan of a phase of a sweep: of at least one step (R109), LIMITED set or cleared by it (R110). -/
def Motion.sweepPlan (k : Profile) (m : Motion) (w : Sweep) (pan tilt : Int) (ms : Nat) : Motion :=
  { m with
    mode := .sweep
    sweep := some w
    vPan := 0
    vTilt := 0
    plan := some (makePlan k m pan tilt ms 1)
    limited := planLimited k m pan tilt ms }

/-- A sweep begins on a stepping record, about a centre in mu, with its first-move time (R109). -/
def Motion.beginSweep (k : Profile) (m : Motion) (panAmp tiltAmp legMs legs : Nat) (pan tilt : Int) (ms : Nat) :
    MotionOut :=
  let w : Sweep :=
    Sweep.formEnds k ⟨pan, tilt, 0, 0, 0, 0, panAmp, tiltAmp, legMs, legs, decide (legs = 0), true, .toA, true⟩
  { MotionOut.quiet
      (({ m with tgtPan := pan, tgtTilt := tilt, brake := none } : Motion).sweepPlan k w w.aPan w.aTilt ms) with
    retarget := m.underWay }

/-- A leg starts: a new centre is applied, and the leg runs to B and A in turn (R110). -/
def Motion.startLeg (k : Profile) (m : Motion) (w : Sweep) : Motion :=
  let w' := w.formEnds k
  if w.nextToB then m.sweepPlan k { w' with phase := .leg, nextToB := false } w'.bPan w'.bTilt w'.legMs
  else m.sweepPlan k { w' with phase := .leg, nextToB := true } w'.aPan w'.aTilt w'.legMs

/-- A move to the centre inside the sweep (R110, R111, R116). -/
def Motion.toCentre (k : Profile) (m : Motion) (w : Sweep) (ms : Nat) : Motion :=
  m.sweepPlan k { w with phase := .toCentre } w.centrePan w.centreTilt ms

/-- The plan of a phase has reached its end (R110). -/
def Motion.endPhase (k : Profile) (m : Motion) (w : Sweep) : MotionOut :=
  match w.phase with
  | .toA =>
    let m' := m.startLeg k w
    if w.endless then m'.settle false else .quiet m'
  | .leg =>
    if w.endless then .quiet (m.startLeg k w)
    else if w.legsLeft ≤ 1 then .quiet (m.toCentre k { w with legsLeft := 0 } w.legMs)
    else .quiet (m.startLeg k { w with legsLeft := w.legsLeft - 1 })
  | .toCentre =>
    if w.centrePan = m.pan ∧ w.centreTilt = m.tilt then
      ({ m with mode := .held, plan := none, sweep := some { w with phase := .done } } : Motion).settle false
    else .quiet (m.toCentre k w w.legMs)
  | .done => .quiet { m with mode := .held, plan := none }

/-! ### Braking (6.8) -/

/-- A record under way drops its plan and sweep and brakes; at rest already, it is HELD at once with the same reports
(R113). -/
def Motion.startBrake (m : Motion) (cause : BrakeCause) : MotionOut :=
  let m' : Motion := { m with plan := none, sweep := none, mode := .braking, brake := some cause }
  if m.vPan = 0 ∧ m.vTilt = 0 then
    let h : Motion := { m' with mode := .held, brake := none }
    if cause = .halt then h.settle true else .quiet h
  else .quiet m'

/-! ### One motion step (R97) -/

/-- A new position on one axis after the range clamp: position and velocity (R108). -/
def rangeClamp (lo hi pos vel : Int) : Int × Int :=
  if pos < lo * 16 then (lo * 16, 0) else if hi * 16 < pos then (hi * 16, 0) else (pos, vel)

/-- The desired velocity of a chase axis from its error (R106). -/
def desiredVelocity (vmax amax gain : Nat) (e : Int) : Int :=
  e.sign * (Nat.min vmax (Nat.min (e.natAbs * gain / 256) (isqrt (2 * amax * e.natAbs))) : Nat)

/-- One axis under CHASE (R106 to R108): position, velocity and whether it snapped. -/
def chaseAxis (lo hi : Int) (vmax amax gain : Nat) (target pos vel : Int) : Int × Int × Bool :=
  let v := vel + clampInt (-(amax : Int)) amax (desiredVelocity vmax amax gain (target - pos) - vel)
  let r := rangeClamp lo hi (pos + v) v
  if (target - r.1).natAbs ≤ amax ∧ r.2.natAbs ≤ amax then (target, 0, true) else (r.1, r.2, false)

/-- One axis under braking: position and velocity (R113, R108). -/
def brakeAxis (lo hi : Int) (amax : Nat) (pos vel : Int) : Int × Int :=
  let v := vel - clampInt (-(amax : Int)) amax vel
  rangeClamp lo hi (pos + v) v

/-- A step of the plan in progress, with its end left to the caller (R105, R108). -/
def Motion.planStep (k : Profile) (m : Motion) (p : Plan) : Motion :=
  let f := planFraction p.n (p.k + 1)
  let pan := planPosition p.startPan p.dPan f
  let tilt := planPosition p.startTilt p.dTilt f
  let a := rangeClamp k.panMin k.panMax pan (pan - m.pan)
  let b := rangeClamp k.tiltMin k.tiltMax tilt (tilt - m.tilt)
  { m with pan := a.1, vPan := a.2, tilt := b.1, vTilt := b.2, plan := some { p with k := p.k + 1 } }

/-- A TIMED step; at k = N the record is HELD and settles (R105). -/
def Motion.timedStep (k : Profile) (m : Motion) : MotionOut :=
  match m.plan with
  | none => .quiet m
  | some p =>
    let m' := m.planStep k p
    if p.k + 1 < p.n then .quiet m'
    else ({ m' with mode := .held, plan := none, vPan := 0, vTilt := 0 } : Motion).settle false

/-- A SWEEP step; at k = N the phase ends (R105, R110). -/
def Motion.sweepStep (k : Profile) (m : Motion) : MotionOut :=
  match m.plan, m.sweep with
  | some p, some w =>
    let m' := m.planStep k p
    if p.k + 1 < p.n then .quiet m' else ({ m' with vPan := 0, vTilt := 0 } : Motion).endPhase k w
  | _, _ => .quiet m

/-- A CHASE step; when both axes have snapped the record is HELD and settles (R106, R107). -/
def Motion.chaseStep (k : Profile) (m : Motion) : MotionOut :=
  let a := chaseAxis k.panMin k.panMax k.vmaxPan k.amaxPan k.gain m.tgtPan m.pan m.vPan
  let b := chaseAxis k.tiltMin k.tiltMax k.vmaxTilt k.amaxTilt k.gain m.tgtTilt m.tilt m.vTilt
  let m' : Motion := { m with pan := a.1, vPan := a.2.1, tilt := b.1, vTilt := b.2.1 }
  if a.2.2 && b.2.2 then ({ m' with mode := .held } : Motion).settle false else .quiet m'

/-- A BRAKING step; at rest the record is HELD, and a HALT settles its item (R113). -/
def Motion.brakeStep (k : Profile) (m : Motion) : MotionOut :=
  let a := brakeAxis k.panMin k.panMax k.amaxPan m.pan m.vPan
  let b := brakeAxis k.tiltMin k.tiltMax k.amaxTilt m.tilt m.vTilt
  let m' : Motion := { m with pan := a.1, vPan := a.2, tilt := b.1, vTilt := b.2 }
  if a.2 = 0 ∧ b.2 = 0 then
    let h : Motion := { m' with mode := .held, brake := none }
    if m.brake = some .halt then h.settle true else .quiet h
  else .quiet m'

/-- One motion step of a record under its state's law (R97). -/
def Motion.step (k : Profile) (m : Motion) : MotionOut :=
  match m.mode with
  | .held => .quiet m
  | .timed => m.timedStep k
  | .chase => m.chaseStep k
  | .sweep => m.sweepStep k
  | .braking => m.brakeStep k

/-! ### Taking an aim (6.3) -/

/-- The old sweep record no longer belongs to the aim just handed over (R112). -/
def Motion.oldSweep (m : Motion) : Motion :=
  { m with sweep := m.sweep.map fun w => { w with current := false } }

/-- Angles set to the nearer limits of the kind, in mu, and whether either was changed (R98). -/
def clampAngles (k : Profile) (pan tilt : Int) : Int × Int × Bool :=
  let a := clampInt k.panMin k.panMax pan
  let b := clampInt k.tiltMin k.tiltMax tilt
  (a * 16, b * 16, decide (a ≠ pan) || decide (b ≠ tilt))

/-- A hand-over of an aim with its law, time and tag (R98, R102). -/
def Motion.takeAim (k : Profile) (stepping : Bool) (m : Motion) (t : AimTarget) (law : Law) (ms : Nat)
    (tag : Option LaunchTag) : MotionOut :=
  let m' : Motion := { m.oldSweep with aim := some t, tag := tag }
  match t with
  | .point _ => .quiet { m' with awaiting := true, pendLaw := law, pendMs := ms }
  | .sweep (.point _) .. => .quiet { m' with awaiting := true, pendLaw := .timed, pendMs := ms }
  | .angles pan tilt =>
    let c := clampAngles k pan tilt
    let m'' : Motion := { m' with awaiting := false, clamped := c.2.2 }
    { (if stepping then m''.startMove k law ms c.1 c.2.1 else m''.storeTarget c.1 c.2.1) with clampEvent := c.2.2 }
  | .sweep (.angles pan tilt) panAmp tiltAmp legMs legs =>
    let c := clampAngles k pan tilt
    let m'' : Motion := { m' with awaiting := false, clamped := c.2.2 }
    { (if stepping then m''.beginSweep k panAmp tiltAmp legMs legs c.1 c.2.1 ms else m''.storeTarget c.1 c.2.1) with
      clampEvent := c.2.2 }

/-- The AIM stack has become empty (R98, R44). -/
def Motion.noAim (m : Motion) : MotionOut :=
  let m' : Motion := { m with aim := none, awaiting := false, tag := none }
  match m.mode with
  | .held => .quiet { m' with tgtPan := m.pan, tgtTilt := m.tilt }
  | .timed | .chase | .sweep => m'.startBrake .release
  | .braking => .quiet m'

/-- The record is told of a re-aim, with the law it would be started under (R99). -/
def Motion.reaim (m : Motion) (law : Law) : Motion :=
  if m.awaiting then m else { m with awaiting := true, pendLaw := law, pendMs := 0 }

/-- A centre delivered to a stepping record whose aim is a SWEEP (R109, R111). By the model's choice R111 holds too for the
first centre of a sweep that R116 has begun about the old target while its solve was awaited: it replaces the centre and
starts no move of its own (log entry 43). -/
def Motion.takeCentre (k : Profile) (m : Motion) (panAmp tiltAmp legMs legs : Nat) (ms : Nat) (pan tilt : Int) :
    MotionOut :=
  match m.sweep with
  | some w =>
    if w.current then
      if w.phase = .done then
        .quiet (({ m with tgtPan := pan, tgtTilt := tilt, brake := none } : Motion).toCentre k
          { w with centrePan := pan, centreTilt := tilt } w.legMs)
      else
        .quiet { m with tgtPan := pan, tgtTilt := tilt, sweep := some { w with centrePan := pan, centreTilt := tilt } }
    else m.beginSweep k panAmp tiltAmp legMs legs pan tilt ms
  | none => m.beginSweep k panAmp tiltAmp legMs legs pan tilt ms

/-- A selected aim in mu delivered to a record (R100, R102). A sweep that a delivery begins takes the pending time as its
first-move time; by the model's choice also where no solve was awaited and R109 names no time (log entry 44). -/
def Motion.takeDelivery (k : Profile) (stepping : Bool) (m : Motion) (pan tilt : Int) : MotionOut :=
  let m' : Motion := { m with awaiting := false }
  if stepping then
    match m.aim with
    | some (.sweep _ panAmp tiltAmp legMs legs) =>
      m'.takeCentre k panAmp tiltAmp legMs legs m.pendMs pan tilt
    | _ => if m.awaiting then m'.startMove k m.pendLaw m.pendMs pan tilt else m'.startChase pan tilt
  else m'.storeTarget pan tilt

/-- A DEGENERATE result delivered to a record (R70). -/
def Motion.takeDegenerate (stepping : Bool) (m : Motion) : MotionOut :=
  if stepping then
    ({ m with
        awaiting := false, plan := none, sweep := none, brake := none, mode := .held, vPan := 0, vTilt := 0,
        clamped := false } : Motion).settle false
  else .quiet { m with awaiting := false, clamped := false, sweep := none, tgtPan := m.pan, tgtTilt := m.tilt }

/-- A result delivered to a record: the selection against its present position and the aim it gives (R65 to R71). -/
def Motion.deliver (k : Profile) (stepping : Bool) (m : Motion) (r : SolveResult) : MotionOut :=
  match selectAim k m.pan m.tilt r with
  | none => m.takeDegenerate stepping
  | some c =>
    { ({ m with clamped := decide (c.clamp ≠ 0) } : Motion).takeDelivery k stepping (c.pan * 16) (c.tilt * 16) with
      clampEvent := decide (c.clamp ≠ 0) }

/-! ### STOP, STANDBY and START (6.9, 6.10) -/

/-- A sweep that is carried on: a zero-time move to the centre when it is DONE, else the sweep begun anew (R116). A DONE
sweep record left by an earlier aim does not count as the present aim's: by the model's choice the new sweep is begun
(R112, log entry 46). -/
def Motion.resumeSweep (k : Profile) (m : Motion) (panAmp tiltAmp legMs legs : Nat) : MotionOut :=
  match m.sweep with
  | some w =>
    if w.current && decide (w.phase = .done) then
      .quiet (({ m with brake := none } : Motion).toCentre k
        { w with centrePan := m.tgtPan, centreTilt := m.tgtTilt } 0)
    else m.beginSweep k panAmp tiltAmp legMs legs m.tgtPan m.tgtTilt 0
  | none => m.beginSweep k panAmp tiltAmp legMs legs m.tgtPan m.tgtTilt 0

/-- A record resumed when STOP goes low (R116). -/
def Motion.resume (k : Profile) (m : Motion) : MotionOut :=
  match m.aim with
  | none => .quiet m
  | some (.point _) | some (.angles ..) => m.startTimed k m.tgtPan m.tgtTilt 0
  | some (.sweep _ panAmp tiltAmp legMs legs) => m.resumeSweep k panAmp tiltAmp legMs legs

/-- A record at START with STOP low: aims by angles are started, aims at points wait for their re-aim (R118). -/
def Motion.startLive (k : Profile) (m : Motion) : MotionOut :=
  match m.aim with
  | some (.angles ..) => m.startTimed k m.tgtPan m.tgtTilt 0
  | some (.sweep (.angles ..) panAmp tiltAmp legMs legs) => m.resumeSweep k panAmp tiltAmp legMs legs
  | _ => .quiet m

/-- A record at STOP going high (R115). -/
def Motion.stopHigh (m : Motion) : MotionOut :=
  if m.underWay then m.startBrake .stop else .quiet m

/-- A record at the halt of its fixture (R114). -/
def Motion.halt (m : Motion) : MotionOut :=
  match m.mode with
  | .held => .quiet m
  | .braking => .quiet { m with brake := some .halt }
  | _ => m.startBrake .halt

/-- A record at entry into STANDBY: HELD where it stands, its item settled (R117). -/
def Motion.standby (m : Motion) : MotionOut :=
  ({ m with
      mode := .held, vPan := 0, vTilt := 0, plan := none, brake := none,
      sweep := m.sweep.filter fun w => decide (w.phase = .done) } : Motion).settle true

/-! ### On the state -/

/-- The step timer follows its condition: it runs while the part is LIVE and either STOP is low or a record brakes, and
begins a full period when it starts (R97). -/
def State.syncStepTimer (s : State) : State :=
  if s.part = .live ∧
      (s.motion.stopSeen = false ∨ s.motion.records.any (fun e => e.2.any fun m => decide (m.mode = .braking)) = true) then
    match s.motion.timer with
    | some _ => s
    | none => s.withMotion { s.motion with timer := some (s.now + 4000) }
  else s.withMotion { s.motion with timer := none, due := [] }

/-- Carries out what an event does to the record of fixture `f`. -/
def State.applyMotion (s : State) (f : Nat) (o : MotionOut) : State :=
  let s := s.setMotionOf f (some o.after)
  let s := if o.retarget then s.raiseOnce .retarget else s
  let s := if o.clampEvent then s.raiseOnce .limitClamp else s
  match o.report with
  | some t => s.settleAim f t
  | none => s

/-- An event on the record of one fixture, when it has one. -/
def State.onMotion (s : State) (f : Nat) (g : Profile → Motion → MotionOut) : State :=
  match s.motionOf f, s.profileOf f with
  | some m, some k => s.applyMotion f (g k m)
  | _, _ => s

/-- An event on the records of several fixtures, in order. -/
def State.onMotions (s : State) (g : Profile → Motion → MotionOut) : List Nat → State
  | [] => s
  | f :: fs => (s.onMotion f g).onMotions g fs

/-- The law of a re-aim made by a pose change, SET_TRUSS or START: the law of the top AIM entry for a POINT, TIMED for a
SWEEP (R99). -/
def State.reaimLaw (s : State) (f : Nat) : Law :=
  match (s.aimStack f).head? with
  | some e =>
    match e.body.target with
    | .sweep .. => .timed
    | _ => e.body.law
  | none => .timed

end Sys2Proof.Machine
end

