-- ==== Sys2Proof/Machine/SolverOps.lean ====
section
/-! DEFINITION. Solve requests, the Solve Cache, job slots and the owed set (chapter 5), with the delivery of results to
the Motion Engine (R77, R91) and the re-aims of fixtures (R99). -/

namespace Sys2Proof.Machine

/-! ### The Solve Cache (5.2) -/

def State.cacheEntry (s : State) (i : Nat) : CacheEntry := Store.get CacheEntry.empty s.cache.entries i

/-- Whether entry `i` is valid and holds the key (R77). -/
def State.cacheHolds (s : State) (f p i : Nat) : Bool :=
  (s.cacheEntry i).valid && decide ((s.cacheEntry i).fixture = f) && decide ((s.cacheEntry i).point = p)

/-- The valid entry that holds a key, when one does (R76, R77). -/
def State.cacheFind (s : State) (f p : Nat) : Option Nat := (List.range 32).find? (s.cacheHolds f p)

/-- The pointer advanced by one, from 31 to 0 (R77, R78). -/
def nextEntry (i : Nat) : Nat := if i = 31 then 0 else i + 1

def State.setCacheEntry (s : State) (i : Nat) (e : CacheEntry) : State :=
  s.withCache { s.cache with entries := Store.set CacheEntry.empty s.cache.entries i e }

def State.setPointer (s : State) (i : Nat) : State := s.withCache { s.cache with pointer := i }

/-- Stores a result under its key, in place or at the pointer (R78). -/
def State.cacheFill (s : State) (f p : Nat) (r : SolveResult) : State :=
  match s.cacheFind f p with
  | some i => s.setCacheEntry i ⟨true, f, p, r⟩
  | none => (s.setCacheEntry s.cache.pointer ⟨true, f, p, r⟩).setPointer (nextEntry s.cache.pointer)

/-- Clears the valid flag of the listed entries that match (R79). -/
def State.invalidateFrom (s : State) (q : CacheEntry → Bool) : List Nat → State
  | [] => s
  | i :: is =>
    (if (s.cacheEntry i).valid && q (s.cacheEntry i) then
        s.setCacheEntry i { s.cacheEntry i with valid := false }
      else s).invalidateFrom q is

/-- Clears the valid flag of every valid entry that matches; other fields and the pointer stay (R79). -/
def State.invalidate (s : State) (q : CacheEntry → Bool) : State := s.invalidateFrom q (List.range 32)

/-- How many entries are valid. -/
def State.validEntries (s : State) : Nat := ((List.range 32).filter fun i => (s.cacheEntry i).valid).length

/-! ### Job slots (5.3) and the owed set (5.4) -/

/-- The jobs that hold a slot: the QUEUED ones and the SOLVING one. -/
def Solver.jobs (q : Solver) : List Job :=
  match q.solving with
  | some j => j.1 :: q.queued
  | none => q.queued

/-- Slots in use of a pool (R81). -/
def Solver.used (q : Solver) (pool : Pool) : Nat := (q.jobs.filter fun j => decide (j.pool = pool)).length

/-- Slots in use in all pools. -/
def Solver.usedAll (q : Solver) : Nat := q.jobs.length

/-- The pool a new job of a class takes a slot from: shared first, then the reserve of the class (R83). -/
def Solver.freePool (q : Solver) (c : Cls) : Option Pool :=
  if q.used .shared < 24 then some .shared
  else if q.used (.reserve c) < 2 then some (.reserve c)
  else none

/-- Replaces point and class of the fixture's QUEUED job (R82). -/
def coalesce (f p : Nat) (c : Cls) (jobs : List Job) : List Job :=
  jobs.map fun j => if j.fixture = f then { j with point := p, cls := c } else j

def Solver.hasQueued (q : Solver) (f : Nat) : Bool := q.queued.any fun j => decide (j.fixture = f)

/-- The class of the owed mark of fixture `f` (5.4). -/
def State.owedMark (s : State) (f : Nat) : Option Cls := Store.get none s.solver.owed f

def State.setOwed (s : State) (f : Nat) (c : Option Cls) : State :=
  s.withSolver { s.solver with owed := Store.set none s.solver.owed f c }

/-- The fixtures marked with a class, ascending (R87). -/
def State.owedOf (s : State) (c : Cls) : List Nat := (List.range 256).filter fun f => decide (s.owedMark f = some c)

/-- A result given to the motion record of fixture `f` (R65, R77, R91). -/
def State.deliver (s : State) (f : Nat) (r : SolveResult) : State :=
  s.onMotion f fun k m => m.deliver k s.motionStepping r

/-- How a request was disposed of (R75). -/
inductive Disposal where
  | hit | queued | owed
deriving DecidableEq, Repr

/-- QUEUE_OCCUPANCY after a request that missed (R93). -/
def State.raiseOccupancy (s : State) (c : Cls) : State := s.raise .queueOccupancy (some c) s.solver.usedAll

/-- A request that hits entry `i` (R77): the mark goes, the pointer may advance, the result is delivered. -/
def State.requestHit (s : State) (f i : Nat) (c : Cls) : State :=
  let r := (s.cacheEntry i).result
  let s := (s.raiseJob .cacheHit c).setOwed f none
  let s := if s.cache.pointer = i then s.setPointer (nextEntry i) else s
  s.deliver f r

/-- A request that misses: coalesced, given a slot, or rejected (R82 to R84). -/
def State.requestMiss (s : State) (f p : Nat) (c : Cls) : State × Disposal :=
  let s := s.raiseJob .cacheMiss c
  if s.solver.hasQueued f then
    let s := (s.withSolver { s.solver with queued := coalesce f p c s.solver.queued }).setOwed f none
    (s.raiseOccupancy c, .queued)
  else
    match s.solver.freePool c with
    | some pool =>
      let s := (s.withSolver { s.solver with queued := s.solver.queued ++ [⟨f, p, c, pool⟩] }).setOwed f none
      ((s.raiseJob (if pool = .shared then .jobShared else .jobReserved) c).raiseOccupancy c, .queued)
    | none =>
      let s := ((s.raiseJob .jobRejected c).setOwed f (some c)).notifySolveRejected f c
      (s.raiseOccupancy c, .owed)

/-- A solve request for fixture `f` and point `p` of a class, handled within the event that issues it (R75). -/
def State.request (s : State) (f p : Nat) (c : Cls) : State × Disposal :=
  match s.cacheFind f p with
  | some i => (s.requestHit f i c, .hit)
  | none => s.requestMiss f p c

/-- Whether a point is SET (2.1). -/
def State.isSet (s : State) (p : Nat) : Bool := (s.point p).pos.isSome

/-- A re-aim of fixture `f` for point `p`: the record is told, then the request is handled; nothing happens while the
point is UNSET (R99, R22). Answers whether a request was issued. -/
def State.reaim (s : State) (f p : Nat) (law : Law) (c : Cls) : State × Bool :=
  if s.isSet p then
    (((s.onMotion f fun _ m => .quiet (m.reaim law)).request f p c).1, true)
  else (s, false)

/-! ### Freed slots (5.5) -/

/-- Serves the marks of the listed fixtures in order until a request takes a slot (R87); answers whether one did. -/
def State.serveMarks (s : State) : List Nat → State × Bool
  | [] => (s, false)
  | f :: fs =>
    match s.owedMark f with
    | none => s.serveMarks fs
    | some c =>
      match s.aimedAt f with
      | some p =>
        if s.isSet p then
          match s.request f p c with
          | (s', .hit) => s'.serveMarks fs
          | (s', _) => (s', true)
        else (s.setOwed f none).serveMarks fs
      | none => (s.setOwed f none).serveMarks fs

/-- The owed service after a slot of a pool is freed (R87, R88). -/
def State.owedService (s : State) : Pool → State
  | .reserve c => (s.serveMarks (s.owedOf c)).1
  | .shared => (s.serveMarks (s.owedOf .cue ++ s.owedOf .direct ++ s.owedOf .rig ++ s.owedOf .track)).1

/-- The pool of the fixture's QUEUED job, when it has one. -/
def Solver.queuedPool (q : Solver) (f : Nat) : Option Pool :=
  (q.queued.find? fun j => decide (j.fixture = f)).map fun j => j.pool

/-- A fixture's QUEUED job is freed and its mark removed, and the freed slot is served (R10, R85, R86). -/
def State.dropJobs (s : State) (f : Nat) : State :=
  let pool := s.solver.queuedPool f
  let s := (s.withSolver { s.solver with queued := s.solver.queued.filter fun j => !decide (j.fixture = f) }).setOwed f
    none
  match pool with
  | some p => s.owedService p
  | none => s

/-! ### The solver lane (5.6) -/

/-- The snapshot of a job, when its point is SET and its fixture PATCHED (R56, R89). -/
def State.snapshot (s : State) (j : Job) : Snapshot :=
  match s.patchOf j.fixture with
  | some p =>
    ⟨((s.point j.point).pos).getD ⟨0, 0, 0⟩, p.pos, p.yaw, p.mounting, s.trussOffset p.truss, (s.point j.point).gen,
      (s.fixture j.fixture).gen⟩
  | none =>
    ⟨((s.point j.point).pos).getD ⟨0, 0, 0⟩, ⟨0, 0, 0⟩, 0, .standing, ⟨0, 0, 0⟩, (s.point j.point).gen,
      (s.fixture j.fixture).gen⟩

/-- A job may start: the lane is idle and a job is QUEUED (R89). -/
def State.jobReady (s : State) : Bool := s.solver.solving.isNone && !s.solver.queued.isEmpty

/-- The lane starts the front job of the order of arrival (R89). -/
def State.startJob (s : State) : State :=
  match s.solver.solving, s.solver.queued with
  | none, j :: js => s.withSolver { s.solver with queued := js, solving := some (j, s.snapshot j) }
  | _, _ => s

/-- A result whose generations match: the fill, and the delivery when the fixture is still aimed at the point (R91). -/
def State.keepResult (s : State) (j : Job) (r : SolveResult) : State :=
  let s := s.cacheFill j.fixture j.point r
  if s.aimedAt j.fixture = some j.point then s.deliver j.fixture r else s

/-- Whether a snapshot's generations are the present ones (R90). -/
def State.generationsMatch (s : State) (j : Job) (g : Snapshot) : Bool :=
  decide (g.pointGen = (s.point j.point).gen) && decide (g.poseGen = (s.fixture j.fixture).gen)

/-- The completion of the SOLVING job (R90, R91): check, fill and delivery or discard, slot freed, owed service. -/
def State.completeJob (s : State) : State :=
  match s.solver.solving with
  | none => s
  | some (j, g) =>
    let s := if s.generationsMatch j g then s.keepResult j g.solve else s.raiseJob .resultDiscarded j.cls
    (s.withSolver { s.solver with solving := none }).owedService j.pool

end Sys2Proof.Machine
end

