-- ==== Sys2Proof/Machine/ClaimOps.lean ====
section
/-! DEFINITION. Placing and releasing claims, their reports, and the hand-over of a new active target (chapter 3). -/

namespace Sys2Proof.Machine

variable {α : Type}

/-! ### One stack -/

/-- The answer to a claimant (R39). -/
inductive ClaimAnswer where
  | active | below | notPlaced
deriving DecidableEq, Repr

/-- The entry put directly above the highest one of equal or lower priority, else at the bottom (R39, part 2). -/
def insertEntry (e : Entry α) : List (Entry α) → List (Entry α)
  | [] => [e]
  | x :: xs => if x.prio ≤ e.prio then e :: x :: xs else x :: insertEntry e xs

/-- The tags that entries owe a report for (R40). -/
def owedTags : List (Entry α) → List LaunchTag
  | [] => []
  | e :: es =>
    match e.owed, e.tag with
    | true, some t => t :: owedTags es
    | _, _ => owedTags es

/-- Report owed cleared on the second entry of a stack: the one that has just lost the top (R40, part 2). -/
def clearSecond : List (Entry α) → List (Entry α)
  | a :: b :: l => a :: { b with owed := false } :: l
  | l => l

/-- What a claim does to a stack: the stack after it, the superseded reports in order, the answer, and whether the stack
has a new top entry, which is then handed over (R42). -/
structure Placement (α : Type) where
  stack : List (Entry α)
  reports : List LaunchTag
  answer : ClaimAnswer
  newTop : Bool

/-- Whether the top entry of a stack is of a source. -/
def topIsSource (source : Nat) (l : List (Entry α)) : Bool := (l.head?).any fun x => decide (x.source = source)

/-- Whether a stack holds an entry of a source. -/
def holdsSource (source : Nat) (l : List (Entry α)) : Bool := l.any fun x => decide (x.source = source)

/-- A stack without the entries of a source. -/
def withoutSource (source : Nat) (l : List (Entry α)) : List (Entry α) := l.filter fun x => !decide (x.source = source)

/-- The entries of a source in a stack. -/
def ofSource (source : Nat) (l : List (Entry α)) : List (Entry α) := l.filter fun x => decide (x.source = source)

/-- A claim on one stack (R39, R40): removal, insertion, eviction; reports of entries that left, then of the entry that
lost the top; report owed on the new entry when it is active and carries a tag. A placed claim below a stack whose top
was the claimant's own old entry uncovers another entry, a new top (log entry 9). -/
def placeClaim (stack : List (Entry α)) (source prio : Nat) (body : α) (tag : Option LaunchTag) : Placement α :=
  let own := ofSource source stack
  let rest := withoutSource source stack
  let all := insertEntry ⟨source, prio, body, tag, false⟩ rest
  let kept := all.take 4
  let gone := withoutSource source (all.drop 4)
  if holdsSource source kept then
    match kept with
    | e :: below =>
      if e.source = source then
        if topIsSource source stack then
          ⟨{ e with owed := tag.isSome } :: below, owedTags (own ++ gone), .active, true⟩
        else
          ⟨clearSecond ({ e with owed := tag.isSome } :: below), owedTags (own ++ gone) ++ owedTags (rest.take 1),
            .active, true⟩
      else ⟨kept, owedTags (own ++ gone), .below, topIsSource source stack⟩
    | [] => ⟨stack, [], .notPlaced, false⟩
  else ⟨stack, [], .notPlaced, false⟩

/-! ### Sources (3.1) -/

/-- The present priority of a source. -/
def State.priority (s : State) (source : Nat) : Nat := s.claims.prio.getD source 0

/-- The request class of a source: CUE for the lists, TRACK for FOLLOW, DIRECT for DIRECT (R42). -/
def sourceClass (source : Nat) : Cls := if source ≤ 7 then .cue else if source = 8 then .track else .direct

/-- The tag an entry's hand-over carries: its own when report owed is set (R42). -/
def Entry.handedTag (e : Entry α) : Option LaunchTag := if e.owed then e.tag else none

/-! ### Hand-over (3.4) -/

/-- The new active AIM target is handed over with a time (R42); answers whether its solve request was left owed. -/
def State.handAim (s : State) (f : Nat) (e : Entry AimClaim) (ms : Nat) : State × Bool :=
  let s := s.onMotion f fun k m => m.takeAim k s.motionStepping e.body.target e.body.law ms e.handedTag
  match e.body.target.pointOf with
  | some p =>
    if s.isSet p then
      let r := s.request f p (sourceClass e.source)
      (r.1, decide (r.2 = .owed))
    else (s, false)
  | none => (s.setOwed f none, false)

/-- The AIM stack has become empty: the engine and the Solve Queue are told (R44, R85). -/
def State.handNoAim (s : State) (f : Nat) : State := (s.onMotion f fun _ m => m.noAim).setOwed f none

/-! ### Claims (3.3) -/

/-- What a claim is answered, and whether its stack has a new top to hand over. -/
structure Placed where
  answer : ClaimAnswer
  newTop : Bool
deriving DecidableEq, Repr

/-- An AIM claim placed, with its reports, up to the answer (R39, R40 parts 1 to 3). -/
def State.placeAim (s : State) (f source : Nat) (c : AimClaim) (tag : Option LaunchTag) : State × Placed :=
  let p := placeClaim (s.aimStack f) source (s.priority source) c tag
  ((s.setAimStack f p.stack).reportAllSuperseded p.reports, ⟨p.answer, p.newTop⟩)

/-- The hand-over of an AIM stack's new top after a claim, with the entry's own time (R40, part 4; R42). -/
def State.handTopAim (s : State) (f : Nat) : State × Bool :=
  match (s.aimStack f).head? with
  | some e => s.handAim f e e.body.ms
  | none => (s, false)

/-- The hand-over after a claim, when there is a new top; answers whether the request was left owed. -/
def State.finishAim (s : State) (f : Nat) (p : Placed) : State × Bool :=
  if p.newTop then s.handTopAim f else (s, false)

/-- A whole AIM claim of a source other than a launch (R39 to R42): the answer, and whether it was left owed. -/
def State.claimAim (s : State) (f source : Nat) (c : AimClaim) : State × ClaimAnswer × Bool :=
  let r := s.placeAim f source c none
  let h := r.1.finishAim f r.2
  (h.1, r.2.answer, h.2)

/-- A COLOUR claim placed, with its reports, up to the answer (R39, R40 parts 1 to 3). -/
def State.placeColour (s : State) (f source : Nat) (c : ColourClaim) (tag : Option LaunchTag) : State × Placed :=
  let p := placeClaim (s.colourStack f) source (s.priority source) c tag
  ((s.setColourStack f p.stack).reportAllSuperseded p.reports, ⟨p.answer, p.newTop⟩)

/-- The hand-over of a COLOUR stack's new top after a claim (R43). -/
def State.handTopColour (s : State) (f : Nat) : State :=
  match (s.colourStack f).head? with
  | some e => s.handColour f e.body.target e.body.ms e.handedTag
  | none => s

/-- The hand-over after a claim, when there is a new top. -/
def State.finishColour (s : State) (f : Nat) (p : Placed) : State := if p.newTop then s.handTopColour f else s

/-- A whole COLOUR claim of a source other than a launch. -/
def State.claimColour (s : State) (f source : Nat) (c : ColourClaim) : State × ClaimAnswer :=
  let r := s.placeColour f source c none
  (r.1.finishColour f r.2, r.2.answer)

/-! ### Releases (3.6) -/

/-- The superseded reports of a release (R46, part 2). -/
def releaseReports (source : Nat) (l : List (Entry α)) : List LaunchTag :=
  owedTags (ofSource source l)

/-- A source released from an AIM stack with a release time (R46); answers whether it held an entry. -/
def State.releaseAim (s : State) (f source ms : Nat) : State × Bool :=
  let l := s.aimStack f
  if holdsSource source l then
    let s := (s.setAimStack f (withoutSource source l)).reportAllSuperseded (releaseReports source l)
    if topIsSource source l then
      match (withoutSource source l).head? with
      | some e => ((s.handAim f e ms).1, true)
      | none => (s.handNoAim f, true)
    else (s, true)
  else (s, false)

/-- A source released from a COLOUR stack with a release time (R46). -/
def State.releaseColour (s : State) (f source ms : Nat) : State × Bool :=
  let l := s.colourStack f
  if holdsSource source l then
    let s := (s.setColourStack f (withoutSource source l)).reportAllSuperseded (releaseReports source l)
    if topIsSource source l then
      match (withoutSource source l).head? with
      | some e => (s.handColour f e.body.target ms e.handedTag, true)
      | none => (s.handNoColour f, true)
    else (s, true)
  else (s, false)

/-- Both stacks of a fixture emptied, with superseded reports and no hand-over (R53). -/
def State.emptyStacks (s : State) (f : Nat) : State :=
  let a := owedTags (s.aimStack f)
  let c := owedTags (s.colourStack f)
  ((((s.setAimStack f []).setColourStack f []).reportAllSuperseded a)).reportAllSuperseded c

/-- A fixture holds claims when either of its stacks holds an entry (1.2). -/
def State.holdsClaims (s : State) (f : Nat) : Bool := !(s.aimStack f).isEmpty || !(s.colourStack f).isEmpty

/-- The counts of a claim command after one fixture (R47). -/
def ClaimCounts.add (c : ClaimCounts) (a : ClaimAnswer) (owed : Bool) : ClaimCounts :=
  let c := if owed then { c with owed := c.owed + 1 } else c
  match a with
  | .active => { c with active := c.active + 1 }
  | .below => { c with below := c.below + 1 }
  | .notPlaced => { c with notPlaced := c.notPlaced + 1 }

/-- The counts of a release command after one fixture (R49). -/
def ReleaseCounts.add (c : ReleaseCounts) (released : Bool) : ReleaseCounts :=
  if released then { c with released := c.released + 1 } else { c with nothing := c.nothing + 1 }

end Sys2Proof.Machine
end

