-- ==== Sys2Proof/Machine/CueOps.lean ====
section
/-! DEFINITION. Cue Memory (8.1, 8.2): the marks, the directories, storing, deleting and packing runs. -/

namespace Sys2Proof.Machine

/-! ### Runs and marks -/

/-- The slots that the runs of a directory hold. -/
def runSlots : List DirEntry → Nat
  | [] => 0
  | e :: es => e.length + runSlots es

/-- The fill mark: the end of the highest run of a cue directory, 0 when it has none (8.1). -/
def fillOf : List DirEntry → Nat
  | [] => 0
  | e :: es => Nat.max (e.start + e.length) (fillOf es)

/-- The palette floor: the start of the lowest run of a palette directory, 8,192 when it has none (8.1). -/
def floorOf : List DirEntry → Nat
  | [] => 8192
  | e :: es => Nat.min e.start (floorOf es)

def CueMemory.fill (m : CueMemory) : Nat := fillOf m.cues
def CueMemory.floor (m : CueMemory) : Nat := floorOf m.palettes

/-- Free space: the palette floor minus the fill mark (8.1). -/
def CueMemory.free (m : CueMemory) : Nat := m.floor - m.fill

/-- The hole total: every slot that is neither free nor held by a run (8.1). -/
def CueMemory.hole (m : CueMemory) : Nat := 8192 - (runSlots m.cues + runSlots m.palettes) - m.free

/-- A directory without the entry of a number (R145). -/
def dirRemove (n : Nat) (d : List DirEntry) : List DirEntry := d.filter fun e => !decide (e.number = n)

/-- An entry put in at its place in ascending number (R145). -/
def dirInsert (e : DirEntry) : List DirEntry → List DirEntry
  | [] => [e]
  | x :: xs => if e.number < x.number then e :: x :: xs else x :: dirInsert e xs

/-- The entry of a number, when the directory has it. -/
def dirFind (n : Nat) (d : List DirEntry) : Option DirEntry := d.find? fun e => decide (e.number = n)

/-- Slots numbered from a start. -/
def numberFrom {α : Type} : Nat → List α → List (Nat × α)
  | _, [] => []
  | i, a :: as => (i, a) :: numberFrom (i + 1) as

/-- The contents of a run. -/
def CueMemory.runContents (m : CueMemory) (e : DirEntry) : List (Option CueSlot) :=
  (List.range e.length).map fun i => Store.get none m.slots (e.start + i)

/-- Writes contents from a start slot on. -/
def CueMemory.writeRun (m : CueMemory) (start : Nat) (l : List (Option CueSlot)) : CueMemory :=
  { m with slots := Store.setAll none m.slots (numberFrom start l) }

/-- Frees the slots of a run. -/
def CueMemory.freeRun (m : CueMemory) (e : DirEntry) : CueMemory := m.writeRun e.start (List.replicate e.length none)

/-- Frees the run of a number in a directory, when there is one. -/
def CueMemory.freeNumber (m : CueMemory) (d : List DirEntry) (n : Nat) : CueMemory :=
  match dirFind n d with
  | some e => m.freeRun e
  | none => m

/-! ### Storing and deleting (R147 to R150) -/

/-- How a store is judged (R147, R149). -/
inductive Judgement where
  | stored (start : Nat) (replaced : Bool)
  | needsPack
  | full
deriving DecidableEq, Repr

/-- The refusal of a run of `n` slots that does not fit, by the runs that would remain (R147). -/
def refusalFor (n remaining : Nat) : Judgement := if n + remaining ≤ 8192 then .needsPack else .full

/-- A cue run of `n` slots judged against the memory with the number's old run freed (R147). -/
def CueMemory.judgeCue (m : CueMemory) (cue n : Nat) : Judgement :=
  let rest := dirRemove cue m.cues
  let replaced := (dirFind cue m.cues).isSome
  if !replaced && decide (512 ≤ m.cues.length) then .full
  else if fillOf rest + n ≤ m.floor then .stored (fillOf rest) replaced
  else refusalFor n (runSlots rest + runSlots m.palettes)

/-- A palette run of `n` slots judged against the memory with the palette's old run freed (R149). -/
def CueMemory.judgePalette (m : CueMemory) (q n : Nat) : Judgement :=
  let rest := dirRemove q m.palettes
  if m.fill + n ≤ floorOf rest then .stored (floorOf rest - n) (dirFind q m.palettes).isSome
  else refusalFor n (runSlots m.cues + runSlots rest)

/-- A cue run written at a start, its number's old run freed, its directory entry inserted or replaced (R147). -/
def CueMemory.storeCue (m : CueMemory) (start cue : Nat) (link : LinkKind) (linkMs : Nat) (es : List RawEntry) :
    CueMemory :=
  let m' := (m.freeNumber m.cues cue).writeRun start
    (some (.cueHeader cue es.length link linkMs) :: es.map fun e => some (.cueEntry e))
  { m' with cues := dirInsert ⟨cue, start, es.length + 1⟩ (dirRemove cue m.cues) }

/-- A palette run written at a start (R149). -/
def CueMemory.storePalette (m : CueMemory) (start q : Nat) (hue : Int) (sat fade : Nat)
    (os : List (Nat × OverrideValue)) : CueMemory :=
  let m' := (m.freeNumber m.palettes q).writeRun start
    (some (.paletteHeader q hue sat fade os.length) :: os.map fun o => some (.override o.1 o.2))
  { m' with palettes := dirInsert ⟨q, start, os.length + 1⟩ (dirRemove q m.palettes) }

/-- A cue's directory entry removed and its run freed (R148). -/
def CueMemory.deleteCue (m : CueMemory) (cue : Nat) : CueMemory :=
  { m.freeNumber m.cues cue with cues := dirRemove cue m.cues }

/-- A palette's directory entry removed and its run freed (R150). -/
def CueMemory.deletePalette (m : CueMemory) (q : Nat) : CueMemory :=
  { m.freeNumber m.palettes q with palettes := dirRemove q m.palettes }

/-- A pack is running (8.2). -/
def CueMemory.packing (m : CueMemory) : Bool := !decide (m.pack.phase = .idle)

/-! ### Reading cues -/

/-- The header of a stored cue: entry count, link kind and link time, read through the directory. -/
def State.cueHeader (s : State) (cue : Nat) : Option (Nat × LinkKind × Nat) :=
  match dirFind cue s.memory.cues with
  | some e =>
    match s.readSlot e.start with
    | some (.cueHeader _ n l t) => some (n, l, t)
    | _ => none
  | none => none

/-- Entry `i` of a stored cue, from 0, read through the directory as it stands (R153). -/
def State.cueEntry (s : State) (cue i : Nat) : Option RawEntry :=
  match dirFind cue s.memory.cues with
  | some e =>
    match s.readSlot (e.start + 1 + i) with
    | some (.cueEntry r) => some r
    | _ => none
  | none => none

/-- The link kind of a code (11.8). -/
def linkOfCode : Nat → Option LinkKind
  | 0 => some .manual
  | 1 => some .onDone
  | 2 => some .after
  | 3 => some .doneOrAfter
  | 4 => some .nextBar
  | _ => none

/-! ### Packing (8.2) -/

/-- An entry put into a list in ascending start. -/
def insertByStart (e : DirEntry) : List DirEntry → List DirEntry
  | [] => [e]
  | x :: xs => if e.start < x.start then e :: x :: xs else x :: insertByStart e xs

/-- The runs of a directory in ascending order of start slot. -/
def byStart : List DirEntry → List DirEntry
  | [] => []
  | e :: es => insertByStart e (byStart es)

/-- The `i`-th cue run in the pack's order and its destination (R152). -/
def CueMemory.cueMove (m : CueMemory) (i : Nat) : Option (DirEntry × Nat) :=
  match (byStart m.cues)[i]? with
  | none => none
  | some e =>
    if i = 0 then some (e, 0)
    else (byStart m.cues)[i - 1]?.map fun b => (e, b.start + b.length)

/-- The `i`-th palette run in the pack's order and its destination (R152). -/
def CueMemory.paletteMove (m : CueMemory) (i : Nat) : Option (DirEntry × Nat) :=
  match (byStart m.palettes).reverse[i]? with
  | none => none
  | some e =>
    if i = 0 then some (e, 8192 - e.length)
    else (byStart m.palettes).reverse[i - 1]?.map fun b => (e, b.start - e.length)

/-- A directory with the start of a number's entry replaced. -/
def moveEntry (n start : Nat) (d : List DirEntry) : List DirEntry :=
  d.map fun e => if e.number = n then { e with start := start } else e

/-- A run copied to a destination, its old slots left to no run (R152). -/
def CueMemory.copyRun (m : CueMemory) (e : DirEntry) (dest : Nat) : CueMemory :=
  (m.freeRun e).writeRun dest (m.runContents e)

/-- The slots of a step's move: the run's length when it is copied. -/
def movedSlots (e : DirEntry) (dest : Nat) : Nat := if dest = e.start then 0 else e.length

/-- The pack state after a step that took a run (R152, R154). -/
def CueMemory.countStep (m : CueMemory) (moved : Nat) : PackState :=
  { m.pack with
    phase :=
      if m.pack.taken + 1 < m.pack.total then (if m.pack.taken + 1 < m.cues.length then .cues else .palettes) else .idle
    taken := m.pack.taken + 1
    moved := m.pack.moved + moved }

/-- One step of a pack (R152). -/
def CueMemory.packStep (m : CueMemory) : CueMemory :=
  if m.pack.taken < m.cues.length then
    match m.cueMove m.pack.taken with
    | some (e, d) =>
      { (if d = e.start then m else m.copyRun e d) with
        cues := moveEntry e.number d m.cues, pack := m.countStep (movedSlots e d) }
    | none => { m with pack := m.countStep 0 }
  else
    match m.paletteMove (m.pack.taken - m.cues.length) with
    | some (e, d) =>
      { (if d = e.start then m else m.copyRun e d) with
        palettes := moveEntry e.number d m.palettes, pack := m.countStep (movedSlots e d) }
    | none => { m with pack := m.countStep 0 }

/-- PACK_DONE becomes pending with what stands at the pack's end (R154). -/
def State.packDone (s : State) (c : PackCause) : State :=
  s.notifyPackDone ⟨c, s.memory.pack.taken, s.memory.pack.moved, s.memory.fill, s.memory.floor, s.memory.hole⟩

/-- A pack begun: the phase and counts of R151. -/
def CueMemory.beginPack (m : CueMemory) : CueMemory :=
  { m with pack := ⟨.cues, 0, m.cues.length + m.palettes.length, 0⟩ }

/-- The phase set to IDLE (R154). -/
def CueMemory.endPack (m : CueMemory) : CueMemory := { m with pack := { m.pack with phase := .idle } }

end Sys2Proof.Machine
end

