-- ==== Sys2Proof/Machine/PlayOps.lean ====
section
/-! DEFINITION. The Playback Unit (8.3 to 8.8): launches, walks, counts, links, and their retirement. -/

namespace Sys2Proof.Machine

/-! ### Finding cues -/

/-- A number lies in a list's range (R155). -/
def CueList.inRange (l : CueList) (c : Nat) : Bool := decide (l.first ≤ c) && decide (c ≤ l.last)

/-- The stored cue numbers within a list's range, ascending (R145, R156). -/
def State.cuesInRange (s : State) (l : CueList) : List Nat :=
  (s.memory.cues.map fun e => e.number).filter l.inRange

/-- The next cue of a list (R156). -/
def State.nextCue (s : State) (l : CueList) : Option Nat :=
  match l.current with
  | none => (s.cuesInRange l).head?
  | some c =>
    match (s.cuesInRange l).find? fun n => decide (c < n) with
    | some n => some n
    | none => if l.wrap then (s.cuesInRange l).head? else none

/-- The cue a launch resolves to: the held number when it is stored and in range, or the next cue (R160, part 1). -/
def State.resolveCue (s : State) (l : CueList) (want : Option Nat) : Option Nat :=
  match want with
  | none => s.nextCue l
  | some c => if (dirFind c s.memory.cues).isSome && l.inRange c then some c else none

/-! ### Launch records -/

/-- A record retired: it counts nothing, and its timer, wait and due are gone (8.3, R160). -/
def Launch.retire (r : Launch) : Launch := { r with live := false, timer := none, wait := false, due := false }

/-- The list's live launch record, when it has one. -/
def CueList.liveLaunch (l : CueList) : Option Launch :=
  match l.launch with
  | some r => if r.live then some r else none
  | none => none

/-- The state of a list by the count of its live record, when a launch is dropped (R160). -/
def CueList.modeByCount (l : CueList) : ListMode :=
  match l.liveLaunch with
  | some r => if 0 < r.count then .running else .settled
  | none => .released

/-- A fresh live record (R160, part 3). -/
def Launch.fresh (cue serial : Nat) (cause : LaunchCause) (link : LinkKind) (linkMs : Nat) : Launch :=
  ⟨true, cue, serial, 0, cause, link, linkMs, none, false, false, 0, false, 0, false⟩

/-- A launch dropped: its GO is cleared and CUE_STEP becomes pending (R160, R169). The count that the notice carries is
a free value (log entry 5). -/
def State.dropLaunch (s : State) (n : Nat) (cause : LaunchCause) : State :=
  let l := s.cueList n
  let s' := s.setCueList n { l with pendingGo := none, armedGo := none, mode := l.modeByCount }
  (s'.notifyCueStep ⟨n, .dropped, 0, l.serial, (Config.droppedCount s.freeUses).toNat, cause⟩).withFreeUses
    (s.freeUses + 1)

/-- The launch of a cue that has been resolved (R160, parts 2 to 4). -/
def State.makeLaunch (s : State) (n cue : Nat) (cause : LaunchCause) : State :=
  let l := s.cueList n
  let h := (s.cueHeader cue).getD (0, .manual, 0)
  let serial := (l.serial + 1) % 65536
  s.setCueList n
    { l with
      mode := .launching, current := some cue, pendingGo := none, armedGo := none, serial := serial,
      launch := some (Launch.fresh cue serial cause h.2.1 h.2.2) }

/-- A launch of list `n` asked for by a GO: made, or dropped (R160). -/
def State.launch (s : State) (n : Nat) (want : Option Nat) (cause : LaunchCause) : State :=
  match s.resolveCue (s.cueList n) want with
  | some cue => s.makeLaunch n cue cause
  | none => s.dropLaunch n cause

/-- The list's launch record changed. -/
def CueList.mapLaunch (l : CueList) (g : Launch → Launch) : CueList := { l with launch := l.launch.map g }

/-- The link of a record makes no automatic GO any more: its timer, wait and due are gone (R159, R164). -/
def Launch.spend (r : Launch) : Launch := { r with timer := none, wait := false, due := false, spent := true }

/-- An automatic GO: NEXT is launched, or the link is spent (R164). -/
def State.autoGo (s : State) (n : Nat) (cause : LaunchCause) : State :=
  match s.nextCue (s.cueList n) with
  | some cue => s.makeLaunch n cue cause
  | none => s.setCueList n ((s.cueList n).mapLaunch Launch.spend)

/-- A list enters ARMED, and the link of its launch is not applied (R159). -/
def State.enterArmed (s : State) (n : Nat) (want : Option Nat) : State :=
  let l := (s.cueList n).mapLaunch Launch.spend
  s.setCueList n { l with mode := .armed, armedGo := some want, pendingGo := none }

/-! ### The walk (R161) -/

/-- One claim of a walk: entry number from 0, fixture, attribute. -/
structure WalkItem where
  entry : Nat
  fixture : Nat
  attr : Attribute
deriving DecidableEq, Repr

/-- The claims of one entry in walk order: for each fixture of the range AIM and then COLOUR, a spec of NONE apart. -/
def entryItems (i : Nat) (e : RawEntry) : List WalkItem :=
  (rangeMembers e.first e.count).flatMap fun f =>
    (if e.aim = 0 then [] else [⟨i, f, .aim⟩]) ++ (if e.colour = 0 then [] else [⟨i, f, .colour⟩])

/-- The claims of a whole cue in walk order. -/
def State.walkItems (s : State) (cue : Nat) : List WalkItem :=
  (List.range ((s.cueHeader cue).getD (0, .manual, 0)).1).flatMap fun i =>
    match s.cueEntry cue i with
    | some e => entryItems i e
    | none => []

/-- The first item of a list whose fixture is PATCHED, with the number of items up to and with it (R161). -/
def State.firstPatched (s : State) : Nat → List WalkItem → Option (Nat × WalkItem)
  | _, [] => none
  | k, w :: ws => if s.isPatched w.fixture then some (k + 1, w) else s.firstPatched (k + 1) ws

/-- The record of list `n` while its walk is in progress. -/
def State.walking (s : State) (n : Nat) : Option Launch :=
  match (s.cueList n).liveLaunch with
  | some r => if (s.cueList n).mode = .launching ∧ r.walkDone = false then some r else none
  | none => none

/-- The next claim of the walk of a record. -/
def State.nextItem (s : State) (r : Launch) : Option (Nat × WalkItem) :=
  s.firstPatched r.walk ((s.walkItems r.cue).drop r.walk)

/-- A walk of list `n` can take a step: it is in progress and not paused by STOP (R166). -/
def State.walkReady (s : State) (n : Nat) : Option (Launch × Option (Nat × WalkItem)) :=
  if (s.cueList n).paused then none
  else (s.walking n).map fun r => (r, s.nextItem r)

/-- The walk has a claim to make. -/
def State.walkStepReady (s : State) (n : Nat) : Bool := (s.walkReady n).any fun w => w.2.isSome

/-- The walk has no claim left: its end step is next. -/
def State.walkEndReady (s : State) (n : Nat) : Bool := (s.walkReady n).any fun w => w.2.isNone

/-- The count and walk position after a claim (R162). -/
def State.countClaim (s : State) (n pos : Nat) (active : Bool) : State :=
  s.setCueList n
    ((s.cueList n).mapLaunch fun r => { r with walk := pos, count := if active then r.count + 1 else r.count })

/-- One claim of a walk (R161): placed with the launch tag, counted by its answer, handed over. -/
def State.walkClaim (s : State) (n : Nat) (r : Launch) (pos : Nat) (w : WalkItem) : State :=
  match s.cueEntry r.cue w.entry, w.attr with
  | some e, .aim =>
    match s.aimClaim e with
    | some c =>
      let q := s.placeAim w.fixture n c (some ⟨n, r.serial⟩)
      ((q.1.countClaim n pos (decide (q.2.answer = .active))).finishAim w.fixture q.2).1
    | none => s.countClaim n pos false
  | some e, .colour =>
    match s.colourClaim e with
    | some c =>
      let q := s.placeColour w.fixture n c (some ⟨n, r.serial⟩)
      (q.1.countClaim n pos (decide (q.2.answer = .active))).finishColour w.fixture q.2
    | none => s.countClaim n pos false
  | none, _ => s.countClaim n pos false

/-! ### Links (8.6) -/

/-- LIST_SETTLED becomes pending for the live record of list `n` (R169). -/
def State.settleNotice (s : State) (n : Nat) (r : Launch) : State := s.notifyListSettled ⟨n, r.cue, r.serial⟩

/-- The link wait set (R164). -/
def State.setLinkWait (s : State) (n : Nat) : State :=
  s.setCueList n ((s.cueList n).mapLaunch fun r => { r with wait := true })

/-- The link due set (R166). -/
def State.setLinkDue (s : State) (n : Nat) : State :=
  s.setCueList n ((s.cueList n).mapLaunch fun r => { r with due := true })

/-- The link timer started with a link time; 0 is taken as 1 ms (R164). -/
def State.startLinkTimer (s : State) (n ms : Nat) : State :=
  s.setCueList n
    ((s.cueList n).mapLaunch fun r => { r with timer := some (.running (s.now + 1000 * Nat.max 1 ms)) })

/-- A link due at settling is made, or held as link due while STOP is high (R164 to R166). -/
def State.linkAtSettling (s : State) (n : Nat) : State :=
  if s.stop then s.setLinkDue n else s.autoGo n .done

/-- The link of a record whose list has just become SETTLED by a report (R164, R165); none is applied in STANDBY (R167),
and none that an armed GO has stopped (R159) or that is spent (R164). -/
def State.linkOnReport (s : State) (n : Nat) (r : Launch) : State :=
  if s.part = .standby ∨ r.spent = true then s
  else
    match r.link with
    | .manual | .after => s
    | .onDone | .doneOrAfter => s.linkAtSettling n
    | .nextBar => s.setLinkWait n

/-- The link of a record at its walk's end (R163, part 5). -/
def State.linkAtWalkEnd (s : State) (n : Nat) (r : Launch) : State :=
  if s.part = .standby then s
  else
    match r.link with
    | .manual => s
    | .onDone => if r.count = 0 then s.linkAtSettling n else s
    | .after => s.startLinkTimer n r.linkMs
    | .doneOrAfter => if r.count = 0 then s.linkAtSettling n else s.startLinkTimer n r.linkMs
    | .nextBar => if r.count = 0 then s.setLinkWait n else s

/-- The end step of a walk (R163). -/
def State.walkEnd (s : State) (n : Nat) (r : Launch) : State :=
  let l := s.cueList n
  let pend := l.pendingGo
  let s :=
    s.setCueList n
      { l with
        mode := if 0 < r.count then .running else .settled
        pendingGo := none
        launch := some { r with walkDone := true, endCount := r.count } }
  let s := if r.count = 0 then s.settleNotice n r else s
  let s := s.notifyCueStep ⟨n, .launched, r.cue, r.serial, r.count, r.cause⟩
  match pend with
  | some g => if g.bar then s.enterArmed n g.cue else s.launch n g.cue .host
  | none => s.linkAtWalkEnd n r

/-- A report counted against the live record whose serial it carries (R162): the count falls by one, and at 0 a RUNNING
list settles and applies its link, an ARMED one makes LIST_SETTLED pending (R159). -/
def State.takeReport (s : State) (t : LaunchTag) : State :=
  let l := s.cueList t.list
  match l.liveLaunch with
  | none => s
  | some r =>
    if r.serial = t.serial ∧ 0 < r.count then
      let r' := { r with count := r.count - 1 }
      let l' := { l with launch := some r' }
      if r.count = 1 then
        match l.mode with
        | .running =>
          ((s.setCueList t.list { l' with mode := .settled }).settleNotice t.list r').linkOnReport t.list r'
        | .armed => (s.setCueList t.list l').settleNotice t.list r'
        | _ => s.setCueList t.list l'
      else s.setCueList t.list l'
    else s

/-! ### Timers, bars and STOP -/

/-- The link timer of list `n` has expired. -/
def State.linkTimerDue (s : State) (n : Nat) : Bool :=
  match (s.cueList n).liveLaunch with
  | some r =>
    match r.timer with
    | some (.running t) => decide (t ≤ s.now)
    | _ => false
  | none => false

/-- The expiry of a link timer (R164, R165). -/
def State.linkExpiry (s : State) (n : Nat) : State :=
  let s := s.setCueList n ((s.cueList n).mapLaunch fun r => { r with timer := none })
  if s.part = .standby then s else s.autoGo n .time

/-- A bar start reaches list `n` (R159, R164, R166). -/
def State.takeBar (s : State) (n : Nat) : State :=
  let l := s.cueList n
  let s := s.setCueList n { l with barsDue := l.barsDue - 1 }
  if s.stop then s
  else
    match l.mode, l.armedGo with
    | .armed, some want => s.launch n want .bar
    | _, _ =>
      match l.liveLaunch with
      | some r =>
        if r.wait ∧ s.part = .live then
          (s.setCueList n ((s.cueList n).mapLaunch fun r => { r with wait := false })).autoGo n .bar
        else s
      | none => s

/-- A link timer held while STOP is high, and set running again (R166). -/
def LinkTimer.hold (now : Nat) : LinkTimer → LinkTimer
  | .running t => .held (t - now)
  | .held d => .held d

def LinkTimer.run (now : Nat) : LinkTimer → LinkTimer
  | .running t => .running t
  | .held d => .running (now + d)

/-- STOP goes high for a list: its walk waits and its link timer is held (R166). -/
def CueList.pause (now : Nat) (l : CueList) : CueList :=
  { l with paused := true, launch := l.launch.map fun r => { r with timer := r.timer.map (LinkTimer.hold now) } }

/-- Every list paused. -/
def State.pauseLists (s : State) : List Nat → State
  | [] => s
  | n :: ns => (s.setCueList n ((s.cueList n).pause s.now)).pauseLists ns

/-- STOP goes low: every list has the change to take, in an event of its own (R166, R206). -/
def State.giveLow (s : State) : List Nat → State
  | [] => s
  | n :: ns => (s.setCueList n { s.cueList n with lowsDue := (s.cueList n).lowsDue + 1 }).giveLow ns

/-- A list takes a change of STOP to low: its walk and link timer go on, and its link is due no more (R166). -/
def CueList.resume (now : Nat) (l : CueList) : CueList :=
  { l with
    paused := false, lowsDue := l.lowsDue - 1
    launch := l.launch.map fun r => { r with timer := r.timer.map (LinkTimer.run now), due := false } }

/-- A list resumes after STOP (R166): a link that was due makes its automatic GO. A change to high that came behind this low
is then taken in the same event, for which the list of rows has no row of its own (log entry 17). -/
def State.resumeList (s : State) (n : Nat) : State :=
  let l := s.cueList n
  let u := s.setCueList n (l.resume s.now)
  let v := if (l.liveLaunch.any fun r => r.due) ∧ s.part = .live then u.autoGo n .done else u
  if 1 < l.lowsDue ∨ s.stop = true then v.setCueList n ((v.cueList n).pause s.now) else v

/-- The walk, GOs and record of a list given up (R167, R168). -/
def CueList.abandon (l : CueList) (mode : ListMode) : CueList :=
  { l with mode := mode, pendingGo := none, armedGo := none, launch := l.launch.map Launch.retire }

/-- A list at entry into STANDBY (R167). -/
def CueList.standby (l : CueList) : CueList :=
  if l.mode = .released then l
  else
    { l.abandon .settled with
      launch := l.launch.map fun r => { r.retire with count := 0 } }

/-- A list released (R168, first event). -/
def CueList.release (l : CueList) : CueList := { l.abandon .released with current := none }

/-- A bar start handed to every list (R182). -/
def State.handBar (s : State) : List Nat → State
  | [] => s
  | n :: ns => (s.setCueList n { s.cueList n with barsDue := (s.cueList n).barsDue + 1 }).handBar ns

/-- A cue number is the cue of a list whose state is LAUNCHING (R146, R148). -/
def State.cueLaunching (s : State) (cue : Nat) : Bool :=
  (List.range 8).any fun n => decide ((s.cueList n).mode = .launching) && decide ((s.cueList n).current = some cue)

end Sys2Proof.Machine
end

