-- ==== Sys2Proof/Machine/BeatOps.lean ====
section
/-! DEFINITION. The Beat Clock (chapter 9): edges, intervals, the flywheel, beats and bars. -/

namespace Sys2Proof.Machine

/-- The period of a tempo: round half up of 6,000,000 / tempo (R176). -/
def tempoPeriod (tempo : Nat) : Nat := roundHalfUpNat 6000000 tempo

/-- A period in µs: periods are in 0.1 ms. -/
def periodMicros (period : Nat) : Nat := period * 100

/-- The mean of the stored intervals, rounded half up; an empty ring keeps the period (R175). -/
def meanPeriod (ring : List Nat) (period : Nat) : Nat :=
  if ring.isEmpty then period else roundHalfUpNat ring.sum ring.length

/-- An interval added at the newest end of a ring of at most 4 (R174). -/
def ringAdd (ring : List Nat) (i : Nat) : List Nat := if ring.length < 4 then ring ++ [i] else ring.drop 1 ++ [i]

/-- The interval of an accepted edge at time `t`, in whole units of 0.1 ms (R174); none without a last edge time. -/
def Beat.interval (b : Beat) (t : Nat) : Option Nat := b.lastEdge.map fun e => (t - e) / 100

/-- The edge is rejected: its interval lies below 2,000 (R174). -/
def Beat.rejects (b : Beat) (t : Nat) : Bool := (b.interval t).any fun i => decide (i < 2000)

/-- The ring after an edge that is not rejected (R174). -/
def Beat.ringAfter (b : Beat) (t : Nat) : List Nat :=
  match b.interval t with
  | some i => if 2000 ≤ i ∧ i ≤ 20000 then ringAdd b.ring i else b.ring
  | none => b.ring

/-- An edge at time `t` is counted: four times the time since the last beat exceeds the period (R178, part 1). -/
def Beat.counts (b : Beat) (t : Nat) : Bool := decide (periodMicros b.period < 4 * (t - b.lastBeat))

/-- A beat leaves 0 beats to the bar: it is a bar start (R182). -/
def Beat.startsBar (b : Beat) : Bool := decide (b.beatsToBar ≤ 1)

/-- A beat counted into the bar (R182). -/
def Beat.countBeat (b : Beat) : Beat :=
  if b.startsBar then { b with bar := (b.bar + 1) % 65536, beatsToBar := b.beatsPerBar }
  else { b with beatsToBar := b.beatsToBar - 1 }

/-- A beat of the part: counted into the bar, and a bar start handed to the lists (R182). -/
def State.beatNow (s : State) : State :=
  let bar := s.beat.startsBar
  let s := s.withBeat s.beat.countBeat
  if bar then s.handBar (List.range 8) else s

/-- The Beat Clock after an edge at time `t` that is not rejected, its beat apart (R178, parts 2 to 4). -/
def Beat.takeEdge (b : Beat) (t : Nat) : Beat :=
  let ring := b.ringAfter t
  let period := meanPeriod ring b.period
  { b with
    ring := ring, period := period, lastEdge := some t, flywheel := some (t + periodMicros period), loaded := period,
    lone := 0, clock := if b.clock = .freewheel then .locked else b.clock }

/-- An accepted edge at the present time (R174, R178, R179). -/
def State.acceptEdge (s : State) : State :=
  let b := s.beat
  if b.rejects s.now then s
  else
    let counted := b.counts s.now
    let s' := s.withBeat (b.takeEdge s.now)
    let s' := if b.clock = .freewheel then s'.notifyBeatState .locked .edge else s'
    if counted then (s'.withBeat { s'.beat with lastBeat := s.now }).beatNow else s'

/-- The Beat Clock after a flywheel expiry set for time `t`, its beat apart (R177, parts 1 and 2). -/
def Beat.takeExpiry (b : Beat) (t : Nat) : Beat :=
  let lone := if b.source = .external then Nat.min 3 (b.lone + 1) else b.lone
  { b with
    flywheel := some (t + periodMicros b.period), loaded := b.period, lastBeat := t, lone := lone,
    clock := if b.source = .external ∧ lone = 3 ∧ b.clock = .locked then .freewheel else b.clock }

/-- The flywheel's expiry set for time `t` (R177, R179). -/
def State.flywheelBeat (s : State) (t : Nat) : State :=
  let b := s.beat.takeExpiry t
  let s' := s.withBeat b
  let s' := if b.clock ≠ s.beat.clock then s'.notifyBeatState .freewheel .lost else s'
  s'.beatNow

/-- The flywheel timer has expired. -/
def State.flywheelDue (s : State) : Option Nat :=
  match s.beat.flywheel with
  | some t => if t ≤ s.now then some t else none
  | none => none

/-- A pulse has been accepted and its edge not yet taken (R173). -/
def State.edgeDue (s : State) : Bool := s.beat.pulse.any fun p => decide (p.accepts ≤ s.now)

/-- A change of source (R181). -/
def Beat.changeSource (b : Beat) (src : BeatSource) (now : Nat) : Beat :=
  let b' : Beat := { b with source := src, ring := [], lastEdge := none, lastBeat := now, pulse := none }
  match src with
  | .manual => { b' with period := tempoPeriod b.tempo, clock := .manual }
  | .external => { b' with lone := 3, clock := .freewheel }

/-- The clock state that a change of source gives (R179). -/
def clockOfSource : BeatSource → ClockState
  | .manual => .manual
  | .external => .freewheel

/-- SET_BEAT_SOURCE's effect (R181). -/
def State.setBeatSource (s : State) (src : BeatSource) (filter : Bool) : State :=
  let b : Beat := { s.beat with filter := filter }
  if b.source = src then s.withBeat b
  else (s.withBeat (b.changeSource src s.now)).notifyBeatState (clockOfSource src) .source

/-- SET_TEMPO's effect on the clock (R176). -/
def Beat.setTempo (b : Beat) (tempo : Nat) : Beat :=
  let t := Nat.min 3000 (Nat.max 300 tempo)
  { b with tempo := t, period := if b.source = .manual then tempoPeriod t else b.period }

end Sys2Proof.Machine
end

