-- ==== Sys2Proof/Machine/LineOps.lean ====
section
/-! DEFINITION. The fixture lines (chapter 10): frames, settings, the SYNC and LDE outputs, and the level of a LINE output
during a frame. -/

namespace Sys2Proof.Machine

/-- The settings a frame starting now would put in force (R191, part 1). -/
def Line.nextSettings (r : Line) : LineSettings := r.waiting.getD r.inForce

/-- The transmitted slot count (R190). -/
def Line.slotCount (r : Line) (g : LineSettings) : Nat := Nat.max g.min r.highest

/-- The length of a frame of `n` slots with a slot gap, in µs (10.3). -/
def frameMicros (n gap : Nat) : Nat := 192 + 44 * (n + 1) + gap * n

/-- A line after a frame start at a time (R191, parts 1 to 4); the first frame loads the refresh timer (R195). -/
def Line.startFrame (r : Line) (now : Nat) : Line :=
  let g := r.nextSettings
  let n := r.slotCount g
  { r with
    inForce := g, waiting := none, due := false, frame := some ⟨r.buffer, n, g.gap, now + frameMicros n g.gap⟩,
    timer := match r.timer with
      | some t => some t
      | none => some (now + 1000 * g.refresh) }

/-- A frame start on a line (R191, R194). -/
def State.frameStart (s : State) (l : Nat) : State :=
  let r := s.line l
  let s := s.setLine l (r.startFrame s.now)
  let s := if r.sync then s.withLines { s.lines with sync := !s.lines.sync } else s
  s.raiseOnce .lineFrames

/-- The refresh timer of a line has expired: the time it was set for. -/
def State.refreshDue (s : State) (l : Nat) : Option Nat :=
  match (s.line l).timer with
  | some t => if (s.line l).run ∧ t ≤ s.now then some t else none
  | none => none

/-- The expiry of a refresh timer set for time `t` (R192). -/
def State.refreshExpiry (s : State) (l t : Nat) : State :=
  let r := s.line l
  let r' : Line := { r with timer := some (t + 1000 * r.inForce.refresh) }
  match r.frame with
  | none => (s.setLine l r').frameStart l
  | some _ => s.setLine l { r' with due := true }

/-- The frame in progress on a line has ended. -/
def State.frameOver (s : State) (l : Nat) : Bool := (s.line l).frame.any fun f => decide (f.ends ≤ s.now)

/-- A frame end: a frame starts at once when frame due is set (R192). -/
def State.frameEnd (s : State) (l : Nat) : State :=
  let r := s.line l
  let s := s.setLine l { r with frame := none }
  if r.due ∧ r.run then s.frameStart l else s

/-- A line at START: RUN, and its first frame starts, or waits for the frame in progress (R195). -/
def State.startLine (s : State) (l : Nat) : State :=
  let r := s.line l
  match r.frame with
  | none => (s.setLine l { r with run := true }).frameStart l
  | some _ => s.setLine l { r with run := true, due := true }

def State.startLines (s : State) : List Nat → State
  | [] => s
  | l :: ls => (s.startLine l).startLines ls

/-- A line at entry into STANDBY (R195). -/
def Line.idle (r : Line) : Line := { r with run := false, timer := none, due := false }

def State.idleLines (s : State) : List Nat → State
  | [] => s
  | l :: ls => (s.setLine l (s.line l).idle).idleLines ls

/-- The sync flag of every listed line cleared. -/
def State.clearSync (s : State) : List Nat → State
  | [] => s
  | l :: ls => (s.setLine l { s.line l with sync := false }).clearSync ls

/-- SET_LINE's sync setting (R193). -/
def State.setSync (s : State) (l : Nat) (on : Bool) : State :=
  if on then
    let s := s.clearSync (List.range 8)
    s.setLine l { s.line l with sync := true }
  else
    let was := (s.line l).sync
    let s := s.setLine l { s.line l with sync := false }
    if was then s.withLines { s.lines with sync := false } else s

/-- The settings that SET_LINE stores (R193). -/
def storedSettings (min refresh gap : Nat) : LineSettings :=
  ⟨min, Nat.min 1000 (Nat.max 25 refresh), Nat.min 1000 gap⟩

/-- The LDE output of a line: high while it is RUN and while a frame is being sent (R195), low during a reset (R207). -/
def State.ldePin (s : State) (l : Nat) : Bool :=
  s.resetting.isNone && ((s.line l).run || (s.line l).frame.isSome)

/-- The SYNC output (R194), low during a reset (R207). -/
def State.syncPin (s : State) : Bool := s.resetting.isNone && s.lines.sync

/-- The level of a slot `t` µs after its start: a start bit, 8 data bits with the least significant first, and 2 stop
bits, 4 µs each (10.3). -/
def slotLevel (v : Byte) (t : Nat) : Bool :=
  match t / 4 with
  | 0 => false
  | b + 1 => if b < 8 then v.getLsbD b else true

/-- The value of slot `i` of a frame: the start code slot, numbered 0 here, carries 0 (10.3). -/
def LineFrame.value (f : LineFrame) (i : Nat) : Byte := if i = 0 then 0 else Store.get 0 f.snapshot i

/-- The level of the slots of a frame from slot `i` on, `t` µs after the start of slot `i`: each slot lasts 44 µs, and a
slot gap of mark follows every slot but the last (10.3). -/
def slotsLevel (f : LineFrame) : Nat → Nat → Nat → Bool
  | 0, _, _ => true
  | fuel + 1, i, t =>
    if t < 44 then slotLevel (f.value i) t
    else if t < 44 + f.gap then true
    else slotsLevel f fuel (i + 1) (t - 44 - f.gap)

/-- The level of a frame `t` µs after its start: break, mark after break, the start code slot, then slots 1 to n (10.3). -/
def frameLevel (f : LineFrame) (t : Nat) : Bool :=
  if t < 176 then false else if t < 192 then true else slotsLevel f (f.count + 1) 0 (t - 192)

/-- The level of a LINE output: the frame in progress, or mark (10.3, R207). -/
def State.linePin (s : State) (l : Nat) : Bool :=
  match s.resetting, (s.line l).frame with
  | none, some f => frameLevel f (s.now - (f.ends - frameMicros f.count f.gap))
  | _, _ => true

end Sys2Proof.Machine
end

