-- ==== Sys2Proof/Machine/RigArgs.lean ====
section
/-! DEFINITION. The checks of rig payloads: kind profiles (R1), PATCH (R6) and COPY_RIG (R16), and the records they give. -/

namespace Sys2Proof.Machine

/-- A slot offset as a payload gives it: 0xFF is absent (11.8). -/
def offsetOf (o : Nat) : Option Nat := if o = 255 then none else some o

/-- A hue as a payload gives it: 0xFFFF is WHITE (11.8). -/
def hueOf (h : Nat) : Option Nat := if h = 65535 then none else some h

/-- Strictly increasing numbers. -/
def risingHues : List Nat → Bool
  | a :: b :: l => decide (a < b) && risingHues (b :: l)
  | _ => true

/-- No two members of a list are equal. -/
def allDistinct : List Nat → Bool
  | [] => true
  | a :: l => !l.contains a && allDistinct l

/-- A number within bounds. -/
def within (lo hi n : Nat) : Bool := decide (lo ≤ n) && decide (n ≤ hi)

/-- A signed number within bounds. -/
def withinInt (lo hi n : Int) : Bool := decide (lo ≤ n) && decide (n ≤ hi)

/-- Angles lie in a kind's ranges (R6, R11). -/
def Profile.homeOk (k : Profile) (pan tilt : Int) : Bool :=
  withinInt k.panMin k.panMax pan && withinInt k.tiltMin k.tiltMax tilt

/-- The mounting of a PATCH body byte: bits 0 and 1 (11.8). -/
def mountingOf (code : Nat) : Option Mounting :=
  match code with
  | 0 => some .hung
  | 1 => some .standing
  | _ => none

/-- A position moved by a delta. -/
def addPos (p d : Pos) : Pos := ⟨p.x + d.x, p.y + d.y, p.z + d.z⟩

end Sys2Proof.Machine

namespace Sys2Proof

open Machine

/-- An emitter as stored: a gain above 8,191 is stored as 8,191 (R1). -/
def RawEmitter.stored (e : RawEmitter) : Emitter := ⟨hueOf e.hue, Nat.min 8191 e.gain, e.coarse, offsetOf e.fine⟩

/-- The checks of an emitter list (R1): count, hued and WHITE emitters, hues in order; coarse offsets are required. -/
def emittersOk (es : List RawEmitter) : Bool :=
  let hues := es.filterMap fun e => hueOf e.hue
  decide (2 ≤ es.length) && decide (es.length ≤ 6) && decide (2 ≤ hues.length) && decide (es.length ≤ hues.length + 1) &&
    hues.all (fun h => decide (h ≤ 3599)) && risingHues hues && es.all fun e => decide (e.coarse ≠ 255)

/-- The checks of a wheel list and its role (R1). -/
def wheelOk (ws : List WheelPos) (role : Nat) : Bool :=
  decide (2 ≤ ws.length) && decide (ws.length ≤ 12) && ws.all (fun w => decide (w.hue ≤ 3599) && decide (w.sat ≤ 1000)) &&
    decide (role ≠ 255)

/-- The checks of the colour model of a payload with its lists (R1, 11.8). -/
def RawKind.modelOk (k : RawKind) : Bool :=
  match k.model with
  | 0 => decide (k.listCount = 0) && decide (k.wheelRole = 255)
  | 1 => emittersOk k.emitters && decide (k.wheelRole = 255)
  | 2 => wheelOk k.wheel k.wheelRole
  | _ => false

/-- The role offsets of a payload (1.1): the roles that are present, and every passthrough offset. -/
def RawKind.roles (k : RawKind) : List Nat :=
  ([k.panCoarse, k.panFine, k.tiltCoarse, k.tiltFine].filterMap offsetOf) ++
    (match k.model with
      | 1 => k.emitters.flatMap fun e => e.coarse :: (offsetOf e.fine).toList
      | 2 => [k.wheelRole]
      | _ => []) ++ k.pass

/-- The role offsets lie in the footprint and differ; the pan and tilt coarse roles are present (R1). -/
def RawKind.rolesOk (k : RawKind) : Bool :=
  decide (k.panCoarse ≠ 255) && decide (k.tiltCoarse ≠ 255) &&
    k.roles.all (fun o => decide (o < k.footprint)) && allDistinct k.roles

/-- The pan and tilt ranges (1.1, R1). -/
def RawKind.rangesOk (k : RawKind) : Bool :=
  withinInt (-54000) 54000 k.panMin && withinInt (-54000) 54000 k.panMax &&
    withinInt 36000 108000 (k.panMax - k.panMin) && withinInt (-18000) 0 k.tiltMin && withinInt 0 18000 k.tiltMax &&
    decide (k.tiltMin < k.tiltMax)

/-- The speeds, accelerations, chase gain and footprint (1.1, R1). -/
def RawKind.limitsOk (k : RawKind) : Bool :=
  within 1 8000 k.vmaxPan && within 1 8000 k.vmaxTilt && within 1 512 k.amaxPan && within 1 512 k.amaxTilt &&
    within 1 256 k.gain && within 1 48 k.footprint

/-- Every check of R1. -/
def RawKind.ok (k : RawKind) : Bool :=
  decide (k.kind ≤ 31) && k.rangesOk && k.limitsOk && k.modelOk && decide (k.pass.length ≤ 16) && k.rolesOk

/-- The profile that a payload gives (R1, R2). -/
def RawKind.profile (k : RawKind) : Profile where
  panMin := k.panMin
  panMax := k.panMax
  tiltMin := k.tiltMin
  tiltMax := k.tiltMax
  vmaxPan := k.vmaxPan
  vmaxTilt := k.vmaxTilt
  amaxPan := k.amaxPan
  amaxTilt := k.amaxTilt
  gain := k.gain
  footprint := k.footprint
  panCoarse := k.panCoarse
  panFine := offsetOf k.panFine
  tiltCoarse := k.tiltCoarse
  tiltFine := offsetOf k.tiltFine
  model :=
    match k.model with
    | 1 => .emitter (k.emitters.map RawEmitter.stored)
    | 2 => .wheel k.wheel k.wheelRole
    | _ => .none
  pass := k.pass

/-- The record that a PATCH gives, with trims and passthrough values. -/
def PatchArgs.record (a : PatchArgs) (m : Mounting) (trims pass : List Nat) : Patch where
  kind := a.kind
  line := a.line
  base := a.base
  truss := a.truss
  pos := a.pos
  yaw := a.yaw
  mounting := m
  panInvert := a.body.testBit 2
  tiltInvert := a.body.testBit 3
  homePan := a.homePan
  homeTilt := a.homeTilt
  trims := trims
  pass := pass

/-- Stage 1 of R6. -/
def PatchArgs.rangesOk (a : PatchArgs) : Bool :=
  decide (a.fixture ≤ 255) && decide (a.kind ≤ 31) && decide (a.line ≤ 7) && within 1 512 a.base &&
    decide (a.truss ≤ 15) && posOk a.pos && decide (a.yaw ≤ 35999) && (mountingOf (a.body % 4)).isSome

/-- Stage 3 of R6. -/
def PatchArgs.fitsKind (a : PatchArgs) (k : Profile) : Bool :=
  decide (a.base + k.footprint ≤ 513) && k.homeOk a.homePan a.homeTilt

/-- The copied pairs, source and destination, from i = 0 upward. -/
def CopyArgs.pairs (a : CopyArgs) : List (Nat × Nat) :=
  ((List.range 256).filter fun i => decide (i < a.count) && decide (a.src + i ≤ 255)).map fun i =>
    (a.src + i, a.dst + i)

/-- The base slot that results for a source record. -/
def CopyArgs.newBase (a : CopyArgs) (p : Patch) : Int := (p.base : Int) + a.slotDelta

/-- The order in which the pairs are taken: from the highest down when the ranges share a fixture and the destination lies
above the source (R17). -/
def CopyArgs.order (a : CopyArgs) : List (Nat × Nat) :=
  if a.src < a.dst ∧ (a.pairs.any fun pr => a.pairs.any fun q => decide (pr.2 = q.1)) then a.pairs.reverse else a.pairs

end Sys2Proof
end

