-- ==== Sys2Proof/Machine/RigOps.lean ====
section
/-! DEFINITION. The Rig Table (chapter 1): kinds in use, overlaps, pose changes, and the making, moving, unpatching
and copying of fixtures. -/

namespace Sys2Proof.Machine

/-! ### Kinds -/

/-- The emitters of a kind: none for a kind of another colour model. -/
def Profile.emitterCount (k : Profile) : Nat :=
  match k.model with
  | .emitter es => es.length
  | _ => 0

/-- How many PATCHED fixtures name a kind (R4). -/
def State.kindUses (s : State) (k : Nat) : Nat :=
  ((List.range 256).filter fun f => decide ((s.patchOf f).map (fun p => p.kind) = some k)).length

/-- A kind is in use (1.1). -/
def State.kindInUse (s : State) (k : Nat) : Bool := decide (0 < s.kindUses k)

/-! ### Footprints -/

/-- Two runs of slots share a slot. -/
def runsOverlap (aBase aLen bBase bLen : Nat) : Bool := decide (aBase < bBase + bLen) && decide (bBase < aBase + aLen)

/-- A footprint overlaps that of fixture `f`, when it is PATCHED (1.2). -/
def State.overlapsFixture (s : State) (line base len f : Nat) : Bool :=
  match s.patchOf f, s.profileOf f with
  | some p, some k => decide (p.line = line) && runsOverlap base len p.base k.footprint
  | _, _ => false

/-! ### Pose changes (R5) -/

/-- A generation advanced by one, from 4,294,967,295 to 0. -/
def nextGen (g : Nat) : Nat := (g + 1) % 4294967296

/-- The pose generation of fixture `f` advanced (R5, part 1). -/
def State.advancePose (s : State) (f : Nat) : State :=
  s.setFixture f { s.fixture f with gen := nextGen (s.fixture f).gen }

/-- A RIG-class re-aim of a fixture aimed at a point (R5, part 3; R15, part 4; R118). -/
def State.rigReaim (s : State) (f : Nat) : State :=
  match s.aimedAt f with
  | some p => (s.reaim f p (s.reaimLaw f) .rig).1
  | none => s

/-- A pose change of fixture `f` (R5). -/
def State.poseChange (s : State) (f : Nat) : State :=
  let s := (s.advancePose f).invalidate fun e => decide (e.fixture = f)
  if s.isPatched f then s.rigReaim f else s

/-! ### Creating, moving, unpatching -/

/-- The records and the footprint of a fixture just made PATCHED (R7, R17 part 4). -/
def State.createRecords (s : State) (f : Nat) (p : Patch) (k : Profile) : State :=
  let s := (s.setAimStack f []).setColourStack f []
  let s := s.setMotionOf f (some (Motion.fresh p.homePan p.homeTilt))
  let s := s.setColourOf f (some (Colour.fresh k.model))
  let s := s.writeSlots p.line p.base
    (footprintSlots k p (p.homePan * 16) (p.homeTilt * 16) (Colour.fresh k.model).outputs)
  s.refreshHighest p.line

/-- A fixture created with a record of the kind `k` (R7). -/
def State.createFixture (s : State) (f : Nat) (p : Patch) (k : Profile) : State :=
  let s := s.setFixture f { s.fixture f with patch := some p }
  (s.poseChange f).createRecords f p k

/-- Motion and colour records discarded (R10, part 5; R17, part 2). -/
def State.discardRecords (s : State) (f : Nat) : State := (s.setMotionOf f none).setColourOf f none

/-- The footprint of fixture `f` zeroed, when it is PATCHED. -/
def State.zeroOwn (s : State) (f : Nat) : State :=
  match s.patchOf f, s.profileOf f with
  | some p, some k => s.zeroFootprint p k.footprint
  | _, _ => s

/-- The unpatch of one fixture (R10, parts 1 to 6). -/
def State.unpatchOne (s : State) (f : Nat) : State :=
  let line := (s.patchOf f).map fun p => p.line
  let s := ((s.emptyStacks f).dropJobs f).poseChange f
  let s := (s.zeroOwn f).discardRecords f
  let s := s.setFixture f { s.fixture f with patch := none }
  let s :=
    match line with
    | some l => s.refreshHighest l
    | none => s
  s.syncStepTimer

/-- A PATCHED fixture moved (R8): the record replaced, a pose change, and one write of the old and new footprints. -/
def State.moveFixture (s : State) (f : Nat) (old p : Patch) (k : Profile) : State :=
  let s := (s.setFixture f { s.fixture f with patch := some p }).poseChange f
  let s := s.zeroFootprint old k.footprint
  let s :=
    match s.motionOf f, s.colourOf f with
    | some m, some c => s.writeSlots p.line p.base (footprintSlots k p m.pan m.tilt c.outputs)
    | _, _ => s
  (s.refreshHighest old.line).refreshHighest p.line

/-! ### PATCH (R6 to R9) -/

/-- The fixture is PATCHED with a kind other than `k` (R6, R9). -/
def State.patchedOther (s : State) (f k : Nat) : Bool := (s.patchOf f).any fun p => decide (p.kind ≠ k)

/-- A footprint overlaps the footprint of a PATCHED fixture other than `f` (R6). -/
def State.overlapsOther (s : State) (line base len f : Nat) : Bool :=
  (List.range 256).any fun g => decide (g ≠ f) && s.overlapsFixture line base len g

/-- A PATCH that passed its checks carried out (R7, R8, R9). -/
def State.carryPatch (s : State) (a : PatchArgs) (m : Mounting) (k : Profile) : State :=
  let fresh := a.record m (List.replicate k.emitterCount 4096) (List.replicate k.pass.length 0)
  match s.patchOf a.fixture with
  | none => s.createFixture a.fixture fresh k
  | some old =>
    if old.kind = a.kind then s.moveFixture a.fixture old (a.record m old.trims old.pass) k
    else (s.unpatchOne a.fixture).createFixture a.fixture fresh k

/-! ### SET_TRUSS (R15) -/

/-- The PATCHED fixtures that name a truss, ascending. -/
def State.onTruss (s : State) (t : Nat) : List Nat :=
  (List.range 256).filter fun f => decide ((s.patchOf f).map (fun p => p.truss) = some t)

def State.advancePoses (s : State) : List Nat → State
  | [] => s
  | f :: fs => (s.advancePose f).advancePoses fs

def State.rigReaims (s : State) : List Nat → State
  | [] => s
  | f :: fs => (s.rigReaim f).rigReaims fs

/-- SET_TRUSS's four parts (R15). -/
def State.moveTruss (s : State) (t : Nat) (o : Pos) : State :=
  let fs := s.onTruss t
  ((((s.setTrussOffset t o).advancePoses fs).invalidate fun e => fs.contains e.fixture)).rigReaims fs

/-! ### COPY_RIG (R16, R17) -/

/-- Check 1 of R16 for one pair. -/
def State.pairOk (s : State) (a : CopyArgs) (pr : Nat × Nat) : Bool :=
  decide (pr.2 ≤ 255) &&
    match s.patchOf pr.1, s.profileOf pr.1 with
    | some p, some k =>
      posOk (addPos p.pos a.delta) && decide (1 ≤ a.newBase p) && decide (a.newBase p + k.footprint ≤ 513)
    | _, _ => true

/-- A resulting footprint: line, base slot and length. -/
def State.newFootprint (s : State) (a : CopyArgs) (pr : Nat × Nat) : Option (Nat × Nat × Nat) :=
  match s.patchOf pr.1, s.profileOf pr.1 with
  | some p, some k => some (p.line, (a.newBase p).toNat, k.footprint)
  | _, _ => none

/-- Two footprints overlap (1.2). -/
def footprintsOverlap (x y : Nat × Nat × Nat) : Bool := decide (x.1 = y.1) && runsOverlap x.2.1 x.2.2 y.2.1 y.2.2

/-- Some footprint of a list overlaps a later one. -/
def anyOverlap : List (Nat × Nat × Nat) → Bool
  | [] => false
  | x :: l => l.any (footprintsOverlap x) || anyOverlap l

/-- Check 2 of R16 fails. -/
def State.copyOverlaps (s : State) (a : CopyArgs) : Bool :=
  let prints := a.pairs.filterMap (s.newFootprint a)
  let dests := a.pairs.map fun pr => pr.2
  (prints.any fun x =>
      (List.range 256).any fun g => !dests.contains g && s.overlapsFixture x.1 x.2.1 x.2.2 g) || anyOverlap prints

/-- The record copied to a destination (R17, part 3). -/
def copiedRecord (delta : Pos) (slotDelta : Int) (p : Patch) : Patch :=
  { p with pos := addPos p.pos delta, base := ((p.base : Int) + slotDelta).toNat }

/-- One record copy (R17, parts 1 to 4). The old footprint is zeroed whole, as part 2 says, even where an earlier record
copy of the same command has written a new footprint over it (log entry 41). -/
def State.copyRecord (s : State) (src dst : Nat) (delta : Pos) (slotDelta : Int) : State :=
  let from? := s.patchOf src
  let kind? := s.profileOf src
  let oldLine := (s.patchOf dst).map fun p => p.line
  let s := (s.emptyStacks dst).dropJobs dst
  let s := (s.zeroOwn dst).discardRecords dst
  let new := from?.map (copiedRecord delta slotDelta)
  let s := (s.setFixture dst { s.fixture dst with patch := new }).poseChange dst
  let s :=
    match new, kind? with
    | some p, some k => s.createRecords dst p k
    | _, _ => s
  let s :=
    match oldLine with
    | some l => s.refreshHighest l
    | none => s
  s.syncStepTimer

end Sys2Proof.Machine
end

