-- ==== Sys2Proof/Machine/PointOps.lean ====
section
/-! DEFINITION. The Point Table (chapter 2): point moves, tag bindings and the classing of tracking records. -/

namespace Sys2Proof.Machine

/-- TRACK-class re-aims of listed fixtures for point `p`; answers how many requests were issued (R21, part 4; R99). -/
def State.trackReaims (s : State) (p : Nat) : List Nat → State × Nat
  | [] => (s, 0)
  | f :: fs =>
    let r := s.reaim f p .chase .track
    let q := r.1.trackReaims p fs
    (q.1, if r.2 then q.2 + 1 else q.2)

/-- The record of a point after its move (R21, parts 1 and 3): generation, and for a bound point timer and stale flag. -/
def Point.moved (r : Point) (pos : Pos) (now limit : Nat) : Point :=
  let r' : Point := { r with pos := some pos, gen := nextGen r.gen }
  if r.binding.isSome then { r' with stale := false, timer := some (now + 1000 * limit) } else r'

/-- A point takes a position and makes a point move (R20, R21, R27); answers the number of requests issued. -/
def State.movePoint (s : State) (p : Nat) (pos : Pos) : State × Nat :=
  let r := s.point p
  let s := s.setPoint p (r.moved pos s.now s.points.staleLimit)
  let s := s.invalidate fun e => decide (e.point = p)
  let s := if r.binding.isSome && r.stale then s.notifyTrackStale .fresh p else s
  s.trackReaims p (s.fixturesAimedAt p)

/-- The points bound to a tag, ascending (2.1). -/
def State.boundTo (s : State) (tag : Nat) : List Nat :=
  (List.range 128).filter fun p => decide ((s.point p).binding.map (fun b => b.tag) = some tag)

/-- The offset held with a point's binding. -/
def State.offsetOf (s : State) (p : Nat) : Pos := ((s.point p).binding.map fun b => b.offset).getD ⟨0, 0, 0⟩

/-- A position with each axis set to the nearer limit (R27). -/
def clampPos (p : Pos) : Pos :=
  ⟨clampInt (-200000) 200000 p.x, clampInt (-200000) 200000 p.y, clampInt (-200000) 200000 p.z⟩

/-- What becomes of one tracking record (R26, R27). -/
inductive RecordClass where
  | ignored
  | skipped
  | applied (moves : List (Nat × Pos))
deriving DecidableEq, Repr

/-- A record checked against the bindings and the coordinate range (R26, R27). -/
def State.classify (s : State) (r : TrackRec) : RecordClass :=
  let ps := s.boundTo r.tag
  if ps.isEmpty then .ignored
  else if !posOk r.pos then .skipped
  else .applied (ps.map fun p => (p, clampPos (addPos r.pos (s.offsetOf p))))

/-- The records of a message in order: TRACK_SKIPPED raised for each skipped one (R26), the point moves to be made and
the applied, ignored and skipped counts (R25). -/
def State.takeRecords (s : State) : List TrackRec → State × List (Nat × Pos) × Nat × Nat × Nat
  | [] => (s, [], 0, 0, 0)
  | r :: rs =>
    match s.classify r with
    | .ignored =>
      let q := s.takeRecords rs
      (q.1, q.2.1, q.2.2.1, q.2.2.2.1 + 1, q.2.2.2.2)
    | .skipped =>
      let q := (s.raiseOnce .trackSkipped).takeRecords rs
      (q.1, q.2.1, q.2.2.1, q.2.2.2.1, q.2.2.2.2 + 1)
    | .applied ms =>
      let q := s.takeRecords rs
      (q.1, ms ++ q.2.1, q.2.2.1 + 1, q.2.2.2.1, q.2.2.2.2)

/-- A stale timer has expired (R30). -/
def State.staleDue (s : State) (p : Nat) : Bool := (s.point p).timer.any fun t => decide (t ≤ s.now)

/-- The milliseconds left on a timer that expires at `t`, as a whole number of at least 1 (2.1). -/
def msLeft (now t : Nat) : Nat := Nat.max 1 (ceilDiv (t - now) 1000)

end Sys2Proof.Machine
end

