-- ==== Sys2Proof/Machine/Replies.lean ====
section
/-! DEFINITION. Reply data and notice payloads (11.8): the fields that the owning rules list, in their order. Where the
coding rules of 11.8 leave a width or a presence byte open, log entry 10 says what is written. -/

namespace Sys2Proof.Machine

/-! ### Codes of named values: the place of the value in the table or list that first names it (11.8) -/

def Law.code : Law → Nat
  | .timed => 0
  | .chase => 1

def Mounting.code : Mounting → Nat
  | .hung => 0
  | .standing => 1

def PartState.code : PartState → Nat
  | .standby => 0
  | .live => 1

def MotionMode.code : MotionMode → Nat
  | .held => 0
  | .timed => 1
  | .chase => 2
  | .sweep => 3
  | .braking => 4

def BrakeCause.code : BrakeCause → Nat
  | .halt => 0
  | .stop => 1
  | .release => 2

def SweepPhase.code : SweepPhase → Nat
  | .toA => 0
  | .leg => 1
  | .toCentre => 2
  | .done => 3

def ColourModel.code : ColourModel → Nat
  | .none => 0
  | .emitter _ => 1
  | .wheel .. => 2

def LinkKind.code : LinkKind → Nat
  | .manual => 0
  | .onDone => 1
  | .after => 2
  | .doneOrAfter => 3
  | .nextBar => 4

def PackPhase.code : PackPhase → Nat
  | .idle => 0
  | .cues => 1
  | .palettes => 2

def PackCause.code : PackCause → Nat
  | .complete => 0
  | .aborted => 1

def ListMode.code : ListMode → Nat
  | .released => 0
  | .armed => 1
  | .launching => 2
  | .running => 3
  | .settled => 4

def LaunchCause.code : LaunchCause → Nat
  | .host => 0
  | .bar => 1
  | .done => 2
  | .time => 3

def StepOutcome.code : StepOutcome → Nat
  | .launched => 0
  | .dropped => 1

def StaleCause.code : StaleCause → Nat
  | .stale => 0
  | .fresh => 1

def BeatSource.code : BeatSource → Nat
  | .external => 0
  | .manual => 1

def ClockState.code : ClockState → Nat
  | .locked => 0
  | .freewheel => 1
  | .manual => 2

def ClockCause.code : ClockCause → Nat
  | .edge => 0
  | .lost => 1
  | .source => 2

/-! ### Shared fields -/

/-- A stored time in ms, 4 bytes. A value of 2^32 or more has no stated coding (log entry 4). -/
def timeBytes (t : Nat) : List Byte :=
  if t < 4294967296 then le4 t else le4 (Config.wideTime t).toNat

/-- A launch tag: list number and serial. -/
def tagBytes (t : LaunchTag) : List Byte := le1 t.list ++ le2 t.serial

def optTag (t : Option LaunchTag) : List Byte := optBytes 3 tagBytes t

/-! ### Host Link (11.4, 11.6) -/

/-- ASCII text padded with zero bytes to 8 bytes (11.8). -/
def vendorBytes : List Byte := [0x55, 0x77, 0x61, 0x67, 0x6F, 0, 0, 0]
def partBytes : List Byte := [0x49, 0x4C, 0x56, 0x2D, 0x35, 0x34, 0x32, 0x30]

/-- The identity block of READY and IDENTIFY (R208, 11.8). -/
def identityBlock : List Byte :=
  vendorBytes ++ partBytes ++ [Config.siliconRevision] ++ Config.capacities.flatMap le2

/-- The nine pending flags (R202). -/
def flagsData (n : Notices) : List Byte := n.flags.flatMap flagByte

def counterBytes (c : Counter) : List Byte := le1 c.event.code ++ le1 c.mask ++ le4 c.value

/-- READ_COUNTERS (R204). -/
def countersData (s : State) : List Byte := s.link.counters.flatMap counterBytes

/-! ### Rig Table -/

/-- An offset that may be absent, as DEFINE_KIND writes it (11.8). -/
def offsetByte (o : Option Nat) : List Byte := le1 (o.getD 255)

def Emitter.bytes (e : Emitter) : List Byte :=
  le2 (e.hue.getD 65535) ++ le2 e.gain ++ le1 e.coarse ++ offsetByte e.fine

def wheelPosBytes (w : WheelPos) : List Byte := le2 w.hue ++ le2 w.sat ++ le1 w.value

/-- The list count of a colour model (11.8). -/
def ColourModel.count : ColourModel → Nat
  | .none => 0
  | .emitter es => es.length
  | .wheel ws _ => ws.length

def ColourModel.role : ColourModel → Nat
  | .wheel _ r => r
  | _ => 255

def ColourModel.bytes : ColourModel → List Byte
  | .none => []
  | .emitter es => es.flatMap Emitter.bytes
  | .wheel ws _ => ws.flatMap wheelPosBytes

/-- A stored profile in the layout of DEFINE_KIND (11.8). -/
def profileBytes (n : Nat) (k : Profile) : List Byte :=
  le1 n ++ se4 k.panMin ++ se4 k.panMax ++ se2 k.tiltMin ++ se2 k.tiltMax ++ le2 k.vmaxPan ++ le2 k.vmaxTilt ++
    le2 k.amaxPan ++ le2 k.amaxTilt ++ le2 k.gain ++ le1 k.footprint ++ le1 k.panCoarse ++ offsetByte k.panFine ++
    le1 k.tiltCoarse ++ offsetByte k.tiltFine ++ le1 k.model.code ++ le1 k.model.count ++ le1 k.model.role ++
    le1 k.pass.length ++ k.model.bytes ++ k.pass.flatMap le1

/-- QUERY_KIND (R4). -/
def kindData (s : State) (n : Nat) (k : Profile) : List Byte := profileBytes n k ++ le2 (s.kindUses n)

/-- The fields of a PATCHED record, the state and generation apart (R14). By the model's choice the trims, which 1.2 gives
to EMITTER kinds alone, are a counted list for every kind, of count 0 for the others, with no presence byte (log entry
10). -/
def patchBytes (p : Patch) : List Byte :=
  le1 p.kind ++ le1 p.line ++ le2 p.base ++ le1 p.truss ++ posBytes p.pos ++ le2 p.yaw ++ le1 p.mounting.code ++
    flagByte p.panInvert ++ flagByte p.tiltInvert ++ se4 p.homePan ++ se2 p.homeTilt ++ listBytes le2 p.trims ++
    listBytes le1 p.pass

/-- QUERY_FIXTURE (R14). -/
def fixtureData (s : State) (f : Nat) : List Byte :=
  match s.patchOf f with
  | none => le1 0 ++ le4 (s.fixture f).gen
  | some p => le1 1 ++ patchBytes p ++ le4 (s.fixture f).gen ++ posBytes (s.trussOffset p.truss)

/-! ### Point Table -/

/-- QUERY_POINT (R34). R34 and 11.8 give no coding for a stale timer that is stopped: by the model's choice it is written
as an absent field (log entry 10). -/
def pointData (s : State) (p : Nat) : List Byte :=
  let r := s.point p
  let aimed := (s.fixturesAimedAt p).length
  le1 (if r.pos.isSome then 1 else 0) ++ optBytes 12 posBytes r.pos ++
    optBytes 1 (fun b : Binding => le1 b.tag) r.binding ++ optBytes 12 (fun b : Binding => posBytes b.offset) r.binding ++
    le4 r.gen ++ flagByte r.stale ++ optBytes 2 (fun t => le2 (msLeft s.now t)) r.timer ++ le2 s.points.staleLimit ++
    le2 aimed ++ le2 (if r.pos.isSome then 0 else aimed)

/-! ### Claim Table -/

/-- Offsets 3 to 34 of a cue entry: the fields of a target spec with its law and time, times in ms. -/
def specBytes (e : RawEntry) (moveTime legTime fadeTime : Nat) : List Byte :=
  le1 e.aim ++ le1 e.law ++ le1 e.units ++ le1 e.point ++ se4 e.pan ++ se2 e.tilt ++ le2 e.panAmp ++ le2 e.tiltAmp ++
    le1 e.legs ++ le1 e.colour ++ timeBytes moveTime ++ timeBytes legTime ++ timeBytes fadeTime ++ se2 e.hue ++ le2 e.sat

/-- A spec with every field zero. -/
def blankEntry : RawEntry := ⟨0, 0, 0, 0, 0, 0, 0, 0, 0, 0, 0, 0, 0, 0, 0, 0, 0⟩

def aimClaimBytes (c : AimClaim) : List Byte :=
  match c.target with
  | .point p => specBytes { blankEntry with aim := 1, law := c.law.code, point := p } c.ms 0 0
  | .angles pan tilt => specBytes { blankEntry with aim := 2, law := c.law.code, pan := pan, tilt := tilt } c.ms 0 0
  | .sweep (.point p) panAmp tiltAmp legMs legs =>
    specBytes { blankEntry with
        aim := 3, law := c.law.code, point := p, panAmp := panAmp, tiltAmp := tiltAmp, legs := legs } c.ms legMs 0
  | .sweep (.angles pan tilt) panAmp tiltAmp legMs legs =>
    specBytes { blankEntry with
        aim := 3, law := c.law.code, units := 8, pan := pan, tilt := tilt, panAmp := panAmp, tiltAmp := tiltAmp,
        legs := legs } c.ms legMs 0

/-- The COLOUR fields of a target spec: spec kind, hue field, saturation. -/
def ColourTarget.fields : ColourTarget → Nat × Int × Nat
  | .hueSat h sat => (1, h, sat)
  | .palette q => (2, q, 0)
  | .wheelSlot i => (3, i, 0)

def colourClaimBytes (c : ColourClaim) : List Byte :=
  let t := c.target.fields
  specBytes { blankEntry with colour := t.1, hue := t.2.1, sat := t.2.2 } 0 0 c.ms

/-- One entry of a claim stack (R52). -/
def entryBytes {α : Type} (enc : α → List Byte) (e : Entry α) : List Byte :=
  le1 e.source ++ le1 e.prio ++ enc e.body ++ optTag e.tag ++ flagByte e.owed

/-- QUERY_CLAIMS (R52). -/
def claimsData (s : State) (f : Nat) : List Byte :=
  listBytes (entryBytes aimClaimBytes) (s.aimStack f) ++ listBytes (entryBytes colourClaimBytes) (s.colourStack f) ++
    s.claims.prio.flatMap le1

/-- The five counts of DIRECT_AIM and BIND_FOLLOW (R47, R50). -/
def aimCounts (c : ClaimCounts) : List Byte :=
  le2 c.active ++ le2 c.below ++ le2 c.notPlaced ++ le2 c.skipped ++ le2 c.owed

/-- The four counts of DIRECT_COLOUR (R48). -/
def colourCounts (c : ClaimCounts) : List Byte := le2 c.active ++ le2 c.below ++ le2 c.notPlaced ++ le2 c.skipped

/-- The three counts of RELEASE_DIRECT and UNBIND_FOLLOW (R49, R51). -/
def releaseCounts (c : ReleaseCounts) : List Byte := le2 c.released ++ le2 c.nothing ++ le2 c.skipped

/-! ### Solve Queue and Solve Cache -/

/-- QUERY_SOLVER (R94). By the model's choice the SOLVING job's fixture, point and class are one optional group behind one
presence byte (log entry 10). -/
def solverData (s : State) : List Byte :=
  let q := s.solver
  le1 (q.used .shared) ++ le1 (q.used (.reserve .cue)) ++ le1 (q.used (.reserve .direct)) ++
    le1 (q.used (.reserve .track)) ++ le1 (q.used (.reserve .rig)) ++ le1 q.queued.length ++
    le1 (if q.solving.isSome then 1 else 0) ++
    optBytes 3 (fun j : Job × Snapshot => le1 j.1.fixture ++ le1 j.1.point ++ le1 j.1.cls.code) q.solving ++
    le2 (s.owedOf .cue).length ++ le2 (s.owedOf .direct).length ++ le2 (s.owedOf .track).length ++
    le2 (s.owedOf .rig).length ++ le1 s.validEntries ++ le1 s.cache.pointer

/-! ### Motion Engine -/

/-- The kind of an aim: the code of its AIM spec, 0 for none. -/
def aimKind : Option AimTarget → Nat
  | none => 0
  | some (.point _) => 1
  | some (.angles ..) => 2
  | some (.sweep ..) => 3

def sweepBytes (w : Sweep) : List Byte :=
  le1 w.phase.code ++ le1 w.legsLeft ++ se4 w.centrePan ++ se4 w.centreTilt ++ se4 w.aPan ++ se4 w.aTilt ++
    se4 w.bPan ++ se4 w.bTilt

/-- QUERY_MOTION (R120). -/
def motionData (s : State) (k : Profile) (p : Patch) (m : Motion) : List Byte :=
  le1 m.mode.code ++ flagByte (decide (m.mode ≠ .held)) ++ se4 m.pan ++ se4 m.tilt ++ se2 m.vPan ++ se2 m.vTilt ++
    le1 (aimKind m.aim) ++ se4 m.tgtPan ++ se4 m.tgtTilt ++
    optBytes 8 (fun q : Plan => le4 q.n ++ le4 q.k) m.plan ++ optBytes 26 sweepBytes m.sweep ++
    flagByte m.awaiting ++ le1 m.pendLaw.code ++ timeBytes m.pendMs ++ optTag m.tag ++
    optBytes 1 (fun c : BrakeCause => le1 c.code) m.brake ++ flagByte m.limited ++ flagByte m.clamped ++
    le2 (panCount k p m.pan) ++ le2 (tiltCount k p m.tilt) ++ flagByte s.motion.timer.isSome

/-- HALT's counts (R114). -/
def haltCounts (c : HaltCounts) : List Byte := le2 c.braking ++ le2 c.held ++ le2 c.skipped

/-! ### Colour Engine -/

/-- The outputs of a record by the colour model: two bytes each for emitters, one for the wheel value. -/
def outputBytes (m : ColourModel) (l : List Nat) : List Byte :=
  match m with
  | .wheel .. => listBytes le1 l
  | _ => listBytes le2 l

/-- The bytes that a fade's fields take for a kind: two lists of outputs, F and k. -/
def fadeWidth (m : ColourModel) (l : List Nat) : Nat := 2 * (outputBytes m l).length + 4

def fadeBytes (m : ColourModel) (d : Fade) : List Byte :=
  outputBytes m d.start ++ outputBytes m d.target ++ le2 d.steps ++ le2 d.k

/-- The colour target with its spec. -/
def colourTargetBytes (t : Option ColourTarget) : List Byte :=
  match t with
  | some t => le1 t.fields.1 ++ se2 t.fields.2.1 ++ le2 t.fields.2.2
  | none => zeroBytes 5

/-- QUERY_COLOUR (R142). By the model's choice the fade's start, target, F and k are one optional group behind one presence
byte, absent as zeros that take the place of the two lists' counts too (log entry 10). -/
def colourData (s : State) (k : Profile) (c : Colour) : List Byte :=
  le1 k.model.code ++ le1 (if c.fade.isSome then 1 else 0) ++ colourTargetBytes c.target ++
    outputBytes k.model c.outputs ++ optBytes (fadeWidth k.model c.outputs) (fadeBytes k.model) c.fade ++
    optBytes 1 le1 c.origin ++ optTag c.tag ++ flagByte c.gamut ++ flagByte s.colour.timer.isSome

/-! ### Cue Memory and Playback Unit -/

/-- QUERY_MEMORY (R171). -/
def memoryData (m : CueMemory) : List Byte :=
  le2 m.fill ++ le2 m.floor ++ le2 m.free ++ le2 m.hole ++ le2 m.cues.length ++ le1 m.palettes.length ++
    le1 m.pack.phase.code ++ le2 m.pack.taken ++ le2 m.pack.total ++ le2 m.pack.moved

/-- A held GO: its cue number, 0 for NEXT, and its BAR flag, as GO lays them out. -/
def heldGoBytes (g : HeldGo) : List Byte := le2 (g.cue.getD 0) ++ flagByte g.bar

/-- The remaining time of a link timer in ms. -/
def LinkTimer.msLeft (now : Nat) : LinkTimer → Nat
  | .running t => ceilDiv (t - now) 1000
  | .held d => ceilDiv d 1000

/-- What QUERY_LIST says of a live record (R170). By the model's choice a link timer that STOP holds is given too, with the
time it holds (log entry 28). -/
def liveBytes (s : State) (l : CueList) (r : Launch) : List Byte :=
  optBytes 2 (fun w : Nat × WalkItem => le1 (w.2.entry + 1) ++ le1 w.2.fixture)
      (if l.mode = .launching then s.nextItem r else none) ++
    flagByte (l.paused && decide (l.mode = .launching)) ++ optBytes 4 (fun t : LinkTimer => le4 (t.msLeft s.now)) r.timer ++
    flagByte r.due

/-- The latest launch record (R170). -/
def launchBytes (r : Launch) : List Byte :=
  le1 (if r.live then 0 else 1) ++ le2 r.cue ++ le2 r.serial ++ le4 r.count ++ le1 r.cause.code ++ le1 r.link.code ++
    le4 r.linkMs

/-- QUERY_LIST (R170). By the model's choice an armed GO is its cue number alone, 0 for NEXT, and what R170 gives for a live
record is one optional group (log entry 10). -/
def listData (s : State) (n : Nat) : List Byte :=
  let l := s.cueList n
  le2 l.first ++ le2 l.last ++ flagByte l.wrap ++ le4 l.fade ++ le1 l.mode.code ++ optBytes 2 le2 l.current ++
    optBytes 3 heldGoBytes l.pendingGo ++ optBytes 2 (fun w : Option Nat => le2 (w.getD 0)) l.armedGo ++
    optBytes 2 le2 (s.nextCue l) ++ le1 (s.priority n) ++ optBytes 15 launchBytes l.launch ++
    optBytes 10 (liveBytes s l) l.liveLaunch

/-! ### Beat Clock -/

/-- QUERY_CLOCK (R185). R185 names the number of stored intervals and the intervals, and 11.8 has a list preceded by its
number of members: by the model's choice the number stands once (log entry 10). -/
def clockData (s : State) : List Byte :=
  let b := s.beat
  le1 b.source.code ++ flagByte b.filter ++ le1 b.clock.code ++ le2 b.period ++ le2 b.tempo ++ listBytes le2 b.ring ++
    le1 b.lone ++ le2 (((b.flywheel.getD s.now) - s.now) / 100) ++ le1 b.beatsPerBar ++ le1 b.beatsToBar ++ le2 b.bar

/-! ### Line Driver -/

def settingsBytes (g : LineSettings) : List Byte := le2 g.min ++ le2 g.refresh ++ le2 g.gap

/-- The asked-for slot values, from the buffer (R196). -/
def slotValues (r : Line) (first count : Nat) : List Byte :=
  (List.range count).map fun i => Store.get 0 r.buffer (first + i)

/-- QUERY_LINE (R196). By the model's choice whether a frame is in progress, with its slot count, is one optional field (log
entry 10). -/
def lineData (s : State) (l first count : Nat) : List Byte :=
  let r := s.line l
  let n := r.slotCount r.nextSettings
  le1 (if r.run then 1 else 0) ++ flagByte r.sync ++ flagByte s.lines.sync ++ settingsBytes r.inForce ++
    optBytes 6 settingsBytes r.waiting ++ le2 r.highest ++ le2 n ++ optBytes 2 (fun f : LineFrame => le2 f.count) r.frame ++
    flagByte r.due ++ le4 (frameMicros n r.inForce.gap) ++ le2 count ++ slotValues r first count

/-! ### Notices (11.3): content completed with state read at the start of sending -/

/-- CUE_STEP (R169). By the model's choice the state and the current cue of the eight lists go list by list (log entry
10). -/
def cueStepBytes (s : State) (c : CueStepNotice) : List Byte :=
  le1 c.list ++ le1 c.outcome.code ++ le2 c.cue ++ le2 c.serial ++ le4 c.count ++ le1 c.cause.code ++
    (List.range 8).flatMap fun n => le1 (s.cueList n).mode.code ++ optBytes 2 le2 (s.cueList n).current

def listSettledBytes (s : State) (c : ListSettledNotice) : List Byte :=
  le1 c.list ++ le2 c.cue ++ le2 c.serial ++ bitmap (fun n => decide ((s.cueList n).mode = .settled)) 1

def packDoneBytes (c : PackDoneNotice) : List Byte :=
  le1 c.cause.code ++ le2 c.taken ++ le2 c.moved ++ le2 c.fill ++ le2 c.floor ++ le2 c.hole

/-- How many points are stale. -/
def State.staleCount (s : State) : Nat := ((List.range 128).filter fun p => (s.point p).stale).length

def trackStaleBytes (s : State) (c : TrackStaleNotice) : List Byte :=
  le1 c.cause.code ++ le1 c.point ++ le1 s.staleCount ++ bitmap (fun p => (s.point p).stale) 16

def beatStateBytes (s : State) (c : BeatStateNotice) : List Byte :=
  le1 c.clock.code ++ le1 c.cause.code ++ le1 s.beat.source.code ++ le1 s.beat.clock.code ++ le2 s.beat.period ++
    le2 s.beat.bar ++ le1 s.beat.beatsToBar

def stopStateBytes (c : StopStateNotice) : List Byte := flagByte c.level ++ le1 c.part.code

/-- SOLVE_REJECTED (R84). R84 gives no order for its four class counts; by the model's choice they stand as in QUERY_SOLVER:
CUE, DIRECT, TRACK, RIG (R94, log entry 10). -/
def solveRejectedBytes (s : State) (c : SolveRejectedNotice) : List Byte :=
  le1 c.fixture ++ le1 c.cls.code ++ le2 (s.owedOf .cue).length ++ le2 (s.owedOf .direct).length ++
    le2 (s.owedOf .track).length ++ le2 (s.owedOf .rig).length

def linkOverrunBytes (c : LinkOverrunNotice) : List Byte := le2 c.drops ++ le1 c.kind ++ le1 c.tag

/-- How many PATCHED fixtures have GAMUT set (R133). -/
def State.gamutCount (s : State) : Nat :=
  (s.patchedFixtures.filter fun f => (s.colourOf f).any fun c => c.gamut).length

def gamutClampBytes (s : State) (c : GamutClampNotice) : List Byte :=
  le1 c.fixture ++ le2 c.hue ++ le2 c.sat ++ bitmap (fun i => c.emitters.contains i) 1 ++ le2 s.gamutCount

/-- The payload of the pending notice at a place in kind order (R203). -/
def State.noticePayload (s : State) (i : Nat) : List Byte :=
  let n := s.link.notices
  match i with
  | 0 => (n.cueStep.map (cueStepBytes s)).getD []
  | 1 => (n.listSettled.map (listSettledBytes s)).getD []
  | 2 => (n.packDone.map packDoneBytes).getD []
  | 3 => (n.trackStale.map (trackStaleBytes s)).getD []
  | 4 => (n.beatState.map (beatStateBytes s)).getD []
  | 5 => (n.stopState.map stopStateBytes).getD []
  | 6 => (n.solveRejected.map (solveRejectedBytes s)).getD []
  | 7 => (n.linkOverrun.map linkOverrunBytes).getD []
  | 8 => (n.gamutClamp.map (gamutClampBytes s)).getD []
  | _ => []

end Sys2Proof.Machine
end

