-- ==== Sys2Proof/Machine/LinkOps.lean ====
section
/-! DEFINITION. The Host Link (chapter 11): the transmitter, the dispatcher, the receiver, how a command's row is taken and
answered, and the reset. -/

namespace Sys2Proof.Machine

/-- The statuses of a reply (R201). -/
inductive Status where
  | ok | accepted | badLength | unknownKind | badArg | notFound | inUse | overlap | busy | full | needsPack | queueFull
  | stopped | wrongState
deriving DecidableEq, Repr

def Status.code : Status → Nat
  | .ok => 0
  | .accepted => 1
  | .badLength => 2
  | .unknownKind => 3
  | .badArg => 4
  | .notFound => 5
  | .inUse => 6
  | .overlap => 7
  | .busy => 8
  | .full => 9
  | .needsPack => 10
  | .queueFull => 11
  | .stopped => 12
  | .wrongState => 13

/-! ### Transmitter (R203) -/

/-- The time a frame takes on the link: 5 µs for each of its 5 header bytes and its payload bytes. -/
def LinkFrame.micros (f : LinkFrame) : Nat := 5 * (5 + f.payload.length)

/-- The transmitter begins a frame. -/
def State.beginSend (s : State) (f : LinkFrame) (w : TxKind) : State :=
  s.withLink { s.link with sending := some ⟨f, w, s.now + f.micros⟩ }

/-- The READY frame (R208). -/
def readyFrame : LinkFrame := ⟨0x7F, 0, identityBlock⟩

/-- The frame of the pending notice at a place in kind order: its kind, tag 0, its content (R203). -/
def State.noticeFrame (s : State) (i : Nat) : LinkFrame := ⟨0x60 + i, 0, s.noticePayload i⟩

/-- The reply of the held command, when one is waiting. -/
def Link.waitingReply (l : Link) : Option LinkFrame :=
  match l.held with
  | some h =>
    match h.phase with
    | .replyWaiting f => some f
    | _ => none
  | none => none

/-- The held command with a new phase. -/
def Link.setPhase (l : Link) (p : HeldPhase) : Link := { l with held := l.held.map fun h => { h with phase := p } }

/-- The transmitter begins the waiting reply. -/
def State.sendReply (s : State) (f : LinkFrame) : State := (s.withLink (s.link.setPhase .replySending)).beginSend f .reply

/-- The transmitter begins a notice: content read, pending flag cleared, within the event (R203). -/
def State.sendNotice (s : State) (i : Nat) : State :=
  (s.withNotices (s.link.notices.clear i)).beginSend (s.noticeFrame i) .notice

/-- The transmitter chooses its next frame when it is idle and no reset is under way (R203, R207). -/
def State.pump (s : State) : State :=
  if s.resetting.isSome || s.link.sending.isSome then s
  else if s.link.readyWaiting then (s.withLink { s.link with readyWaiting := false }).beginSend readyFrame .ready
  else
    match s.link.waitingReply with
    | some f => s.sendReply f
    | none =>
      match s.link.notices.best with
      | some i => s.sendNotice i
      | none => s

/-! ### Answering (R201) -/

/-- A reply frame: the kind plus 0x80, the tag, status and room, then the data. -/
def Held.reply (h : Held) (st : Status) (data : List Byte) : LinkFrame :=
  ⟨(h.kind + 0x80) % 256, h.tag, le1 st.code ++ le1 h.room ++ data⟩

/-- The held command is answered: its reply waits for the transmitter. -/
def State.answer (s : State) (st : Status) (data : List Byte) : State :=
  match s.link.held with
  | some h => s.withLink { s.link with held := some { h with phase := .replyWaiting (h.reply st data) } }
  | none => s

/-- The last event of a command whose work takes several events ends with its answer, formed after the transmitter has
been offered what the event made ready: a notice made pending by that work goes out ahead of the reply, as the sequence
of 11.7 shows (log entry 14). -/
def State.finish (s : State) (st : Status) (data : List Byte) : State := s.pump.answer st data

/-- A refusal carries no data (R201). -/
def State.refuse (s : State) (st : Status) : State := s.answer st []

/-- The held command goes on with its work (R200). -/
def State.setWork (s : State) (w : Work) : State := s.withLink (s.link.setPhase (.working w))

/-- The work of the held command, when it is under way. -/
def State.work (s : State) : Option Work :=
  match s.link.held with
  | some h =>
    match h.phase with
    | .working w => some w
    | _ => none
  | none => none

/-! ### Dispatcher (R200) -/

/-- Commands may be dispatched: no reset is under way and READY has been sent (R208). -/
def State.linkOpen (s : State) : Bool := s.resetting.isNone && s.link.readySent

/-- The dispatcher is free. -/
def State.free (s : State) : Bool := s.linkOpen && s.link.held.isNone

/-- The checks of R200 on a command just taken. -/
def State.check (s : State) (f : LinkFrame) : State :=
  match parseCommand f.kind f.payload with
  | .unknownKind => s.refuse .unknownKind
  | .badLength => s.refuse .badLength
  | .command c => s.withLink (s.link.setPhase (.handed c))

/-- The free dispatcher takes the oldest frame, with the room it leaves (R200, R201). -/
def State.dispatch (s : State) : State :=
  if s.free then
    match s.link.queue with
    | [] => s
    | f :: fs =>
      (s.withLink
          { s.link with queue := fs, held := some ⟨f.kind, f.tag, 8 - fs.length, .replyWaiting ⟨f.kind, f.tag, []⟩⟩ }).check
        f
  else s

/-- A command of the table taken as though its frame, with tag 0, had just been dispatched (log entry 11). -/
def State.hold (s : State) (c : Instr) (kind : Nat) : State :=
  s.withLink { s.link with held := some ⟨kind, 0, 8, .handed c⟩ }

/-- The event of a host command's row: it runs when the dispatcher has handed this command to its owner, or when a free
dispatcher with an empty queue takes it directly; at any other time nothing happens (log entries 11 and 12). -/
def State.takeCommand (s : State) (c : Instr) (run : State → State) : State :=
  match s.link.held with
  | some h => if h.phase = .handed c ∧ s.resetting = none then (run s).pump else s
  | none =>
    match encodeCommand c with
    | some (kind, _) =>
      if s.free && s.link.queue.isEmpty && c.wellFormed then (run (s.hold c kind)).pump else s
    | none => s

/-- The event of a row that is no host command's: it happens when it is enabled and no reset is under way (log entry 12). -/
def State.event (s : State) (enabled : Bool) (run : State → State) : State :=
  if s.resetting.isNone && enabled then (run s).pump else s

/-! ### Receiver (R198, R199) -/

/-- A frame on the link completes: it joins the queue or is dropped (R199), and a free dispatcher takes the oldest. -/
def State.frameArrives (s : State) (f : LinkFrame) : State :=
  if s.link.queue.length < 8 then (s.withLink { s.link with queue := s.link.queue ++ [f] }).dispatch
  else s.notifyLinkOverrun f.kind f.tag

def State.withReceiver (s : State) (r : Receiver) : State := s.withLink { s.link with receiver := r }

/-- A frame being received is discarded: LINK_ERROR, and the receiver hunts (R198). -/
def State.discardFrame (s : State) : State := (s.withReceiver .hunting).raiseOnce .linkError

/-- A byte while hunting (R198). -/
def State.hunt (s : State) (b : RxByte) : State :=
  if b.stopBit && decide (b.value = 0xC3) then s.withReceiver (.inFrame [] s.now) else s

/-- The bytes after the sync byte make a whole frame: length, kind, tag and payload. -/
def frameOf (got : List Byte) : Option LinkFrame :=
  if 4 ≤ got.length ∧ got.length = 4 + u2 got 0 then some ⟨u1 got 2, u1 got 3, got.drop 4⟩ else none

/-- The bytes after the sync byte give a length above 1,020 (R198). -/
def tooLong (got : List Byte) : Bool := decide (2 ≤ got.length) && decide (1020 < u2 got 0)

/-- The time a byte takes on the link, in µs (chapter 11's opening). -/
def byteMicros : Nat := 5

/-- More than 1 ms lies between the end of the last byte of the frame and the start of a byte that ends now, or of any
later one (R198): a byte arrives at its end and began 5 µs before (log entry 20). -/
def gapOver (lastAt now : Nat) : Bool := decide (lastAt + 1000 + byteMicros < now)

/-- A byte in a frame, its gap apart (R198). -/
def State.frameByte (s : State) (got : List Byte) (b : RxByte) : State :=
  if !b.stopBit then s.discardFrame
  else if tooLong (got ++ [b.value]) then s.discardFrame
  else
    match frameOf (got ++ [b.value]) with
    | some f => (s.withReceiver .hunting).frameArrives f
    | none => s.withReceiver (.inFrame (got ++ [b.value]) s.now)

/-- A byte arrives on RXD (R198). -/
def State.receiveByte (s : State) (b : RxByte) : State :=
  match s.link.receiver with
  | .hunting => s.hunt b
  | .inFrame got lastAt => if gapOver lastAt s.now then s.discardFrame.hunt b else s.frameByte got b

/-- Bytes arrive in order. -/
def State.receive (s : State) : List RxByte → State
  | [] => s
  | b :: bs => (s.receiveByte b).receive bs

/-- The gap after a byte of a frame has passed 1 ms, and no byte that began within it is still on its way (log entry 20). -/
def State.interByteOver (s : State) : Bool :=
  match s.link.receiver with
  | .hunting => false
  | .inFrame _ lastAt => gapOver lastAt s.now

/-! ### Reset and the end of a transmission (R203, R207, R208) -/

/-- A reset begins: every block takes its reset values (R207). -/
def State.beginReset (s : State) (c : ResetCause) : State := State.resetValues s.now s.freeUses s.stop c s.pending

/-- A reset ends: the flywheel starts with its period of 5,000 (R186), READY becomes waiting (R208), and the engines know
the level of STOP. -/
def State.endReset (s : State) : State :=
  let s := s.withResetting none
  let s := (s.withMotion { s.motion with stopSeen := s.stop }).withColour { s.colour with stopSeen := s.stop }
  let s := s.withBeat
    { s.beat with flywheel := some (s.now + periodMicros s.beat.period), loaded := s.beat.period, lastBeat := s.now }
  s.withLink { s.link with readyWaiting := true }

/-- The frame being sent has gone. -/
def State.sentOver (s : State) : Bool := s.link.sending.any fun x => decide (x.ends ≤ s.now)

/-- A frame sent is RESTART's reply OK (R207). -/
def LinkFrame.isRestart (f : LinkFrame) : Bool := decide (f.kind = 0x84) && decide (f.payload.head? = some 0)

/-- The last byte of a frame has been sent (R200, R203, R207, R208). -/
def State.transmitted (s : State) (x : Sending) : State :=
  let s := s.withLink { s.link with sending := none }
  match x.what with
  | .ready => (s.withLink { s.link with readySent := true }).dispatch
  | .reply =>
    if x.frame.isRestart then s.beginReset .restart else (s.withLink { s.link with held := none }).dispatch
  | .notice => s

end Sys2Proof.Machine
end

