-- ==== Sys2Proof/Machine/HostCmds.lean ====
section
/-! DEFINITION. Resets, the link's events, the commands of the Host Link, and the part states with STOP (chapter 11; R92,
R115 to R118, R138 to R140, R166, R167, R195). -/

namespace Sys2Proof.Machine

/-- What a row of the table answers: every row has an effect, so its answer is a next state. -/
abbrev Result := Host.Outcome State Fault Refusal

/-! ### Resets -/

/-- POWER_ON (R207). -/
def execPowerOn (s : State) : Result := .next (s.beginReset .powerOn)

/-- RESET_LOW (R207). -/
def execResetLow (s : State) : Result := .next (s.beginReset .pin)

/-- RESET_END (R208, R186). -/
def execResetEnd (s : State) : Result := .next (if s.resetting.isSome then s.endReset.pump else s)

/-! ### Link events -/

/-- RECEIVE_FRAME (R198 to R201): bytes arrive on RXD. -/
def execReceiveFrame (bytes : List RxByte) (s : State) : Result := .next (s.event true fun s => s.receive bytes)

/-- INTER_BYTE_TIMEOUT (R198). -/
def execInterByteTimeout (s : State) : Result := .next (s.event s.interByteOver fun s => s.discardFrame)

/-- The frame being sent ends. -/
def State.endSending (s : State) : State :=
  match s.link.sending with
  | some x => s.transmitted x
  | none => s

/-- TRANSMIT_END (R203, R200). -/
def execTransmitEnd (s : State) : Result := .next (s.event s.sentOver fun s => s.endSending)

/-! ### Commands of the Host Link -/

/-- IDENTIFY (R208). -/
def execIdentify (s : State) : Result := .next (s.takeCommand .identify fun s => s.answer .ok identityBlock)

/-- START's event at the Host Link (R205). -/
def State.start (s : State) : State :=
  if s.part = .live then s.answer .ok [] else (s.withPart .live).setWork (.start true true true true)

/-- START (R205). -/
def execStart (s : State) : Result := .next (s.takeCommand .start State.start)

/-- STANDBY's event at the Host Link (R205). -/
def State.standby (s : State) : State :=
  if s.part = .standby then s.answer .ok []
  else (s.withPart .standby).setWork (.standby true true true (List.range 8))

/-- STANDBY (R205). -/
def execStandby (s : State) : Result := .next (s.takeCommand .standby State.standby)

/-- RESTART (R207): answered OK; the reset begins when the reply has been sent. -/
def execRestart (s : State) : Result := .next (s.takeCommand .restart fun s => s.answer .ok [])

/-- SET_NOTICE's effect (R202). -/
def State.setNotice (levels : List Nat) (s : State) : State :=
  if levels.any fun l => decide (3 < l) then s.refuse .badArg
  else
    let s := s.withNotices { s.link.notices with levels := levels }
    s.answer .ok (flagsData s.link.notices)

/-- SET_NOTICE (R202). -/
def execSetNotice (levels : List Nat) (s : State) : Result :=
  .next (s.takeCommand (.setNotice levels) (State.setNotice levels))

/-- The counters with one of them set anew (R204). -/
def setCounterAt (l : List Counter) (i : Nat) (e : Activity) (mask : Nat) : List Counter :=
  l.set i ⟨e, mask % 16, 0⟩

/-- SET_COUNTER's effect (R204). -/
def State.setCounter (counter ev mask : Nat) (s : State) : State :=
  match Activity.ofCode ev with
  | some e =>
    if counter ≤ 3 then
      (s.withLink { s.link with counters := setCounterAt s.link.counters counter e mask }).answer .ok []
    else s.refuse .badArg
  | none => s.refuse .badArg

/-- SET_COUNTER (R204). -/
def execSetCounter (counter ev mask : Nat) (s : State) : Result :=
  .next (s.takeCommand (.setCounter counter ev mask) (State.setCounter counter ev mask))

/-- READ_COUNTERS (R204). -/
def execReadCounters (s : State) : Result := .next (s.takeCommand .readCounters fun s => s.answer .ok (countersData s))

/-- CLEAR_COUNTERS's effect (R204). -/
def State.clearCounters (s : State) : State :=
  (s.withLink { s.link with counters := s.link.counters.map fun c => { c with value := 0 } }).answer .ok []

/-- CLEAR_COUNTERS (R204). -/
def execClearCounters (s : State) : Result := .next (s.takeCommand .clearCounters State.clearCounters)

/-! ### STOP (R206) -/

/-- A change of level on STOP, given to the motion, colour and playback blocks (R206, R166). -/
def State.stopChange (high : Bool) (s : State) : State :=
  let s := (s.withStop high).notifyStopState high s.part
  let s := (s.withStopToMotion (s.stopToMotion ++ [high])).withStopToColour (s.stopToColour ++ [high])
  if high then s.pauseLists (List.range 8) else s.giveLow (List.range 8)

/-- STOP_CHANGE (R206). A level that STOP already has is no change; during a reset only the level is taken (log
entry 13). -/
def execStopChange (high : Bool) (s : State) : Result :=
  .next
    (if s.resetting.isSome then
      ((s.withStop high).withMotion { s.motion with stopSeen := high }).withColour { s.colour with stopSeen := high }
    else s.event (decide (high ≠ s.stop)) (State.stopChange high))

/-- The Motion Engine takes the next change of STOP. -/
def State.motionSees (s : State) (high : Bool) : State :=
  (s.withStopToMotion s.stopToMotion.tail).withMotion { s.motion with stopSeen := high }

/-- Each moving motion record brakes, in LIVE (R115), as the engine finds the part state (log entry 45). -/
def State.motionStopHigh (s : State) : State :=
  let s := s.motionSees true
  let s := if s.part = .live then s.onMotions (fun _ m => m.stopHigh) s.patchedFixtures else s
  s.syncStepTimer

/-- MOTION_STOP_HIGH (R115). -/
def execMotionStopHigh (s : State) : Result :=
  .next (s.event (decide (s.stopToMotion.head? = some true)) State.motionStopHigh)

/-- Every motion record with an aim resumes, in LIVE (R116), as the engine finds the part state (log entry 45). -/
def State.motionStopLow (s : State) : State :=
  let s := s.motionSees false
  let s := if s.part = .live then s.onMotions (fun k m => m.resume k) s.patchedFixtures else s
  s.syncStepTimer

/-- MOTION_STOP_LOW (R116). -/
def execMotionStopLow (s : State) : Result :=
  .next (s.event (decide (s.stopToMotion.head? = some false)) State.motionStopLow)

/-- The Colour Engine takes the next change of STOP. -/
def State.colourSees (s : State) (high : Bool) : State :=
  (s.withStopToColour s.stopToColour.tail).withColour { s.colour with stopSeen := high }

/-- The fade timer stops. -/
def State.stopFadeTimer (s : State) : State := s.withColour { s.colour with timer := none, due := [] }

/-- The fade timer starts with a full period of 8 ms (R123, R140). -/
def State.startFadeTimer (s : State) : State := s.withColour { s.colour with timer := some (s.now + 8000) }

/-- Every fade is dropped, in LIVE (R138), as the engine finds the part state (log entry 45). -/
def State.colourStopHigh (s : State) : State :=
  let s := s.colourSees true
  if s.part = .live then s.stopFadeTimer.onColours (fun _ _ _ c => c.stopHigh) s.patchedFixtures else s

/-- COLOUR_STOP_HIGH (R138). -/
def execColourStopHigh (s : State) : Result :=
  .next (s.event (decide (s.stopToColour.head? = some true)) State.colourStopHigh)

/-- Stepping resumes for every colour record (R140). -/
def State.resumeColours (s : State) : State := s.startFadeTimer.onColours State.resumeColour s.patchedFixtures

/-! ### The block effects of START and STANDBY -/

/-- START's work with one part taken; the reply is sent when the last has been taken (R205). -/
def State.finishStart (s : State) (reaim motion colour lines : Bool) : State :=
  if reaim || motion || colour || lines then s.setWork (.start reaim motion colour lines) else s.finish .ok []

/-- The parts of START still to be taken. -/
def State.starting (s : State) : Option (Bool × Bool × Bool × Bool) :=
  match s.work with
  | some (.start r m c l) => some (r, m, c, l)
  | _ => none

/-- The colour part of START is still to be taken. -/
def State.startingColour (s : State) : Bool := s.starting.any fun w => w.2.2.1

/-- Stepping resumes for colour records: STOP has gone low (R140), or START takes its colour part. By the model's choice
the part state is looked at when the engine takes the change of STOP (log entry 45). -/
def State.colourResume (s : State) : State :=
  if s.stopToColour.head? = some false then
    let s := s.colourSees false
    if s.part = .live then s.resumeColours else s
  else
    match s.starting with
    | some (r, m, true, l) => (if s.colour.stopSeen then s else s.resumeColours).finishStart r m false l
    | _ => s

/-- COLOUR_RESUME (R140). -/
def execColourResume (s : State) : Result :=
  .next (s.event (decide (s.stopToColour.head? = some false) || s.startingColour) State.colourResume)

/-- PLAYBACK_STOP_LOW of a list: it takes the oldest change of STOP to low that it has still to take (R166, R206). -/
def execPlaybackStopLow (list : Nat) (s : State) : Result :=
  .next (s.event (decide (0 < (s.cueList list).lowsDue)) fun s => s.resumeList list)

/-- START's re-aims: a RIG-class request for every PATCHED fixture aimed at a SET point, in one event (R92, R118). -/
def State.startReaim (s : State) : State :=
  match s.starting with
  | some (true, m, c, l) => (s.rigReaims s.patchedFixtures).finishStart false m c l
  | _ => s

/-- START_REAIM (R92, R118). -/
def execStartReaim (s : State) : Result := .next (s.event (s.starting.any fun w => w.1) State.startReaim)

/-- START's effect on the motion records (R118). -/
def State.startMotion (s : State) : State :=
  match s.starting with
  | some (r, true, c, l) =>
    let s := if s.motion.stopSeen then s else s.onMotions (fun k m => m.startLive k) s.patchedFixtures
    s.syncStepTimer.finishStart r false c l
  | _ => s

/-- START_MOTION (R118). -/
def execStartMotion (s : State) : Result := .next (s.event (s.starting.any fun w => w.2.1) State.startMotion)

/-- START's effect on the lines (R195). -/
def State.startAllLines (s : State) : State :=
  match s.starting with
  | some (r, m, c, true) => (s.startLines (List.range 8)).finishStart r m c false
  | _ => s

/-- START_LINES (R195). -/
def execStartLines (s : State) : Result := .next (s.event (s.starting.any fun w => w.2.2.2) State.startAllLines)

/-- STANDBY's work with one part taken (R205). -/
def State.finishStandby (s : State) (motion colour lines : Bool) (lists : List Nat) : State :=
  if motion || colour || lines || !lists.isEmpty then s.setWork (.standby motion colour lines lists)
  else s.finish .ok []

/-- The parts of STANDBY still to be taken. -/
def State.standingBy (s : State) : Option (Bool × Bool × Bool × List Nat) :=
  match s.work with
  | some (.standby m c l ls) => some (m, c, l, ls)
  | _ => none

/-- STANDBY's effect on the motion records (R117). -/
def State.standbyMotion (s : State) : State :=
  match s.standingBy with
  | some (true, c, l, ls) =>
    (s.onMotions (fun _ m => m.standby) s.patchedFixtures).syncStepTimer.finishStandby false c l ls
  | _ => s

/-- STANDBY_MOTION (R117). -/
def execStandbyMotion (s : State) : Result := .next (s.event (s.standingBy.any fun w => w.1) State.standbyMotion)

/-- STANDBY's effect on the colour records (R139). -/
def State.standbyColour (s : State) : State :=
  match s.standingBy with
  | some (m, true, l, ls) =>
    (s.stopFadeTimer.onColours (fun _ _ _ c => c.standby) s.patchedFixtures).finishStandby m false l ls
  | _ => s

/-- STANDBY_COLOUR (R139). -/
def execStandbyColour (s : State) : Result := .next (s.event (s.standingBy.any fun w => w.2.1) State.standbyColour)

/-- STANDBY's effect on one list (R167). -/
def State.standbyList (list : Nat) (s : State) : State :=
  match s.standingBy with
  | some (m, c, l, ls) => (s.setCueList list (s.cueList list).standby).finishStandby m c l (ls.erase list)
  | none => s

/-- STANDBY_LIST of a list (R167). -/
def execStandbyList (list : Nat) (s : State) : Result :=
  .next (s.event (s.standingBy.any fun w => w.2.2.2.contains list) (State.standbyList list))

/-- STANDBY's effect on the lines (R195). -/
def State.standbyLines (s : State) : State :=
  match s.standingBy with
  | some (m, c, true, ls) =>
    let s := s.idleLines (List.range 8)
    (s.withLines { s.lines with sync := false }).finishStandby m c false ls
  | _ => s

/-- STANDBY_LINES (R195). -/
def execStandbyLines (s : State) : Result := .next (s.event (s.standingBy.any fun w => w.2.2.1) State.standbyLines)

end Sys2Proof.Machine
end

