-- ==== Sys2Proof/Machine/BeatCmds.lean ====
section
/-! DEFINITION. The BEAT input, the flywheel and the clock's commands (chapter 9). -/

namespace Sys2Proof.Machine

/-- A rising edge on BEAT: the filter times it for 2.0 ms, or it is accepted at once (R173). -/
def State.beatRise (s : State) : State :=
  s.withBeat
    { s.beat with
      pulse := some (if s.beat.filter then ⟨s.now + 2000, true⟩ else ⟨s.now, false⟩) }

/-- BEAT_RISE (R173): not watched when the source is MANUAL. -/
def execBeatRise (s : State) : Result := .next (s.event (decide (s.beat.source = .external)) State.beatRise)

/-- An accepted edge is taken (R174, R178). -/
def State.takeEdge (s : State) : State := (s.withBeat { s.beat with pulse := none }).acceptEdge

/-- ACCEPTED_EDGE (R178). -/
def execAcceptedEdge (s : State) : Result := .next (s.event s.edgeDue State.takeEdge)

/-- The flywheel's expiry (R177). -/
def State.flywheelExpiry (s : State) : State :=
  match s.flywheelDue with
  | some t => s.flywheelBeat t
  | none => s

/-- FLYWHEEL_EXPIRY (R177). -/
def execFlywheelExpiry (s : State) : Result := .next (s.event s.flywheelDue.isSome State.flywheelExpiry)

/-- A source's code on the link (11.8). -/
def sourceOfCode : Nat → Option BeatSource
  | 0 => some .external
  | 1 => some .manual
  | _ => none

/-- SET_BEAT_SOURCE's effect (R181). -/
def State.setBeatSourceCmd (source filter : Nat) (s : State) : State :=
  match sourceOfCode source with
  | some src =>
    if filter ≤ 1 then
      let s := s.setBeatSource src (decide (filter = 1))
      s.answer .ok (le1 s.beat.source.code ++ flagByte s.beat.filter ++ le1 s.beat.clock.code)
    else s.refuse .badArg
  | none => s.refuse .badArg

/-- SET_BEAT_SOURCE (R181). -/
def execSetBeatSource (source filter : Nat) (s : State) : Result :=
  .next (s.takeCommand (.setBeatSource source filter) (State.setBeatSourceCmd source filter))

/-- SET_TEMPO's effect (R176): the reply carries the stored tempo and the period it gives. -/
def State.setTempo (tempo : Nat) (s : State) : State :=
  let b := s.beat.setTempo tempo
  (s.withBeat b).answer .ok (le2 b.tempo ++ le2 (tempoPeriod b.tempo))

/-- SET_TEMPO (R176). -/
def execSetTempo (tempo : Nat) (s : State) : Result := .next (s.takeCommand (.setTempo tempo) (State.setTempo tempo))

/-- SET_BAR's effect (R183). -/
def State.setBar (beats : Nat) (s : State) : State :=
  if beats < 1 ∨ 16 < beats then s.refuse .badArg
  else (s.withBeat { s.beat with beatsPerBar := beats, beatsToBar := 1 }).answer .ok (le2 s.beat.bar)

/-- SET_BAR (R183). -/
def execSetBar (beats : Nat) (s : State) : Result := .next (s.takeCommand (.setBar beats) (State.setBar beats))

/-- QUERY_CLOCK (R185). -/
def execQueryClock (s : State) : Result := .next (s.takeCommand .queryClock fun s => s.answer .ok (clockData s))

/-- A pulse is under the filter's timing and its 2.0 ms have not passed (R173). -/
def State.pulseTimed (s : State) : Bool := s.beat.pulse.any fun p => p.filtered && decide (s.now < p.accepts)

/-- BEAT_PULSE_FALL (R173): the pulse is ignored as a whole. -/
def execBeatPulseFall (s : State) : Result :=
  .next (s.event s.pulseTimed fun s => s.withBeat { s.beat with pulse := none })

end Sys2Proof.Machine
end

