-- ==== Sys2Proof/Machine/ClaimCmds.lean ====
section
/-! DEFINITION. The claim commands (chapter 3): SET_PRIORITY, the direct and follow commands, QUERY_CLAIMS. -/

namespace Sys2Proof.Machine

/-- SET_PRIORITY's effect (R37). -/
def State.setPriority (source prio : Nat) (s : State) : State :=
  if 9 < source ∨ 15 < prio then s.refuse .badArg
  else
    (s.withClaims { s.claims with prio := s.claims.prio.set source prio }).answer .ok (le1 (s.priority source))

/-- SET_PRIORITY (R37). -/
def execSetPriority (source prio : Nat) (s : State) : Result :=
  .next (s.takeCommand (.setPriority source prio) (State.setPriority source prio))

/-- The counts of a claim command at its start: the fixtures of the range that are UNPATCHED are skipped (R47). -/
def State.startCounts (s : State) (first count : Nat) : ClaimCounts := ⟨0, 0, 0, s.rangeSkipped first count, 0⟩

/-- The counts of a release command at its start (R49). -/
def State.startReleases (s : State) (first count : Nat) : ReleaseCounts := ⟨0, 0, s.rangeSkipped first count⟩

/-! ### DIRECT_AIM -/

/-- The number of PATCHED fixtures that a claim command has counted. -/
def ClaimCounts.patched (c : ClaimCounts) : Nat := c.active + c.below + c.notPlaced

/-- DIRECT_AIM's status: QUEUE_FULL when every PATCHED fixture of the range, at least one, was left owed (R47). -/
def ClaimCounts.status (c : ClaimCounts) : Status := if 0 < c.patched ∧ c.owed = c.patched then .queueFull else .ok

/-- DIRECT_AIM's work goes on, or is answered (R47). -/
def State.goDirectAim (s : State) (todo : List Nat) (claim : AimClaim) (c : ClaimCounts) : State :=
  if todo.isEmpty then s.finish c.status (aimCounts c) else s.setWork (.directAim todo claim c)

/-- DIRECT_AIM's effect (R47): a quarter-beat time is converted once, here. -/
def State.directAim (e : RawEntry) (s : State) : State :=
  match e.directAimOk, s.aimClaim e with
  | true, some claim => s.goDirectAim (s.rangePatched e.first e.count) claim (s.startCounts e.first e.count)
  | _, _ => s.refuse .badArg

/-- DIRECT_AIM (R47). -/
def execDirectAim (e : RawEntry) (s : State) : Result := .next (s.takeCommand (.directAim e) (State.directAim e))

/-- A fixture's turn in DIRECT_AIM is to come. -/
def State.directAiming (s : State) : Bool :=
  match s.work with
  | some (.directAim (_ :: _) _ _) => true
  | _ => false

/-- One fixture's DIRECT AIM claim (R39 to R42, R47). -/
def State.directAimNext (s : State) : State :=
  match s.work with
  | some (.directAim (f :: fs) claim c) =>
    let r := s.claimAim f 9 claim
    r.1.goDirectAim fs claim (c.add r.2.1 r.2.2)
  | _ => s

/-- DIRECT_AIM_FIXTURE (R39). -/
def execDirectAimFixture (s : State) : Result := .next (s.event s.directAiming State.directAimNext)

/-! ### DIRECT_COLOUR -/

/-- DIRECT_COLOUR's work goes on, or is answered (R48). -/
def State.goDirectColour (s : State) (todo : List Nat) (claim : ColourClaim) (c : ClaimCounts) : State :=
  if todo.isEmpty then s.finish .ok (colourCounts c) else s.setWork (.directColour todo claim c)

/-- DIRECT_COLOUR's effect (R48). -/
def State.directColour (e : RawEntry) (s : State) : State :=
  match e.directColourOk, s.colourClaim e with
  | true, some claim => s.goDirectColour (s.rangePatched e.first e.count) claim (s.startCounts e.first e.count)
  | _, _ => s.refuse .badArg

/-- DIRECT_COLOUR (R48). -/
def execDirectColour (e : RawEntry) (s : State) : Result :=
  .next (s.takeCommand (.directColour e) (State.directColour e))

/-- A fixture's turn in DIRECT_COLOUR is to come. -/
def State.directColouring (s : State) : Bool :=
  match s.work with
  | some (.directColour (_ :: _) _ _) => true
  | _ => false

/-- One fixture's DIRECT COLOUR claim (R39, R40, R43, R48). -/
def State.directColourNext (s : State) : State :=
  match s.work with
  | some (.directColour (f :: fs) claim c) =>
    let r := s.claimColour f 9 claim
    r.1.goDirectColour fs claim (c.add r.2 false)
  | _ => s

/-- DIRECT_COLOUR_FIXTURE (R39). -/
def execDirectColourFixture (s : State) : Result := .next (s.event s.directColouring State.directColourNext)

/-! ### RELEASE_DIRECT -/

/-- RELEASE_DIRECT's work goes on, or is answered (R49). -/
def State.goReleaseDirect (s : State) (todo : List Nat) (aim colour : Bool) (ms : Nat) (c : ReleaseCounts) : State :=
  if todo.isEmpty then s.finish .ok (releaseCounts c) else s.setWork (.releaseDirect todo aim colour ms c)

/-- RELEASE_DIRECT's effect (R49): selector 0 AIM, 1 COLOUR, 2 BOTH. -/
def State.releaseDirect (a : ReleaseArgs) (s : State) : State :=
  if rangeOk a.first a.count = false ∨ 1 < a.unit ∨ 2 < a.selector then s.refuse .badArg
  else
    s.goReleaseDirect (s.rangePatched a.first a.count) (decide (a.selector ≠ 1)) (decide (a.selector ≠ 0))
      (s.toMs (decide (a.unit = 1)) a.time) (s.startReleases a.first a.count)

/-- RELEASE_DIRECT (R49). -/
def execReleaseDirect (a : ReleaseArgs) (s : State) : Result :=
  .next (s.takeCommand (.releaseDirect a) (State.releaseDirect a))

/-- A source released from the selected stacks of one fixture, AIM first (R49, R168). -/
def State.releaseBoth (s : State) (f source : Nat) (aim colour : Bool) (ms : Nat) : State × Bool :=
  let a := if aim then s.releaseAim f source ms else (s, false)
  let c := if colour then a.1.releaseColour f source ms else (a.1, false)
  (c.1, a.2 || c.2)

/-- A fixture's turn in RELEASE_DIRECT is to come. -/
def State.releasingDirect (s : State) : Bool :=
  match s.work with
  | some (.releaseDirect (_ :: _) _ _ _ _) => true
  | _ => false

/-- DIRECT released from one fixture (R46, R49). -/
def State.releaseDirectNext (s : State) : State :=
  match s.work with
  | some (.releaseDirect (f :: fs) aim colour ms c) =>
    let r := s.releaseBoth f 9 aim colour ms
    r.1.goReleaseDirect fs aim colour ms (c.add r.2)
  | _ => s

/-- RELEASE_DIRECT_FIXTURE (R46). -/
def execReleaseDirectFixture (s : State) : Result := .next (s.event s.releasingDirect State.releaseDirectNext)

/-! ### BIND_FOLLOW and UNBIND_FOLLOW -/

/-- BIND_FOLLOW's work goes on, or is answered (R50). -/
def State.goBindFollow (s : State) (todo : List Nat) (point : Nat) (c : ClaimCounts) : State :=
  if todo.isEmpty then s.finish .ok (aimCounts c) else s.setWork (.bindFollow todo point c)

/-- BIND_FOLLOW's effect (R50). -/
def State.bindFollow (first count point : Nat) (s : State) : State :=
  if rangeOk first count = false ∨ 127 < point then s.refuse .badArg
  else s.goBindFollow (s.rangePatched first count) point (s.startCounts first count)

/-- BIND_FOLLOW (R50). -/
def execBindFollow (first count point : Nat) (s : State) : Result :=
  .next (s.takeCommand (.bindFollow first count point) (State.bindFollow first count point))

/-- A fixture's turn in BIND_FOLLOW is to come. -/
def State.bindingFollow (s : State) : Bool :=
  match s.work with
  | some (.bindFollow (_ :: _) _ _) => true
  | _ => false

/-- The claim that BIND_FOLLOW makes: POINT p, CHASE, time 0 (R50). -/
def followClaim (point : Nat) : AimClaim := ⟨.point point, .chase, 0⟩

/-- One fixture's FOLLOW claim (R39 to R42, R50). -/
def State.bindFollowNext (s : State) : State :=
  match s.work with
  | some (.bindFollow (f :: fs) point c) =>
    let r := s.claimAim f 8 (followClaim point)
    r.1.goBindFollow fs point (c.add r.2.1 r.2.2)
  | _ => s

/-- BIND_FOLLOW_FIXTURE (R50). -/
def execBindFollowFixture (s : State) : Result := .next (s.event s.bindingFollow State.bindFollowNext)

/-- UNBIND_FOLLOW's work goes on, or is answered (R51). -/
def State.goUnbindFollow (s : State) (todo : List Nat) (c : ReleaseCounts) : State :=
  if todo.isEmpty then s.finish .ok (releaseCounts c) else s.setWork (.unbindFollow todo c)

/-- UNBIND_FOLLOW's effect (R51). -/
def State.unbindFollow (first count : Nat) (s : State) : State :=
  if rangeOk first count then s.goUnbindFollow (s.rangePatched first count) (s.startReleases first count)
  else s.refuse .badArg

/-- UNBIND_FOLLOW (R51). -/
def execUnbindFollow (first count : Nat) (s : State) : Result :=
  .next (s.takeCommand (.unbindFollow first count) (State.unbindFollow first count))

/-- A fixture's turn in UNBIND_FOLLOW is to come. -/
def State.unbindingFollow (s : State) : Bool :=
  match s.work with
  | some (.unbindFollow (_ :: _) _) => true
  | _ => false

/-- FOLLOW released from one fixture's AIM stack with release time 0 (R51). -/
def State.unbindFollowNext (s : State) : State :=
  match s.work with
  | some (.unbindFollow (f :: fs) c) =>
    let r := s.releaseAim f 8 0
    r.1.goUnbindFollow fs (c.add r.2)
  | _ => s

/-- UNBIND_FOLLOW_FIXTURE (R51). -/
def execUnbindFollowFixture (s : State) : Result := .next (s.event s.unbindingFollow State.unbindFollowNext)

/-- QUERY_CLAIMS's effect (R52). -/
def State.queryClaims (f : Nat) (s : State) : State :=
  if 255 < f then s.refuse .badArg
  else if s.isPatched f then s.answer .ok (claimsData s f)
  else s.refuse .notFound

/-- QUERY_CLAIMS (R52). -/
def execQueryClaims (f : Nat) (s : State) : Result := .next (s.takeCommand (.queryClaims f) (State.queryClaims f))

end Sys2Proof.Machine
end

