-- ==== Sys2Proof/Machine/ColourCmds.lean ====
section
/-! DEFINITION. Fade steps, palette updates and QUERY_COLOUR (chapter 7). -/

namespace Sys2Proof.Machine

/-- Fixture `f`'s step of the last expiry taken from those still to be taken. -/
def State.fadeTaken (s : State) (f : Nat) : State := s.withColour { s.colour with due := s.colour.due.erase f }

/-- One fade step of one record (R123, R135). -/
def State.fadeStep (f : Nat) (s : State) : State := (s.fadeTaken f).onColour f fun _ _ c => c.step

/-- FADE_STEP of a fixture (R123). -/
def execFadeStep (f : Nat) (s : State) : Result := .next (s.event (s.colour.due.contains f) (State.fadeStep f))

/-- QUERY_COLOUR's effect (R142). -/
def State.queryColour (f : Nat) (s : State) : State :=
  if 255 < f then s.refuse .badArg
  else
    match s.profileOf f, s.colourOf f with
    | some k, some c => s.answer .ok (colourData s k c)
    | _, _ => s.refuse .notFound

/-- QUERY_COLOUR (R142). -/
def execQueryColour (f : Nat) (s : State) : Result := .next (s.takeCommand (.queryColour f) (State.queryColour f))

/-- STORE_PALETTE's work goes on, or is answered (R149). -/
def State.goPalette (s : State) (todo : List Nat) (q start count : Nat) : State :=
  if todo.isEmpty then s.finish .ok (le2 start ++ le2 count) else s.setWork (.storePalette todo q start count)

/-- The update fade time of a stored palette (R136). -/
def State.paletteFade (s : State) (q : Nat) : Nat :=
  match s.paletteEntry q with
  | some e =>
    match s.readSlot e.start with
    | some (.paletteHeader _ _ _ f _) => f
    | _ => 0
  | none => 0

/-- A record's turn in a palette update is to come. -/
def State.updating (s : State) : Bool :=
  match s.work with
  | some (.storePalette (_ :: _) _ _ _) => true
  | _ => false

/-- One record updated (R136). -/
def State.updateNext (s : State) : State :=
  match s.work with
  | some (.storePalette (f :: fs) q start n) => (s.updatePalette f q (s.paletteFade q)).goPalette fs q start n
  | _ => s

/-- PALETTE_UPDATE (R136). -/
def execPaletteUpdate (s : State) : Result := .next (s.event s.updating State.updateNext)

/-- The fixtures whose colour target is PALETTE q, ascending (R136). -/
def State.showing (s : State) (q : Nat) : List Nat :=
  (List.range 256).filter fun f => (s.colourOf f).any fun c => decide (c.target = some (.palette q))

/-- The origin palette cleared on the record of fixture `f` when it is q (R137). -/
def State.clearOrigin (s : State) (q f : Nat) : State :=
  match s.colourOf f with
  | some c => if c.origin = some q then s.setColourOf f (some { c with origin := none }) else s
  | none => s

def State.clearOrigins (s : State) (q : Nat) : List Nat → State
  | [] => s
  | f :: fs => (s.clearOrigin q f).clearOrigins q fs

end Sys2Proof.Machine
end

