-- ==== Sys2Proof/Machine/CueCmds.lean ====
section
/-! DEFINITION. Storing, deleting and packing cues and palettes (8.1, 8.2, R209). -/

namespace Sys2Proof.Machine

/-- Replaces Cue Memory. -/
def State.storeMemory (s : State) (m : CueMemory) : State := s.withMemory m

/-- The checks of R146 that one frame's own fields and entries answer, with the part's entry count (R209). -/
def cueFieldsOk (a : CueArgs) : Bool :=
  decide (1 ≤ a.cue) && decide (a.cue ≤ 9999) && (linkOfCode a.link).isSome && decide (1 ≤ a.entries.length) &&
    decide (a.entries.length ≤ 255) && a.entries.all fun e => e.cueEntryOk

/-- The checks of a MORE or LAST part's fields: its link fields are not read (R209). -/
def morePartOk (a : CueArgs) : Bool :=
  decide (1 ≤ a.cue) && decide (a.cue ≤ 9999) && decide (1 ≤ a.entries.length) && a.entries.all fun e => e.cueEntryOk

/-- A link time as stored (R146). -/
def storedLinkTime (t : Nat) : Nat := Nat.min 600000 t

/-- STORE_CUE's BUSY grounds (R146). -/
def State.cueBusy (s : State) (cue : Nat) : Bool := s.memory.packing || s.cueLaunching cue

/-- A cue judged and stored or refused (R147); `clear` empties the staging record when it is stored (R209). -/
def State.storeCueRun (s : State) (cue : Nat) (link : LinkKind) (linkMs : Nat) (es : List RawEntry) (clear : Bool) :
    State :=
  match s.memory.judgeCue cue (es.length + 1) with
  | .stored start replaced =>
    let m := s.memory.storeCue start cue link linkMs es
    (s.storeMemory (if clear then { m with staging := none } else m)).answer .ok (le2 start ++ flagByte replaced)
  | .needsPack => s.refuse .needsPack
  | .full => s.refuse .full

/-- STORE_CUE's effect for part mark ONLY; a mark outside the four is refused (R146, R147, R209). -/
def State.storeCue (mark : Nat) (a : CueArgs) (s : State) : State :=
  match linkOfCode a.link with
  | some link =>
    if mark ≠ 0 ∨ cueFieldsOk a = false then s.refuse .badArg
    else if s.cueBusy a.cue then s.refuse .busy
    else s.storeCueRun a.cue link (storedLinkTime a.time) a.entries false
  | none => s.refuse .badArg

/-- STORE_CUE (R146, R147). -/
def execStoreCue (mark : Nat) (a : CueArgs) (s : State) : Result :=
  .next (s.takeCommand (.storeCue mark a) (State.storeCue mark a))

/-- The staging record replaced. -/
def State.stage (s : State) (g : Staging) : State := s.storeMemory { s.memory with staging := some g }

/-- A FIRST part's effect (R209). -/
def State.storeCueFirst (a : CueArgs) (s : State) : State :=
  match linkOfCode a.link with
  | some link =>
    if cueFieldsOk a then
      (s.stage ⟨a.cue, link, storedLinkTime a.time, a.entries⟩).answer .ok (le1 a.entries.length)
    else s.refuse .badArg
  | none => s.refuse .badArg

/-- STORE_CUE with part mark FIRST (R209). -/
def execStoreCueFirst (a : CueArgs) (s : State) : Result :=
  .next (s.takeCommand (.storeCueFirst a) (State.storeCueFirst a))

/-- The staging record that a MORE or LAST part goes on from (R209). -/
def State.stagedFor (s : State) (a : CueArgs) : Option Staging :=
  match s.memory.staging with
  | some g => if g.cue = a.cue ∧ g.entries.length + a.entries.length ≤ 255 then some g else none
  | none => none

/-- A MORE part's effect (R209). -/
def State.storeCueMore (a : CueArgs) (s : State) : State :=
  match morePartOk a, s.stagedFor a with
  | true, some g =>
    (s.stage { g with entries := g.entries ++ a.entries }).answer .ok (le1 (g.entries.length + a.entries.length))
  | _, _ => s.refuse .badArg

/-- STORE_CUE with part mark MORE (R209). -/
def execStoreCueMore (a : CueArgs) (s : State) : Result := .next (s.takeCommand (.storeCueMore a) (State.storeCueMore a))

/-- A LAST part's effect (R209, R147). -/
def State.storeCueLast (a : CueArgs) (s : State) : State :=
  match morePartOk a, s.stagedFor a with
  | true, some g =>
    if s.cueBusy a.cue then s.refuse .busy
    else s.storeCueRun g.cue g.link g.linkMs (g.entries ++ a.entries) true
  | _, _ => s.refuse .badArg

/-- STORE_CUE with part mark LAST (R209). -/
def execStoreCueLast (a : CueArgs) (s : State) : Result := .next (s.takeCommand (.storeCueLast a) (State.storeCueLast a))

/-- DELETE_CUE's effect (R148). -/
def State.deleteCue (cue : Nat) (s : State) : State :=
  if cue < 1 ∨ 9999 < cue then s.refuse .badArg
  else
    match dirFind cue s.memory.cues with
    | none => s.refuse .notFound
    | some e =>
      if s.cueBusy cue then s.refuse .busy
      else (s.storeMemory (s.memory.deleteCue cue)).answer .ok (le2 e.length)

/-- DELETE_CUE (R148). -/
def execDeleteCue (cue : Nat) (s : State) : Result := .next (s.takeCommand (.deleteCue cue) (State.deleteCue cue))

/-- An override passes the checks of R149. -/
def overrideOk (o : RawOverride) : Bool := decide (o.kind ≤ 31) && decide (o.form ≤ 1) && decide (o.wheel ≤ 255)

/-- STORE_PALETTE's argument checks (R149). -/
def paletteOk (a : PaletteArgs) : Bool :=
  decide (a.palette ≤ 63) && decide (a.overrides.length ≤ 31) && a.overrides.all overrideOk

/-- STORE_PALETTE's effect (R149): the store, and the update of the records that show the palette begun (R136). -/
def State.storePalette (a : PaletteArgs) (s : State) : State :=
  if !paletteOk a then s.refuse .badArg
  else if s.memory.packing then s.refuse .busy
  else
    match s.memory.judgePalette a.palette (a.overrides.length + 1) with
    | .stored start _ =>
      let s := s.storeMemory
        (s.memory.storePalette start a.palette a.hue a.sat a.fade (a.overrides.map RawOverride.stored))
      s.goPalette (s.showing a.palette) a.palette start (s.showing a.palette).length
    | .needsPack => s.refuse .needsPack
    | .full => s.refuse .full

/-- STORE_PALETTE (R149). -/
def execStorePalette (a : PaletteArgs) (s : State) : Result :=
  .next (s.takeCommand (.storePalette a) (State.storePalette a))

/-- DELETE_PALETTE's effect (R150, R137). -/
def State.deletePalette (q : Nat) (s : State) : State :=
  if 63 < q then s.refuse .badArg
  else if (s.paletteEntry q).isNone then s.refuse .notFound
  else if s.memory.packing then s.refuse .busy
  else ((s.storeMemory (s.memory.deletePalette q)).clearOrigins q (List.range 256)).answer .ok []

/-- DELETE_PALETTE (R150). -/
def execDeletePalette (q : Nat) (s : State) : Result :=
  .next (s.takeCommand (.deletePalette q) (State.deletePalette q))

/-- PACK's effect (R151): a memory that holds no run ends its pack within the event (R154). -/
def State.beginPack (s : State) : State :=
  if s.memory.packing then s.refuse .busy
  else
    let s := s.storeMemory s.memory.beginPack
    let s := if s.memory.pack.total = 0 then (s.storeMemory s.memory.endPack).packDone .complete else s
    s.answer .accepted []

/-- PACK (R151). -/
def execPack (s : State) : Result := .next (s.takeCommand .pack State.beginPack)

/-- One step of a pack; the last ends the pack (R152, R154). -/
def State.packNext (s : State) : State :=
  let s := s.storeMemory s.memory.packStep
  if s.memory.packing then s else s.packDone .complete

/-- PACK_STEP (R152). -/
def execPackStep (s : State) : Result := .next (s.event s.memory.packing State.packNext)

/-- ABORT_PACK's effect (R154). -/
def State.abortPack (s : State) : State :=
  if s.memory.packing then
    ((s.storeMemory s.memory.endPack).packDone .aborted).answer .ok
      (le2 s.memory.pack.taken ++ le2 s.memory.pack.moved)
  else s.refuse .wrongState

/-- ABORT_PACK (R154). -/
def execAbortPack (s : State) : Result := .next (s.takeCommand .abortPack State.abortPack)

/-- QUERY_MEMORY (R171). -/
def execQueryMemory (s : State) : Result := .next (s.takeCommand .queryMemory fun s => s.answer .ok (memoryData s.memory))

end Sys2Proof.Machine
end

