-- ==== Sys2Proof/Machine/LineCmds.lean ====
section
/-! DEFINITION. The lines' timers and frames, SET_LINE and QUERY_LINE (chapter 10). -/

namespace Sys2Proof.Machine

/-- A refresh timer's expiry (R192). -/
def State.refreshNext (l : Nat) (s : State) : State :=
  match s.refreshDue l with
  | some t => s.refreshExpiry l t
  | none => s

/-- REFRESH_EXPIRY of a line (R192). -/
def execRefreshExpiry (l : Nat) (s : State) : Result := .next (s.event (s.refreshDue l).isSome (State.refreshNext l))

/-- FRAME_END of a line (R192). -/
def execFrameEnd (l : Nat) (s : State) : Result := .next (s.event (s.frameOver l) fun s => s.frameEnd l)

/-- SET_LINE's reply data: the stored values, marked pending, and the line's sync flag (R193). -/
def setLineData (g : LineSettings) (sync : Bool) : List Byte := settingsBytes g ++ flagByte true ++ flagByte sync

/-- SET_LINE's effect (R193). -/
def State.setLineCmd (a : LineArgs) (s : State) : State :=
  if 7 < a.line ∨ a.min < 24 ∨ 512 < a.min then s.refuse .badArg
  else
    let g := storedSettings a.min a.refresh a.gap
    let s := (s.setLine a.line { s.line a.line with waiting := some g }).setSync a.line (decide (a.sync ≠ 0))
    s.answer .ok (setLineData g (s.line a.line).sync)

/-- SET_LINE (R193). -/
def execSetLine (a : LineArgs) (s : State) : Result := .next (s.takeCommand (.setLine a) (State.setLineCmd a))

/-- QUERY_LINE's effect (R196). -/
def State.queryLine (l first count : Nat) (s : State) : State :=
  if 7 < l ∨ first < 1 ∨ 512 < first ∨ 513 < first + count then s.refuse .badArg
  else s.answer .ok (lineData s l first count)

/-- QUERY_LINE (R196). -/
def execQueryLine (l first count : Nat) (s : State) : Result :=
  .next (s.takeCommand (.queryLine l first count) (State.queryLine l first count))

end Sys2Proof.Machine
end

