-- ==== Sys2Proof/Machine/MotionCmds.lean ====
section
/-! DEFINITION. Motion steps, HALT and QUERY_MOTION (chapter 6). -/

namespace Sys2Proof.Machine

/-- The position of the motion record of fixture `f`. -/
def State.position (s : State) (f : Nat) : Option (Int × Int) := (s.motionOf f).map fun m => (m.pan, m.tilt)

/-- Writes the pan and tilt slots of fixture `f` from its record. -/
def State.writePosition (s : State) (f : Nat) : State :=
  match s.motionOf f with
  | some m => s.writeAim f m.pan m.tilt
  | none => s

/-- Fixture `f`'s step of the last expiry taken from those still to be taken. -/
def State.motionTaken (s : State) (f : Nat) : State := s.withMotion { s.motion with due := s.motion.due.erase f }

/-- One motion step of one record (R97): the step, and the write of its slots when the position has changed. -/
def State.motionStep (f : Nat) (s : State) : State :=
  let before := s.position f
  let s := (s.motionTaken f).onMotion f fun k m => m.step k
  let s := if s.position f ≠ before then s.writePosition f else s
  s.syncStepTimer

/-- MOTION_STEP of a fixture (R97). -/
def execMotionStep (f : Nat) (s : State) : Result := .next (s.event (s.motion.due.contains f) (State.motionStep f))

/-- HALT's work goes on, or is answered (R114). -/
def State.goHalt (s : State) (todo : List Nat) (c : HaltCounts) : State :=
  if todo.isEmpty then s.finish .ok (haltCounts c) else s.setWork (.halt todo c)

/-- HALT's effect (R114). -/
def State.halt (first count : Nat) (s : State) : State :=
  if rangeOk first count then s.goHalt (s.rangePatched first count) ⟨0, 0, s.rangeSkipped first count⟩
  else s.refuse .badArg

/-- HALT (R114). -/
def execHalt (first count : Nat) (s : State) : Result := .next (s.takeCommand (.halt first count) (State.halt first count))

/-- A fixture's turn in HALT is to come. -/
def State.halting (s : State) : Bool :=
  match s.work with
  | some (.halt (_ :: _) _) => true
  | _ => false

/-- The motion record of fixture `f` is HELD, or there is none. -/
def State.isHeld (s : State) (f : Nat) : Bool :=
  match s.motionOf f with
  | some m => decide (m.mode = .held)
  | none => true

/-- HALT's counts after one fixture (R114). -/
def HaltCounts.add (c : HaltCounts) (held : Bool) : HaltCounts :=
  if held then { c with held := c.held + 1 } else { c with braking := c.braking + 1 }

/-- One fixture halted (R114). -/
def State.haltNext (s : State) : State :=
  match s.work with
  | some (.halt (f :: fs) c) => ((s.onMotion f fun _ m => m.halt).syncStepTimer).goHalt fs (c.add (s.isHeld f))
  | _ => s

/-- HALT_FIXTURE (R114). -/
def execHaltFixture (s : State) : Result := .next (s.event s.halting State.haltNext)

/-- QUERY_MOTION's effect (R120). -/
def State.queryMotion (f : Nat) (s : State) : State :=
  if 255 < f then s.refuse .badArg
  else
    match s.patchOf f, s.profileOf f, s.motionOf f with
    | some p, some k, some m => s.answer .ok (motionData s k p m)
    | _, _, _ => s.refuse .notFound

/-- QUERY_MOTION (R120). -/
def execQueryMotion (f : Nat) (s : State) : Result := .next (s.takeCommand (.queryMotion f) (State.queryMotion f))

end Sys2Proof.Machine
end

