-- ==== Sys2Proof/Machine/PlayCmds.lean ====
section
/-! DEFINITION. The commands of the cue lists, and the events of launches, walks and links (8.3 to 8.9). -/

namespace Sys2Proof.Machine

/-- A list with the fields that DEFINE_LIST replaces (R155). -/
def CueList.define (l : CueList) (a : ListArgs) : CueList :=
  { l with first := a.first, last := a.last, wrap := decide (a.wrap ≠ 0), fade := a.fade, current := none }

/-- DEFINE_LIST's argument checks (R155). -/
def listArgsOk (a : ListArgs) : Bool :=
  decide (a.list ≤ 7) && decide (1 ≤ a.first) && decide (a.first ≤ a.last) && decide (a.last ≤ 9999) &&
    decide (a.fade ≤ 600000)

/-- DEFINE_LIST's effect (R155). -/
def State.defineList (a : ListArgs) (s : State) : State :=
  if !listArgsOk a then s.refuse .badArg
  else if (s.cueList a.list).mode ≠ .released then s.refuse .busy
  else (s.setCueList a.list ((s.cueList a.list).define a)).answer .ok []

/-- DEFINE_LIST (R155). -/
def execDefineList (a : ListArgs) (s : State) : Result := .next (s.takeCommand (.defineList a) (State.defineList a))

/-- GO's reply data: the outcome, and for LAUNCHED the cue number and serial (R157). -/
def goData (outcome : Nat) (r : Option (Nat × Nat)) : List Byte :=
  le1 outcome ++ optBytes 4 (fun q => le2 q.1 ++ le2 q.2) r

/-- A GO that launches at once (R157, R160). -/
def State.goLaunch (s : State) (n : Nat) (want : Option Nat) : State :=
  let s := s.launch n want .host
  s.answer .ok (goData 0 (((s.cueList n).launch).map fun r => (r.cue, r.serial)))

/-- A GO held as the pending GO (R157, R158). -/
def State.goPend (s : State) (n : Nat) (want : Option Nat) (bar : Bool) : State :=
  (s.setCueList n { s.cueList n with pendingGo := some ⟨want, bar⟩ }).answer .ok (goData 1 none)

/-- A GO that arms the list, or replaces its armed GO (R157, R159). -/
def State.goArm (s : State) (n : Nat) (want : Option Nat) : State := (s.enterArmed n want).answer .ok (goData 2 none)

/-- A GO that has passed its checks (R157). -/
def State.takeGo (s : State) (n : Nat) (want : Option Nat) (bar : Bool) : State :=
  match (s.cueList n).mode with
  | .launching => s.goPend n want bar
  | .released | .running | .settled | .armed => if bar then s.goArm n want else s.goLaunch n want

/-- A GO's cue number: 0 when none is given (11.8). -/
def wantedCue (cue : Nat) : Option Nat := if cue = 0 then none else some cue

/-- GO's checks in order, and its effect (R157). -/
def State.go (n cue bar : Nat) (s : State) : State :=
  if 7 < n ∨ 9999 < cue then s.refuse .badArg
  else if s.part = .standby then s.refuse .wrongState
  else if s.stop then s.refuse .stopped
  else if (s.resolveCue (s.cueList n) (wantedCue cue)).isNone then s.refuse .notFound
  else if (s.cueList n).mode = .launching ∧ (s.cueList n).pendingGo.isSome then s.refuse .busy
  else s.takeGo n (wantedCue cue) (decide (bar ≠ 0))

/-- GO (R157). -/
def execGo (n cue bar : Nat) (s : State) : Result := .next (s.takeCommand (.go n cue bar) (State.go n cue bar))

/-- One claim of the walk of list `n` (R161). -/
def State.walkNext (n : Nat) (s : State) : State :=
  match s.walkReady n with
  | some (r, some (pos, w)) => s.walkClaim n r pos w
  | _ => s

/-- WALK_STEP of a list (R161). -/
def execWalkStep (n : Nat) (s : State) : Result := .next (s.event (s.walkStepReady n) (State.walkNext n))

/-- The end step of the walk of list `n` (R163). -/
def State.walkLast (n : Nat) (s : State) : State :=
  match s.walkReady n with
  | some (r, none) => s.walkEnd n r
  | _ => s

/-- WALK_END of a list (R163). -/
def execWalkEnd (n : Nat) (s : State) : Result := .next (s.event (s.walkEndReady n) (State.walkLast n))

/-- A report taken by the Playback Unit (R162). -/
def State.reportTaken (r : Report) (s : State) : State :=
  (s.withPlayback { s.playback with reports := s.playback.reports.erase r }).takeReport r.tag

/-- LAUNCH_REPORT of a report that has been sent (R162). -/
def execLaunchReport (r : Report) (s : State) : Result :=
  .next (s.event (s.playback.reports.contains r) (State.reportTaken r))

/-- LINK_TIMER_EXPIRY of a list (R164). -/
def execLinkTimerExpiry (n : Nat) (s : State) : Result := .next (s.event (s.linkTimerDue n) fun s => s.linkExpiry n)

/-- LIST_BAR_START of a list (R159, R164). -/
def execListBarStart (n : Nat) (s : State) : Result :=
  .next (s.event (decide (0 < (s.cueList n).barsDue)) fun s => s.takeBar n)

/-- RELEASE_LIST's work goes on, or is answered (R168). -/
def State.goReleaseList (s : State) (todo : List Nat) (list fade released : Nat) : State :=
  if todo.isEmpty then s.finish .ok (le2 released) else s.setWork (.releaseList todo list fade released)

/-- RELEASE_LIST's first event (R168). -/
def State.releaseList (n : Nat) (s : State) : State :=
  if 7 < n then s.refuse .badArg
  else
    (s.setCueList n (s.cueList n).release).goReleaseList s.patchedFixtures n (s.cueList n).fade 0

/-- RELEASE_LIST (R168). -/
def execReleaseList (n : Nat) (s : State) : Result := .next (s.takeCommand (.releaseList n) (State.releaseList n))

/-- A fixture's turn in RELEASE_LIST is to come. -/
def State.releasingList (s : State) : Bool :=
  match s.work with
  | some (.releaseList (_ :: _) _ _ _) => true
  | _ => false

/-- Source LISTn released from one fixture, AIM first (R168). -/
def State.releaseListNext (s : State) : State :=
  match s.work with
  | some (.releaseList (f :: fs) n fade c) =>
    let r := s.releaseBoth f n true true fade
    r.1.goReleaseList fs n fade (if r.2 then c + 1 else c)
  | _ => s

/-- RELEASE_LIST_FIXTURE (R168). -/
def execReleaseListFixture (s : State) : Result := .next (s.event s.releasingList State.releaseListNext)

/-- QUERY_LIST's effect (R170). -/
def State.queryList (n : Nat) (s : State) : State :=
  if 7 < n then s.refuse .badArg else s.answer .ok (listData s n)

/-- QUERY_LIST (R170). -/
def execQueryList (n : Nat) (s : State) : Result := .next (s.takeCommand (.queryList n) (State.queryList n))

end Sys2Proof.Machine
end

