-- ==== Sys2Proof/Machine/PointCmds.lean ====
section
/-! DEFINITION. The point commands, tracking and stale timers (chapter 2). -/

namespace Sys2Proof.Machine

/-- SET_POINT's effect (R20). R20 gives BAD_ARG and IN_USE no order: by the model's choice BAD_ARG comes first (log entry
42). -/
def State.setPointCmd (p : Nat) (pos : Pos) (s : State) : State :=
  if 127 < p ∨ posOk pos = false then s.refuse .badArg
  else if (s.point p).binding.isSome then s.refuse .inUse
  else
    let r := s.movePoint p pos
    r.1.answer .ok (le4 (r.1.point p).gen ++ le2 r.2)

/-- SET_POINT (R20). -/
def execSetPoint (p : Nat) (pos : Pos) (s : State) : Result :=
  .next (s.takeCommand (.setPoint p pos) (State.setPointCmd p pos))

/-- The record of a point bound to a tag (R23). -/
def Point.bind (r : Point) (tag : Nat) (offset : Pos) (now limit : Nat) : Point :=
  { r with binding := some ⟨tag, offset⟩, stale := false, timer := some (now + 1000 * limit) }

/-- BIND_TAG's effect (R23). -/
def State.bindTag (p tag : Nat) (offset : Pos) (s : State) : State :=
  if 127 < p ∨ 63 < tag ∨ posOk offset = false then s.refuse .badArg
  else (s.setPoint p ((s.point p).bind tag offset s.now s.points.staleLimit)).answer .ok []

/-- BIND_TAG (R23). -/
def execBindTag (p tag : Nat) (offset : Pos) (s : State) : Result :=
  .next (s.takeCommand (.bindTag p tag offset) (State.bindTag p tag offset))

/-- The record of a point unbound (R24). -/
def Point.unbind (r : Point) : Point := { r with binding := none, stale := false, timer := none }

/-- UNBIND_TAG's effect (R24): an unbound point is left as it is. -/
def State.unbindTag (p : Nat) (s : State) : State :=
  if 127 < p then s.refuse .badArg
  else if (s.point p).binding.isSome then (s.setPoint p (s.point p).unbind).answer .ok []
  else s.answer .ok []

/-- UNBIND_TAG (R24). -/
def execUnbindTag (p : Nat) (s : State) : Result := .next (s.takeCommand (.unbindTag p) (State.unbindTag p))

/-- TRACK's work goes on, or is answered with its five counts when the last point move has been made (R25, R28). -/
def State.goTrack (s : State) (moves : List (Nat × Pos)) (records applied ignored skipped moved : Nat) : State :=
  if moves.isEmpty then
    s.finish .ok (le1 records ++ le1 applied ++ le1 ignored ++ le1 skipped ++ le2 moved)
  else s.setWork (.track moves records applied ignored skipped moved)

/-- TRACK's effect (R25, R26): the records are taken in order. -/
def State.track (records : List TrackRec) (s : State) : State :=
  if records.length = 0 ∨ 64 < records.length then s.refuse .badArg
  else
    let r := s.takeRecords records
    r.1.goTrack r.2.1 records.length r.2.2.1 r.2.2.2.1 r.2.2.2.2 0

/-- TRACK (R25). -/
def execTrack (records : List TrackRec) (s : State) : Result := .next (s.takeCommand (.track records) (State.track records))

/-- A point move of TRACK is to be made. -/
def State.tracking (s : State) : Bool :=
  match s.work with
  | some (.track (_ :: _) _ _ _ _ _) => true
  | _ => false

/-- One point move of an applied record (R27). -/
def State.trackNext (s : State) : State :=
  match s.work with
  | some (.track (mv :: mvs) n a i k m) => (s.movePoint mv.1 mv.2).1.goTrack mvs n a i k (m + 1)
  | _ => s

/-- TRACK_POINT_MOVE (R27). -/
def execTrackPointMove (s : State) : Result := .next (s.event s.tracking State.trackNext)

/-- A stale timer's expiry (R30, R32). -/
def State.staleExpiry (p : Nat) (s : State) : State :=
  (s.setPoint p { s.point p with stale := true, timer := none }).notifyTrackStale .stale p

/-- STALE_TIMER_EXPIRY of a point (R30). -/
def execStaleTimerExpiry (p : Nat) (s : State) : Result := .next (s.event (s.staleDue p) (State.staleExpiry p))

/-- The stale limit that a given time is stored as (R33). -/
def storedLimit (ms : Nat) : Nat := Nat.min 5000 (Nat.max 100 ms)

/-- SET_STALE_LIMIT's effect (R33). -/
def State.setStaleLimit (ms : Nat) (s : State) : State :=
  (s.withPoints { s.points with staleLimit := storedLimit ms }).answer .ok (le2 (storedLimit ms))

/-- SET_STALE_LIMIT (R33). -/
def execSetStaleLimit (ms : Nat) (s : State) : Result :=
  .next (s.takeCommand (.setStaleLimit ms) (State.setStaleLimit ms))

/-- QUERY_POINT's effect (R34). -/
def State.queryPoint (p : Nat) (s : State) : State :=
  if 127 < p then s.refuse .badArg else s.answer .ok (pointData s p)

/-- QUERY_POINT (R34). -/
def execQueryPoint (p : Nat) (s : State) : Result := .next (s.takeCommand (.queryPoint p) (State.queryPoint p))

end Sys2Proof.Machine
end

