-- ==== Sys2Proof/Machine/RigCmds.lean ====
section
/-! DEFINITION. The rig commands (chapter 1). -/

namespace Sys2Proof.Machine

/-- DEFINE_KIND's effect (R1, R2). -/
def State.defineKind (k : RawKind) (s : State) : State :=
  if !k.ok then s.refuse .badArg
  else if s.kindInUse k.kind then s.refuse .inUse
  else (s.setKind k.kind (some k.profile)).answer .ok []

/-- DEFINE_KIND (R1, R2). -/
def execDefineKind (k : RawKind) (s : State) : Result := .next (s.takeCommand (.defineKind k) (State.defineKind k))

/-- DROP_KIND's effect (R3). -/
def State.dropKind (kind : Nat) (s : State) : State :=
  if 31 < kind then s.refuse .badArg
  else if (s.kind kind).isNone then s.refuse .notFound
  else if s.kindInUse kind then s.refuse .inUse
  else (s.setKind kind none).answer .ok []

/-- DROP_KIND (R3). -/
def execDropKind (kind : Nat) (s : State) : Result := .next (s.takeCommand (.dropKind kind) (State.dropKind kind))

/-- QUERY_KIND's effect (R4). -/
def State.queryKind (kind : Nat) (s : State) : State :=
  if 31 < kind then s.refuse .badArg
  else
    match s.kind kind with
    | some k => s.answer .ok (kindData s kind k)
    | none => s.refuse .notFound

/-- QUERY_KIND (R4). -/
def execQueryKind (kind : Nat) (s : State) : Result := .next (s.takeCommand (.queryKind kind) (State.queryKind kind))

/-- Stage 4 of PATCH's checks, and the effect (R6 to R9). R6 orders its four stages but not the two refusals of stage 4: a
PATCH that meets both grounds is answered IN_USE by the model's choice (log entry 42). -/
def State.patchWith (a : PatchArgs) (m : Mounting) (k : Profile) (s : State) : State :=
  if s.patchedOther a.fixture a.kind && s.holdsClaims a.fixture then s.refuse .inUse
  else if s.overlapsOther a.line a.base k.footprint a.fixture then s.refuse .overlap
  else (s.carryPatch a m k).answer .ok []

/-- PATCH's four stages of checks (R6) and its effect (R7 to R9). -/
def State.patch (a : PatchArgs) (s : State) : State :=
  if !a.rangesOk then s.refuse .badArg
  else
    match s.kind a.kind, mountingOf (a.body % 4) with
    | none, _ => s.refuse .notFound
    | some k, some m => if !a.fitsKind k then s.refuse .badArg else s.patchWith a m k
    | some _, none => s.refuse .badArg

/-- PATCH (R6 to R9). -/
def execPatch (a : PatchArgs) (s : State) : Result := .next (s.takeCommand (.patch a) (State.patch a))

/-- UNPATCH's work goes on, or is answered when the last fixture has been taken (R10). -/
def State.goUnpatch (s : State) (todo : List Nat) (done skipped : Nat) : State :=
  if todo.isEmpty then s.finish .ok (le2 done ++ le2 skipped) else s.setWork (.unpatch todo done skipped)

/-- UNPATCH of a range begins (R10). -/
def State.beginUnpatch (first count : Nat) (s : State) : State :=
  s.goUnpatch (s.rangePatched first count) 0 (s.rangeSkipped first count)

/-- UNPATCH (R10). -/
def execUnpatch (first count : Nat) (s : State) : Result :=
  .next (s.takeCommand (.unpatch first count) (State.beginUnpatch first count))

/-- The next fixture that UNPATCH takes. -/
def State.unpatching (s : State) : Option (Nat × List Nat × Nat × Nat) :=
  match s.work with
  | some (.unpatch (f :: fs) d k) => some (f, fs, d, k)
  | _ => none

/-- One fixture unpatched (R10, parts 1 to 6). -/
def State.unpatchNext (s : State) : State :=
  match s.unpatching with
  | some (f, fs, d, k) => (s.unpatchOne f).goUnpatch fs (d + 1) k
  | none => s

/-- UNPATCH_FIXTURE (R10). -/
def execUnpatchFixture (s : State) : Result := .next (s.event s.unpatching.isSome State.unpatchNext)

/-- The five fields of a pose replaced (R11). -/
def PoseOf (a : PoseArgs) (m : Mounting) (p : Patch) : Patch :=
  { p with pos := a.pos, yaw := a.yaw, mounting := m, homePan := a.homePan, homeTilt := a.homeTilt }

/-- SET_POSE's ranges (R11). -/
def poseRangesOk (a : PoseArgs) : Bool :=
  decide (a.fixture ≤ 255) && posOk a.pos && decide (a.yaw ≤ 35999)

/-- SET_POSE's effect (R11). -/
def State.setPose (a : PoseArgs) (s : State) : State :=
  match poseRangesOk a, mountingOf a.mounting with
  | true, some m =>
    match s.patchOf a.fixture, s.profileOf a.fixture with
    | some p, some k =>
      if !k.homeOk a.homePan a.homeTilt then s.refuse .badArg
      else
        ((s.setFixture a.fixture { s.fixture a.fixture with patch := some (PoseOf a m p) }).poseChange a.fixture).answer
          .ok []
    | _, _ => s.refuse .notFound
  | _, _ => s.refuse .badArg

/-- SET_POSE (R11). -/
def execSetPose (a : PoseArgs) (s : State) : Result := .next (s.takeCommand (.setPose a) (State.setPose a))

/-- SET_TRIM's effect (R12). -/
def State.setTrim (f : Nat) (trims : List Nat) (s : State) : State :=
  if 255 < f then s.refuse .badArg
  else
    match s.patchOf f, s.profileOf f with
    | some p, some k =>
      if k.emitterCount = 0 ∨ trims.length ≠ k.emitterCount then s.refuse .badArg
      else
        (s.setFixture f { s.fixture f with patch := some { p with trims := trims.map (Nat.min 8191) } }).answer .ok []
    | _, _ => s.refuse .notFound

/-- SET_TRIM (R12). -/
def execSetTrim (f : Nat) (trims : List Nat) (s : State) : Result :=
  .next (s.takeCommand (.setTrim f trims) (State.setTrim f trims))

/-- SET_PASSTHROUGH's effect (R13): the values replaced and written as one write. -/
def State.setPassthrough (f : Nat) (values : List Nat) (s : State) : State :=
  if 255 < f then s.refuse .badArg
  else
    match s.patchOf f, s.profileOf f with
    | some p, some k =>
      if values.length ≠ k.pass.length then s.refuse .badArg
      else
        ((s.setFixture f { s.fixture f with patch := some { p with pass := values } }).writeSlots p.line p.base
            (k.pass.zip values)).answer .ok []
    | _, _ => s.refuse .notFound

/-- SET_PASSTHROUGH (R13). -/
def execSetPassthrough (f : Nat) (values : List Nat) (s : State) : Result :=
  .next (s.takeCommand (.setPassthrough f values) (State.setPassthrough f values))

/-- SET_TRUSS's effect (R15). -/
def State.setTruss (t : Nat) (o : Pos) (s : State) : State :=
  if 15 < t ∨ posOk o = false then s.refuse .badArg else (s.moveTruss t o).answer .ok []

/-- SET_TRUSS (R15). -/
def execSetTruss (t : Nat) (o : Pos) (s : State) : Result := .next (s.takeCommand (.setTruss t o) (State.setTruss t o))

/-- COPY_RIG's work goes on, or is answered when the last record has been copied (R18). -/
def State.goCopy (s : State) (todo : List (Nat × Nat)) (delta : Pos) (slotDelta : Int) (copied : Nat) : State :=
  if todo.isEmpty then s.finish .ok (le2 copied) else s.setWork (.copyRig todo delta slotDelta copied)

/-- COPY_RIG's checks (R16), and the copy begun (R17). -/
def State.copyRig (a : CopyArgs) (s : State) : State :=
  if a.count = 0 ∨ a.pairs.all (s.pairOk a) = false then s.refuse .badArg
  else if s.copyOverlaps a then s.refuse .overlap
  else if a.pairs.any fun pr => s.holdsClaims pr.2 then s.refuse .inUse
  else s.goCopy a.order a.delta a.slotDelta 0

/-- COPY_RIG (R16). -/
def execCopyRig (a : CopyArgs) (s : State) : Result := .next (s.takeCommand (.copyRig a) (State.copyRig a))

/-- A record is to be copied. -/
def State.copying (s : State) : Bool :=
  match s.work with
  | some (.copyRig (_ :: _) _ _ _) => true
  | _ => false

/-- One record copy (R17). -/
def State.copyNext (s : State) : State :=
  match s.work with
  | some (.copyRig (pr :: prs) d sd n) => (s.copyRecord pr.1 pr.2 d sd).goCopy prs d sd (n + 1)
  | _ => s

/-- RECORD_COPY (R17). -/
def execRecordCopy (s : State) : Result := .next (s.event s.copying State.copyNext)

/-- QUERY_FIXTURE's effect (R14). -/
def State.queryFixture (f : Nat) (s : State) : State :=
  if 255 < f then s.refuse .badArg else s.answer .ok (fixtureData s f)

/-- QUERY_FIXTURE (R14). -/
def execQueryFixture (f : Nat) (s : State) : Result := .next (s.takeCommand (.queryFixture f) (State.queryFixture f))

end Sys2Proof.Machine
end

