-- ==== Sys2Proof/Machine/SolverCmds.lean ====
section
/-! DEFINITION. The solver's commands and the lane's events (chapter 5). -/

namespace Sys2Proof.Machine

/-- FLUSH_CACHE's effect (R79, R80, 5.7): every entry invalid, the pointer at 0; the reply counts what was valid. -/
def State.flushCache (s : State) : State :=
  ((s.invalidate fun _ => true).setPointer 0).answer .ok (le1 s.validEntries)

/-- FLUSH_CACHE (R80). -/
def execFlushCache (s : State) : Result := .next (s.takeCommand .flushCache State.flushCache)

/-- QUERY_SOLVER (R94). -/
def execQuerySolver (s : State) : Result := .next (s.takeCommand .querySolver fun s => s.answer .ok (solverData s))

/-- JOB_START (R89). -/
def execJobStart (s : State) : Result := .next (s.event s.jobReady fun s => s.startJob)

/-- JOB_COMPLETION (R90, R91). -/
def execJobCompletion (s : State) : Result := .next (s.event s.solver.solving.isSome fun s => s.completeJob)

end Sys2Proof.Machine
end

