-- ==== Sys2Proof/Machine/Dispatch.lean ====
section
/-! DEFINITION. The meaning of every row of the opcode table: one direct call for each constructor of `Instr`. -/

namespace Sys2Proof.Machine

def exec (i : Instr) (s : State) : Host.Outcome State Fault Refusal :=
  match i with
  | .powerOn => Sys2Proof.Machine.execPowerOn s
  | .resetLow => Sys2Proof.Machine.execResetLow s
  | .resetEnd => Sys2Proof.Machine.execResetEnd s
  | .receiveFrame bytes => Sys2Proof.Machine.execReceiveFrame bytes s
  | .interByteTimeout => Sys2Proof.Machine.execInterByteTimeout s
  | .transmitEnd => Sys2Proof.Machine.execTransmitEnd s
  | .identify => Sys2Proof.Machine.execIdentify s
  | .start => Sys2Proof.Machine.execStart s
  | .standby => Sys2Proof.Machine.execStandby s
  | .restart => Sys2Proof.Machine.execRestart s
  | .setNotice levels => Sys2Proof.Machine.execSetNotice levels s
  | .setCounter counter event mask => Sys2Proof.Machine.execSetCounter counter event mask s
  | .readCounters => Sys2Proof.Machine.execReadCounters s
  | .clearCounters => Sys2Proof.Machine.execClearCounters s
  | .stopChange high => Sys2Proof.Machine.execStopChange high s
  | .motionStopHigh => Sys2Proof.Machine.execMotionStopHigh s
  | .motionStopLow => Sys2Proof.Machine.execMotionStopLow s
  | .colourStopHigh => Sys2Proof.Machine.execColourStopHigh s
  | .colourResume => Sys2Proof.Machine.execColourResume s
  | .playbackStopLow list => Sys2Proof.Machine.execPlaybackStopLow list s
  | .startReaim => Sys2Proof.Machine.execStartReaim s
  | .startMotion => Sys2Proof.Machine.execStartMotion s
  | .startLines => Sys2Proof.Machine.execStartLines s
  | .standbyMotion => Sys2Proof.Machine.execStandbyMotion s
  | .standbyColour => Sys2Proof.Machine.execStandbyColour s
  | .standbyList list => Sys2Proof.Machine.execStandbyList list s
  | .standbyLines => Sys2Proof.Machine.execStandbyLines s
  | .defineKind k => Sys2Proof.Machine.execDefineKind k s
  | .dropKind kind => Sys2Proof.Machine.execDropKind kind s
  | .queryKind kind => Sys2Proof.Machine.execQueryKind kind s
  | .patch a => Sys2Proof.Machine.execPatch a s
  | .unpatch first count => Sys2Proof.Machine.execUnpatch first count s
  | .unpatchFixture => Sys2Proof.Machine.execUnpatchFixture s
  | .setPose a => Sys2Proof.Machine.execSetPose a s
  | .setTrim fixture trims => Sys2Proof.Machine.execSetTrim fixture trims s
  | .setPassthrough fixture values => Sys2Proof.Machine.execSetPassthrough fixture values s
  | .setTruss truss offset => Sys2Proof.Machine.execSetTruss truss offset s
  | .copyRig a => Sys2Proof.Machine.execCopyRig a s
  | .recordCopy => Sys2Proof.Machine.execRecordCopy s
  | .queryFixture fixture => Sys2Proof.Machine.execQueryFixture fixture s
  | .setPoint point pos => Sys2Proof.Machine.execSetPoint point pos s
  | .bindTag point tag offset => Sys2Proof.Machine.execBindTag point tag offset s
  | .unbindTag point => Sys2Proof.Machine.execUnbindTag point s
  | .track records => Sys2Proof.Machine.execTrack records s
  | .trackPointMove => Sys2Proof.Machine.execTrackPointMove s
  | .staleTimerExpiry point => Sys2Proof.Machine.execStaleTimerExpiry point s
  | .setStaleLimit ms => Sys2Proof.Machine.execSetStaleLimit ms s
  | .queryPoint point => Sys2Proof.Machine.execQueryPoint point s
  | .setPriority source priority => Sys2Proof.Machine.execSetPriority source priority s
  | .directAim e => Sys2Proof.Machine.execDirectAim e s
  | .directAimFixture => Sys2Proof.Machine.execDirectAimFixture s
  | .directColour e => Sys2Proof.Machine.execDirectColour e s
  | .directColourFixture => Sys2Proof.Machine.execDirectColourFixture s
  | .releaseDirect a => Sys2Proof.Machine.execReleaseDirect a s
  | .releaseDirectFixture => Sys2Proof.Machine.execReleaseDirectFixture s
  | .bindFollow first count point => Sys2Proof.Machine.execBindFollow first count point s
  | .bindFollowFixture => Sys2Proof.Machine.execBindFollowFixture s
  | .unbindFollow first count => Sys2Proof.Machine.execUnbindFollow first count s
  | .unbindFollowFixture => Sys2Proof.Machine.execUnbindFollowFixture s
  | .queryClaims fixture => Sys2Proof.Machine.execQueryClaims fixture s
  | .flushCache => Sys2Proof.Machine.execFlushCache s
  | .querySolver => Sys2Proof.Machine.execQuerySolver s
  | .jobStart => Sys2Proof.Machine.execJobStart s
  | .jobCompletion => Sys2Proof.Machine.execJobCompletion s
  | .motionStep fixture => Sys2Proof.Machine.execMotionStep fixture s
  | .halt first count => Sys2Proof.Machine.execHalt first count s
  | .haltFixture => Sys2Proof.Machine.execHaltFixture s
  | .queryMotion fixture => Sys2Proof.Machine.execQueryMotion fixture s
  | .fadeStep fixture => Sys2Proof.Machine.execFadeStep fixture s
  | .queryColour fixture => Sys2Proof.Machine.execQueryColour fixture s
  | .storeCue mark a => Sys2Proof.Machine.execStoreCue mark a s
  | .storeCueFirst a => Sys2Proof.Machine.execStoreCueFirst a s
  | .storeCueMore a => Sys2Proof.Machine.execStoreCueMore a s
  | .storeCueLast a => Sys2Proof.Machine.execStoreCueLast a s
  | .deleteCue cue => Sys2Proof.Machine.execDeleteCue cue s
  | .storePalette a => Sys2Proof.Machine.execStorePalette a s
  | .paletteUpdate => Sys2Proof.Machine.execPaletteUpdate s
  | .deletePalette palette => Sys2Proof.Machine.execDeletePalette palette s
  | .pack => Sys2Proof.Machine.execPack s
  | .packStep => Sys2Proof.Machine.execPackStep s
  | .abortPack => Sys2Proof.Machine.execAbortPack s
  | .defineList a => Sys2Proof.Machine.execDefineList a s
  | .go list cue bar => Sys2Proof.Machine.execGo list cue bar s
  | .walkStep list => Sys2Proof.Machine.execWalkStep list s
  | .walkEnd list => Sys2Proof.Machine.execWalkEnd list s
  | .launchReport r => Sys2Proof.Machine.execLaunchReport r s
  | .linkTimerExpiry list => Sys2Proof.Machine.execLinkTimerExpiry list s
  | .listBarStart list => Sys2Proof.Machine.execListBarStart list s
  | .releaseList list => Sys2Proof.Machine.execReleaseList list s
  | .releaseListFixture => Sys2Proof.Machine.execReleaseListFixture s
  | .queryList list => Sys2Proof.Machine.execQueryList list s
  | .queryMemory => Sys2Proof.Machine.execQueryMemory s
  | .beatRise => Sys2Proof.Machine.execBeatRise s
  | .acceptedEdge => Sys2Proof.Machine.execAcceptedEdge s
  | .flywheelExpiry => Sys2Proof.Machine.execFlywheelExpiry s
  | .setBeatSource source filter => Sys2Proof.Machine.execSetBeatSource source filter s
  | .setTempo tempo => Sys2Proof.Machine.execSetTempo tempo s
  | .setBar beats => Sys2Proof.Machine.execSetBar beats s
  | .queryClock => Sys2Proof.Machine.execQueryClock s
  | .refreshExpiry line => Sys2Proof.Machine.execRefreshExpiry line s
  | .frameEnd line => Sys2Proof.Machine.execFrameEnd line s
  | .setLine a => Sys2Proof.Machine.execSetLine a s
  | .queryLine line first count => Sys2Proof.Machine.execQueryLine line first count s
  | .beatPulseFall => Sys2Proof.Machine.execBeatPulseFall s

end Sys2Proof.Machine
end

