-- ==== Sys2Proof/Machine/Time.lean ====
section
/-! DEFINITION. What the part does of its own accord while nothing waits in its queue: the events that are enabled, in an
order the model fixes, and the passing of time (log entry 2). -/

namespace Sys2Proof.Machine

/-- `n` numbered records: the first that satisfies `p`. -/
def firstOf (n : Nat) (p : Nat → Bool) : Option Nat := (List.range n).find? p

/-- The part of START that comes next. -/
def nextStart (reaim motion colour lines : Bool) : Option Instr :=
  if lines then some .startLines
  else if motion then some .startMotion
  else if colour then some .colourResume
  else if reaim then some .startReaim
  else none

/-- The part of STANDBY that comes next. -/
def nextStandby (motion colour lines : Bool) (lists : List Nat) : Option Instr :=
  if motion then some .standbyMotion
  else if colour then some .standbyColour
  else if lines then some .standbyLines
  else lists.head?.map .standbyList

/-- The event that takes the next part of a command under way (R200). -/
def Work.next : Work → Option Instr
  | .unpatch (_ :: _) .. => some .unpatchFixture
  | .copyRig (_ :: _) .. => some .recordCopy
  | .track (_ :: _) .. => some .trackPointMove
  | .directAim (_ :: _) .. => some .directAimFixture
  | .directColour (_ :: _) .. => some .directColourFixture
  | .releaseDirect (_ :: _) .. => some .releaseDirectFixture
  | .bindFollow (_ :: _) .. => some .bindFollowFixture
  | .unbindFollow (_ :: _) _ => some .unbindFollowFixture
  | .halt (_ :: _) _ => some .haltFixture
  | .storePalette (_ :: _) .. => some .paletteUpdate
  | .releaseList (_ :: _) .. => some .releaseListFixture
  | .start r m c l => nextStart r m c l
  | .standby m c l ls => nextStandby m c l ls
  | .unpatch [] .. | .copyRig [] .. | .track [] .. | .directAim [] .. | .directColour [] .. | .releaseDirect [] ..
  | .bindFollow [] .. | .unbindFollow [] _ | .halt [] _ | .storePalette [] .. | .releaseList [] .. => none

/-- The event of the held command: its own row when it has just been handed over, else the next part of its work. -/
def State.heldEvent (s : State) : Option Instr :=
  match s.link.held with
  | some h =>
    match h.phase with
    | .handed c => some c
    | .working w => w.next
    | _ => none
  | none => none

/-- The link's own events. -/
def State.linkEvent (s : State) : Option Instr :=
  if s.sentOver then some .transmitEnd
  else if s.interByteOver then some .interByteTimeout
  else s.heldEvent

/-- The events of a change of STOP. -/
def State.stopEvent (s : State) : Option Instr :=
  match s.stopToMotion, s.stopToColour with
  | true :: _, _ => some .motionStopHigh
  | false :: _, _ => some .motionStopLow
  | [], true :: _ => some .colourStopHigh
  | [], false :: _ => some .colourResume
  | [], [] => (firstOf 8 fun n => decide (0 < (s.cueList n).lowsDue)).map .playbackStopLow

/-- The events of the Playback Unit. -/
def State.playEvent (s : State) : Option Instr :=
  match s.playback.reports with
  | r :: _ => some (.launchReport r)
  | [] =>
    ((firstOf 8 fun n => decide (0 < (s.cueList n).barsDue)).map .listBarStart).orElse fun _ =>
      ((firstOf 8 s.walkStepReady).map .walkStep).orElse fun _ =>
        ((firstOf 8 s.walkEndReady).map .walkEnd).orElse fun _ => (firstOf 8 s.linkTimerDue).map .linkTimerExpiry

/-- The events of the Beat Clock. -/
def State.beatEvent (s : State) : Option Instr :=
  if s.edgeDue then some .acceptedEdge else if s.flywheelDue.isSome then some .flywheelExpiry else none

/-- The events of the solver lane. -/
def State.solverEvent (s : State) : Option Instr :=
  if s.solver.solving.isSome then some .jobCompletion else if s.jobReady then some .jobStart else none

/-- The steps of the last expiries that are still to be taken. -/
def State.stepEvent (s : State) : Option Instr :=
  (s.motion.due.head?.map .motionStep).orElse fun _ => s.colour.due.head?.map .fadeStep

/-- The events of the packer, the stale timers and the lines. -/
def State.timerEvent (s : State) : Option Instr :=
  if s.memory.packing then some .packStep
  else
    ((firstOf 128 s.staleDue).map .staleTimerExpiry).orElse fun _ =>
      ((firstOf 8 s.frameOver).map .frameEnd).orElse fun _ =>
        (firstOf 8 fun l => (s.refreshDue l).isSome).map .refreshExpiry

/-- The first enabled event, in the order the model fixes; during a reset only the end of RESTART's own. -/
def State.ownEvent (s : State) : Option Instr :=
  match s.resetting with
  | some .restart => some .resetEnd
  | some _ => none
  | none =>
    s.linkEvent.orElse fun _ => s.stopEvent.orElse fun _ => s.playEvent.orElse fun _ => s.beatEvent.orElse fun _ =>
      s.solverEvent.orElse fun _ => s.stepEvent.orElse fun _ => s.timerEvent

/-- The fixtures whose motion records are not HELD (R97). -/
def State.moving (s : State) : List Nat :=
  (s.motion.records.filter fun e => e.2.any fun m => decide (m.mode ≠ .held)).map fun e => e.1

/-- The fixtures whose colour records are FADING (R123). -/
def State.fading (s : State) : List Nat :=
  (s.colour.records.filter fun e => e.2.any fun c => c.fade.isSome).map fun e => e.1

/-- The step timer at its expiry: reloaded, and every record that is not HELD has a step to take (R97). -/
def State.stepTimerTick (s : State) : State :=
  match s.motion.timer with
  | some t => if t ≤ s.now then s.withMotion { s.motion with timer := some (t + 4000), due := s.moving } else s
  | none => s

/-- The fade timer at its expiry (R123). -/
def State.fadeTimerTick (s : State) : State :=
  match s.colour.timer with
  | some t => if t ≤ s.now then s.withColour { s.colour with timer := some (t + 8000), due := s.fading } else s
  | none => s

/-- A microsecond passes. -/
def State.tick (s : State) : State := ((s.withNow (s.now + 1)).stepTimerTick).fadeTimerTick

end Sys2Proof.Machine
end

