-- ==== Sys2Proof/Machine/Step.lean ====
section
/-! DEFINITION. One step of the part: the command or event at the front of the queue, or, when none waits, the first event
that the part takes of its own accord, or a microsecond passing (log entry 2). -/

namespace Sys2Proof.Machine

/-- What the part does while nothing waits in its queue. -/
def State.idle (s : State) : Host.Outcome State Fault Refusal :=
  match s.ownEvent with
  | some c => exec c s
  | none => .next s.tick

/-- One step. -/
def step (s : State) : Host.Outcome State Fault Refusal :=
  match s.pending with
  | c :: cs => exec c (s.withPending cs)
  | [] => s.idle

/-- The command that a word of the opcode table spells, put at the front of the queue; no row gives bits, so no word spells
a command and the state is unchanged. -/
def State.withFetchWord (s : State) (nbits w : Nat) : State :=
  match decodeTableWord nbits w with
  | some c => s.withPending (c :: s.pending)
  | none => s

end Sys2Proof.Machine
end

