-- ==== Sys2Proof/Safety.lean ====
section
/-! DEFINITION. The terms in which claims are stated: when a command is with its owner, what an answer leaves, the bytes
of a frame on the wire, and the invariants that a safe run keeps. -/

namespace Sys2Proof.Machine

/-! ### Commands and answers -/

/-- Command `c` has been handed to its owner and no reset is under way (R200). -/
def State.handed (s : State) (c : Instr) : Bool :=
  s.resetting.isNone && s.link.held.any fun h => decide (h.phase = .handed c)

/-- The held command is answered, and the transmitter begins the reply when it is idle (R201, R203). -/
def State.answered (s : State) (st : Status) (data : List Byte) : State := (s.answer st data).pump

/-- A refusal: the answer without data (R201). -/
def State.refused (s : State) (st : Status) : State := s.answered st []

/-- A frame as its bytes follow each other on RXD (R198, 11.8). -/
def wireBytes (kind tag : Nat) (payload : List Byte) : List RxByte :=
  (0xC3 :: (le2 payload.length ++ le1 kind ++ le1 tag ++ payload)).map fun b => ⟨b, true⟩

/-! ### Launches and links -/

/-- List `n` right after a launch (R160, parts 2 to 4): a fresh live record under the next serial, LAUNCHING. -/
def State.launched (s : State) (n cue : Nat) (cause : LaunchCause) (link : LinkKind) (linkMs : Nat) : State :=
  s.setCueList n
    { s.cueList n with
      mode := .launching, current := some cue, pendingGo := none, armedGo := none
      serial := ((s.cueList n).serial + 1) % 65536
      launch := some
        ⟨true, cue, ((s.cueList n).serial + 1) % 65536, 0, cause, link, linkMs, none, false, false, 0, false, 0, false⟩ }

/-- List `n` right after a launch that was dropped (R160, part 1; R169), with the free value of log entry 5. -/
def State.dropped (s : State) (n : Nat) (cause : LaunchCause) : State :=
  ((s.setCueList n
      { s.cueList n with
        pendingGo := none, armedGo := none
        mode := match (s.cueList n).liveLaunch with
          | some r => if 0 < r.count then .running else .settled
          | none => .released }).withNotices
    { s.link.notices with
      cueStep := some
        ⟨n, .dropped, 0, (s.cueList n).serial, (Config.droppedCount s.freeUses).toNat, cause⟩ }).withFreeUses
    (s.freeUses + 1)

/-- `t` is `s` after the automatic GO of list `n`: the next cue is launched, and without one the link is spent (R164). -/
def State.automaticGo (s : State) (n : Nat) (cause : LaunchCause) (t : State) : Prop :=
  (s.nextCue (s.cueList n) = none →
    t = s.setCueList n
      { s.cueList n with
        launch := (s.cueList n).launch.map fun r =>
          { r with timer := none, wait := false, due := false, spent := true } }) ∧
  ∀ c entries link ms, s.nextCue (s.cueList n) = some c → s.cueHeader c = some (entries, link, ms) →
    t = s.launched n c cause link ms

/-! ### Invariants -/

/-- A claim stack holds at most 4 entries, no two of one source, in falling priority (R38). -/
def stackOk {α : Type} (l : List (Entry α)) : Bool :=
  decide (l.length ≤ 4) && allDistinct (l.map fun e => e.source) &&
    decide ((l.map fun e => e.prio).Pairwise fun a b => b ≤ a)

/-- Every claim stack is in order (R38). -/
def State.stacksOk (s : State) : Bool :=
  (s.claims.aim.all fun e => stackOk e.2) && s.claims.colour.all fun e => stackOk e.2

/-- Slots in use never exceed the pools, and no fixture has two QUEUED jobs (R81, R82). -/
def State.poolsOk (s : State) : Bool :=
  decide (s.solver.used .shared ≤ 24) &&
    ([Cls.cue, .direct, .track, .rig].all fun c => decide (s.solver.used (.reserve c) ≤ 2)) &&
    allDistinct (s.solver.queued.map fun j => j.fixture)

/-- The Beat Clock's ranges (R174 to R176, R182, R183, R177). -/
def Beat.ok (b : Beat) : Bool :=
  within 2000 20000 b.period && b.ring.all (within 2000 20000) && decide (b.ring.length ≤ 4) &&
    within 300 3000 b.tempo && decide (b.lone ≤ 3) && within 1 16 b.beatsPerBar &&
    within 1 b.beatsPerBar b.beatsToBar && decide (b.bar < 65536)

/-- Two runs share no slot. -/
def DirEntry.apart (a b : DirEntry) : Prop := a.start + a.length ≤ b.start ∨ b.start + b.length ≤ a.start

/-- A directory is in strictly ascending number, its runs are not empty and share no slot (R144, R145). -/
def dirOk (d : List DirEntry) : Prop :=
  (d.Pairwise fun a b => a.number < b.number) ∧ (d.Pairwise DirEntry.apart) ∧ ∀ e ∈ d, 1 ≤ e.length

/-- The runs and directories of Cue Memory are in order (R144, R145). -/
def CueMemory.ok (m : CueMemory) : Prop :=
  dirOk m.cues ∧ dirOk m.palettes ∧ m.cues.length ≤ 512 ∧ (∀ e ∈ m.palettes, e.number ≤ 63) ∧
    (∀ e ∈ m.palettes, e.start + e.length ≤ 8192) ∧ m.fill ≤ m.floor

/-- The ranges of a kind, as R1 lets them be stored. -/
def Profile.rangesOk (k : Profile) : Prop :=
  -54000 ≤ k.panMin ∧ k.panMax ≤ 54000 ∧ k.panMin + 36000 ≤ k.panMax ∧ k.tiltMin ≤ 0 ∧ 0 ≤ k.tiltMax

/-- A position in mu lies in a kind's ranges (R108). -/
def Profile.holds (k : Profile) (pan tilt : Int) : Prop :=
  k.panMin * 16 ≤ pan ∧ pan ≤ k.panMax * 16 ∧ k.tiltMin * 16 ≤ tilt ∧ tilt ≤ k.tiltMax * 16

/-- A PATCHED fixture's number is at most 255, its kind is DEFINED with ranges in order, and its home lies in them. -/
def State.patchOk (s : State) (f : Nat) (p : Patch) : Prop :=
  f ≤ 255 ∧ ∃ k, s.kind p.kind = some k ∧ k.rangesOk ∧ k.holds (p.homePan * 16) (p.homeTilt * 16)

/-- A motion record belongs to a PATCHED fixture, and its position and target lie in the kind's ranges (R108). -/
def State.recordOk (s : State) (f : Nat) (m : Motion) : Prop :=
  ∃ k, s.profileOf f = some k ∧ k.holds m.pan m.tilt ∧ k.holds m.tgtPan m.tgtTilt

/-- The destinations of a copy under way lie in the table (R16). -/
def State.copyOk (s : State) : Prop :=
  ∀ todo d sd n, s.work = some (.copyRig todo d sd n) → ∀ pr ∈ todo, pr.2 ≤ 255

/-- Every motion position lies within its kind's ranges, with what keeps it there (R108). -/
def State.motionOk (s : State) : Prop :=
  (∀ f p, s.patchOf f = some p → s.patchOk f p) ∧ (∀ f m, s.motionOf f = some m → s.recordOk f m) ∧
    (∀ j k, s.kind j = some k → k.rangesOk) ∧ s.copyOk

/-- The storage of the lines and of Cue Memory is in canonical form: the slot buffers, the snapshots of frames in
progress, and the Cue Memory slots. -/
def State.storageOk (s : State) : Bool :=
  Store.wf none s.memory.slots &&
    (s.lines.lines.all fun e =>
      Store.wf 0 e.2.buffer && (e.2.frame.all fun f => Store.wf (0 : Byte) f.snapshot)) &&
    Store.wf Line.fresh s.lines.lines

end Sys2Proof.Machine
end

