-- ==== Sys2Proof/Certificates/Slice0/Obligations.lean ====
section
/-! DEFINITION. The statements about the model, from the rules of the spec: one closed proposition each. A statement about
a command takes it when its owner has it (`State.handed`) and gives the whole next state; one about an event takes it when
it is enabled. -/

open Sys2Proof Sys2Proof.Machine

/-! ### The queue, the dispatcher and the link (chapter 11) -/

/-- A step with a command waiting runs that command on the state with the queue's rest. With nothing waiting it is, by the
model's choice (log entry 2), the first enabled event of the part's own, or a microsecond passing. -/
def Obligations.StepTakesFrontCommand : Prop :=
  ∀ s : State,
    (∀ c cs, s.pending = c :: cs → step s = exec c (s.withPending cs)) ∧
    (s.pending = [] →
      (∀ c, s.ownEvent = some c → step s = exec c s) ∧ (s.ownEvent = none → step s = .next s.tick))

/-- The model's choice (log entries 11 and 12): a host command's row runs for the command that is with its owner, or is
taken directly by a free dispatcher with an empty queue, when a frame can carry it, and does nothing at any other time. While a reset is under way no
row does anything but a further reset, the reset's end and a change of STOP (R207). -/
def Obligations.CommandRowsWaitForTheDispatcher : Prop :=
  (∀ (s : State) (c : Instr) (kind : Nat) (payload : List Byte), encodeCommand c = some (kind, payload) →
    (s.free = true → s.link.queue = [] → c.wellFormed = true →
      exec c s = exec c (s.hold c kind) ∧ (s.hold c kind).handed c = true) ∧
    (∀ h, s.link.held = some h → h.phase ≠ .handed c → exec c s = .next s) ∧
    (s.link.held = none → s.free = false → exec c s = .next s) ∧
    (s.free = true → s.link.queue ≠ [] ∨ c.wellFormed = false → exec c s = .next s)) ∧
  ∀ (s : State) (c : Instr), s.resetting.isSome = true → c ≠ .powerOn → c ≠ .resetLow → c ≠ .resetEnd →
    (∀ high, c ≠ .stopChange high) → exec c s = .next s

/-- The payload that carries a well-formed host command is read back as that command (R200, 11.8, 11.9). -/
def Obligations.CommandPayloadsReadBack : Prop :=
  ∀ (c : Instr) (kind : Nat) (payload : List Byte), c.wellFormed = true → encodeCommand c = some (kind, payload) →
    parseCommand kind payload = .command c ∧ payload.length ≤ 1020 ∧ kind < 0x60

/-- The bytes of a well-formed command's frame, received by a hunting receiver with the queue empty and the dispatcher
free, bring the command to its owner in one RECEIVE_FRAME, with its tag and room 8, and change nothing else
(R198 to R201). -/
def Obligations.FrameReachesItsOwner : Prop :=
  ∀ (s : State) (c : Instr) (kind tag : Nat) (payload : List Byte), c.wellFormed = true →
    encodeCommand c = some (kind, payload) → tag < 256 → s.free = true → s.link.queue = [] →
    s.link.receiver = .hunting →
    exec (.receiveFrame (wireBytes kind tag payload)) s =
      .next (s.withLink { s.link with held := some ⟨kind, tag, 8, .handed c⟩ }).pump

/-- A frame that completes while the dispatcher is busy joins the receive queue, or is dropped when the queue holds 8, and
LINK_OVERRUN then counts it (R199); a frame whose bytes stop for more than 1 ms, whose length is above 1,020, or of which
a byte lacks its stop bit, is discarded and LINK_ERROR raised once (R198). That a byte begins 5 µs before it arrives, and
that the gap is over when no byte begun within it can still arrive, is the model's choice (log entry 20). -/
def Obligations.FramesQueueOrDrop : Prop :=
  ∀ (s : State), s.resetting = none →
    (∀ kind tag payload, kind < 256 → tag < 256 → payload.length ≤ 1020 → s.link.receiver = .hunting →
      s.link.held.isSome = true →
      (s.link.queue.length < 8 →
        exec (.receiveFrame (wireBytes kind tag payload)) s =
          .next (s.withLink { s.link with queue := s.link.queue ++ [⟨kind, tag, payload⟩] }).pump) ∧
      (8 ≤ s.link.queue.length →
        exec (.receiveFrame (wireBytes kind tag payload)) s =
          .next (s.withNotices
            { s.link.notices with
              linkOverrun :=
                some ⟨Nat.min ((s.link.notices.linkOverrun.map fun o => o.drops).getD 0 + 1) 65535, kind, tag⟩ }).pump)) ∧
    (∀ got last, s.link.receiver = .inFrame got last → last + 1005 < s.now →
      exec .interByteTimeout s =
        .next ((s.withLink { s.link with receiver := .hunting }).raise .linkError none 1).pump) ∧
    (∀ got last (v : Byte), s.link.receiver = .inFrame got last → s.now ≤ last + 1005 →
      exec (.receiveFrame [⟨v, false⟩]) s =
        .next ((s.withLink { s.link with receiver := .hunting }).raise .linkError none 1).pump) ∧
    (∀ got last (v : Byte), s.link.receiver = .inFrame got last → last + 1005 < s.now → v ≠ 0xC3 →
      exec (.receiveFrame [⟨v, true⟩]) s =
        .next ((s.withLink { s.link with receiver := .hunting }).raise .linkError none 1).pump) ∧
    (∀ low high : Byte, 1020 < low.toNat + 256 * high.toNat → s.link.receiver = .hunting →
      exec (.receiveFrame [⟨0xC3, true⟩, ⟨low, true⟩, ⟨high, true⟩]) s =
        .next (s.raise .linkError none 1).pump)

/-- The last byte of a frame has gone: after a notice the transmitter chooses again; after READY commands may be taken;
after a reply the dispatcher is free and takes the oldest frame (R200, R203, R208); after RESTART's reply OK the part is
reset (R207). The free dispatcher takes the oldest frame and hands a command that passes its checks to its owner, with the
room left by the frames behind it; a frame that fails them is answered at once (R200, R201). The model's choice: the reply
kind of a kind of 0x80 or more is taken mod 256 (log entry 15), and the reset keeps the time, the uses of free values, the
queue of waiting commands (log entry 32) and the level of STOP (log entry 6). -/
def Obligations.TransmitEndsAndDispatch : Prop :=
  (∀ (s : State) (x : Sending), s.resetting = none → s.link.sending = some x → x.ends ≤ s.now →
    (x.what = .notice → exec .transmitEnd s = .next (s.withLink { s.link with sending := none }).pump) ∧
    (x.what = .ready →
      exec .transmitEnd s = .next ((s.withLink { s.link with sending := none, readySent := true }).dispatch).pump) ∧
    (x.what = .reply → x.frame.isRestart = false →
      exec .transmitEnd s = .next ((s.withLink { s.link with sending := none, held := none }).dispatch).pump) ∧
    (x.what = .reply → x.frame.isRestart = true →
      exec .transmitEnd s = .next (State.resetValues s.now s.freeUses s.stop .restart s.pending))) ∧
  ∀ (s : State) (f : LinkFrame) (fs : List LinkFrame), s.free = true → s.link.queue = f :: fs →
    (∀ c, parseCommand f.kind f.payload = .command c →
      s.dispatch = s.withLink { s.link with queue := fs, held := some ⟨f.kind, f.tag, 8 - fs.length, .handed c⟩ }) ∧
    (parseCommand f.kind f.payload = .unknownKind →
      s.dispatch = s.withLink
        { s.link with
          queue := fs
          held := some ⟨f.kind, f.tag, 8 - fs.length,
            .replyWaiting ⟨(f.kind + 128) % 256, f.tag, [3, BitVec.ofNat 8 (8 - fs.length)]⟩⟩ }) ∧
    (parseCommand f.kind f.payload = .badLength →
      s.dispatch = s.withLink
        { s.link with
          queue := fs
          held := some ⟨f.kind, f.tag, 8 - fs.length,
            .replyWaiting ⟨(f.kind + 128) % 256, f.tag, [2, BitVec.ofNat 8 (8 - fs.length)]⟩⟩ })

/-- The transmitter's choice (R203): READY first, then the waiting reply, then the pending enabled notice of the highest
level and, among equals, of the lowest kind code; a busy transmitter goes on. -/
def Obligations.TransmitterChoosesInOrder : Prop :=
  (∀ n : Notices,
    (∀ i, n.best = some i → i ∈ n.ready ∧
      ∀ j ∈ n.ready, n.level j < n.level i ∨ (n.level j = n.level i ∧ i ≤ j)) ∧
    (n.best = none → n.ready = [])) ∧
  ∀ s : State,
    (s.link.sending.isSome = true → s.pump = s) ∧
    (s.resetting = none → s.link.sending = none →
      (s.link.readyWaiting = true →
        s.pump = s.withLink
          { s.link with
            readyWaiting := false, sending := some ⟨readyFrame, .ready, s.now + 5 * (5 + readyFrame.payload.length)⟩ }) ∧
      (s.link.readyWaiting = false →
        (∀ h f, s.link.held = some h → h.phase = .replyWaiting f →
          s.pump = s.withLink
            { s.link with
              held := some { h with phase := .replySending }
              sending := some ⟨f, .reply, s.now + 5 * (5 + f.payload.length)⟩ }) ∧
        (s.link.waitingReply = none →
          (∀ i, s.link.notices.best = some i →
            s.pump = s.withLink
              { s.link with
                notices := s.link.notices.clear i
                sending := some ⟨⟨0x60 + i, 0, s.noticePayload i⟩, .notice,
                  s.now + 5 * (5 + (s.noticePayload i).length)⟩ }) ∧
          (s.link.notices.best = none → s.pump = s))))

/-- A reply has the command's kind plus 0x80, its tag, and a payload of status, room and data; it waits, or begins at once
when the transmitter is idle; nothing outside the link changes (R201, R203). -/
def Obligations.RepliesAreFormed : Prop :=
  ∀ (s : State) (h : Held) (st : Status) (data : List Byte), s.link.held = some h → s.resetting = none →
    s.link.readyWaiting = false →
    (s.link.sending.isSome = true →
      s.answered st data = s.withLink
        { s.link with
          held := some
            { h with
              phase := .replyWaiting
                ⟨(h.kind + 128) % 256, h.tag, BitVec.ofNat 8 st.code :: BitVec.ofNat 8 h.room :: data⟩ } }) ∧
    (s.link.sending = none →
      s.answered st data = s.withLink
        { s.link with
          held := some { h with phase := .replySending }
          sending := some ⟨⟨(h.kind + 128) % 256, h.tag, BitVec.ofNat 8 st.code :: BitVec.ofNat 8 h.room :: data⟩, .reply,
            s.now + 5 * (7 + data.length)⟩ })

/-- POWER_ON and RESET_LOW leave every block at the values the rules give for reset, whatever the state before (R19, R35,
R55, R95, R121, R143, R172, R186, R197, R204, R207, R209). The model's choice: the time, the uses of free values, the queue
of waiting commands (log entry 32) and the level of STOP (log entry 6) stay, and no report, pause or bar start is left
waiting (log entry 7). -/
def Obligations.ResetsLeaveTheResetValues : Prop :=
  ∀ s : State, ∃ t u : State, exec .powerOn s = .next t ∧ exec .resetLow s = .next u ∧
    t.resetting = some .powerOn ∧ u = t.withResetting (some .pin) ∧
    t.now = s.now ∧ t.freeUses = s.freeUses ∧ t.stop = s.stop ∧ t.pending = s.pending ∧ t.part = .standby ∧
    (∀ k, t.kind k = none) ∧ (∀ f, t.fixture f = ⟨none, 0⟩) ∧ (∀ r, t.trussOffset r = ⟨0, 0, 0⟩) ∧
    (∀ p, t.point p = ⟨none, none, 0, false, none⟩) ∧ t.points.staleLimit = 500 ∧
    t.claims.prio = [8, 8, 8, 8, 8, 8, 8, 8, 10, 12] ∧ (∀ f, t.aimStack f = [] ∧ t.colourStack f = []) ∧
    t.solver = ⟨[], none, []⟩ ∧ (∀ i, (t.cacheEntry i).valid = false) ∧ t.cache.pointer = 0 ∧
    (∀ f, t.motionOf f = none ∧ t.colourOf f = none) ∧ t.motion.timer = none ∧ t.colour.timer = none ∧
    t.memory.cues = [] ∧ t.memory.palettes = [] ∧ t.memory.fill = 0 ∧ t.memory.floor = 8192 ∧ t.memory.hole = 0 ∧
    t.memory.pack.phase = .idle ∧ t.memory.staging = none ∧
    (∀ n, t.cueList n = ⟨1, 9999, false, 0, .released, none, none, none, 0, none, false, 0, 0⟩) ∧
    t.playback.reports = [] ∧
    t.beat.source = .external ∧ t.beat.filter = true ∧ t.beat.clock = .freewheel ∧ t.beat.lastEdge = none ∧
    t.beat.ring = [] ∧ t.beat.period = 5000 ∧ t.beat.tempo = 1200 ∧ t.beat.lone = 3 ∧ t.beat.beatsPerBar = 4 ∧
    t.beat.beatsToBar = 1 ∧ t.beat.bar = 0 ∧
    (∀ l, t.line l = ⟨⟨512, 25, 0⟩, none, false, false, [], 0, none, false, none⟩) ∧ t.lines.sync = false ∧
    t.link.receiver = .hunting ∧ t.link.queue = [] ∧ t.link.held = none ∧ t.link.sending = none ∧
    t.link.notices.ready = [] ∧ (∀ b ∈ t.link.notices.flags, b = false) ∧
    t.link.notices.levels = List.replicate 9 1 ∧
    t.link.counters = [⟨.linkError, 15, 0⟩, ⟨.jobRejected, 15, 0⟩, ⟨.cacheMiss, 15, 0⟩, ⟨.lineFrames, 15, 0⟩] ∧
    t.noticePin = false ∧ t.syncPin = false ∧ ∀ l, t.ldePin l = false ∧ t.linePin l = true

/-- The end of a reset: the flywheel starts with the period, and READY is the first frame sent (R208, R186). The model's
choice: the engines then know the level of STOP (log entry 6), and outside a reset the row does nothing (log entry 12). -/
def Obligations.ResetEnds : Prop :=
  ∀ s : State,
    (s.resetting.isSome = true → s.link.sending = none →
      exec .resetEnd s = .next
        { s with
          resetting := none
          motion := { s.motion with stopSeen := s.stop }
          colour := { s.colour with stopSeen := s.stop }
          beat := { s.beat with
            flywheel := some (s.now + 100 * s.beat.period), loaded := s.beat.period, lastBeat := s.now }
          link := { s.link with
            readyWaiting := false
            sending := some ⟨⟨0x7F, 0, identityBlock⟩, .ready, s.now + 5 * (5 + identityBlock.length)⟩ } }) ∧
    (s.resetting = none → exec .resetEnd s = .next s)

/-! ### Commands of the Host Link, part states and STOP (chapter 11) -/

/-- Every query answers OK with what its block holds as it is taken, and changes nothing outside the link; a query of an
UNDEFINED kind, and QUERY_CLAIMS, QUERY_MOTION and QUERY_COLOUR of an UNPATCHED fixture, are answered NOT_FOUND (R4, R14,
R34, R52, R94, R120, R142, R170, R171, R185, R196, R208). The data of a reply follow codings that the model has read from
11.8 or chosen: widths, presence bytes and codes (log entry 10), the walk position (23), a time left (28) and QUERY_LINE's
slot count (29); the silicon revision and a time too wide for its field are free values (3, 4). -/
def Obligations.QueriesAnswerAndChangeNothing : Prop :=
  ∀ s : State,
    (s.handed .identify = true → exec .identify s = .next (s.answered .ok identityBlock)) ∧
    (s.handed .readCounters = true → exec .readCounters s = .next (s.answered .ok (countersData s))) ∧
    (∀ k p, s.handed (.queryKind k) = true → k ≤ 31 → s.kind k = some p →
      exec (.queryKind k) s = .next (s.answered .ok (kindData s k p))) ∧
    (∀ k, s.handed (.queryKind k) = true → k ≤ 31 → s.kind k = none →
      exec (.queryKind k) s = .next (s.refused .notFound)) ∧
    (∀ f, f ≤ 255 → s.patchOf f = none →
      (s.handed (.queryClaims f) = true → exec (.queryClaims f) s = .next (s.refused .notFound)) ∧
      (s.handed (.queryMotion f) = true → exec (.queryMotion f) s = .next (s.refused .notFound)) ∧
      (s.handed (.queryColour f) = true → exec (.queryColour f) s = .next (s.refused .notFound))) ∧
    (∀ f, s.handed (.queryFixture f) = true → f ≤ 255 →
      exec (.queryFixture f) s = .next (s.answered .ok (fixtureData s f))) ∧
    (∀ p, s.handed (.queryPoint p) = true → p ≤ 127 →
      exec (.queryPoint p) s = .next (s.answered .ok (pointData s p))) ∧
    (∀ f, s.handed (.queryClaims f) = true → f ≤ 255 → s.isPatched f = true →
      exec (.queryClaims f) s = .next (s.answered .ok (claimsData s f))) ∧
    (s.handed .querySolver = true → exec .querySolver s = .next (s.answered .ok (solverData s))) ∧
    (∀ f p k m, s.handed (.queryMotion f) = true → f ≤ 255 → s.patchOf f = some p → s.profileOf f = some k →
      s.motionOf f = some m → exec (.queryMotion f) s = .next (s.answered .ok (motionData s k p m))) ∧
    (∀ f k c, s.handed (.queryColour f) = true → f ≤ 255 → s.profileOf f = some k → s.colourOf f = some c →
      exec (.queryColour f) s = .next (s.answered .ok (colourData s k c))) ∧
    (∀ n, s.handed (.queryList n) = true → n ≤ 7 →
      exec (.queryList n) s = .next (s.answered .ok (listData s n))) ∧
    (s.handed .queryMemory = true → exec .queryMemory s = .next (s.answered .ok (memoryData s.memory))) ∧
    (s.handed .queryClock = true → exec .queryClock s = .next (s.answered .ok (clockData s))) ∧
    (∀ l first count, s.handed (.queryLine l first count) = true → l ≤ 7 → 1 ≤ first → first ≤ 512 →
      first + count ≤ 513 → exec (.queryLine l first count) s = .next (s.answered .ok (lineData s l first count)))

/-- Commands whose numbers lie outside the ranges their rules accept are answered BAD_ARG and change nothing outside the
link. That a part mark above 3 is refused so, and that a law byte of DIRECT_COLOUR, unit bits 4 to 7 and the link fields of
a MORE or LAST part are not read, is the model's reading (log entry 24); UNPATCH has no such case (log entry 30). That
BAD_ARG comes before a refusal that a rule names beside it without an order is the model's choice (log entry 42). -/
def Obligations.OutOfRangeCommandsAreRefused : Prop :=
  ∀ (s : State) (c : Instr), s.handed c = true →
    (match c with
      | .setNotice levels => ∃ l ∈ levels, 3 < l
      | .setCounter n e _ => 3 < n ∨ e = 0 ∨ 13 < e
      | .defineKind k => k.ok = false
      | .dropKind k | .queryKind k => 31 < k
      | .patch a => a.rangesOk = false
      | .setPose a => a.fixture > 255 ∨ posOk a.pos = false ∨ a.yaw > 35999 ∨ a.mounting > 1
      | .setTrim f _ | .setPassthrough f _ | .queryFixture f | .queryClaims f | .queryMotion f | .queryColour f => 255 < f
      | .setTruss t o => 15 < t ∨ posOk o = false
      | .copyRig a => a.count = 0
      | .setPoint p pos => 127 < p ∨ posOk pos = false
      | .bindTag p t o => 127 < p ∨ 63 < t ∨ posOk o = false
      | .unbindTag p | .queryPoint p => 127 < p
      | .track rs => rs.length = 0 ∨ 64 < rs.length
      | .setPriority src prio => 9 < src ∨ 15 < prio
      | .directAim e => e.directAimOk = false
      | .directColour e => e.directColourOk = false
      | .releaseDirect a => rangeOk a.first a.count = false ∨ 2 < a.selector ∨ 1 < a.unit
      | .bindFollow first count p => rangeOk first count = false ∨ 127 < p
      | .unbindFollow first count | .halt first count => rangeOk first count = false
      | .storeCue mark a => mark ≠ 0 ∨ 4 < a.link ∨ cueFieldsOk a = false
      | .storeCueFirst a => 4 < a.link ∨ cueFieldsOk a = false
      | .storeCueMore a | .storeCueLast a => morePartOk a = false ∨ s.stagedFor a = none
      | .deleteCue n => n < 1 ∨ 9999 < n
      | .storePalette a => paletteOk a = false
      | .deletePalette q => 63 < q
      | .defineList a => listArgsOk a = false
      | .go n cue _ => 7 < n ∨ 9999 < cue
      | .releaseList n | .queryList n => 7 < n
      | .setBeatSource src filter => 1 < src ∨ 1 < filter
      | .setBar b => b < 1 ∨ 16 < b
      | .setLine a => 7 < a.line ∨ a.min < 24 ∨ 512 < a.min
      | .queryLine l first count => 7 < l ∨ first < 1 ∨ 512 < first ∨ 513 < first + count
      | _ => False) →
    exec c s = .next (s.refused .badArg)

/-- SET_NOTICE replaces the levels and answers with the pending flags; SET_COUNTER sets a counter anew; CLEAR_COUNTERS
clears the values alone; a counter adds an event that it counts, held at 4,294,967,295 (R202, R204). The nine pending flags
say which notices are pending, and the NOTICE output is high exactly while one of them has a level above 0, and low during a
reset (R202, R207). -/
def Obligations.NoticeLevelsAndCounters : Prop :=
  (∀ s : State,
    s.noticePin = true ↔
      s.resetting = none ∧
        ∃ i l : Nat, s.link.notices.flags[i]? = some true ∧ s.link.notices.levels[i]? = some l ∧ 0 < l) ∧
  (∀ n : Notices,
    n.flags =
      [n.cueStep.isSome, n.listSettled.isSome, n.packDone.isSome, n.trackStale.isSome, n.beatState.isSome,
        n.stopState.isSome, n.solveRejected.isSome, n.linkOverrun.isSome, n.gamutClamp.isSome]) ∧
  (∀ (s : State) (levels : List Nat), s.handed (.setNotice levels) = true → (∀ l ∈ levels, l ≤ 3) →
    exec (.setNotice levels) s = .next
      ((s.withLink { s.link with notices := { s.link.notices with levels := levels } }).answered .ok
        (s.link.notices.flags.map fun b => if b then 1 else 0))) ∧
  (∀ (s : State) (n mask : Nat) (e : Activity), s.handed (.setCounter n e.code mask) = true → n ≤ 3 →
    exec (.setCounter n e.code mask) s = .next
      ((s.withLink { s.link with counters := s.link.counters.set n ⟨e, mask % 16, 0⟩ }).answered .ok [])) ∧
  (∀ s : State, s.handed .clearCounters = true →
    exec .clearCounters s = .next
      ((s.withLink { s.link with counters := s.link.counters.map fun c => { c with value := 0 } }).answered .ok [])) ∧
  ∀ (s : State) (e : Activity) (cls : Option Cls) (n i : Nat) (c : Counter), s.link.counters[i]? = some c →
    (s.raise e cls n).link.counters[i]? = some
      (if c.event = e ∧ (∀ k, cls = some k → c.mask.testBit k.code = true) then
        { c with value := Nat.min (c.value + n) 4294967295 } else c)

/-- START and STANDBY change the part state and begin the blocks' work, and change nothing in the state they ask for
(R205); RESTART is answered OK (R207). That the work is a set of parts still to be taken is the model's reading (log
entry 18). -/
def Obligations.PartStateCommands : Prop :=
  ∀ s : State,
    (s.handed .start = true → s.part = .live → exec .start s = .next (s.answered .ok [])) ∧
    (s.handed .start = true → s.part = .standby →
      exec .start s = .next ((s.withPart .live).setWork (.start true true true true)).pump) ∧
    (s.handed .standby = true → s.part = .standby → exec .standby s = .next (s.answered .ok [])) ∧
    (s.handed .standby = true → s.part = .live →
      exec .standby s = .next
        ((s.withPart .standby).setWork (.standby true true true [0, 1, 2, 3, 4, 5, 6, 7])).pump) ∧
    (s.handed .restart = true → exec .restart s = .next (s.answered .ok []))

/-- START's parts, each in its own event (R205): the re-aims (R118), the motion records, which do not move yet (R118), the
colour records (R140) and the lines, which all run with a frame in progress (R195). The model's reading: the parts are a
set (log entry 18), the engines go by the level of STOP that they have taken, and COLOUR_RESUME serves a waiting STOP low
before START's colour part (log entry 17). -/
def Obligations.StartPartsTaken : Prop :=
  ∀ (s : State) (r m c l : Bool), s.resetting = none → s.work = some (.start r m c l) →
    (r = true →
      exec .startReaim s = .next ((s.rigReaims s.patchedFixtures).finishStart false m c l).pump) ∧
    (m = true → s.motion.stopSeen = false →
      ∃ t : State, exec .startMotion s = .next t ∧
        t = (((s.onMotions (fun k q => q.startLive k) s.patchedFixtures).syncStepTimer).finishStart r false c l).pump ∧
        ∀ f, (t.motionOf f).map (fun q => (q.pan, q.tilt)) = (s.motionOf f).map fun q => (q.pan, q.tilt)) ∧
    (m = true → s.motion.stopSeen = true →
      exec .startMotion s = .next (s.syncStepTimer.finishStart r false c l).pump) ∧
    (c = true → s.stopToColour.head? ≠ some false → s.colour.stopSeen = false →
      exec .colourResume s = .next (s.resumeColours.finishStart r m false l).pump) ∧
    (c = true → s.stopToColour.head? ≠ some false → s.colour.stopSeen = true →
      exec .colourResume s = .next (s.finishStart r m false l).pump) ∧
    (l = true →
      ∃ t : State, exec .startLines s = .next t ∧ t = ((s.startLines [0, 1, 2, 3, 4, 5, 6, 7]).finishStart r m c false).pump ∧
        t = (s.withLines t.lines).withLink t.link ∧
        ∀ n < 8, (t.line n).run = true ∧ (t.line n).frame.isSome = true)

/-- STANDBY's parts, each in its own event (R205): every motion record HELD where it stands with its item settled (R117),
every fade dropped with its outputs kept and its item settled (R139), a list retired (R167), the lines idle and SYNC low
(R195). A settled report goes out for each tag held, in fixture order, and the stacks change in report owed alone (R41).
That the parts are a set, and that the events of the fixtures of one engine are one row, is the model's reading (log
entry 18). -/
def Obligations.StandbyPartsTaken : Prop :=
  ∀ (s : State) (m c l : Bool) (ls : List Nat), s.resetting = none → s.work = some (.standby m c l ls) →
    (m = true →
      ∃ t : State, exec .standbyMotion s = .next (t.finishStandby false c l ls).pump ∧
        t = ((s.withMotion t.motion).withClaims t.claims).withPlayback t.playback ∧
        t.playback =
          { s.playback with
            reports := s.playback.reports ++
              (s.patchedFixtures.filterMap fun f =>
                (s.profileOf f).bind fun _ => (s.motionOf f).bind fun q => q.tag).map fun g => ⟨true, g⟩ } ∧
        (s.part = .standby → t.motion.timer = none ∧ t.motion.due = []) ∧
        t.claims.prio = s.claims.prio ∧ t.claims.colour = s.claims.colour ∧
        (∀ f, f ∉ s.patchedFixtures ∨ s.motionOf f = none ∨ s.profileOf f = none →
          t.aimStack f = s.aimStack f ∧ t.motionOf f = s.motionOf f) ∧
        ∀ f ∈ s.patchedFixtures, ∀ q k, s.motionOf f = some q → s.profileOf f = some k →
          (t.motionOf f = some
            { q with
              mode := .held, vPan := 0, vTilt := 0, plan := none, brake := none, tag := none
              sweep := q.sweep.filter fun w => decide (w.phase = .done) }) ∧
          t.aimStack f = (s.aimStack f).map fun e =>
            { e with owed := e.owed && !(q.tag.isSome && decide (e.tag = q.tag)) }) ∧
    (c = true →
      ∃ t : State, exec .standbyColour s = .next (t.finishStandby m false l ls).pump ∧
        t = ((s.withColour t.colour).withClaims t.claims).withPlayback t.playback ∧
        t.playback =
          { s.playback with
            reports := s.playback.reports ++
              (s.patchedFixtures.filterMap fun f =>
                (s.profileOf f).bind fun _ => (s.colourOf f).bind fun q => q.tag).map fun g => ⟨true, g⟩ } ∧
        t.colour.timer = none ∧ t.colour.due = [] ∧
        t.claims.prio = s.claims.prio ∧ t.claims.aim = s.claims.aim ∧
        (∀ f, f ∉ s.patchedFixtures ∨ s.colourOf f = none ∨ s.profileOf f = none →
          t.colourStack f = s.colourStack f ∧ t.colourOf f = s.colourOf f) ∧
        ∀ f ∈ s.patchedFixtures, ∀ q k, s.colourOf f = some q → s.profileOf f = some k →
          t.colourOf f = some { q with fade := none, tag := none } ∧
          t.colourStack f = (s.colourStack f).map fun e =>
            { e with owed := e.owed && !(q.tag.isSome && decide (e.tag = q.tag)) }) ∧
    (∀ n ∈ ls,
      exec (.standbyList n) s = .next
        ((s.setCueList n
          (if (s.cueList n).mode = .released then s.cueList n
          else
            { s.cueList n with
              mode := .settled, pendingGo := none, armedGo := none
              launch := (s.cueList n).launch.map fun q =>
                { q with live := false, timer := none, wait := false, due := false, count := 0 } })).finishStandby
          m c l (ls.erase n)).pump) ∧
    (l = true →
      ∃ t : State, exec .standbyLines s = .next (t.finishStandby m c false ls).pump ∧ t = s.withLines t.lines ∧
        t.lines.sync = false ∧ ∀ n < 8, t.line n = { s.line n with run := false, timer := none, due := false })

/-- A change of STOP makes STOP_STATE pending with the new level and the part state and is given to the Motion Engine, the
Colour Engine and the lists: at a high their walks wait and their link timers are held, and a low each list has to take in an
event of its own (R206, R166). The same level again is no change, and during a reset only the level is taken (log entry 13).
That the change waits in a queue for each engine and, when it is to low, for each list, and that at a high the lists wait and
their timers hold within this event, is the model's reading (log entry 17). -/
def Obligations.StopChangeIsGivenOn : Prop :=
  ∀ (s : State) (high : Bool),
    (s.resetting = none → high ≠ s.stop →
      ∃ t : State, exec (.stopChange high) s = .next t.pump ∧
        t = { s with
          stop := high
          link := { s.link with notices := { s.link.notices with stopState := some ⟨high, s.part⟩ } }
          stopToMotion := s.stopToMotion ++ [high]
          stopToColour := s.stopToColour ++ [high]
          playback := t.playback } ∧
        t.playback.reports = s.playback.reports ∧
        ∀ n, t.cueList n =
          if 8 ≤ n then s.cueList n
          else if high = true then
            { s.cueList n with
              paused := true
              launch := (s.cueList n).launch.map fun q => { q with timer := q.timer.map (LinkTimer.hold s.now) } }
          else { s.cueList n with lowsDue := (s.cueList n).lowsDue + 1 }) ∧
    (s.resetting = none → high = s.stop → exec (.stopChange high) s = .next s) ∧
    (s.resetting.isSome = true →
      exec (.stopChange high) s = .next
        { s with
          stop := high, motion := { s.motion with stopSeen := high }, colour := { s.colour with stopSeen := high } })

/-- The Motion Engine and the Colour Engine take a change of STOP in their own events, which in STANDBY change no record
(R115, R116, R138, R140), and each list takes each change to low in an event of its own: a held timer runs on, and a link that
became due makes its automatic GO with cause DONE (R166); where STOP has gone high again behind that low, the list waits
again and its timer is held, in the same event (log entry 17). That each engine takes the changes first in, first out, and that
COLOUR_RESUME serves a waiting STOP low first, is the model's reading (log entry 17); that no automatic GO is made in
STANDBY is log entry 22; that an engine judges by the part state it finds as it takes the change is log entry 45. -/
def Obligations.StopReachesTheBlocks : Prop :=
  ∀ s : State, s.resetting = none →
    (∀ rest, s.stopToMotion = true :: rest → s.part = .live →
      ∃ t : State, exec .motionStopHigh s = .next t ∧ t.motion.stopSeen = true ∧ t.stopToMotion = rest ∧
        ∀ f ∈ s.patchedFixtures, ∀ q k, s.motionOf f = some q → s.profileOf f = some k →
          t.motionOf f = some
            (if q.mode = .held ∨ q.mode = .braking then q
            else if q.vPan = 0 ∧ q.vTilt = 0 then { q with plan := none, sweep := none, mode := .held, brake := none }
            else { q with plan := none, sweep := none, mode := .braking, brake := some .stop })) ∧
    (∀ rest, s.stopToMotion = false :: rest → s.part = .live →
      ∃ t : State, exec .motionStopLow s = .next t ∧ t.motion.stopSeen = false ∧ t.stopToMotion = rest ∧
        ∀ f ∈ s.patchedFixtures, ∀ q k, s.motionOf f = some q → s.profileOf f = some k →
          t.motionOf f = some (q.resume k).after ∧ (q.resume k).after.pan = q.pan ∧ (q.resume k).after.tilt = q.tilt ∧
          (q.aim = none → (q.resume k).after = q)) ∧
    (∀ high rest, s.stopToMotion = high :: rest → s.part = .standby →
      exec (if high = true then .motionStopHigh else .motionStopLow) s = .next
        ((s.withStopToMotion rest).withMotion { s.motion with stopSeen := high, timer := none, due := [] }).pump) ∧
    (∀ high rest, s.stopToColour = high :: rest → s.part = .standby →
      exec (if high = true then .colourStopHigh else .colourResume) s = .next
        ((s.withStopToColour rest).withColour { s.colour with stopSeen := high }).pump) ∧
    (∀ rest, s.stopToColour = true :: rest → s.part = .live →
      ∃ t : State, exec .colourStopHigh s = .next t ∧ t.colour.stopSeen = true ∧ t.stopToColour = rest ∧
        t.colour.timer = none ∧
        ∀ f ∈ s.patchedFixtures, ∀ q k, s.colourOf f = some q → s.profileOf f = some k →
          t.colourOf f = some { q with fade := none }) ∧
    (∀ rest, s.stopToColour = false :: rest → s.part = .live →
      exec .colourResume s = .next
        ((s.withStopToColour rest).withColour { s.colour with stopSeen := false }).resumeColours.pump) ∧
    (∀ (n left : Nat),
      (LinkTimer.held left).run s.now = .running (s.now + left) ∧
      (LinkTimer.running n).hold s.now = .held (n - s.now) ∧ (LinkTimer.running n).run s.now = .running n ∧
      (LinkTimer.held left).hold s.now = .held left) ∧
    ∀ n, 0 < (s.cueList n).lowsDue →
      ∃ u v : State,
        u = s.setCueList n
          { s.cueList n with
            paused := false, lowsDue := (s.cueList n).lowsDue - 1
            launch := (s.cueList n).launch.map fun q =>
              { q with timer := q.timer.map (LinkTimer.run s.now), due := false } } ∧
        (s.part = .standby ∨ ((s.cueList n).liveLaunch.any fun q => q.due) = false → v = u) ∧
        (∀ r, s.part = .live → (s.cueList n).liveLaunch = some r → r.due = true → u.automaticGo n .done v) ∧
        ((s.cueList n).lowsDue = 1 → s.stop = false → exec (.playbackStopLow n) s = .next v.pump) ∧
        (1 < (s.cueList n).lowsDue ∨ s.stop = true →
          exec (.playbackStopLow n) s = .next
            (v.setCueList n
              { v.cueList n with
                paused := true
                launch := (v.cueList n).launch.map fun q => { q with timer := q.timer.map (LinkTimer.hold s.now) } }).pump)

/-! ### The rig (chapter 1) -/

/-- DEFINE_KIND stores the profile of its payload under its number, and a kind in use is refused IN_USE (R1, R2). -/
def Obligations.KindsAreDefined : Prop :=
  ∀ (s : State) (k : RawKind), s.handed (.defineKind k) = true → k.ok = true →
    (s.kindInUse k.kind = true → exec (.defineKind k) s = .next (s.refused .inUse)) ∧
    (s.kindInUse k.kind = false →
      ∃ t : State, exec (.defineKind k) s = .next (t.answered .ok []) ∧ t = s.withRig t.rig ∧
        t.rig.fixtures = s.rig.fixtures ∧ t.rig.trusses = s.rig.trusses ∧
        ∀ j, t.kind j = if j = k.kind then some k.profile else s.kind j)

/-- DROP_KIND is refused with BAD_ARG above 31, NOT_FOUND when the kind is UNDEFINED and IN_USE when it is in use; otherwise
the kind becomes UNDEFINED, and a PATCH that names it is refused NOT_FOUND (R3, R6). -/
def Obligations.KindsAreDropped : Prop :=
  ∀ (s : State),
    (∀ k, s.handed (.dropKind k) = true →
      (31 < k → exec (.dropKind k) s = .next (s.refused .badArg)) ∧
      (k ≤ 31 → s.kind k = none → exec (.dropKind k) s = .next (s.refused .notFound)) ∧
      (k ≤ 31 → (s.kind k).isSome = true → s.kindInUse k = true →
        exec (.dropKind k) s = .next (s.refused .inUse)) ∧
      (k ≤ 31 → (s.kind k).isSome = true → s.kindInUse k = false →
        ∃ t : State, exec (.dropKind k) s = .next (t.answered .ok []) ∧ t = s.withRig t.rig ∧
          t.rig.fixtures = s.rig.fixtures ∧ t.rig.trusses = s.rig.trusses ∧
          ∀ j, t.kind j = if j = k then none else s.kind j)) ∧
    (∀ a, s.handed (.patch a) = true → a.rangesOk = true → s.kind a.kind = none →
      exec (.patch a) s = .next (s.refused .notFound))

/-- PATCH's checks after its ranges, in order, and its three forms: a fixture created, moved, or unpatched and created anew
with another kind (R6 to R9). A fixture moved: its record is replaced with the next pose generation, its stacks, motion
position and colour record are kept, a fixture aimed at a point is re-aimed (R5), and in one write the old footprint is
zeroed and the new one carries the present position, outputs and passthrough values (R8). R6 orders its stages but not the
two refusals of stage 4: that IN_USE comes before OVERLAP there is the model's choice (log entry 42). -/
def Obligations.PatchForms : Prop :=
  (∀ (s : State) (a : PatchArgs) (m : Mounting) (k : Profile), s.handed (.patch a) = true → a.rangesOk = true →
    s.kind a.kind = some k → mountingOf (a.body % 4) = some m →
    (a.fitsKind k = false → exec (.patch a) s = .next (s.refused .badArg)) ∧
    (a.fitsKind k = true → s.patchedOther a.fixture a.kind = true → s.holdsClaims a.fixture = true →
      exec (.patch a) s = .next (s.refused .inUse)) ∧
    (a.fitsKind k = true → (s.patchedOther a.fixture a.kind = true → s.holdsClaims a.fixture = false) →
      (s.overlapsOther a.line a.base k.footprint a.fixture = true →
        exec (.patch a) s = .next (s.refused .overlap)) ∧
      (s.overlapsOther a.line a.base k.footprint a.fixture = false →
        (s.patchOf a.fixture = none →
          exec (.patch a) s = .next
            ((s.createFixture a.fixture
              (a.record m (List.replicate k.emitterCount 4096) (List.replicate k.pass.length 0)) k).answered .ok [])) ∧
        (∀ old, s.patchOf a.fixture = some old → old.kind = a.kind →
          exec (.patch a) s = .next
            ((s.moveFixture a.fixture old (a.record m old.trims old.pass) k).answered .ok [])) ∧
        (∀ old, s.patchOf a.fixture = some old → old.kind ≠ a.kind →
          exec (.patch a) s = .next
            (((s.unpatchOne a.fixture).createFixture a.fixture
              (a.record m (List.replicate k.emitterCount 4096) (List.replicate k.pass.length 0)) k).answered .ok []))))) ∧
  ∀ (s : State) (f : Nat) (old p : Patch) (k : Profile) (m : Motion) (c : Colour), s.patchOf f = some old →
    s.motionOf f = some m → s.colourOf f = some c →
    ∃ t u : State, s.moveFixture f old p k = t ∧
      u = (s.setFixture f ⟨some p, ((s.fixture f).gen + 1) % 4294967296⟩).withCache u.cache ∧
      u.cache.pointer = s.cache.pointer ∧
      (∀ i < 32, u.cacheEntry i =
        { s.cacheEntry i with valid := (s.cacheEntry i).valid && decide ((s.cacheEntry i).fixture ≠ f) }) ∧
      t = (match s.aimedAt f with
        | some q => (u.reaim f q (s.reaimLaw f) .rig).1
        | none => u).withLines t.lines ∧
      t.fixture f = ⟨some p, ((s.fixture f).gen + 1) % 4294967296⟩ ∧ (∀ g, g ≠ f → t.fixture g = s.fixture g) ∧
      (∀ g, (t.aimStack g).map (fun e => (e.source, e.prio, e.body, e.tag)) =
        (s.aimStack g).map fun e => (e.source, e.prio, e.body, e.tag)) ∧
      (∀ g, t.colourStack g = s.colourStack g ∧ t.colourOf g = s.colourOf g) ∧
      (∀ g, (t.motionOf g).map (fun q => (q.pan, q.tilt)) = (s.motionOf g).map fun q => (q.pan, q.tilt)) ∧
      (∀ l, t.line l = { s.line l with buffer := (t.line l).buffer, highest := (t.line l).highest }) ∧
      (∀ l b, b = (if l = old.line then
            Store.setAll 0 (s.line l).buffer ((List.range k.footprint).map fun o => (old.base + o, 0))
          else (s.line l).buffer) →
        (t.line l).buffer = if l = p.line then
          Store.setAll 0 b
            ((footprintSlots k p m.pan m.tilt c.outputs).map fun w => (p.base + w.1, BitVec.ofNat 8 w.2))
        else b) ∧
      (∀ l, (t.line l).highest = if l = old.line ∨ l = p.line then t.highestPatched l else (s.line l).highest)

/-- What creating a fixture does (R5, R7, R96, R122): the record, the next pose generation, empty stacks, fresh motion and
colour records, its cache entries invalid, its whole footprint written, and every other fixture left alone. -/
def Obligations.FixtureIsCreated : Prop :=
  ∀ (s : State) (f : Nat) (p : Patch) (k : Profile), s.aimStack f = [] →
    (∀ w ∈ footprintSlots k p (p.homePan * 16) (p.homeTilt * 16) (Colour.fresh k.model).outputs, w.1 < k.footprint) →
    ∃ t : State, s.createFixture f p k = t ∧
      t = (((((s.withRig t.rig).withClaims t.claims).withMotion t.motion).withColour t.colour).withLines
        t.lines).withCache t.cache ∧
      t.fixture f = ⟨some p, ((s.fixture f).gen + 1) % 4294967296⟩ ∧ t.aimStack f = [] ∧ t.colourStack f = [] ∧
      t.motionOf f = some (Motion.fresh p.homePan p.homeTilt) ∧ t.colourOf f = some (Colour.fresh k.model) ∧
      (∀ g, g ≠ f → t.fixture g = s.fixture g ∧ t.aimStack g = s.aimStack g ∧ t.colourStack g = s.colourStack g ∧
        t.motionOf g = s.motionOf g ∧ t.colourOf g = s.colourOf g) ∧
      (∀ i < 32, t.cacheEntry i =
        { s.cacheEntry i with valid := (s.cacheEntry i).valid && decide ((s.cacheEntry i).fixture ≠ f) }) ∧
      (t.line p.line).buffer = Store.setAll 0 (s.line p.line).buffer
        ((footprintSlots k p (p.homePan * 16) (p.homeTilt * 16) (Colour.fresh k.model).outputs).map fun w =>
          (p.base + w.1, BitVec.ofNat 8 w.2)) ∧
      (∀ i, i < p.base ∨ p.base + k.footprint ≤ i →
        Store.get 0 (t.line p.line).buffer i = Store.get 0 (s.line p.line).buffer i) ∧
      ∀ l, l ≠ p.line → t.line l = s.line l

/-- UNPATCH_FIXTURE takes the first fixture still to be unpatched (R10): its stacks, its QUEUED job and its mark are gone,
its records discarded, its footprint zero and its record UNPATCHED with the next pose generation; no other fixture's
record and no other slot changes. The entries that go are reported superseded where they owe a report, the AIM stack's
before the COLOUR stack's (R53), and the fixture's cache entries become invalid (R5, R79). -/
def Obligations.FixtureIsUnpatched : Prop :=
  ∀ (s : State) (f : Nat) (fs : List Nat) (done skipped : Nat) (p : Patch) (k : Profile), s.resetting = none →
    s.work = some (.unpatch (f :: fs) done skipped) → s.patchOf f = some p → s.profileOf f = some k →
    exec .unpatchFixture s = .next ((s.unpatchOne f).goUnpatch fs (done + 1) skipped).pump ∧
    ∃ t : State, s.unpatchOne f = t ∧
      t.fixture f = ⟨none, ((s.fixture f).gen + 1) % 4294967296⟩ ∧ t.aimStack f = [] ∧ t.colourStack f = [] ∧
      t.motionOf f = none ∧ t.colourOf f = none ∧ t.owedMark f = none ∧ t.solver.hasQueued f = false ∧
      (∀ g, g ≠ f → t.fixture g = s.fixture g ∧ t.colourStack g = s.colourStack g ∧ t.colourOf g = s.colourOf g) ∧
      (s.playback.reports ++
          (((s.aimStack f).filterMap fun e => if e.owed = true then e.tag else none) ++
            (s.colourStack f).filterMap fun e => if e.owed = true then e.tag else none).map fun g => ⟨false, g⟩) <+:
        t.playback.reports ∧
      (∀ i < 32, t.cacheEntry i =
        { s.cacheEntry i with valid := (s.cacheEntry i).valid && decide ((s.cacheEntry i).fixture ≠ f) }) ∧
      (∀ o < k.footprint, Store.get 0 (t.line p.line).buffer (p.base + o) = 0) ∧
      (∀ i, i < p.base ∨ p.base + k.footprint ≤ i →
        Store.get 0 (t.line p.line).buffer i = Store.get 0 (s.line p.line).buffer i) ∧
      (∀ l, l ≠ p.line → t.line l = s.line l) ∧
      t.points = s.points ∧ t.memory = s.memory ∧ t.beat = s.beat ∧ t.rig.kinds = s.rig.kinds

/-- SET_POSE replaces the five fields of the pose and makes a pose change, whose request is a RIG-class re-aim of a fixture
that is aimed at a point; SET_TRIM replaces the trims, each stored as at most 8,191, and SET_PASSTHROUGH the values with
one write of their slots. A list of another length, or trims for a kind that is not EMITTER, are answered BAD_ARG, and a
fixture that is UNPATCHED is answered NOT_FOUND (R5, R11 to R13). -/
def Obligations.PoseTrimsAndPassthrough : Prop :=
  ∀ s : State,
    (∀ (a : PoseArgs) (m : Mounting) (p : Patch) (k : Profile), s.handed (.setPose a) = true → a.fixture ≤ 255 →
      posOk a.pos = true → a.yaw ≤ 35999 → mountingOf a.mounting = some m → s.patchOf a.fixture = some p →
      s.profileOf a.fixture = some k →
      (k.homeOk a.homePan a.homeTilt = false → exec (.setPose a) s = .next (s.refused .badArg)) ∧
      (k.homeOk a.homePan a.homeTilt = true →
        ∃ t u : State, exec (.setPose a) s = .next (t.answered .ok []) ∧
          u = (s.setFixture a.fixture
            ⟨some { p with
              pos := a.pos, yaw := a.yaw, mounting := m, homePan := a.homePan, homeTilt := a.homeTilt },
              ((s.fixture a.fixture).gen + 1) % 4294967296⟩).withCache u.cache ∧
          u.cache.pointer = s.cache.pointer ∧
          (∀ i < 32, u.cacheEntry i =
            { s.cacheEntry i with valid := (s.cacheEntry i).valid && decide ((s.cacheEntry i).fixture ≠ a.fixture) }) ∧
          t = (match s.aimedAt a.fixture with
            | some q => (u.reaim a.fixture q (s.reaimLaw a.fixture) .rig).1
            | none => u) ∧
          t.fixture a.fixture =
            ⟨some { p with
              pos := a.pos, yaw := a.yaw, mounting := m, homePan := a.homePan, homeTilt := a.homeTilt },
              ((s.fixture a.fixture).gen + 1) % 4294967296⟩ ∧
          (∀ g, g ≠ a.fixture → t.fixture g = s.fixture g) ∧
          (∀ i < 32, t.cacheEntry i =
            { s.cacheEntry i with valid := (s.cacheEntry i).valid && decide ((s.cacheEntry i).fixture ≠ a.fixture) }) ∧
          t.lines = s.lines ∧ t.points = s.points ∧ t.memory = s.memory ∧ t.colour = s.colour ∧
          t.rig.kinds = s.rig.kinds ∧
          ∀ g, (t.motionOf g).map (fun q => (q.pan, q.tilt)) = (s.motionOf g).map fun q => (q.pan, q.tilt))) ∧
    (∀ f trims p k, s.handed (.setTrim f trims) = true → f ≤ 255 → s.patchOf f = some p → s.profileOf f = some k →
      0 < k.emitterCount → trims.length = k.emitterCount →
      exec (.setTrim f trims) s = .next
        ((s.setFixture f ⟨some { p with trims := trims.map (Nat.min 8191) }, (s.fixture f).gen⟩).answered .ok [])) ∧
    (∀ f trims p k, s.handed (.setTrim f trims) = true → f ≤ 255 → s.patchOf f = some p → s.profileOf f = some k →
      (∀ es, k.model ≠ .emitter es) ∨ trims.length ≠ k.emitterCount →
      exec (.setTrim f trims) s = .next (s.refused .badArg)) ∧
    (∀ f values p k, s.handed (.setPassthrough f values) = true → f ≤ 255 → s.patchOf f = some p →
      s.profileOf f = some k → values.length ≠ k.pass.length →
      exec (.setPassthrough f values) s = .next (s.refused .badArg)) ∧
    (∀ f values p k, s.handed (.setPassthrough f values) = true → f ≤ 255 → s.patchOf f = some p →
      s.profileOf f = some k → values.length = k.pass.length →
      exec (.setPassthrough f values) s = .next
        (((s.setFixture f ⟨some { p with pass := values }, (s.fixture f).gen⟩).setLine p.line
          { s.line p.line with
            buffer := Store.setAll 0 (s.line p.line).buffer
              ((k.pass.zip values).map fun w => (p.base + w.1, BitVec.ofNat 8 w.2)) }).answered .ok [])) ∧
    (∀ f, f ≤ 255 → s.patchOf f = none →
      (∀ a m, a.fixture = f → s.handed (.setPose a) = true → posOk a.pos = true → a.yaw ≤ 35999 →
        mountingOf a.mounting = some m → exec (.setPose a) s = .next (s.refused .notFound)) ∧
      (∀ trims, s.handed (.setTrim f trims) = true → exec (.setTrim f trims) s = .next (s.refused .notFound)) ∧
      (∀ values, s.handed (.setPassthrough f values) = true →
        exec (.setPassthrough f values) s = .next (s.refused .notFound)))

/-- SET_TRUSS gives the truss its offset, advances the pose generation of every fixture on it, invalidates their cache
entries and, in ascending fixture order, re-aims each of them that is aimed at a point with a RIG-class request; no other
fixture's record changes, and nothing moves within the event (R15). -/
def Obligations.TrussMoves : Prop :=
  ∀ (s : State) (r : Nat) (o : Pos), s.handed (.setTruss r o) = true → r ≤ 15 → posOk o = true →
    ∃ t u : State, exec (.setTruss r o) s = .next (t.answered .ok []) ∧
      u = (s.withRig u.rig).withCache u.cache ∧ u.rig = t.rig ∧ u.cache.pointer = s.cache.pointer ∧
      (∀ i < 32, u.cacheEntry i =
        { s.cacheEntry i with
          valid := (s.cacheEntry i).valid &&
            !(decide ((s.cacheEntry i).fixture < 256) &&
              decide ((s.patchOf (s.cacheEntry i).fixture).map (fun p => p.truss) = some r)) }) ∧
      t = ((List.range 256).filter fun f => decide ((s.patchOf f).map (fun p => p.truss) = some r)).foldl
        (fun v f => match v.aimedAt f with
          | some q => (v.reaim f q (v.reaimLaw f) .rig).1
          | none => v) u ∧
      (∀ j, t.trussOffset j = if j = r then o else s.trussOffset j) ∧
      (∀ f, t.fixture f =
        if f < 256 ∧ (s.patchOf f).map (fun p => p.truss) = some r then
          { s.fixture f with gen := ((s.fixture f).gen + 1) % 4294967296 }
        else s.fixture f) ∧
      (∀ i < 32, t.cacheEntry i =
        { s.cacheEntry i with
          valid := (s.cacheEntry i).valid &&
            !(decide ((s.cacheEntry i).fixture < 256) &&
              decide ((s.patchOf (s.cacheEntry i).fixture).map (fun p => p.truss) = some r)) }) ∧
      t.rig.kinds = s.rig.kinds ∧ t.points = s.points ∧ t.lines = s.lines ∧ t.memory = s.memory ∧
      ∀ g, (t.motionOf g).map (fun q => (q.pan, q.tilt)) = (s.motionOf g).map fun q => (q.pan, q.tilt)

/-- COPY_RIG's checks after its count, in order, and its beginning (R16, R17); a RECORD_COPY gives the destination the
source's record with position and base slot moved and its own next pose generation, leaves every other fixture's record,
and writes the lines once: the destination's old footprint zeroed, and its new one with the home position, outputs of 0 and
the copied passthrough values over it. That a count above 256 is carried out is the model's reading (log entry 30), and so
is an old footprint zeroed whole (log entry 41). -/
def Obligations.RigIsCopied : Prop :=
  (∀ (s : State) (a : CopyArgs), s.handed (.copyRig a) = true → a.count ≠ 0 →
    (a.pairs.all (s.pairOk a) = false → exec (.copyRig a) s = .next (s.refused .badArg)) ∧
    (a.pairs.all (s.pairOk a) = true → s.copyOverlaps a = true →
      exec (.copyRig a) s = .next (s.refused .overlap)) ∧
    (a.pairs.all (s.pairOk a) = true → s.copyOverlaps a = false →
      ((a.pairs.any fun pr => s.holdsClaims pr.2) = true → exec (.copyRig a) s = .next (s.refused .inUse)) ∧
      ((a.pairs.any fun pr => s.holdsClaims pr.2) = false →
        exec (.copyRig a) s = .next (s.goCopy a.order a.delta a.slotDelta 0).pump))) ∧
  ∀ (s : State) (src dst : Nat) (prs : List (Nat × Nat)) (d : Pos) (sd : Int) (n : Nat), s.resetting = none →
    s.work = some (.copyRig ((src, dst) :: prs) d sd n) →
    exec .recordCopy s = .next ((s.copyRecord src dst d sd).goCopy prs d sd (n + 1)).pump ∧
    ∃ t : State, s.copyRecord src dst d sd = t ∧
      t.fixture dst =
        ⟨(s.patchOf src).map fun p => { p with pos := addPos p.pos d, base := ((p.base : Int) + sd).toNat },
          ((s.fixture dst).gen + 1) % 4294967296⟩ ∧
      (∀ g, g ≠ dst → t.fixture g = s.fixture g) ∧ t.aimStack dst = [] ∧ t.colourStack dst = [] ∧
      (s.patchOf src = none → t.motionOf dst = none ∧ t.colourOf dst = none) ∧
      (∀ p k, s.patchOf src = some p → s.profileOf src = some k →
        t.motionOf dst = some (Motion.fresh p.homePan p.homeTilt) ∧ t.colourOf dst = some (Colour.fresh k.model)) ∧
      (∀ l, t.line l = { s.line l with buffer := (t.line l).buffer, highest := (t.line l).highest }) ∧
      (∀ l b, b = (match s.patchOf dst, s.profileOf dst with
          | some q, some kq =>
            if l = q.line then
              Store.setAll 0 (s.line l).buffer ((List.range kq.footprint).map fun o => (q.base + o, 0))
            else (s.line l).buffer
          | _, _ => (s.line l).buffer) →
        (s.patchOf src = none → (t.line l).buffer = b) ∧
        ∀ p k p', s.patchOf src = some p → s.profileOf src = some k →
          p' = { p with pos := addPos p.pos d, base := ((p.base : Int) + sd).toNat } →
          (t.line l).buffer = if l = p.line then
            Store.setAll 0 b
              ((footprintSlots k p' (p.homePan * 16) (p.homeTilt * 16) (Colour.fresh k.model).outputs).map fun w =>
                (p'.base + w.1, BitVec.ofNat 8 w.2))
          else b) ∧
      (∀ l, (∃ q, s.patchOf dst = some q ∧ l = q.line) ∨ (∃ p k, s.patchOf src = some p ∧ s.profileOf src = some k ∧
          l = p.line) → (t.line l).highest = t.highestPatched l) ∧
      t.rig.kinds = s.rig.kinds ∧ t.points = s.points ∧ t.memory = s.memory ∧ t.beat = s.beat

/-! ### Points and tags (chapter 2) -/

/-- SET_POINT gives an unbound point its position and next generation, invalidates its cache entries and issues one
TRACK-class request, in ascending fixture order, for each fixture aimed at it; a bound point is answered IN_USE (R20,
R21, R99). -/
def Obligations.PointMoves : Prop :=
  ∀ (s : State) (p : Nat) (pos : Pos), s.handed (.setPoint p pos) = true → p ≤ 127 → posOk pos = true →
    ((s.point p).binding.isSome = true → exec (.setPoint p pos) s = .next (s.refused .inUse)) ∧
    ((s.point p).binding = none →
      ∃ t u : State, exec (.setPoint p pos) s = .next
          (t.answered .ok (le4 (((s.point p).gen + 1) % 4294967296) ++ le2 (s.fixturesAimedAt p).length)) ∧
        u = (s.setPoint p
          { s.point p with pos := some pos, gen := ((s.point p).gen + 1) % 4294967296 }).withCache u.cache ∧
        u.cache.pointer = s.cache.pointer ∧
        (∀ i < 32, u.cacheEntry i =
          { s.cacheEntry i with valid := (s.cacheEntry i).valid && decide ((s.cacheEntry i).point ≠ p) }) ∧
        t = (s.fixturesAimedAt p).foldl (fun v f => (v.reaim f p .chase .track).1) u ∧
        t.point p = { s.point p with pos := some pos, gen := ((s.point p).gen + 1) % 4294967296 } ∧
        (∀ q, q ≠ p → t.point q = s.point q) ∧ t.points.staleLimit = s.points.staleLimit ∧
        (∀ i < 32, t.cacheEntry i =
          { s.cacheEntry i with valid := (s.cacheEntry i).valid && decide ((s.cacheEntry i).point ≠ p) }) ∧
        t.rig = s.rig ∧ t.memory = s.memory ∧ t.lines = s.lines ∧ t.colour = s.colour ∧ t.beat = s.beat ∧
        ∀ g, (t.motionOf g).map (fun q => (q.pan, q.tilt)) = (s.motionOf g).map fun q => (q.pan, q.tilt))

/-- BIND_TAG binds a point and starts its stale timer, UNBIND_TAG unbinds it, and a stale timer's expiry marks the point
stale and makes TRACK_STALE pending (R23, R24, R30, R32). -/
def Obligations.TagsBindPoints : Prop :=
  ∀ s : State,
    (∀ p tag o, s.handed (.bindTag p tag o) = true → p ≤ 127 → tag ≤ 63 → posOk o = true →
      exec (.bindTag p tag o) s = .next
        ((s.setPoint p
          { s.point p with
            binding := some ⟨tag, o⟩, stale := false
            timer := some (s.now + 1000 * s.points.staleLimit) }).answered .ok [])) ∧
    (∀ p, s.handed (.unbindTag p) = true → p ≤ 127 →
      ((s.point p).binding.isSome = true →
        exec (.unbindTag p) s = .next
          ((s.setPoint p { s.point p with binding := none, stale := false, timer := none }).answered .ok [])) ∧
      ((s.point p).binding = none → exec (.unbindTag p) s = .next (s.answered .ok []))) ∧
    (∀ p e, s.resetting = none → (s.point p).timer = some e → e ≤ s.now →
      exec (.staleTimerExpiry p) s = .next
        ((s.setPoint p { s.point p with stale := true, timer := none }).withNotices
          { s.link.notices with trackStale := some ⟨.stale, p⟩ }).pump)

/-- SET_STALE_LIMIT stores 100 for a value below 100, 5,000 for one above 5,000, and a value between as given, answers OK
with the stored limit, and leaves every running timer as it is (R33). -/
def Obligations.StaleLimitIsStored : Prop :=
  ∀ (s : State) (ms : Nat), s.handed (.setStaleLimit ms) = true →
    ∃ n, (ms < 100 → n = 100) ∧ (5000 < ms → n = 5000) ∧ (100 ≤ ms → ms ≤ 5000 → n = ms) ∧
      exec (.setStaleLimit ms) s = .next
        ((s.withPoints ⟨s.points.points, n⟩).answered .ok [BitVec.ofNat 8 n, BitVec.ofNat 8 (n / 256)])

/-- TRACK takes its records in order, counts each as applied, ignored or skipped, raises TRACK_SKIPPED once for each skipped
one and goes on to the point moves; each TRACK_POINT_MOVE makes the next of them: the point's record, its cache entries,
the notice of a point that was stale, and a TRACK-class request for each fixture aimed at it (R21, R25 to R27, R31). That
all records are checked as TRACK is taken is the model's reading (log entry 16). -/
def Obligations.TrackTakesItsRecords : Prop :=
  (∀ (s : State) (rs : List TrackRec), s.handed (.track rs) = true → 1 ≤ rs.length → rs.length ≤ 64 →
    ∃ (t : State) (moves : List (Nat × Pos)) (applied ignored skipped : Nat),
      exec (.track rs) s = .next (t.goTrack moves rs.length applied ignored skipped 0).pump ∧
      applied + ignored + skipped = rs.length ∧
      ignored = (rs.filter fun r => (s.boundTo r.tag).isEmpty).length ∧
      skipped = (rs.filter fun r => !(s.boundTo r.tag).isEmpty && !posOk r.pos).length ∧
      moves = ((rs.filter fun r => posOk r.pos).flatMap fun r =>
        (s.boundTo r.tag).map fun p => (p, clampPos (addPos r.pos (s.offsetOf p)))) ∧
      t = (List.range skipped).foldl (fun u _ => u.raise .trackSkipped none 1) s) ∧
  ∀ (s : State) (p : Nat) (pos : Pos) (rest : List (Nat × Pos)) (n a i k m : Nat), s.resetting = none →
    s.work = some (.track ((p, pos) :: rest) n a i k m) →
    exec .trackPointMove s = .next (((s.movePoint p pos).1).goTrack rest n a i k (m + 1)).pump ∧
    (s.movePoint p pos).2 = (s.fixturesAimedAt p).length ∧
    ∃ u : State, (s.movePoint p pos).1 = (s.fixturesAimedAt p).foldl (fun v f => (v.reaim f p .chase .track).1) u ∧
      u = (((s.setPoint p
        (if (s.point p).binding.isSome then
          ⟨some pos, (s.point p).binding, ((s.point p).gen + 1) % 4294967296, false,
            some (s.now + 1000 * s.points.staleLimit)⟩
        else { s.point p with pos := some pos, gen := ((s.point p).gen + 1) % 4294967296 })).withCache
          u.cache).withNotices
        { s.link.notices with
          trackStale :=
            if ((s.point p).binding.isSome && (s.point p).stale) = true then some ⟨.fresh, p⟩
            else s.link.notices.trackStale }) ∧
      u.cache.pointer = s.cache.pointer ∧
      (∀ j < 32, u.cacheEntry j =
        { s.cacheEntry j with valid := (s.cacheEntry j).valid && decide ((s.cacheEntry j).point ≠ p) }) ∧
      (s.movePoint p pos).1.points = u.points

/-! ### Claims (chapter 3) -/

/-- SET_PRIORITY is refused BAD_ARG for a source above 9 or a priority above 15; otherwise the source takes the priority and
the reply returns the one it had; every stack keeps its order (R37). -/
def Obligations.PriorityIsSet : Prop :=
  ∀ (s : State) (src prio : Nat), s.handed (.setPriority src prio) = true →
    (9 < src ∨ 15 < prio → exec (.setPriority src prio) s = .next (s.refused .badArg)) ∧
    (src ≤ 9 → prio ≤ 15 →
      exec (.setPriority src prio) s = .next
        ((s.withClaims ⟨s.claims.prio.set src prio, s.claims.aim, s.claims.colour⟩).answered .ok
          [BitVec.ofNat 8 (s.claims.prio.getD src 0)]))

/-- A command on a fixture range takes the PATCHED fixtures of the range in ascending order, each in an event of its own,
and counts the UNPATCHED ones as skipped (R10, R47 to R51, R114); RELEASE_LIST releases the list and then takes every
PATCHED fixture (R168). The claim that an entry or a direct command asks for: its target and law as its fields give them,
a time in milliseconds as given, and one in quarter-beats converted to the round half up of qb × period / 40 (R45, R184).
That the fixtures are fixed when the command is taken is the model's reading (log entry 16), and so
is UNPATCH carried out for every count, 0 and above 256 too (log entry 30). -/
def Obligations.RangeCommandsBegin : Prop :=
  (∀ (s : State) (first count : Nat),
    (s.rangePatched first count).Pairwise (· < ·) ∧
    (∀ f, f ∈ s.rangePatched first count ↔ first ≤ f ∧ f < first + count ∧ f ≤ 255 ∧ s.isPatched f = true) ∧
    (first ≤ 255 → (s.rangePatched first count).length + s.rangeSkipped first count = Nat.min count (256 - first))) ∧
  (∀ (s : State) (e : RawEntry) (law : Law) (ms : Bool → Nat → Nat), (∀ t, ms false t = t) →
    (∀ t, ms true t = (t * s.beat.period + 20) / 40) → law = (if e.law = 1 then .chase else .timed) →
    (∀ quarterBeats t, s.toMs quarterBeats t = ms quarterBeats t) ∧
    (e.aim = 0 → s.aimClaim e = none) ∧
    (e.aim = 1 → s.aimClaim e = some ⟨.point e.point, law, ms (e.units.testBit 0) e.moveTime⟩) ∧
    (e.aim = 2 → s.aimClaim e = some ⟨.angles e.pan e.tilt, law, ms (e.units.testBit 0) e.moveTime⟩) ∧
    (e.aim = 3 →
      s.aimClaim e = some
        ⟨.sweep (if e.units.testBit 3 = true then .angles e.pan e.tilt else .point e.point) e.panAmp e.tiltAmp
          (ms (e.units.testBit 1) e.legTime) e.legs, law, ms (e.units.testBit 0) e.moveTime⟩) ∧
    (e.colour = 0 → s.colourClaim e = none) ∧
    (e.colour = 1 → s.colourClaim e = some ⟨.hueSat e.hue e.sat, ms (e.units.testBit 2) e.fadeTime⟩) ∧
    (e.colour = 2 → s.colourClaim e = some ⟨.palette e.hue.toNat, ms (e.units.testBit 2) e.fadeTime⟩) ∧
    (e.colour = 3 → s.colourClaim e = some ⟨.wheelSlot e.hue.toNat, ms (e.units.testBit 2) e.fadeTime⟩)) ∧
  ∀ s : State,
    (∀ first count, s.handed (.unpatch first count) = true →
      exec (.unpatch first count) s = .next
        (s.goUnpatch (s.rangePatched first count) 0 (s.rangeSkipped first count)).pump) ∧
    (∀ e c, s.handed (.directAim e) = true → e.directAimOk = true → s.aimClaim e = some c →
      exec (.directAim e) s = .next
        (s.goDirectAim (s.rangePatched e.first e.count) c ⟨0, 0, 0, s.rangeSkipped e.first e.count, 0⟩).pump) ∧
    (∀ e c, s.handed (.directColour e) = true → e.directColourOk = true → s.colourClaim e = some c →
      exec (.directColour e) s = .next
        (s.goDirectColour (s.rangePatched e.first e.count) c ⟨0, 0, 0, s.rangeSkipped e.first e.count, 0⟩).pump) ∧
    (∀ a, s.handed (.releaseDirect a) = true → rangeOk a.first a.count = true → a.selector ≤ 2 → a.unit ≤ 1 →
      exec (.releaseDirect a) s = .next
        (s.goReleaseDirect (s.rangePatched a.first a.count) (decide (a.selector ≠ 1)) (decide (a.selector ≠ 0))
          (s.toMs (decide (a.unit = 1)) a.time) ⟨0, 0, s.rangeSkipped a.first a.count⟩).pump) ∧
    (∀ first count p, s.handed (.bindFollow first count p) = true → rangeOk first count = true → p ≤ 127 →
      exec (.bindFollow first count p) s = .next
        (s.goBindFollow (s.rangePatched first count) p ⟨0, 0, 0, s.rangeSkipped first count, 0⟩).pump) ∧
    (∀ first count, s.handed (.unbindFollow first count) = true → rangeOk first count = true →
      exec (.unbindFollow first count) s = .next
        (s.goUnbindFollow (s.rangePatched first count) ⟨0, 0, s.rangeSkipped first count⟩).pump) ∧
    (∀ first count, s.handed (.halt first count) = true → rangeOk first count = true →
      exec (.halt first count) s = .next
        (s.goHalt (s.rangePatched first count) ⟨0, 0, s.rangeSkipped first count⟩).pump) ∧
    (∀ n, s.handed (.releaseList n) = true → n ≤ 7 →
      exec (.releaseList n) s = .next
        ((s.setCueList n
          { s.cueList n with
            mode := .released, pendingGo := none, armedGo := none, current := none
            launch := (s.cueList n).launch.map fun r =>
              { r with live := false, timer := none, wait := false, due := false } }).goReleaseList
          s.patchedFixtures n (s.cueList n).fade 0).pump)

/-- Each fixture event of a range command takes the first fixture still to be taken, carries out its claim, release or
halt, adds its count and goes on to the rest (R39 to R51, R114, R168). A release of both stacks, or of the one selected, takes
the AIM stack first and the COLOUR stack after it, and counts when either held an entry (R49, R168). That HALT counts a record already BRAKING, or at
rest at once, as brought to BRAKING is the model's reading (log entry 33). A command of several events stays with its owner
while parts are still to be taken, and with none left it is answered: OK with its counts, but QUEUE_FULL where DIRECT_AIM
left every PATCHED fixture of its range, at least one, owed (R10, R18, R25, R47 to R51, R114, R149, R168, R201, R205). That
a notice made pending by the last part is offered to the transmitter before the reply is formed is the model's reading (log
entry 14). -/
def Obligations.RangeCommandsTakeEachFixture : Prop :=
  (∀ (s : State) (f : Nat) (fs : List Nat), s.resetting = none →
    (∀ claim c, s.work = some (.directAim (f :: fs) claim c) →
      exec .directAimFixture s = .next
        (((s.claimAim f 9 claim).1).goDirectAim fs claim
          (c.add (s.claimAim f 9 claim).2.1 (s.claimAim f 9 claim).2.2)).pump) ∧
    (∀ claim c, s.work = some (.directColour (f :: fs) claim c) →
      exec .directColourFixture s = .next
        (((s.claimColour f 9 claim).1).goDirectColour fs claim (c.add (s.claimColour f 9 claim).2 false)).pump) ∧
    (∀ aim colour ms c, s.work = some (.releaseDirect (f :: fs) aim colour ms c) →
      exec .releaseDirectFixture s = .next
        (((s.releaseBoth f 9 aim colour ms).1).goReleaseDirect fs aim colour ms
          (c.add (s.releaseBoth f 9 aim colour ms).2)).pump) ∧
    (∀ p c, s.work = some (.bindFollow (f :: fs) p c) →
      exec .bindFollowFixture s = .next
        (((s.claimAim f 8 ⟨.point p, .chase, 0⟩).1).goBindFollow fs p
          (c.add (s.claimAim f 8 ⟨.point p, .chase, 0⟩).2.1 (s.claimAim f 8 ⟨.point p, .chase, 0⟩).2.2)).pump) ∧
    (∀ c, s.work = some (.unbindFollow (f :: fs) c) →
      exec .unbindFollowFixture s = .next
        (((s.releaseAim f 8 0).1).goUnbindFollow fs (c.add (s.releaseAim f 8 0).2)).pump) ∧
    (∀ c m k, s.work = some (.halt (f :: fs) c) → s.motionOf f = some m → s.profileOf f = some k →
      ∃ t : State, exec .haltFixture s = .next (t.goHalt fs (c.add (decide (m.mode = .held)))).pump ∧
        t = ((s.withMotion t.motion).withClaims t.claims).withPlayback t.playback ∧
        (∀ g, g ≠ f → t.motionOf g = s.motionOf g) ∧
        t.motionOf f = some
          (match m.mode with
            | .held => m
            | .braking => { m with brake := some .halt }
            | _ =>
              if m.vPan = 0 ∧ m.vTilt = 0 then
                { m with plan := none, sweep := none, mode := .held, brake := none, tag := none }
              else { m with plan := none, sweep := none, mode := .braking, brake := some .halt })) ∧
    (∀ n fade c, s.work = some (.releaseList (f :: fs) n fade c) →
      exec .releaseListFixture s = .next
        (((s.releaseBoth f n true true fade).1).goReleaseList fs n fade
          (if (s.releaseBoth f n true true fade).2 then c + 1 else c)).pump)) ∧
  (∀ (s t u : State) (f src ms : Nat) (aim colour a b : Bool),
    (if aim = true then s.releaseAim f src ms else (s, false)) = (t, a) →
    (if colour = true then t.releaseColour f src ms else (t, false)) = (u, b) →
    s.releaseBoth f src aim colour ms = (u, a || b)) ∧
  (∀ (c : ClaimCounts) (a : ClaimAnswer) (owed : Bool),
    c.add a owed =
      ⟨c.active + (if a = .active then 1 else 0), c.below + (if a = .below then 1 else 0),
        c.notPlaced + (if a = .notPlaced then 1 else 0), c.skipped, c.owed + if owed = true then 1 else 0⟩) ∧
  (∀ (c : ReleaseCounts) (b : Bool),
    c.add b = ⟨c.released + (if b = true then 1 else 0), c.nothing + (if b = true then 0 else 1), c.skipped⟩) ∧
  (∀ (c : HaltCounts) (b : Bool),
    c.add b = ⟨c.braking + (if b = true then 0 else 1), c.held + (if b = true then 1 else 0), c.skipped⟩) ∧
  (∀ (s : State) (h : Held) (w : Work), s.link.held = some h →
    s.setWork w = s.withLink { s.link with held := some { h with phase := .working w } }) ∧
  (∀ (s : State) (f : Nat) (fs : List Nat),
    (∀ a b, s.goUnpatch (f :: fs) a b = s.setWork (.unpatch (f :: fs) a b)) ∧
    (∀ pr prs d sd n, s.goCopy (pr :: prs) d sd n = s.setWork (.copyRig (pr :: prs) d sd n)) ∧
    (∀ mv mvs n a i k m, s.goTrack (mv :: mvs) n a i k m = s.setWork (.track (mv :: mvs) n a i k m)) ∧
    (∀ claim c, s.goDirectAim (f :: fs) claim c = s.setWork (.directAim (f :: fs) claim c)) ∧
    (∀ claim c, s.goDirectColour (f :: fs) claim c = s.setWork (.directColour (f :: fs) claim c)) ∧
    (∀ a b ms c, s.goReleaseDirect (f :: fs) a b ms c = s.setWork (.releaseDirect (f :: fs) a b ms c)) ∧
    (∀ p c, s.goBindFollow (f :: fs) p c = s.setWork (.bindFollow (f :: fs) p c)) ∧
    (∀ c, s.goUnbindFollow (f :: fs) c = s.setWork (.unbindFollow (f :: fs) c)) ∧
    (∀ c, s.goHalt (f :: fs) c = s.setWork (.halt (f :: fs) c)) ∧
    (∀ q start n, s.goPalette (f :: fs) q start n = s.setWork (.storePalette (f :: fs) q start n)) ∧
    (∀ n fade c, s.goReleaseList (f :: fs) n fade c = s.setWork (.releaseList (f :: fs) n fade c)) ∧
    (∀ r m c l, (r = true ∨ m = true ∨ c = true ∨ l = true) → s.finishStart r m c l = s.setWork (.start r m c l)) ∧
    ∀ m c l ls, (m = true ∨ c = true ∨ l = true ∨ ls ≠ []) →
      s.finishStandby m c l ls = s.setWork (.standby m c l ls)) ∧
  ∀ (s : State) (one two : Nat → List Byte), (∀ n, one n = [BitVec.ofNat 8 n]) →
    (∀ n, two n = [BitVec.ofNat 8 n, BitVec.ofNat 8 (n / 256)]) →
    (∀ n k, (s.goUnpatch [] n k).pump = s.pump.answered .ok (two n ++ two k)) ∧
    (∀ d sd n, (s.goCopy [] d sd n).pump = s.pump.answered .ok (two n)) ∧
    (∀ n a i k m,
      (s.goTrack [] n a i k m).pump = s.pump.answered .ok (one n ++ one a ++ one i ++ one k ++ two m)) ∧
    (∀ claim (c : ClaimCounts),
      (s.goDirectAim [] claim c).pump =
        s.pump.answered
          (if 0 < c.active + c.below + c.notPlaced ∧ c.owed = c.active + c.below + c.notPlaced then .queueFull else .ok)
          (two c.active ++ two c.below ++ two c.notPlaced ++ two c.skipped ++ two c.owed)) ∧
    (∀ claim (c : ClaimCounts),
      (s.goDirectColour [] claim c).pump =
        s.pump.answered .ok (two c.active ++ two c.below ++ two c.notPlaced ++ two c.skipped)) ∧
    (∀ a b ms (c : ReleaseCounts),
      (s.goReleaseDirect [] a b ms c).pump = s.pump.answered .ok (two c.released ++ two c.nothing ++ two c.skipped)) ∧
    (∀ p (c : ClaimCounts),
      (s.goBindFollow [] p c).pump =
        s.pump.answered .ok (two c.active ++ two c.below ++ two c.notPlaced ++ two c.skipped ++ two c.owed)) ∧
    (∀ c : ReleaseCounts,
      (s.goUnbindFollow [] c).pump = s.pump.answered .ok (two c.released ++ two c.nothing ++ two c.skipped)) ∧
    (∀ c : HaltCounts,
      (s.goHalt [] c).pump = s.pump.answered .ok (two c.braking ++ two c.held ++ two c.skipped)) ∧
    (∀ q start n, (s.goPalette [] q start n).pump = s.pump.answered .ok (two start ++ two n)) ∧
    (∀ n fade c, (s.goReleaseList [] n fade c).pump = s.pump.answered .ok (two c)) ∧
    (s.finishStart false false false false).pump = s.pump.answered .ok [] ∧
    (s.finishStandby false false false []).pump = s.pump.answered .ok []

/-- What a claim does to an AIM or a COLOUR stack in order (R38 to R40): the claimant's old entry goes, the new one stands
above every entry of equal or lower priority and below every other, the fifth from the top is evicted, and a claim that
would itself be the fifth is not placed and changes nothing. The entries that left and then the entry that lost the top are
reported superseded when they owe a report, in that order; the new entry owes one when it is active and carries a tag. A
COLOUR claim that gives its stack a new top hands that top's target over with its own fade time, a release that uncovers one
hands it over with the release time, each with a tag only where a report is owed, and a release that empties the stack leaves
the engine without a target (R43, R44, R46); that a claim placed below hands over a top that it uncovers is log entry 9. A
release removes the source's entry from the one stack, reporting it superseded when it owes a report, and touches no other
stack; a source that holds no entry there changes nothing (R46). -/
def Obligations.StacksTakeAndGiveUpClaims : Prop :=
  (∀ (stack : List (Entry AimClaim)) (src prio : Nat) (body : AimClaim) (tag : Option LaunchTag),
    stackOk stack = true →
    stackOk (placeClaim stack src prio body tag).stack = true ∧
    ((placeClaim stack src prio body tag).answer = .notPlaced ↔
      (withoutSource src stack).length = 4 ∧ ∀ x ∈ stack, prio < x.prio) ∧
    ((placeClaim stack src prio body tag).answer = .notPlaced →
      (placeClaim stack src prio body tag).stack = stack ∧ (placeClaim stack src prio body tag).reports = []) ∧
    ((placeClaim stack src prio body tag).answer ≠ .notPlaced →
      (∃ e ∈ (placeClaim stack src prio body tag).stack,
        e.source = src ∧ e.prio = prio ∧ e.body = body ∧ e.tag = tag) ∧
      ((placeClaim stack src prio body tag).answer = .active ↔
        ∀ x ∈ stack, x.source ≠ src → x.prio ≤ prio) ∧
      ((placeClaim stack src prio body tag).stack.map fun e => e.source) =
        List.take 4
          (((withoutSource src stack).filter fun x => decide (prio < x.prio)).map (fun e => e.source) ++
            src :: ((withoutSource src stack).filter fun x => decide (x.prio ≤ prio)).map fun e => e.source)) ∧
    ∀ rest, rest = stack.filter (fun e => decide (e.source ≠ src)) →
      ((placeClaim stack src prio body tag).answer = .below →
        (placeClaim stack src prio body tag).stack =
          List.take 4
            ((rest.filter fun x => decide (prio < x.prio)) ++
              ⟨src, prio, body, tag, false⟩ :: rest.filter fun x => decide (x.prio ≤ prio)) ∧
        (placeClaim stack src prio body tag).reports =
          ((stack.filter fun e => decide (e.source = src)) ++ rest.drop 3).filterMap
            fun e => if e.owed = true then e.tag else none) ∧
      ((placeClaim stack src prio body tag).answer = .active →
        (stack.head?.any (fun e => decide (e.source = src)) = true →
          (placeClaim stack src prio body tag).stack = ⟨src, prio, body, tag, tag.isSome⟩ :: rest.take 3 ∧
          (placeClaim stack src prio body tag).reports =
            ((stack.filter fun e => decide (e.source = src)) ++ rest.drop 3).filterMap
              fun e => if e.owed = true then e.tag else none) ∧
        (stack.head?.any (fun e => decide (e.source = src)) = false →
          (placeClaim stack src prio body tag).stack =
            ⟨src, prio, body, tag, tag.isSome⟩ ::
              ((rest.take 1).map (fun e => { e with owed := false }) ++ (rest.drop 1).take 2) ∧
          (placeClaim stack src prio body tag).reports =
            ((stack.filter fun e => decide (e.source = src)) ++ rest.drop 3 ++ rest.take 1).filterMap
              fun e => if e.owed = true then e.tag else none))) ∧
  (∀ (stack : List (Entry ColourClaim)) (src prio : Nat) (body : ColourClaim) (tag : Option LaunchTag),
    stackOk stack = true →
    stackOk (placeClaim stack src prio body tag).stack = true ∧
    ((placeClaim stack src prio body tag).answer = .notPlaced ↔
      (withoutSource src stack).length = 4 ∧ ∀ x ∈ stack, prio < x.prio) ∧
    ((placeClaim stack src prio body tag).answer = .notPlaced →
      (placeClaim stack src prio body tag).stack = stack ∧ (placeClaim stack src prio body tag).reports = []) ∧
    ((placeClaim stack src prio body tag).answer ≠ .notPlaced →
      (∃ e ∈ (placeClaim stack src prio body tag).stack,
        e.source = src ∧ e.prio = prio ∧ e.body = body ∧ e.tag = tag) ∧
      ((placeClaim stack src prio body tag).answer = .active ↔
        ∀ x ∈ stack, x.source ≠ src → x.prio ≤ prio) ∧
      ((placeClaim stack src prio body tag).stack.map fun e => e.source) =
        List.take 4
          (((withoutSource src stack).filter fun x => decide (prio < x.prio)).map (fun e => e.source) ++
            src :: ((withoutSource src stack).filter fun x => decide (x.prio ≤ prio)).map fun e => e.source)) ∧
    ∀ rest, rest = stack.filter (fun e => decide (e.source ≠ src)) →
      ((placeClaim stack src prio body tag).answer = .below →
        (placeClaim stack src prio body tag).stack =
          List.take 4
            ((rest.filter fun x => decide (prio < x.prio)) ++
              ⟨src, prio, body, tag, false⟩ :: rest.filter fun x => decide (x.prio ≤ prio)) ∧
        (placeClaim stack src prio body tag).reports =
          ((stack.filter fun e => decide (e.source = src)) ++ rest.drop 3).filterMap
            fun e => if e.owed = true then e.tag else none) ∧
      ((placeClaim stack src prio body tag).answer = .active →
        (stack.head?.any (fun e => decide (e.source = src)) = true →
          (placeClaim stack src prio body tag).stack = ⟨src, prio, body, tag, tag.isSome⟩ :: rest.take 3 ∧
          (placeClaim stack src prio body tag).reports =
            ((stack.filter fun e => decide (e.source = src)) ++ rest.drop 3).filterMap
              fun e => if e.owed = true then e.tag else none) ∧
        (stack.head?.any (fun e => decide (e.source = src)) = false →
          (placeClaim stack src prio body tag).stack =
            ⟨src, prio, body, tag, tag.isSome⟩ ::
              ((rest.take 1).map (fun e => { e with owed := false }) ++ (rest.drop 1).take 2) ∧
          (placeClaim stack src prio body tag).reports =
            ((stack.filter fun e => decide (e.source = src)) ++ rest.drop 3 ++ rest.take 1).filterMap
              fun e => if e.owed = true then e.tag else none))) ∧
  (∀ (s u : State) (f src ms : Nat) (c : ColourClaim) (p : Placement ColourClaim),
    p = placeClaim (s.colourStack f) src (s.priority src) c none →
    u = (s.setColourStack f p.stack).withPlayback
      { s.playback with reports := s.playback.reports ++ p.reports.map fun tag => ⟨false, tag⟩ } →
    (p.newTop = false → s.claimColour f src c = (u, p.answer)) ∧
    (p.newTop = true → ∀ e es, p.stack = e :: es →
      s.claimColour f src c =
        (u.handColour f e.body.target e.body.ms (if e.owed = true then e.tag else none), p.answer)) ∧
    ∀ (rest : List (Entry ColourClaim)) (v : State),
      rest = (s.colourStack f).filter (fun e => decide (e.source ≠ src)) →
      v = (s.setColourStack f rest).withPlayback
        { s.playback with
          reports := s.playback.reports ++
            (((s.colourStack f).filterMap fun e => if e.source = src ∧ e.owed = true then e.tag else none).map fun tag =>
              ⟨false, tag⟩) } →
      holdsSource src (s.colourStack f) = true →
      (topIsSource src (s.colourStack f) = false → s.releaseColour f src ms = (v, true)) ∧
      (topIsSource src (s.colourStack f) = true →
        (∀ e es, rest = e :: es →
          s.releaseColour f src ms = (v.handColour f e.body.target ms (if e.owed = true then e.tag else none), true)) ∧
        (rest = [] → s.releaseColour f src ms = (v.handNoColour f, true)))) ∧
  ∀ (s : State) (f src ms : Nat),
    (holdsSource src (s.aimStack f) = false → s.releaseAim f src ms = (s, false)) ∧
    (holdsSource src (s.aimStack f) = true →
      (s.releaseAim f src ms).2 = true ∧
      ((s.releaseAim f src ms).1.aimStack f).map (fun e => (e.source, e.prio, e.body)) =
        ((s.aimStack f).filter fun e => decide (e.source ≠ src)).map (fun e => (e.source, e.prio, e.body)) ∧
      (s.playback.reports ++
          ((s.aimStack f).filterMap fun e => if e.source = src ∧ e.owed = true then e.tag else none).map fun g =>
            ⟨false, g⟩) <+: (s.releaseAim f src ms).1.playback.reports ∧
      (∀ g, g ≠ f → (s.releaseAim f src ms).1.aimStack g = s.aimStack g) ∧
      (∀ g, (s.releaseAim f src ms).1.colourStack g = s.colourStack g) ∧
      (∀ g, ((s.releaseAim f src ms).1.motionOf g).map (fun q => (q.pan, q.tilt)) =
        (s.motionOf g).map fun q => (q.pan, q.tilt)) ∧
      (s.releaseAim f src ms).1.rig = s.rig ∧ (s.releaseAim f src ms).1.points = s.points ∧
      (s.releaseAim f src ms).1.memory = s.memory ∧ (s.releaseAim f src ms).1.colour = s.colour ∧
      (s.releaseAim f src ms).1.lines = s.lines ∧ (s.releaseAim f src ms).1.beat = s.beat) ∧
    (holdsSource src (s.colourStack f) = false → s.releaseColour f src ms = (s, false)) ∧
    (holdsSource src (s.colourStack f) = true →
      (s.releaseColour f src ms).2 = true ∧
      ((s.releaseColour f src ms).1.colourStack f).map (fun e => (e.source, e.prio, e.body)) =
        ((s.colourStack f).filter fun e => decide (e.source ≠ src)).map (fun e => (e.source, e.prio, e.body)) ∧
      (s.playback.reports ++
          ((s.colourStack f).filterMap fun e => if e.source = src ∧ e.owed = true then e.tag else none).map fun g =>
            ⟨false, g⟩) <+: (s.releaseColour f src ms).1.playback.reports ∧
      (∀ g, g ≠ f → (s.releaseColour f src ms).1.colourStack g = s.colourStack g ∧
        (s.releaseColour f src ms).1.colourOf g = s.colourOf g) ∧
      (∀ g, (s.releaseColour f src ms).1.aimStack g = s.aimStack g) ∧
      (s.releaseColour f src ms).1.rig = s.rig ∧ (s.releaseColour f src ms).1.points = s.points ∧
      (s.releaseColour f src ms).1.memory = s.memory ∧ (s.releaseColour f src ms).1.motion = s.motion ∧
      (s.releaseColour f src ms).1.solver = s.solver ∧ (s.releaseColour f src ms).1.cache = s.cache ∧
      (s.releaseColour f src ms).1.beat = s.beat)

/-! ### Solve Queue, Solve Cache and the aim (chapters 4 and 5) -/

/-- A solve request is served by a cache hit, by coalescing, from the shared pool or from the reserve of its class, or is
rejected: the mark, SOLVE_REJECTED (R75, R77, R82 to R85, R93). A re-aim tells the motion record first (R99), and reaches
nothing while its point is UNSET (R22). The owed service takes the marks of a reserve's class, or of all classes for the
shared pool, in their order, until a request takes a slot (R87, R88). FLUSH_CACHE invalidates every entry, sets the pointer
to 0 and answers with the number that were valid (R79, R80); JOB_START makes the front job SOLVING with its snapshot, which
holds the point's position and generation, the fixture's position, yaw, mounting and pose generation, and its truss's offset
(R56, R89). JOB_COMPLETION (R90, R91): with a generation changed the
result is discarded and RESULT_DISCARDED raised; with both unchanged it fills the cache, and is delivered when the fixture
is still aimed at the point; then the slot is freed and served. -/
def Obligations.SolverRunsJobs : Prop :=
  (∀ s : State,
    (s.handed .flushCache = true →
      ∃ t : State, exec .flushCache s = .next (t.answered .ok [BitVec.ofNat 8 s.validEntries]) ∧
        t = s.withCache t.cache ∧ t.cache.pointer = 0 ∧
        ∀ i < 32, t.cacheEntry i = { s.cacheEntry i with valid := false }) ∧
    (∀ j js, s.resetting = none → s.solver.solving = none → s.solver.queued = j :: js →
      exec .jobStart s = .next (s.withSolver ⟨js, some (j, s.snapshot j), s.solver.owed⟩).pump) ∧
    (∀ j p pos, s.patchOf j.fixture = some p → (s.point j.point).pos = some pos →
      s.snapshot j =
        { target := pos, pointGen := (s.point j.point).gen, pos := p.pos, yaw := p.yaw, mounting := p.mounting,
          truss := s.trussOffset p.truss, poseGen := (s.fixture j.fixture).gen })) ∧
  ∀ (s : State) (j : Job) (g : Snapshot), s.resetting = none → s.solver.solving = some (j, g) →
    (g.pointGen ≠ (s.point j.point).gen ∨ g.poseGen ≠ (s.fixture j.fixture).gen →
      exec .jobCompletion s = .next
        (((s.raise .resultDiscarded (some j.cls) 1).withSolver
          ⟨s.solver.queued, none, s.solver.owed⟩).owedService j.pool).pump) ∧
    (g.pointGen = (s.point j.point).gen → g.poseGen = (s.fixture j.fixture).gen →
      ∃ t : State, exec .jobCompletion s = .next
          ((t.withSolver ⟨s.solver.queued, none, s.solver.owed⟩).owedService j.pool).pump ∧
        (∀ i, s.cacheFind j.fixture j.point = some i →
          t.cacheEntry i = ⟨true, j.fixture, j.point, g.solve⟩ ∧ t.cache.pointer = s.cache.pointer) ∧
        (s.cacheFind j.fixture j.point = none →
          t.cacheEntry s.cache.pointer = ⟨true, j.fixture, j.point, g.solve⟩ ∧
          t.cache.pointer = if s.cache.pointer = 31 then 0 else s.cache.pointer + 1) ∧
        (s.aimedAt j.fixture ≠ some j.point → t = s.withCache t.cache) ∧
        (s.aimedAt j.fixture = some j.point → ∀ m k, s.motionOf j.fixture = some m → s.profileOf j.fixture = some k →
          t.motionOf j.fixture = some (m.deliver k s.motionStepping g.solve).after)) ∧
  (∀ (s : State) (f p : Nat) (c : Cls),
    (∀ i, s.cacheFind f p = some i →
      i < 32 ∧ (s.cacheEntry i).valid = true ∧ (s.cacheEntry i).fixture = f ∧ (s.cacheEntry i).point = p ∧
      ∃ u : State, s.request f p c = (u.deliver f (s.cacheEntry i).result, .hit) ∧
        u = ((s.raise .cacheHit (some c) 1).withSolver ⟨s.solver.queued, s.solver.solving, u.solver.owed⟩).withCache
          ⟨s.cache.entries,
            if s.cache.pointer = i then (if i = 31 then 0 else i + 1) else s.cache.pointer⟩ ∧
        ∀ g, u.owedMark g = if g = f then none else s.owedMark g) ∧
    (s.cacheFind f p = none →
      (∀ i < 32, (s.cacheEntry i).valid = true → (s.cacheEntry i).fixture = f → (s.cacheEntry i).point ≠ p) ∧
      ((∃ j ∈ s.solver.queued, j.fixture = f) →
        ∃ u : State, s.request f p c = (u.raise .queueOccupancy (some c) s.solver.jobs.length, .queued) ∧
          u = (s.raise .cacheMiss (some c) 1).withSolver
            ⟨s.solver.queued.map fun j => if j.fixture = f then { j with point := p, cls := c } else j,
              s.solver.solving, u.solver.owed⟩ ∧
          ∀ g, u.owedMark g = if g = f then none else s.owedMark g) ∧
      ((∀ j ∈ s.solver.queued, j.fixture ≠ f) →
        (∀ pool, (pool = .shared ∧ s.solver.used .shared < 24) ∨
            (pool = .reserve c ∧ 24 ≤ s.solver.used .shared ∧ s.solver.used (.reserve c) < 2) →
          ∃ u : State,
            s.request f p c =
              ((u.raise (if pool = .shared then .jobShared else .jobReserved) (some c) 1).raise .queueOccupancy (some c)
                (s.solver.jobs.length + 1), .queued) ∧
            u = (s.raise .cacheMiss (some c) 1).withSolver
              ⟨s.solver.queued ++ [⟨f, p, c, pool⟩], s.solver.solving, u.solver.owed⟩ ∧
            ∀ g, u.owedMark g = if g = f then none else s.owedMark g) ∧
        (24 ≤ s.solver.used .shared → 2 ≤ s.solver.used (.reserve c) →
          ∃ u : State,
            s.request f p c = (u.raise .queueOccupancy (some c) s.solver.jobs.length, .owed) ∧
            u = ((((s.raise .cacheMiss (some c) 1).raise .jobRejected (some c) 1).withSolver
              ⟨s.solver.queued, s.solver.solving, u.solver.owed⟩).withNotices
                { s.link.notices with solveRejected := some ⟨f, c⟩ }) ∧
            ∀ g, u.owedMark g = if g = f then some c else s.owedMark g)))) ∧
  (∀ (s : State) (f p : Nat) (law : Law) (c : Cls),
    ((s.point p).pos = none → s.reaim f p law c = (s, false)) ∧
    ((s.point p).pos.isSome = true →
      ∃ v : State, s.reaim f p law c = ((v.request f p c).1, true) ∧ v = s.withMotion v.motion ∧
        (∀ g, g ≠ f → v.motionOf g = s.motionOf g) ∧
        ∀ m k, s.motionOf f = some m → s.profileOf f = some k →
          v.motionOf f =
            some (if m.awaiting = true then m else { m with awaiting := true, pendLaw := law, pendMs := 0 })) ∧
    (∀ e es, s.aimStack f = e :: es →
      (∀ q, e.body.target = .point q → s.reaimLaw f = e.body.law) ∧
      (∀ cen pa ta lm n, e.body.target = .sweep cen pa ta lm n → s.reaimLaw f = .timed))) ∧
  (∀ (s : State) (c : Cls),
    s.owedService (.reserve c) =
      (s.serveMarks ((List.range 256).filter fun f => decide (s.owedMark f = some c))).1 ∧
    s.owedService .shared =
      (s.serveMarks ([Cls.cue, .direct, .rig, .track].flatMap fun d =>
        (List.range 256).filter fun f => decide (s.owedMark f = some d))).1) ∧
  ∀ (s : State) (f : Nat) (fs : List Nat),
    s.serveMarks [] = (s, false) ∧ (s.owedMark f = none → s.serveMarks (f :: fs) = s.serveMarks fs) ∧
    ∀ c, s.owedMark f = some c →
      (∀ p, s.aimedAt f = some p → (s.point p).pos.isSome = true →
        ((s.request f p c).2 = .hit → s.serveMarks (f :: fs) = (s.request f p c).1.serveMarks fs) ∧
        ((s.request f p c).2 ≠ .hit → s.serveMarks (f :: fs) = ((s.request f p c).1, true))) ∧
      (∀ p, s.aimedAt f = some p → (s.point p).pos = none →
        s.serveMarks (f :: fs) = (s.setOwed f none).serveMarks fs) ∧
      (s.aimedAt f = none → s.serveMarks (f :: fs) = (s.setOwed f none).serveMarks fs)

/-- A solve's result, for any geometry: pan 0 to 35,999, tilt 0 to 18,000, DEGENERATE exactly when target and fixture
coincide after rotation, and AXIAL results only straight up or straight down (R61 to R64). The difference is taken axis by
axis (R57), turned by the yaw's coefficients with round half up (R58, R59) and by the mounting (R60). An angle of the first
quadrant is the whole centidegree whose half marks enclose the squared tangent, and pan and tilt follow from it by the signs
(R62, R63). Sine and cosine are the model's, of 200 fraction bits (log entry 8); the coefficients that R58 lists come out of
them. -/
def Obligations.SolveResultsLieInRange : Prop :=
  (∀ e ∈ ([(0, 16384, 0), (100, 16382, 286), (3000, 14189, 8192), (4500, 11585, 11585), (9000, 0, 16384),
      (13500, -11585, 11585), (18000, -16384, 0), (27000, 0, -16384)] : List (Nat × Int × Int)),
    yawCoefficients e.1 = e.2) ∧
  (∀ (yaw : Nat) (c q : Int), yaw < 9000 → c = ((16384 * scaledCos yaw 1 + 2 ^ 199) / 2 ^ 200 : Nat) →
    q = ((16384 * scaledSin yaw 1 + 2 ^ 199) / 2 ^ 200 : Nat) →
    yawCoefficients yaw = (c, q) ∧ yawCoefficients (yaw + 9000) = (-q, c) ∧ yawCoefficients (yaw + 18000) = (-c, -q) ∧
      yawCoefficients (yaw + 27000) = (q, -c)) ∧
  (∀ (g : Snapshot) (c q u v : Int) (d : Pos), yawCoefficients g.yaw = (c, q) →
    d = ⟨g.target.x - (g.truss.x + g.pos.x), g.target.y - (g.truss.y + g.pos.y), g.target.z - (g.truss.z + g.pos.z)⟩ →
    u = (2 * (d.x * c + d.y * q) + 16384) / 32768 → v = (2 * (-(d.x * q) + d.y * c) + 16384) / 32768 →
    (g.mounting = .standing → g.frame = ⟨u, v, d.z⟩) ∧ (g.mounting = .hung → g.frame = ⟨u, -v, -d.z⟩)) ∧
  (∀ opp adj q : Nat, q = quadrantAngle opp adj →
    q ≤ 9000 ∧ (0 < q → adj * scaledSin (2 * q - 1) 2 ^ 2 < opp * scaledCos (2 * q - 1) 2 ^ 2) ∧
      (q < 9000 → opp * scaledCos (2 * q + 1) 2 ^ 2 ≤ adj * scaledSin (2 * q + 1) 2 ^ 2)) ∧
  (∀ (u v w : Int) (p t : Nat), p = quadrantAngle (v.natAbs ^ 2) (u.natAbs ^ 2) →
    t = quadrantAngle (u.natAbs ^ 2 + v.natAbs ^ 2) (w.natAbs ^ 2) →
    (0 ≤ u → 0 ≤ v → panAngle u v = p) ∧ (u < 0 → 0 ≤ v → panAngle u v = 18000 - p) ∧
      (u < 0 → v < 0 → panAngle u v = 18000 + p) ∧ (0 ≤ u → v < 0 → panAngle u v = (36000 - p) % 36000) ∧
      (0 ≤ w → tiltAngle u v w = t) ∧ (w < 0 → tiltAngle u v w = 18000 - t)) ∧
  ∀ g : Snapshot,
    (g.frame.x ≠ 0 ∨ g.frame.y ≠ 0 →
      g.solve = ⟨panAngle g.frame.x g.frame.y, tiltAngle g.frame.x g.frame.y g.frame.z, false, false⟩) ∧
    (g.frame = ⟨0, 0, 0⟩ → g.solve = ⟨0, 0, true, false⟩) ∧
    g.solve.phi ≤ 35999 ∧ g.solve.theta ≤ 18000 ∧
    (g.solve.degenerate = true ↔ g.frame = ⟨0, 0, 0⟩) ∧
    (g.solve.axial = true ↔ g.frame.x = 0 ∧ g.frame.y = 0 ∧ g.frame.z ≠ 0) ∧
    (g.solve.axial = true → g.solve.phi = 0 ∧ g.solve.theta = if 0 < g.frame.z then 0 else 18000)

/-- Every result but a DEGENERATE one gives an aim; the aim lies in the kind's ranges, is one of the candidates, and no
candidate has a smaller clamp amount, nor an equal one at a smaller cost, nor both equal in branch A before branch B, nor
those equal at a smaller pan (R65 to R69). The present position in whole centidegrees (R65). The candidates of a plain
result: both branches at every whole turn whose pan lies in range (R66); of an AXIAL one: the present pan, and half a turn to
either side when the tilt is not 0 (R67). The clamp amount is the distance to the nearer tilt limit, and the cost the pan's
and the clamped tilt's distance from the present position (R68, R69). -/
def Obligations.SelectedAimsLieInRange : Prop :=
  (∀ mu : Int, toCd mu = (2 * mu + 16) / 32) ∧
  (∀ (k : Profile) (present : Int) (r : SolveResult), k.rangesOk → r.phi ≤ 35999 →
    (r.degenerate = true → candidates k present r = []) ∧
    (r.degenerate = false → r.axial = false → ∀ c, c ∈ candidates k present r ↔
      k.panMin ≤ c.pan ∧ c.pan ≤ k.panMax ∧
        ∃ turn : Int,
          (c.branchB = false ∧ c.pan = r.phi + turn * 36000 ∧ c.tilt = r.theta) ∨
            (c.branchB = true ∧ c.pan = r.phi + 18000 + turn * 36000 ∧ c.tilt = -(r.theta : Int))) ∧
    (r.degenerate = false → r.axial = true → ∀ c, c ∈ candidates k present r ↔
      (c.branchB = false ∧ c.pan = present ∧ c.tilt = r.theta) ∨
        (r.theta ≠ 0 ∧ k.panMin ≤ c.pan ∧ c.pan ≤ k.panMax ∧ c.branchB = true ∧
          (c.pan = present + 18000 ∨ c.pan = present - 18000) ∧ c.tilt = -(r.theta : Int)))) ∧
  (∀ (k : Profile) (pan tilt : Int) (c : Candidate), k.rangesOk →
    ∀ t : Int, t = max k.tiltMin (min k.tiltMax c.tilt) →
      scoreCandidate k pan tilt c =
        ⟨(t - c.tilt).natAbs, (c.pan - pan).natAbs + (t - tilt).natAbs, c.branchB, c.pan, t⟩) ∧
  ∀ (k : Profile) (pan tilt : Int) (r : SolveResult), k.rangesOk → k.holds pan tilt → r.phi ≤ 35999 →
    (r.degenerate = true → selectAim k pan tilt r = none) ∧
    (r.degenerate = false →
      ∃ c, selectAim k pan tilt r = some c ∧ k.panMin ≤ c.pan ∧ c.pan ≤ k.panMax ∧ k.tiltMin ≤ c.tilt ∧
        c.tilt ≤ k.tiltMax ∧
        c ∈ (candidates k (toCd pan) r).map (scoreCandidate k (toCd pan) (toCd tilt)) ∧
        ∀ d ∈ (candidates k (toCd pan) r).map (scoreCandidate k (toCd pan) (toCd tilt)),
          c.clamp < d.clamp ∨ (c.clamp = d.clamp ∧
            (c.cost < d.cost ∨ (c.cost = d.cost ∧
              ((c.branchB = false ∧ d.branchB = true) ∨ (c.branchB = d.branchB ∧ c.pan ≤ d.pan))))))

/-! ### Motion (chapter 6) -/

/-- A MOTION_STEP moves one record by one step under its law, inside its kind's ranges, and writes the fixture's pan and
tilt slots as one write exactly when the position changes; every other record and slot stays (R97, R108, R188). The laws:
a TIMED plan's step and end (R105), a CHASE's velocity, position and snap (R106, R107), the phases of a sweep (R109 to
R111), braking to rest (R113), and the range clamp (R108). With the passing of a microsecond the step timer, once its
period of 4 ms is over, is reloaded at its deadline and every record that is not HELD is due a step (R97; log entry 19); the
timer runs while the part is LIVE and STOP, as the engine has taken it, is low or a record is BRAKING, and it begins a full
period when it starts (R97). The pan and tilt slot values: the 16-bit count of the position across the kind's range (R72),
inverted by its flag (R73), and split into coarse and fine, or a rounded coarse value alone (R74); the values of a whole
footprint are zeros with the aim, the outputs and the passthrough values over them (R7, R189). That time is counted in
microseconds is the model's choice (log entry 2). -/
def Obligations.MotionStepMovesOneRecord : Prop :=
  (∀ s t : State, s.tick = t →
    t = ((s.withNow (s.now + 1)).withMotion t.motion).withColour t.colour ∧
    (s.motion.timer = none → t.motion = s.motion) ∧
    ∀ e, s.motion.timer = some e →
      (s.now + 1 < e → t.motion = s.motion) ∧
      (e ≤ s.now + 1 →
        t.motion = { s.motion with timer := some (e + 4000), due := t.motion.due } ∧
        ∀ f, f ∈ t.motion.due ↔ ∃ m : Motion, (f, some m) ∈ s.motion.records ∧ m.mode ≠ .held)) ∧
  (∀ (s : State) (runs : Prop),
    (runs ↔ s.part = .live ∧ (s.motion.stopSeen = false ∨
      ∃ (f : Nat) (m : Motion), (f, some m) ∈ s.motion.records ∧ m.mode = .braking)) →
    (runs → s.syncStepTimer = s.withMotion
      { s.motion with timer := some (s.motion.timer.getD (s.now + 4000)) }) ∧
    (¬runs → s.syncStepTimer = s.withMotion { s.motion with timer := none, due := [] })) ∧
  (∀ (s : State) (f : Nat) (m : Motion) (k : Profile) (p : Patch), s.resetting = none → f ∈ s.motion.due →
    s.motionOf f = some m → s.profileOf f = some k → s.patchOf f = some p →
    ∃ t : State, exec (.motionStep f) s = .next t.pump ∧
      t = ((((s.withMotion t.motion).withClaims t.claims).withPlayback t.playback)).withLines t.lines ∧
      t.motionOf f = some (m.step k).after ∧ (∀ g, g ≠ f → t.motionOf g = s.motionOf g) ∧
      (k.rangesOk → k.holds m.pan m.tilt → k.holds m.tgtPan m.tgtTilt →
        k.holds (m.step k).after.pan (m.step k).after.tilt) ∧
      ((m.step k).after.pan = m.pan ∧ (m.step k).after.tilt = m.tilt → t.lines = s.lines) ∧
      ((m.step k).after.pan ≠ m.pan ∨ (m.step k).after.tilt ≠ m.tilt →
        t.lines = (s.setLine p.line
          { s.line p.line with
            buffer := Store.setAll 0 (s.line p.line).buffer
              ((aimSlots k p (m.step k).after.pan (m.step k).after.tilt).map fun w =>
                (p.base + w.1, BitVec.ofNat 8 w.2)) }).lines)) ∧
  (∀ (k : Profile) (p : Patch) (pan tilt spanPan spanTilt : Int) (a b : Nat), k.rangesOk → k.holds pan tilt →
    spanPan = (k.panMax - k.panMin) * 16 → spanTilt = (k.tiltMax - k.tiltMin) * 16 →
    (a : Int) = ((pan - k.panMin * 16) * 65535 + spanPan / 2) / spanPan →
    (b : Int) = ((tilt - k.tiltMin * 16) * 65535 + spanTilt / 2) / spanTilt →
    a ≤ 65535 ∧ b ≤ 65535 ∧ (∀ w ∈ aimSlots k p pan tilt, w.2 ≤ 255) ∧
    (∀ c d, c = (if p.panInvert = true then 65535 - a else a) → d = (if p.tiltInvert = true then 65535 - b else b) →
      aimSlots k p pan tilt =
        (match k.panFine with
          | some f => [(k.panCoarse, c / 256), (f, c % 256)]
          | none => [(k.panCoarse, Nat.min 255 ((c + 128) / 256))]) ++
        match k.tiltFine with
          | some f => [(k.tiltCoarse, d / 256), (f, d % 256)]
          | none => [(k.tiltCoarse, Nat.min 255 ((d + 128) / 256))]) ∧
    ∀ outs, footprintSlots k p pan tilt outs =
      ((List.range k.footprint).map fun o => (o, 0)) ++ aimSlots k p pan tilt ++ colourSlots k outs ++
        k.pass.zip p.pass) ∧
  (∀ (lo hi pos vel : Int), lo ≤ hi →
    (pos < lo * 16 → rangeClamp lo hi pos vel = (lo * 16, 0)) ∧ (hi * 16 < pos → rangeClamp lo hi pos vel = (hi * 16, 0)) ∧
    (lo * 16 ≤ pos → pos ≤ hi * 16 → rangeClamp lo hi pos vel = (pos, vel))) ∧
  (∀ (lo hi : Int) (vmax amax gain : Nat) (target pos vel : Int),
    ∃ (root : Nat) (want v : Int) (r : Int × Int),
      root ^ 2 ≤ 2 * amax * (target - pos).natAbs ∧ 2 * amax * (target - pos).natAbs < (root + 1) ^ 2 ∧
      want = (target - pos).sign * (Nat.min vmax (Nat.min ((target - pos).natAbs * gain / 256) root) : Nat) ∧
      v = vel + max (-(amax : Int)) (min amax (want - vel)) ∧ r = rangeClamp lo hi (pos + v) v ∧
      chaseAxis lo hi vmax amax gain target pos vel =
        if (target - r.1).natAbs ≤ amax ∧ r.2.natAbs ≤ amax then (target, 0, true) else (r.1, r.2, false)) ∧
  (∀ (lo hi : Int) (amax : Nat) (pos vel v : Int), v = vel - max (-(amax : Int)) (min amax vel) →
    brakeAxis lo hi amax pos vel = rangeClamp lo hi (pos + v) v) ∧
  ∀ (k : Profile) (m : Motion), k.rangesOk →
    (m.mode = .held → m.step k = ⟨m, none, false, false⟩) ∧
    (∀ q pan tilt, m.plan = some q → pan = planPosition q.startPan q.dPan (planFraction q.n (q.k + 1)) →
      tilt = planPosition q.startTilt q.dTilt (planFraction q.n (q.k + 1)) → k.holds pan tilt →
      (m.mode = .timed →
        (q.k + 1 < q.n → m.step k =
          ⟨{ m with
              pan := pan, tilt := tilt, vPan := pan - m.pan, vTilt := tilt - m.tilt
              plan := some { q with k := q.k + 1 } }, none, false, false⟩) ∧
        (q.n ≤ q.k + 1 → m.step k =
          ⟨{ m with
              pan := pan, tilt := tilt, vPan := 0, vTilt := 0, mode := .held, plan := none
              tag := if m.awaiting = true then m.tag else none },
            if m.awaiting = true then none else m.tag, false, false⟩)) ∧
      ∀ w, m.mode = .sweep → m.sweep = some w →
        (q.k + 1 < q.n → m.step k =
          ⟨{ m with
              pan := pan, tilt := tilt, vPan := pan - m.pan, vTilt := tilt - m.tilt
              plan := some { q with k := q.k + 1 } }, none, false, false⟩) ∧
        ∀ h : Motion, q.n ≤ q.k + 1 →
          h = { m with pan := pan, tilt := tilt, vPan := 0, vTilt := 0, plan := some { q with k := q.k + 1 } } →
          (w.phase = .toA →
            m.step k =
              if w.endless = true ∧ m.awaiting = false then
                ⟨{ h.startLeg k w with tag := none }, m.tag, false, false⟩
              else ⟨h.startLeg k w, none, false, false⟩) ∧
          (w.phase = .leg →
            m.step k =
              ⟨if w.endless = true then h.startLeg k w
                else if w.legsLeft ≤ 1 then h.toCentre k { w with legsLeft := 0 } w.legMs
                else h.startLeg k { w with legsLeft := w.legsLeft - 1 }, none, false, false⟩) ∧
          (w.phase = .toCentre →
            (w.centrePan = pan ∧ w.centreTilt = tilt →
              m.step k =
                ⟨{ h with
                    mode := .held, plan := none, sweep := some { w with phase := .done }
                    tag := if m.awaiting = true then m.tag else none },
                  if m.awaiting = true then none else m.tag, false, false⟩) ∧
            (w.centrePan ≠ pan ∨ w.centreTilt ≠ tilt →
              m.step k = ⟨h.toCentre k w w.legMs, none, false, false⟩))) ∧
    (∀ (w e : Sweep) ms,
      e = { w with
        aPan := max (k.panMin * 16) (min (k.panMax * 16) (w.centrePan + w.panAmp * 16))
        aTilt := max (k.tiltMin * 16) (min (k.tiltMax * 16) (w.centreTilt + w.tiltAmp * 16))
        bPan := max (k.panMin * 16) (min (k.panMax * 16) (w.centrePan - w.panAmp * 16))
        bTilt := max (k.tiltMin * 16) (min (k.tiltMax * 16) (w.centreTilt - w.tiltAmp * 16)) } →
      m.startLeg k w =
        { m with
          mode := .sweep, vPan := 0, vTilt := 0, sweep := some { e with phase := .leg, nextToB := !w.nextToB }
          plan := some (if w.nextToB = true then makePlan k m e.bPan e.bTilt w.legMs 1
            else makePlan k m e.aPan e.aTilt w.legMs 1)
          limited := if w.nextToB = true then planLimited k m e.bPan e.bTilt w.legMs
            else planLimited k m e.aPan e.aTilt w.legMs } ∧
      m.toCentre k w ms =
        { m with
          mode := .sweep, vPan := 0, vTilt := 0, sweep := some { w with phase := .toCentre }
          plan := some (makePlan k m w.centrePan w.centreTilt ms 1)
          limited := planLimited k m w.centrePan w.centreTilt ms }) ∧
    (∀ a b, a = chaseAxis k.panMin k.panMax k.vmaxPan k.amaxPan k.gain m.tgtPan m.pan m.vPan →
      b = chaseAxis k.tiltMin k.tiltMax k.vmaxTilt k.amaxTilt k.gain m.tgtTilt m.tilt m.vTilt → m.mode = .chase →
      m.step k =
        if a.2.2 = true ∧ b.2.2 = true then
          ⟨{ m with
              pan := m.tgtPan, tilt := m.tgtTilt, vPan := 0, vTilt := 0, mode := .held
              tag := if m.awaiting = true then m.tag else none },
            if m.awaiting = true then none else m.tag, false, false⟩
        else ⟨{ m with pan := a.1, tilt := b.1, vPan := a.2.1, vTilt := b.2.1 }, none, false, false⟩) ∧
    ∀ a b, a = brakeAxis k.panMin k.panMax k.amaxPan m.pan m.vPan →
      b = brakeAxis k.tiltMin k.tiltMax k.amaxTilt m.tilt m.vTilt → m.mode = .braking →
      m.step k =
        if a.2 = 0 ∧ b.2 = 0 then
          ⟨{ m with
              pan := a.1, tilt := b.1, vPan := 0, vTilt := 0, mode := .held, brake := none
              tag := if m.brake = some .halt then none else m.tag },
            if m.brake = some .halt then m.tag else none, false, false⟩
        else ⟨{ m with pan := a.1, tilt := b.1, vPan := a.2, vTilt := b.2 }, none, false, false⟩

/-- A plan runs from the present position over the distances to its target in N steps, N the greatest of the requested
steps, the four counts of the limits and the least count asked for; LIMITED says that the limits exceed the requested steps
(R103, R104). It starts on its start, ends on its target, never turns back and never leaves the segment between them
(R105); its step counts are the least that the speed and acceleration limits allow (R104). That a sweep phase of no
distance and no requested steps clears LIMITED is the model's reading (log entry 39). -/
def Obligations.PlansReachTheirTargets : Prop :=
  (∀ n, 0 < n → planFraction n 0 = 0 ∧ planFraction n n = 65536 ∧
    ∀ i j, i ≤ j → j ≤ n → planFraction n i ≤ planFraction n j) ∧
  (∀ start d : Int, planPosition start d 0 = start ∧ planPosition start d 65536 = start + d ∧
    ∀ f, f ≤ 65536 → min start (start + d) ≤ planPosition start d f ∧ planPosition start d f ≤ max start (start + d)) ∧
  (∀ d v, 0 < v → 3 * d ≤ speedSteps d v * (2 * v) ∧ ∀ n, 3 * d ≤ n * (2 * v) → speedSteps d v ≤ n) ∧
  (∀ d a, 0 < a → 6 * d ≤ accelSteps d a ^ 2 * a ∧ ∀ n, 6 * d ≤ n ^ 2 * a → accelSteps d a ≤ n) ∧
  (∀ ms, requestedSteps ms ≤ 32767 ∧ (ms ≤ 131069 → requestedSteps ms = (ms + 2) / 4)) ∧
  (∀ n k, planFraction n k = ((3 * k ^ 2 * n - 2 * k ^ 3) * 65536 + n ^ 3 / 2) / n ^ 3) ∧
  (∀ (start d : Int) (f : Nat), planPosition start d f = start + (d * f + 32768) / 65536) ∧
  ∀ (k : Profile) (m : Motion) (pan tilt : Int) (ms least : Nat) (counts : List Nat),
    counts = [speedSteps (pan - m.pan).natAbs k.vmaxPan, accelSteps (pan - m.pan).natAbs k.amaxPan,
      speedSteps (tilt - m.tilt).natAbs k.vmaxTilt, accelSteps (tilt - m.tilt).natAbs k.amaxTilt] →
    (planLimited k m pan tilt ms = true ↔ ∃ n ∈ counts, requestedSteps ms < n) ∧
    ∃ n, makePlan k m pan tilt ms least = ⟨m.pan, m.tilt, pan - m.pan, tilt - m.tilt, n, 0⟩ ∧
      n ∈ least :: requestedSteps ms :: counts ∧ ∀ i ∈ least :: requestedSteps ms :: counts, i ≤ n

/-! ### Colour (chapter 7) -/

/-- A FADE_STEP takes one record one step along its fade and writes its colour slots as one write exactly when an output
changes; every other record stays (R123, R135). With the passing of a microsecond the fade timer, once its period of 8 ms is
over, is reloaded at its deadline and every FADING record is due a step (R123; log entries 2 and 19). -/
def Obligations.FadeStepMovesOneRecord : Prop :=
  (∀ s t : State, s.tick = t →
    t = ((s.withNow (s.now + 1)).withMotion t.motion).withColour t.colour ∧
    (s.colour.timer = none → t.colour = s.colour) ∧
    ∀ e, s.colour.timer = some e →
      (s.now + 1 < e → t.colour = s.colour) ∧
      (e ≤ s.now + 1 →
        t.colour = { s.colour with timer := some (e + 8000), due := t.colour.due } ∧
        ∀ f, f ∈ t.colour.due ↔ ∃ c : Colour, (f, some c) ∈ s.colour.records ∧ c.fade.isSome = true)) ∧
  ∀ (s : State) (f : Nat) (c : Colour) (k : Profile) (p : Patch), s.resetting = none → f ∈ s.colour.due →
    s.colourOf f = some c → s.profileOf f = some k → s.patchOf f = some p →
    ∃ t : State, exec (.fadeStep f) s = .next t.pump ∧
      t = ((((s.withColour t.colour).withClaims t.claims).withPlayback t.playback)).withLines t.lines ∧
      (∀ g, g ≠ f → t.colourOf g = s.colourOf g) ∧ t.colour.due = s.colour.due.erase f ∧
      (c.fade = none → t.colourOf f = some c ∧ t.lines = s.lines) ∧
      (∀ d, c.fade = some d → d.steps ≤ d.k + 1 →
        t.colourOf f = some { c with outputs := d.target, fade := none, tag := none } ∧
        (∀ g, c.tag = some g → t.playback.reports = s.playback.reports ++ [⟨true, g⟩]) ∧
        (d.target = c.outputs → t.lines = s.lines)) ∧
      (∀ d, c.fade = some d → d.k + 1 < d.steps →
        t.colourOf f = some
          { c with outputs := fadeValues (d.k + 1) d.steps d.start d.target, fade := some { d with k := d.k + 1 } } ∧
        t.playback = s.playback ∧ t.claims = s.claims ∧
        (fadeValues (d.k + 1) d.steps d.start d.target = c.outputs → t.lines = s.lines)) ∧
      ∀ q, t.colourOf f = some q → q.outputs ≠ c.outputs →
        t.lines = (s.setLine p.line
          { s.line p.line with
            buffer := Store.setAll 0 (s.line p.line).buffer
              ((colourSlots k q.outputs).map fun w => (p.base + w.1, BitVec.ofNat 8 w.2)) }).lines

/-- A fading output stays between its start and its target, at start + (target - start) × k / F truncated toward zero, and
ends on the target (R135); the emitter solve gives one output
from 0 to 65,535 for each emitter, and full ones for the clamped (R133). Its values: the pair that covers the hue with its
fractions (R130), the larger of them brought to full (R131), the white amount (R132), gain, trim and output (R133); the wheel match takes the position of least
score, the first among equals (R134). What a target resolves to (R127 to R129). What a COLOUR hand-over does to record, tag,
slots and notices: an ineffective target settles at once, a wheel position is snapped and written at once, emitter values
start a fade, and a record that is not stepping only stores (R124 to R126, R134); the same for the update of a stored
palette, which keeps the tag (R136), and for a record whose stepping resumes (R140). That an ineffective target found at a
palette store settles is the model's choice (log entry 40). The colour slot values: each emitter's output split into coarse
and fine, or a rounded coarse value alone, the wheel value unchanged at the wheel role, none for a kind of model NONE
(R189). -/
def Obligations.ColourValuesLieInRange : Prop :=
  (∀ (k : Profile) (outs : List Nat),
    (k.model = .none → colourSlots k outs = []) ∧
    (∀ l role v, k.model = .wheel l role → outs = [v] → colourSlots k outs = [(role, v)]) ∧
    ∀ es, k.model = .emitter es →
      (colourSlots k outs = (es.zip outs).flatMap fun x =>
        match x.1.fine with
        | some f => [(x.1.coarse, x.2 / 256), (f, x.2 % 256)]
        | none => [(x.1.coarse, Nat.min 255 ((x.2 + 128) / 256))]) ∧
      ((∀ v ∈ outs, v ≤ 65535) → ∀ w ∈ colourSlots k outs, w.2 ≤ 255)) ∧
  (∀ a b k n, 0 < n → k ≤ n →
    Nat.min a b ≤ fadeValue a b k n ∧ fadeValue a b k n ≤ Nat.max a b ∧ fadeValue a b n n = b ∧
    (fadeValue a b k n : Int) = a + (((b : Int) - a) * k).tdiv n) ∧
  (∀ es trims h sat,
    (emitterSolve es trims h sat).1.length = es.length ∧ (∀ v ∈ (emitterSolve es trims h sat).1, v ≤ 65535) ∧
    ∀ i ∈ (emitterSolve es trims h sat).2, (emitterSolve es trims h sat).1[i]? = some 65535) ∧
  (∀ (es : List Emitter) (trims : List Nat) (h sat : Nat) (hued : List (Nat × Nat)),
    hued = (es.zipIdx.filterMap fun x => x.1.hue.map fun hue => (x.2, hue)) → hued ≠ [] →
    ∃ lower upper arc offset : Nat,
      ((∃ k a b, hued[k]? = some (lower, a) ∧ hued[k + 1]? = some (upper, b) ∧ a ≤ h ∧ h < b ∧ arc = b - a ∧
          offset = h - a) ∨
        ((∀ (k : Nat) x y, hued[k]? = some x → hued[k + 1]? = some y → h < x.2 ∨ y.2 ≤ h) ∧
          ∃ a b, hued.head? = some (upper, a) ∧ hued.getLast? = some (lower, b) ∧ arc = a + 3600 - b ∧
            offset = (h + 3600 - b) % 3600)) ∧
      ∀ (i : Nat) (e : Emitter) (fi fj m l w v a b : Nat), es[i]? = some e →
        fj = (offset * 4096 + arc / 2) / arc → fi = 4096 - fj → m = Nat.max fi fj →
        l = (if i = lower then (fi * 4096 + m / 2) / m else if i = upper then (fj * 4096 + m / 2) / m else 0) →
        w = ((1000 - sat) * 4096 + 500) / 1000 →
        v = (if e.hue = none then w
          else if es.any (fun x => x.hue.isNone) = true then (l * sat + 500) / 1000
          else Nat.min 4096 ((l * sat + 500) / 1000 + w)) →
        a = (v * e.gain + 2048) / 4096 → b = (a * trims.getD i 4096 + 2048) / 4096 →
        (emitterSolve es trims h sat).1[i]? = some (if b ≤ 4096 then (b * 65535 + 2048) / 4096 else 65535) ∧
          (i ∈ (emitterSolve es trims h sat).2 ↔ 4096 < b)) ∧
  (∀ (h sat d : Nat) (p : WheelPos), d = (h - p.hue) + (p.hue - h) →
    wheelScore h sat p = Nat.min d (3600 - d) * Nat.min sat p.sat / 1000 + 2 * ((sat - p.sat) + (p.sat - sat))) ∧
  (∀ h sat l p, wheelMatch h sat l = some p →
    ∃ i : Nat, l[i]? = some p ∧
      ∀ (j : Nat) q, l[j]? = some q →
        wheelScore h sat p < wheelScore h sat q ∨ (wheelScore h sat p = wheelScore h sat q ∧ i ≤ j)) ∧
  (∀ (s : State) (k : Profile) (p : Patch) (hue : Int) (sat i h : Nat), (h : Int) = hue % 3600 →
    (∀ es, k.model = .emitter es →
      s.resolveColour k p (.hueSat hue sat) =
        (.levels (emitterSolve es p.trims h (Nat.min sat 1000)).1 h (Nat.min sat 1000)
          (emitterSolve es p.trims h (Nat.min sat 1000)).2, none) ∧
      s.resolveColour k p (.wheelSlot i) = (.ineffective, none)) ∧
    (∀ l role, k.model = .wheel l role →
      (∀ x, wheelMatch h (Nat.min sat 1000) l = some x →
        s.resolveColour k p (.hueSat hue sat) = (.snap x.value true, none)) ∧
      (∀ x, l[i]? = some x → s.resolveColour k p (.wheelSlot i) = (.snap x.value false, none)) ∧
      (∀ x, l.length ≤ i → l.getLast? = some x → s.resolveColour k p (.wheelSlot i) = (.snap x.value false, none))) ∧
    (k.model = .none →
      s.resolveColour k p (.hueSat hue sat) = (.ineffective, none) ∧
      s.resolveColour k p (.wheelSlot i) = (.ineffective, none)) ∧
    ∀ q : Nat,
      ((∀ e ∈ s.memory.palettes, e.number ≠ q) → s.resolveColour k p (.palette q) = (.ineffective, none)) ∧
      ∀ e, s.paletteEntry q = some e →
        (∀ j v, 1 ≤ j → j < e.length → s.readSlot (e.start + j) = some (.override p.kind v) →
          (∀ j', 1 ≤ j' → j' < j → ∀ w, s.readSlot (e.start + j') ≠ some (.override p.kind w)) →
          (∀ hh ss, v = .hueSat hh ss →
            s.resolveColour k p (.palette q) = ((s.resolveColour k p (.hueSat hh ss)).1, some q)) ∧
          (∀ w, v = .wheel w →
            s.resolveColour k p (.palette q) = ((s.resolveColour k p (.wheelSlot w)).1, some q))) ∧
        (∀ q' hh ss fd n, s.readSlot e.start = some (.paletteHeader q' hh ss fd n) →
          (∀ j, 1 ≤ j → j < e.length → ∀ w, s.readSlot (e.start + j) ≠ some (.override p.kind w)) →
          s.resolveColour k p (.palette q) = ((s.resolveColour k p (.hueSat hh ss)).1, some q))) ∧
  (∀ (s : State) (f : Nat) (k : Profile) (p : Patch) (o : ColourOut), s.profileOf f = some k → s.patchOf f = some p →
    ∃ t : State, s.applyColour f o = t ∧
      t = ((((s.withColour t.colour).withLink t.link).withLines t.lines).withClaims t.claims).withPlayback t.playback ∧
      t.colourOf f = some o.after ∧ (∀ g, g ≠ f → t.colourOf g = s.colourOf g) ∧ t.claims.aim = s.claims.aim ∧
      t.claims.prio = s.claims.prio ∧
      t.lines =
        (if o.write = true then
          s.setLine p.line
            { s.line p.line with
              buffer := Store.setAll 0 (s.line p.line).buffer
                ((colourSlots k o.after.outputs).map fun w => (p.base + w.1, BitVec.ofNat 8 w.2)) }
        else s).lines ∧
      (o.clamp = none → t.link = s.link) ∧
      (∀ h sat es, o.clamp = some (h, sat, es) →
        t.link = ((s.raise .gamutClamp none 1).withNotices
          { s.link.notices with gamutClamp := some ⟨f, h, sat, es⟩ }).link) ∧
      (o.report = none → t.playback = s.playback ∧ t.claims = s.claims) ∧
      ∀ tag, o.report = some tag →
        t.playback.reports = s.playback.reports ++ [⟨true, tag⟩] ∧ (∀ g, g ≠ f → t.colourStack g = s.colourStack g) ∧
        t.colourStack f = (s.colourStack f).map fun e => if e.tag = some tag then { e with owed := false } else e) ∧
  (∀ s : State,
    s.resumeColours =
      s.patchedFixtures.foldl
        (fun u f =>
          match u.colourOf f, u.profileOf f, u.patchOf f with
          | some c, some k, some p => u.applyColour f (u.resumeColour k p c)
          | _, _, _ => u)
        (s.withColour { s.colour with timer := some (s.now + 8000) })) ∧
  ∀ (s : State) (f : Nat) (k : Profile) (p : Patch) (c d : Colour) (t : ColourTarget) (ms : Nat)
      (tag : Option LaunchTag) (r : Resolved × Option Nat), s.profileOf f = some k → s.patchOf f = some p →
    s.colourOf f = some c → r = s.resolveColour k p t → d = { c with target := some t, tag := tag } →
    (s.colourStepping = false → s.handColour f t ms tag = s.setColourOf f (some d)) ∧
    (s.colourStepping = true →
      (r.1 = .ineffective →
        s.handColour f t ms tag = s.applyColour f ⟨{ d with fade := none, tag := none }, tag, none, false⟩) ∧
      (∀ v matched, r.1 = .snap v matched →
        s.handColour f t ms tag = s.applyColour f
          ⟨{ d with
              outputs := [v], fade := some ⟨[v], [v], 0, 0⟩, origin := r.2
              gamut := if matched = true then false else c.gamut }, none, none, true⟩) ∧
      (∀ outs hue sat es, r.1 = .levels outs hue sat es →
        s.handColour f t ms tag = s.applyColour f
          ⟨{ d with
              fade := some ⟨c.outputs, outs, Nat.min ((ms + 4) / 8) 16383, 0⟩, origin := r.2, gamut := !es.isEmpty },
            none, if es = [] then none else some (hue, sat, es), false⟩)) ∧
    s.handNoColour f = s.setColourOf f (some { c with target := none, tag := none, fade := none }) ∧
    (∀ q, t = .palette q → c.target = some t → s.colourStepping = true →
      s.updatePalette f q ms = s.handColour f t ms c.tag) ∧
    (∀ q, c.target ≠ some (.palette q) ∨ s.colourStepping = false →
      s.updatePalette f q ms = s.setColourOf f (some c)) ∧
    (c.target = none → s.resumeColour k p c = ⟨c, none, none, false⟩) ∧
    (c.target = some t →
      (r.1 = .ineffective → s.resumeColour k p c = ⟨{ c with tag := none }, c.tag, none, false⟩) ∧
      (∀ v matched, r.1 = .snap v matched →
        s.resumeColour k p c =
          ⟨{ c with
              outputs := [v], fade := some ⟨[v], [v], 0, 0⟩, origin := r.2
              gamut := if matched = true then false else c.gamut }, none, none, true⟩) ∧
      ∀ outs hue sat es, r.1 = .levels outs hue sat es →
        s.resumeColour k p c =
          ⟨{ c with
              fade := if outs ≠ c.outputs ∨ c.tag.isSome = true then some ⟨c.outputs, outs, 0, 0⟩ else none
              origin := r.2, gamut := !es.isEmpty },
            none, if es = [] then none else some (hue, sat, es), false⟩)

/-! ### Cue Memory (chapter 8) -/

/-- STORE_CUE in one frame is refused BUSY, NEEDS_PACK or FULL, or stores the cue as judged; FIRST, MORE and LAST gather a
cue in the staging record and store it alike, a refusal leaving the staging record as it was (R146, R147, R209). The
judgement of n slots, with the old run freed: a new number in a full directory is FULL; the run is stored at the fill mark
M when M + n is at most the palette floor; else it is NEEDS_PACK when n fits beside the runs that remain, and FULL when it
does not (R144, R147). The stored run reads back as its header and entries, its
directory entry names it, and no slot outside the new run and the old one changes. -/
def Obligations.CuesAreStored : Prop :=
  (∀ (s : State) (a : CueArgs) (link : LinkKind), s.handed (.storeCue 0 a) = true → linkOfCode a.link = some link →
    cueFieldsOk a = true →
    (s.cueBusy a.cue = true → exec (.storeCue 0 a) s = .next (s.refused .busy)) ∧
    (s.cueBusy a.cue = false →
      (∀ start rep, s.memory.judgeCue a.cue (a.entries.length + 1) = .stored start rep →
        exec (.storeCue 0 a) s = .next
          ((s.withMemory (s.memory.storeCue start a.cue link (Nat.min 600000 a.time) a.entries)).answered .ok
            [BitVec.ofNat 8 start, BitVec.ofNat 8 (start / 256), if rep then 1 else 0])) ∧
      (s.memory.judgeCue a.cue (a.entries.length + 1) = .needsPack →
        exec (.storeCue 0 a) s = .next (s.refused .needsPack)) ∧
      (s.memory.judgeCue a.cue (a.entries.length + 1) = .full →
        exec (.storeCue 0 a) s = .next (s.refused .full)))) ∧
  (∀ (s : State) (a : CueArgs) (link : LinkKind), s.handed (.storeCueFirst a) = true →
    linkOfCode a.link = some link → cueFieldsOk a = true →
    exec (.storeCueFirst a) s = .next
      ((s.withMemory
        { s.memory with staging := some ⟨a.cue, link, Nat.min 600000 a.time, a.entries⟩ }).answered .ok
        [BitVec.ofNat 8 a.entries.length])) ∧
  (∀ (s : State) (a : CueArgs) (g : Staging), s.memory.staging = some g → g.cue = a.cue → morePartOk a = true →
    g.entries.length + a.entries.length ≤ 255 →
    (s.handed (.storeCueMore a) = true →
      exec (.storeCueMore a) s = .next
        ((s.withMemory
          { s.memory with staging := some { g with entries := g.entries ++ a.entries } }).answered .ok
          [BitVec.ofNat 8 (g.entries.length + a.entries.length)])) ∧
    (s.handed (.storeCueLast a) = true → s.cueBusy a.cue = true →
      exec (.storeCueLast a) s = .next (s.refused .busy)) ∧
    (s.handed (.storeCueLast a) = true → s.cueBusy a.cue = false →
      ∀ start rep, s.memory.judgeCue a.cue (g.entries.length + a.entries.length + 1) = .stored start rep →
        exec (.storeCueLast a) s = .next
          ((s.withMemory
            { s.memory.storeCue start a.cue g.link g.linkMs (g.entries ++ a.entries) with staging := none }).answered .ok
            [BitVec.ofNat 8 start, BitVec.ofNat 8 (start / 256), if rep then 1 else 0])) ∧
    (s.handed (.storeCueLast a) = true → s.cueBusy a.cue = false →
      (s.memory.judgeCue a.cue (g.entries.length + a.entries.length + 1) = .needsPack →
        exec (.storeCueLast a) s = .next (s.refused .needsPack)) ∧
      (s.memory.judgeCue a.cue (g.entries.length + a.entries.length + 1) = .full →
        exec (.storeCueLast a) s = .next (s.refused .full)))) ∧
  (∀ (m : CueMemory) (cue n : Nat) (rest : List DirEntry) (old : Bool),
    rest = m.cues.filter (fun e => decide (e.number ≠ cue)) → old = m.cues.any (fun e => decide (e.number = cue)) →
    (old = false → 512 ≤ m.cues.length → m.judgeCue cue n = .full) ∧
    (old = true ∨ m.cues.length < 512 →
      (fillOf rest + n ≤ floorOf m.palettes → m.judgeCue cue n = .stored (fillOf rest) old) ∧
      (floorOf m.palettes < fillOf rest + n →
        (n + ((rest ++ m.palettes).map fun e => e.length).sum ≤ 8192 → m.judgeCue cue n = .needsPack) ∧
        (8192 < n + ((rest ++ m.palettes).map fun e => e.length).sum → m.judgeCue cue n = .full)))) ∧
  (∀ d : List DirEntry,
    (∀ e ∈ d, e.start + e.length ≤ fillOf d ∧ floorOf d ≤ e.start) ∧ floorOf d ≤ 8192 ∧
    (fillOf d = 0 ∨ ∃ e ∈ d, fillOf d = e.start + e.length) ∧ (floorOf d = 8192 ∨ ∃ e ∈ d, floorOf d = e.start)) ∧
  ∀ (m : CueMemory) (start cue ms : Nat) (link : LinkKind) (es : List RawEntry),
    ∃ m', m.storeCue start cue link ms es = m' ∧
      Store.get none m'.slots start = some (.cueHeader cue es.length link ms) ∧
      (∀ i e, es[i]? = some e → Store.get none m'.slots (start + 1 + i) = some (.cueEntry e)) ∧
      dirFind cue m'.cues = some ⟨cue, start, es.length + 1⟩ ∧
      (∀ n, n ≠ cue → dirFind n m'.cues = dirFind n m.cues) ∧
      (∀ i, (i < start ∨ start + es.length + 1 ≤ i) →
        (∀ e, dirFind cue m.cues = some e → i < e.start ∨ e.start + e.length ≤ i) →
        Store.get none m'.slots i = Store.get none m.slots i) ∧
      m'.palettes = m.palettes ∧ m'.pack = m.pack ∧ m'.staging = m.staging

/-- STORE_PALETTE stores as judged and goes on to the records that show the palette, one PALETTE_UPDATE each; DELETE_CUE and
DELETE_PALETTE are refused NOT_FOUND and BUSY, or remove the run, and a deleted palette is no record's origin any more
(R136, R137, R148 to R150). The judgement of n slots, with the old run freed: stored right below the palette floor F when
F - n is at least the fill mark, else NEEDS_PACK or FULL by the runs that remain; the stored run reads back as its header
and overrides (R149). The model's choice: the slots of a deleted run read as none (log entry 25), and the records that show
the palette are listed and counted when the store is taken (log entry 16); NOT_FOUND comes before BUSY (log entry 42). A
PALETTE_UPDATE fades in the update fade time that the palette's header holds (R136), and a deletion leaves every other run
and entry (R148, R150). -/
def Obligations.PalettesAndDeletes : Prop :=
  (∀ (s : State) (a : PaletteArgs), s.handed (.storePalette a) = true → paletteOk a = true →
    (s.memory.packing = true → exec (.storePalette a) s = .next (s.refused .busy)) ∧
    (s.memory.packing = false →
      (∀ start rep, s.memory.judgePalette a.palette (a.overrides.length + 1) = .stored start rep →
        exec (.storePalette a) s = .next
          ((s.withMemory (s.memory.storePalette start a.palette a.hue a.sat a.fade
            (a.overrides.map RawOverride.stored))).goPalette (s.showing a.palette) a.palette start
            (s.showing a.palette).length).pump) ∧
      (s.memory.judgePalette a.palette (a.overrides.length + 1) = .needsPack →
        exec (.storePalette a) s = .next (s.refused .needsPack)) ∧
      (s.memory.judgePalette a.palette (a.overrides.length + 1) = .full →
        exec (.storePalette a) s = .next (s.refused .full)))) ∧
  (∀ (s : State) (f : Nat) (fs : List Nat) (q start n : Nat), s.resetting = none →
    s.work = some (.storePalette (f :: fs) q start n) →
    exec .paletteUpdate s = .next ((s.updatePalette f q (s.paletteFade q)).goPalette fs q start n).pump) ∧
  (∀ (s : State) (q number sat fade n : Nat) (hue : Int) (e : DirEntry), s.paletteEntry q = some e →
    s.readSlot e.start = some (.paletteHeader number hue sat fade n) → s.paletteFade q = fade) ∧
  (∀ (m : CueMemory) (q n : Nat) (rest : List DirEntry) (old : Bool),
    rest = m.palettes.filter (fun e => decide (e.number ≠ q)) → old = m.palettes.any (fun e => decide (e.number = q)) →
    (fillOf m.cues + n ≤ floorOf rest → m.judgePalette q n = .stored (floorOf rest - n) old) ∧
    (floorOf rest < fillOf m.cues + n →
      (n + ((m.cues ++ rest).map fun e => e.length).sum ≤ 8192 → m.judgePalette q n = .needsPack) ∧
      (8192 < n + ((m.cues ++ rest).map fun e => e.length).sum → m.judgePalette q n = .full))) ∧
  (∀ (m : CueMemory) (start q sat fade : Nat) (hue : Int) (os : List (Nat × OverrideValue)),
    ∃ m', m.storePalette start q hue sat fade os = m' ∧
      Store.get none m'.slots start = some (.paletteHeader q hue sat fade os.length) ∧
      (∀ i o, os[i]? = some o → Store.get none m'.slots (start + 1 + i) = some (.override o.1 o.2)) ∧
      dirFind q m'.palettes = some ⟨q, start, os.length + 1⟩ ∧
      (∀ j, j ≠ q → dirFind j m'.palettes = dirFind j m.palettes) ∧
      (∀ i, (i < start ∨ start + os.length + 1 ≤ i) →
        (∀ e, dirFind q m.palettes = some e → i < e.start ∨ e.start + e.length ≤ i) →
        Store.get none m'.slots i = Store.get none m.slots i) ∧
      m'.cues = m.cues ∧ m'.pack = m.pack ∧ m'.staging = m.staging) ∧
  (∀ (s : State) (n : Nat), s.handed (.deleteCue n) = true → 1 ≤ n → n ≤ 9999 →
    (dirFind n s.memory.cues = none → exec (.deleteCue n) s = .next (s.refused .notFound)) ∧
    (∀ e, dirFind n s.memory.cues = some e →
      (s.cueBusy n = true → exec (.deleteCue n) s = .next (s.refused .busy)) ∧
      (s.cueBusy n = false →
        ∃ t : State, exec (.deleteCue n) s = .next
            (t.answered .ok [BitVec.ofNat 8 e.length, BitVec.ofNat 8 (e.length / 256)]) ∧
          t = s.withMemory t.memory ∧ dirFind n t.memory.cues = none ∧
          (∀ j, j ≠ n → dirFind j t.memory.cues = dirFind j s.memory.cues) ∧
          t.memory.palettes = s.memory.palettes ∧ t.memory.pack = s.memory.pack ∧ t.memory.staging = s.memory.staging ∧
          ∀ i, Store.get none t.memory.slots i =
            if e.start ≤ i ∧ i < e.start + e.length then none else Store.get none s.memory.slots i))) ∧
  ∀ (s : State) (q : Nat), s.handed (.deletePalette q) = true → q ≤ 63 →
    (s.paletteEntry q = none → exec (.deletePalette q) s = .next (s.refused .notFound)) ∧
    ((s.paletteEntry q).isSome = true → s.memory.packing = true →
      exec (.deletePalette q) s = .next (s.refused .busy)) ∧
    (∀ e, s.paletteEntry q = some e → s.memory.packing = false →
      ∃ t : State, exec (.deletePalette q) s = .next (t.answered .ok []) ∧
        t = (s.withMemory t.memory).withColour t.colour ∧ dirFind q t.memory.palettes = none ∧
        (∀ j, j ≠ q → dirFind j t.memory.palettes = dirFind j s.memory.palettes) ∧
        t.memory.cues = s.memory.cues ∧ t.memory.pack = s.memory.pack ∧ t.memory.staging = s.memory.staging ∧
        (∀ i, Store.get none t.memory.slots i =
          if e.start ≤ i ∧ i < e.start + e.length then none else Store.get none s.memory.slots i) ∧
        t.colour.timer = s.colour.timer ∧ t.colour.due = s.colour.due ∧ t.colour.stopSeen = s.colour.stopSeen ∧
        ∀ f < 256, t.colourOf f = (s.colourOf f).map fun c =>
          if c.origin = some q then { c with origin := none } else c)

/-- PACK begins a pack, or ends at once when no run is stored; ABORT_PACK ends one. A PACK_STEP moves at most one run and
leaves the length and the contents of every run, read through its directory, as they were (R151 to R154): it takes the next
cue run in ascending start, or after them the next palette run in descending start; that run alone gets a new start, the end
of the run taken before it or 0, for a palette the start of the run taken before it or 8,192, less its own length; its slots
are copied there unless it stands there already, and every slot outside its old and new place stays (R152). That the phase is
CUES even when only palettes are stored is the model's reading (log entry 35). -/
def Obligations.PacksKeepEveryRun : Prop :=
  (∀ s : State,
    (s.handed .pack = true → s.memory.packing = true → exec .pack s = .next (s.refused .busy)) ∧
    (s.handed .pack = true → s.memory.packing = false → 0 < s.memory.cues.length + s.memory.palettes.length →
      exec .pack s = .next
        ((s.withMemory
          { s.memory with pack := ⟨.cues, 0, s.memory.cues.length + s.memory.palettes.length, 0⟩ }).answered
          .accepted [])) ∧
    (s.handed .pack = true → s.memory.packing = false → s.memory.cues = [] → s.memory.palettes = [] →
      exec .pack s = .next
        (((s.withMemory { s.memory with pack := ⟨.idle, 0, 0, 0⟩ }).withNotices
          { s.link.notices with packDone := some ⟨.complete, 0, 0, 0, 8192, 0⟩ }).answered .accepted [])) ∧
    (s.handed .abortPack = true → s.memory.packing = false →
      exec .abortPack s = .next (s.refused .wrongState)) ∧
    (s.handed .abortPack = true → s.memory.packing = true →
      exec .abortPack s = .next
        (((s.withMemory { s.memory with pack := { s.memory.pack with phase := .idle } }).withNotices
          { s.link.notices with
            packDone := some ⟨.aborted, s.memory.pack.taken, s.memory.pack.moved, s.memory.fill, s.memory.floor,
              s.memory.hole⟩ }).answered .ok
          [BitVec.ofNat 8 s.memory.pack.taken, BitVec.ofNat 8 (s.memory.pack.taken / 256),
            BitVec.ofNat 8 s.memory.pack.moved, BitVec.ofNat 8 (s.memory.pack.moved / 256)])) ∧
    (s.resetting = none → s.memory.packing = true →
      (s.memory.packStep.packing = true → exec .packStep s = .next (s.withMemory s.memory.packStep).pump) ∧
      (s.memory.packStep.packing = false →
        exec .packStep s = .next
          ((s.withMemory s.memory.packStep).withNotices
            { s.link.notices with
              packDone := some ⟨.complete, s.memory.packStep.pack.taken, s.memory.packStep.pack.moved,
                s.memory.packStep.fill, s.memory.packStep.floor, s.memory.packStep.hole⟩ }).pump))) ∧
  ∀ (m : CueMemory), m.ok →
    m.packStep.ok ∧ m.packStep.pack.taken = m.pack.taken + 1 ∧
    (∀ (i d : Nat) (l : List DirEntry) (e : DirEntry),
      (m.pack.taken < m.cues.length ∧ i = m.pack.taken ∧ l.Perm m.cues ∧ (l.Pairwise fun a b => a.start < b.start) ∧
          l[i]? = some e ∧ ((i = 0 ∧ d = 0) ∨ ∃ j b, i = j + 1 ∧ l[j]? = some b ∧ d = b.start + b.length)) ∨
        (m.cues.length + i = m.pack.taken ∧ l.Perm m.palettes ∧ (l.Pairwise fun a b => b.start < a.start) ∧
          l[i]? = some e ∧
          ((i = 0 ∧ d = 8192 - e.length) ∨ ∃ j b, i = j + 1 ∧ l[j]? = some b ∧ d = b.start - e.length)) →
      m.packStep =
        { m with
          cues := if m.pack.taken < m.cues.length then
              m.cues.map fun x => if x = e then { e with start := d } else x
            else m.cues
          palettes := if m.pack.taken < m.cues.length then m.palettes
            else m.palettes.map fun x => if x = e then { e with start := d } else x
          slots := m.packStep.slots
          pack :=
            { m.pack with
              phase :=
                if m.pack.total ≤ m.pack.taken + 1 then .idle
                else if m.pack.taken + 1 < m.cues.length then .cues else .palettes
              taken := m.pack.taken + 1
              moved := m.pack.moved + if d = e.start then 0 else e.length } } ∧
      (d = e.start → m.packStep.slots = m.slots) ∧
      ∀ a, (a < d ∨ d + e.length ≤ a) → (a < e.start ∨ e.start + e.length ≤ a) →
        Store.get none m.packStep.slots a = Store.get none m.slots a) ∧
    (m.cues.length + m.palettes.length ≤ m.pack.taken → m.packStep = { m with pack := m.packStep.pack }) ∧
    (∀ n e, dirFind n m.cues = some e →
      ∃ e', dirFind n m.packStep.cues = some e' ∧ e'.length = e.length ∧ e'.start ≤ e.start ∧
        m.packStep.runContents e' = m.runContents e) ∧
    ∀ n e, dirFind n m.palettes = some e →
      ∃ e', dirFind n m.packStep.palettes = some e' ∧ e'.length = e.length ∧ e.start ≤ e'.start ∧
        m.packStep.runContents e' = m.runContents e

/-! ### Cue lists (chapter 8) -/

/-- DEFINE_LIST is refused BUSY unless the list is RELEASED, and otherwise replaces the four fields and makes the current cue
none (R155). GO's refusals in order, and its outcomes: held as the pending GO, armed, or launched with the next serial
(R157 to R160). The next cue is the lowest stored number of the list's range, above the current cue when there is one, and
from the range's start again when wrap is set and none lies above (R156); a cue number named must be stored and in range
(R160). That GO's cue number and serial are one group behind one presence byte, zeros when absent, is the model's
choice (log entry 10); that a list which arms marks the link of its launch spent, so that it is not applied later either
(R159), is log entry 22; that BAD_ARG comes before DEFINE_LIST's BUSY is log entry 42. -/
def Obligations.ListsAreDefinedAndStarted : Prop :=
  (∀ (s : State) (a : ListArgs), s.handed (.defineList a) = true → listArgsOk a = true →
    ((s.cueList a.list).mode ≠ .released → exec (.defineList a) s = .next (s.refused .busy)) ∧
    ((s.cueList a.list).mode = .released →
      exec (.defineList a) s = .next
        ((s.setCueList a.list
          { s.cueList a.list with
            first := a.first, last := a.last, wrap := decide (a.wrap ≠ 0), fade := a.fade
            current := none }).answered .ok []))) ∧
  (∀ (s : State) (l : CueList) (stored : Nat → Prop), s.memory.ok →
    (∀ c, stored c ↔ (∃ e ∈ s.memory.cues, e.number = c) ∧ l.first ≤ c ∧ c ≤ l.last) →
    (∀ c, s.nextCue l = some c ↔ stored c ∧
      ((l.current = none ∧ ∀ d, stored d → c ≤ d) ∨
        ∃ cur, l.current = some cur ∧
          ((cur < c ∧ ∀ d, stored d → cur < d → c ≤ d) ∨
            (l.wrap = true ∧ (∀ d, stored d → d ≤ cur) ∧ ∀ d, stored d → c ≤ d)))) ∧
    s.resolveCue l none = s.nextCue l ∧
    ∀ c, (stored c → s.resolveCue l (some c) = some c) ∧ (¬stored c → s.resolveCue l (some c) = none)) ∧
  ∀ (s : State) (n cue bar : Nat) (want : Option Nat), s.handed (.go n cue bar) = true → n ≤ 7 → cue ≤ 9999 →
    want = (if cue = 0 then none else some cue) →
    (s.part = .standby → exec (.go n cue bar) s = .next (s.refused .wrongState)) ∧
    (s.part = .live → s.stop = true → exec (.go n cue bar) s = .next (s.refused .stopped)) ∧
    (s.part = .live → s.stop = false →
      (s.resolveCue (s.cueList n) want = none → exec (.go n cue bar) s = .next (s.refused .notFound)) ∧
      ∀ c, s.resolveCue (s.cueList n) want = some c →
        ((s.cueList n).mode = .launching → (s.cueList n).pendingGo.isSome = true →
          exec (.go n cue bar) s = .next (s.refused .busy)) ∧
        ((s.cueList n).mode = .launching → (s.cueList n).pendingGo = none →
          exec (.go n cue bar) s = .next
            ((s.setCueList n { s.cueList n with pendingGo := some ⟨want, decide (bar ≠ 0)⟩ }).answered .ok
              [1, 0, 0, 0, 0, 0])) ∧
        ((s.cueList n).mode ≠ .launching → bar ≠ 0 →
          exec (.go n cue bar) s = .next
            ((s.setCueList n
              { s.cueList n with
                mode := .armed, armedGo := some want, pendingGo := none
                launch := (s.cueList n).launch.map fun r =>
                  { r with timer := none, wait := false, due := false, spent := true } }).answered .ok
              [2, 0, 0, 0, 0, 0])) ∧
        ((s.cueList n).mode ≠ .launching → bar = 0 → ∀ entries link ms, s.cueHeader c = some (entries, link, ms) →
          ∃ serial, serial = ((s.cueList n).serial + 1) % 65536 ∧
            exec (.go n cue bar) s = .next
              ((s.setCueList n
                { s.cueList n with
                  mode := .launching, current := some c, pendingGo := none, armedGo := none, serial := serial
                  launch := some ⟨true, c, serial, 0, .host, link, ms, none, false, false, 0, false, 0, false⟩ }).answered .ok
                [0, 1, BitVec.ofNat 8 c, BitVec.ofNat 8 (c / 256), BitVec.ofNat 8 serial,
                  BitVec.ofNat 8 (serial / 256)])))

/-- The walk of a launch takes the cue's entries in stored order, the fixtures of each entry's range in ascending order, and
for each AIM before COLOUR, a spec of NONE apart; the next claim is the first from the walk's position on whose fixture is
PATCHED, the others being passed over, and the walk is at its end when there is none (R161); it waits while paused (R166).
A WALK_STEP makes the next claim of the walk on a PATCHED fixture: the stack is as the claim's placement leaves it,
`report owed` apart, its superseded reports are sent first, and the launch counts it exactly when it is answered active
(R39, R40, R161, R162). After that the stack's new top, if it has one, is handed over with the entry's own time, an active
claim with its launch tag (R42, R43, R161); that a claim placed below hands over a top that it uncovers is log entry 9. WALK_END makes the list RUNNING or SETTLED and makes CUE_STEP and, with nothing counted,
LIST_SETTLED pending. A pending GO then arms the list, which stops the link, or launches with cause HOST, or is dropped
(R158 to R160, R163); its link stays stopped after an armed GO is dropped, by the mark of log entry 22, and the notice of a
dropped GO carries the free value of log entry 5. With no pending GO the link of the record is applied: a timer starts, an
automatic GO with cause DONE is made or held as link due while STOP is high, or link wait is set (R164 to R166, R169). -/
def Obligations.WalksClaimAndEnd : Prop :=
  (∀ (s : State) (n count ms : Nat) (link : LinkKind) (r : Launch) (items : List WalkItem) (runs : Prop),
    s.cueHeader r.cue = some (count, link, ms) →
    items = (List.range count).flatMap (fun i =>
      match s.cueEntry r.cue i with
      | some e =>
        ((List.range 256).filter fun f => decide (e.first ≤ f ∧ f < e.first + e.count)).flatMap fun f =>
          (if e.aim = 0 then [] else [⟨i, f, .aim⟩]) ++ if e.colour = 0 then [] else [⟨i, f, .colour⟩]
      | none => []) →
    (runs ↔ (s.cueList n).paused = false ∧ (s.cueList n).launch = some r ∧ r.live = true ∧
      (s.cueList n).mode = .launching ∧ r.walkDone = false) →
    (s.walkReady n = some (r, none) ↔
      runs ∧ ∀ (j : Nat) w, r.walk ≤ j → items[j]? = some w → s.isPatched w.fixture = false) ∧
    ∀ pos w, s.walkReady n = some (r, some (pos, w)) ↔
      runs ∧ ∃ j : Nat, pos = j + 1 ∧ r.walk ≤ j ∧ items[j]? = some w ∧ s.isPatched w.fixture = true ∧
        ∀ (j' : Nat) w', r.walk ≤ j' → j' < j → items[j']? = some w' → s.isPatched w'.fixture = false) ∧
  (∀ (s : State) (n pos : Nat) (r : Launch) (w : WalkItem) (e : RawEntry), s.resetting = none →
    s.walkReady n = some (r, some (pos, w)) → s.cueEntry r.cue w.entry = some e →
    s.isPatched w.fixture = true ∧ r.walk < pos ∧
    (∀ c p, w.attr = .aim → s.aimClaim e = some c →
      p = placeClaim (s.aimStack w.fixture) n (s.priority n) c (some ⟨n, r.serial⟩) →
      ∃ t : State, exec (.walkStep n) s = .next t.pump ∧
        (t.cueList n).launch = some
          { r with walk := pos, count := if p.answer = .active then r.count + 1 else r.count } ∧
        ((t.aimStack w.fixture).map fun x => (x.source, x.prio, x.body, x.tag)) =
          (p.stack.map fun x => (x.source, x.prio, x.body, x.tag)) ∧
        (s.playback.reports ++ p.reports.map fun tag => ⟨false, tag⟩) <+: t.playback.reports ∧
        (∀ j, j ≠ n → t.cueList j = s.cueList j) ∧ (∀ g, t.colourStack g = s.colourStack g) ∧
        (∀ g, g ≠ w.fixture → t.aimStack g = s.aimStack g) ∧ t.memory = s.memory ∧ t.rig = s.rig ∧
        t.points = s.points ∧ t.beat = s.beat ∧
        (p.answer = .active → p.newTop = true ∧
          ∃ es, p.stack = ⟨n, s.priority n, c, some ⟨n, r.serial⟩, true⟩ :: es) ∧
        ∀ v : State,
          v = ((s.setAimStack w.fixture p.stack).withPlayback
            { s.playback with reports := s.playback.reports ++ p.reports.map fun tag => ⟨false, tag⟩ }).setCueList n
            { s.cueList n with
              launch := some { r with walk := pos, count := if p.answer = .active then r.count + 1 else r.count } } →
          (p.newTop = false → t = v) ∧
          ∀ x es, p.newTop = true → p.stack = x :: es → t = (v.handAim w.fixture x x.body.ms).1) ∧
    (∀ c p, w.attr = .colour → s.colourClaim e = some c →
      p = placeClaim (s.colourStack w.fixture) n (s.priority n) c (some ⟨n, r.serial⟩) →
      ∃ t : State, exec (.walkStep n) s = .next t.pump ∧
        (t.cueList n).launch = some
          { r with walk := pos, count := if p.answer = .active then r.count + 1 else r.count } ∧
        ((t.colourStack w.fixture).map fun x => (x.source, x.prio, x.body, x.tag)) =
          (p.stack.map fun x => (x.source, x.prio, x.body, x.tag)) ∧
        (s.playback.reports ++ p.reports.map fun tag => ⟨false, tag⟩) <+: t.playback.reports ∧
        (∀ j, j ≠ n → t.cueList j = s.cueList j) ∧ (∀ g, t.aimStack g = s.aimStack g) ∧
        (∀ g, g ≠ w.fixture → t.colourStack g = s.colourStack g) ∧ t.memory = s.memory ∧ t.rig = s.rig ∧
        t.points = s.points ∧ t.beat = s.beat ∧ t.motion = s.motion ∧ t.solver = s.solver ∧
        (p.answer = .active → p.newTop = true ∧
          ∃ es, p.stack = ⟨n, s.priority n, c, some ⟨n, r.serial⟩, true⟩ :: es) ∧
        ∀ v : State,
          v = ((s.setColourStack w.fixture p.stack).withPlayback
            { s.playback with reports := s.playback.reports ++ p.reports.map fun tag => ⟨false, tag⟩ }).setCueList n
            { s.cueList n with
              launch := some { r with walk := pos, count := if p.answer = .active then r.count + 1 else r.count } } →
          (p.newTop = false → t = v) ∧
          ∀ x es, p.newTop = true → p.stack = x :: es →
            t = v.handColour w.fixture x.body.target x.body.ms (if x.owed = true then x.tag else none))) ∧
  ∀ (s u : State) (n : Nat) (r q : Launch), s.resetting = none → s.walkReady n = some (r, none) →
    q = { r with walkDone := true, endCount := r.count } →
    u =
      (s.setCueList n
        { s.cueList n with
          mode := if 0 < r.count then .running else .settled, pendingGo := none, launch := some q }).withNotices
        { s.link.notices with
          cueStep := some ⟨n, .launched, r.cue, r.serial, r.count, r.cause⟩
          listSettled := if r.count = 0 then some ⟨n, r.cue, r.serial⟩ else s.link.notices.listSettled } →
    (∀ g, (s.cueList n).pendingGo = some g →
      (g.bar = true →
        exec (.walkEnd n) s = .next
          (u.setCueList n
            { u.cueList n with
              mode := .armed, armedGo := some g.cue
              launch := some { q with timer := none, wait := false, due := false, spent := true } }).pump) ∧
      (g.bar = false → u.resolveCue (u.cueList n) g.cue = none →
        exec (.walkEnd n) s = .next (u.dropped n .host).pump) ∧
      ∀ c entries link ms, g.bar = false → u.resolveCue (u.cueList n) g.cue = some c →
        u.cueHeader c = some (entries, link, ms) →
        exec (.walkEnd n) s = .next (u.launched n c .host link ms).pump) ∧
    ((s.cueList n).pendingGo = none →
      (s.part = .standby ∨ r.link = .manual ∨ (0 < r.count ∧ (r.link = .onDone ∨ r.link = .nextBar)) →
        exec (.walkEnd n) s = .next u.pump) ∧
      (s.part = .live →
        (r.link = .after ∨ (r.link = .doneOrAfter ∧ 0 < r.count) →
          exec (.walkEnd n) s = .next
            (u.setCueList n
              { u.cueList n with
                launch := some { q with timer := some (.running (s.now + 1000 * Nat.max 1 r.linkMs)) } }).pump) ∧
        (r.link = .nextBar → r.count = 0 →
          exec (.walkEnd n) s = .next
            (u.setCueList n { u.cueList n with launch := some { q with wait := true } }).pump) ∧
        (r.link = .onDone ∨ r.link = .doneOrAfter → r.count = 0 →
          (s.stop = true →
            exec (.walkEnd n) s = .next
              (u.setCueList n { u.cueList n with launch := some { q with due := true } }).pump) ∧
          (s.stop = false →
            ∃ t : State, u.automaticGo n .done t ∧ exec (.walkEnd n) s = .next t.pump))))

/-- A LAUNCH_REPORT lowers the count of the live record whose serial it carries, whether settled or superseded; any other
report changes nothing but the reports still to be taken (R162). At 0 a RUNNING list settles and applies its link, MANUAL
and AFTER nothing, ON_DONE and DONE_OR_AFTER the automatic GO with cause DONE, or link due while STOP is high, NEXT_BAR link
wait, and none in STANDBY; an ARMED list makes LIST_SETTLED pending, a LAUNCHING one only counts (R159, R162, R164 to R167).
An expired link timer launches the next cue with cause TIME, or is spent when there is none (R164); a bar start launches an
armed GO with cause BAR or drops one that does not resolve, clears a link wait and makes its automatic GO, is ignored while
STOP is high, and passes a list that waits for none (R159, R160, R164, R166). The model's choices: that reports and bar
starts wait to be taken and are handed to every list (log entry 21), what a spent link no longer does and the LIVE premise
of a timer and of a wait (log entry 22), the count of a dropped GO (log entry 5). -/
def Obligations.ReportsTimersAndBars : Prop :=
  (∀ (s u : State) (rep : Report) (r q : Launch), s.resetting = none → rep ∈ s.playback.reports →
    u = s.withPlayback { s.playback with reports := s.playback.reports.erase rep } →
    q = { r with count := r.count - 1 } →
    ((s.cueList rep.tag.list).liveLaunch = none ∨
        ((s.cueList rep.tag.list).liveLaunch = some r ∧ (r.serial ≠ rep.tag.serial ∨ r.count = 0)) →
      exec (.launchReport rep) s = .next u.pump) ∧
    ((s.cueList rep.tag.list).liveLaunch = some r → r.serial = rep.tag.serial →
      (1 < r.count ∨
          (r.count = 1 ∧ ((s.cueList rep.tag.list).mode ≠ .running ∧ (s.cueList rep.tag.list).mode ≠ .armed)) →
        exec (.launchReport rep) s = .next
          (u.setCueList rep.tag.list { s.cueList rep.tag.list with launch := some q }).pump) ∧
      (r.count = 1 → (s.cueList rep.tag.list).mode = .armed →
        exec (.launchReport rep) s = .next
          ((u.setCueList rep.tag.list { s.cueList rep.tag.list with launch := some q }).withNotices
            { s.link.notices with listSettled := some ⟨rep.tag.list, r.cue, r.serial⟩ }).pump) ∧
      ∀ v : State,
        v =
          (u.setCueList rep.tag.list { s.cueList rep.tag.list with mode := .settled, launch := some q }).withNotices
            { s.link.notices with listSettled := some ⟨rep.tag.list, r.cue, r.serial⟩ } →
        r.count = 1 → (s.cueList rep.tag.list).mode = .running →
        (s.part = .standby ∨ r.spent = true ∨ r.link = .manual ∨ r.link = .after →
          exec (.launchReport rep) s = .next v.pump) ∧
        (s.part = .live → r.spent = false →
          (r.link = .nextBar →
            exec (.launchReport rep) s = .next
              (v.setCueList rep.tag.list { v.cueList rep.tag.list with launch := some { q with wait := true } }).pump) ∧
          (r.link = .onDone ∨ r.link = .doneOrAfter →
            (s.stop = true →
              exec (.launchReport rep) s = .next
                (v.setCueList rep.tag.list { v.cueList rep.tag.list with launch := some { q with due := true } }).pump) ∧
            (s.stop = false →
              ∃ t : State, v.automaticGo rep.tag.list .done t ∧ exec (.launchReport rep) s = .next t.pump))))) ∧
  (∀ (s u : State) (n : Nat), s.resetting = none → s.linkTimerDue n = true →
    u = s.setCueList n
      { s.cueList n with launch := (s.cueList n).launch.map fun r => { r with timer := none } } →
    (s.part = .standby → exec (.linkTimerExpiry n) s = .next u.pump) ∧
    (s.part = .live → ∃ t : State, u.automaticGo n .time t ∧ exec (.linkTimerExpiry n) s = .next t.pump)) ∧
  ∀ (s u : State) (n : Nat), s.resetting = none → 0 < (s.cueList n).barsDue →
    u = s.setCueList n { s.cueList n with barsDue := (s.cueList n).barsDue - 1 } →
    (s.stop = true → exec (.listBarStart n) s = .next u.pump) ∧
    (s.stop = false → (s.cueList n).mode ≠ .armed →
      (((s.cueList n).liveLaunch.any fun r => r.wait) = false ∨ s.part = .standby →
        exec (.listBarStart n) s = .next u.pump) ∧
      ∀ r, (s.cueList n).liveLaunch = some r → r.wait = true → s.part = .live →
        ∃ t : State,
          (u.setCueList n { u.cueList n with launch := some { r with wait := false } }).automaticGo n .bar t ∧
            exec (.listBarStart n) s = .next t.pump) ∧
    (s.stop = false → (s.cueList n).mode = .armed → ∀ want, (s.cueList n).armedGo = some want →
      (s.resolveCue (s.cueList n) want = none → exec (.listBarStart n) s = .next (u.dropped n .bar).pump) ∧
      ∀ c entries link ms, s.resolveCue (s.cueList n) want = some c → s.cueHeader c = some (entries, link, ms) →
        exec (.listBarStart n) s = .next (u.launched n c .bar link ms).pump)

/-! ### Beat Clock (chapter 9) -/

/-- SET_TEMPO stores 300 for a value below 300, 3,000 for one above 3,000 and a value between as given, whatever the source;
with source MANUAL the period becomes the round half up of 6,000,000 / tempo, and with EXTERNAL the stored tempo is used at
the next change to MANUAL; the reply carries both (R176). SET_BAR is
refused BAD_ARG outside 1 to 16; otherwise beats per bar takes the number, the next beat is a bar start, and the reply
carries the bar number, which is kept (R183). -/
def Obligations.TempoAndBarAreSet : Prop :=
  (∀ (s : State) (tempo : Nat), s.handed (.setTempo tempo) = true →
    ∃ t period, (tempo < 300 → t = 300) ∧ (3000 < tempo → t = 3000) ∧ (300 ≤ tempo → tempo ≤ 3000 → t = tempo) ∧
      period = (2 * 6000000 + t) / (2 * t) ∧
      exec (.setTempo tempo) s = .next
        ((s.withBeat
          { s.beat with
            tempo := t, period := if s.beat.source = .manual then period else s.beat.period }).answered .ok
          [BitVec.ofNat 8 t, BitVec.ofNat 8 (t / 256), BitVec.ofNat 8 period, BitVec.ofNat 8 (period / 256)]) ∧
        (({ s.beat with tempo := t } : Beat).changeSource .manual s.now).period = period) ∧
  ∀ (s : State) (n : Nat), s.handed (.setBar n) = true →
    (n < 1 ∨ 16 < n → exec (.setBar n) s = .next (s.refused .badArg)) ∧
    (1 ≤ n → n ≤ 16 →
      exec (.setBar n) s = .next
        ((s.withBeat { s.beat with beatsPerBar := n, beatsToBar := 1 }).answered .ok
          [BitVec.ofNat 8 s.beat.bar, BitVec.ofNat 8 (s.beat.bar / 256)]) ∧
      ({ s.beat with beatsPerBar := n, beatsToBar := 1 } : Beat).startsBar = true)

/-- SET_BEAT_SOURCE sets the filter; a change of source empties the ring and the last edge time, sets the last beat time,
discards a pulse under timing, takes the manual period or starts in FREEWHEEL with lone-beat count 3, and makes BEAT_STATE
pending with cause SOURCE; the flywheel is not reloaded (R181). -/
def Obligations.BeatSourceIsSet : Prop :=
  ∀ s : State,
    (∀ f, s.handed (.setBeatSource 0 f) = true → f ≤ 1 → s.beat.source = .external →
      exec (.setBeatSource 0 f) s = .next
        ((s.withBeat { s.beat with filter := decide (f = 1) }).answered .ok
          [0, if f = 1 then 1 else 0, BitVec.ofNat 8 s.beat.clock.code])) ∧
    (∀ f, s.handed (.setBeatSource 1 f) = true → f ≤ 1 → s.beat.source = .manual →
      exec (.setBeatSource 1 f) s = .next
        ((s.withBeat { s.beat with filter := decide (f = 1) }).answered .ok
          [1, if f = 1 then 1 else 0, BitVec.ofNat 8 s.beat.clock.code])) ∧
    (∀ f, s.handed (.setBeatSource 1 f) = true → f ≤ 1 → s.beat.source = .external →
      exec (.setBeatSource 1 f) s = .next
        (((s.withBeat
          { s.beat with
            source := .manual, filter := decide (f = 1), ring := [], lastEdge := none, lastBeat := s.now, pulse := none
            period := roundHalfUpNat 6000000 s.beat.tempo, clock := .manual }).withNotices
          { s.link.notices with beatState := some ⟨.manual, .source⟩ }).answered .ok
          [1, if f = 1 then 1 else 0, BitVec.ofNat 8 ClockState.manual.code])) ∧
    (∀ f, s.handed (.setBeatSource 0 f) = true → f ≤ 1 → s.beat.source = .manual →
      exec (.setBeatSource 0 f) s = .next
        (((s.withBeat
          { s.beat with
            source := .external, filter := decide (f = 1), ring := [], lastEdge := none, lastBeat := s.now, pulse := none
            lone := 3, clock := .freewheel }).withNotices
          { s.link.notices with beatState := some ⟨.freewheel, .source⟩ }).answered .ok
          [0, if f = 1 then 1 else 0, BitVec.ofNat 8 ClockState.freewheel.code])) ∧
    ∀ src f, s.handed (.setBeatSource src f) = true → 1 < src ∨ 1 < f →
      exec (.setBeatSource src f) s = .next (s.refused .badArg)

/-- A rising edge is timed by the filter for 2.0 ms or accepted at once, and a fall within the 2.0 ms discards it (R173). An
accepted edge less than 200 ms after the last is rejected; any other updates ring and period, realigns the flywheel, clears
the lone-beat count and locks a freewheeling clock, and is a beat when more than a quarter period has passed since the last
(R174, R175, R178, R179, R182). The model's choice: one pulse is held, a rise replacing one not yet taken (log entry 34), and a
bar start is handed to all eight lists, each of which then takes it (log entry 21). -/
def Obligations.EdgesLockTheClock : Prop :=
  ∀ s : State, s.resetting = none →
    (s.beat.source = .external →
      exec .beatRise s = .next
        (s.withBeat
          { s.beat with
            pulse := some (if s.beat.filter = true then ⟨s.now + 2000, true⟩ else ⟨s.now, false⟩) }).pump) ∧
    (∀ at', s.beat.pulse = some ⟨at', true⟩ → s.now < at' →
      exec .beatPulseFall s = .next (s.withBeat { s.beat with pulse := none }).pump) ∧
    ∀ pulse, s.beat.pulse = some pulse → pulse.accepts ≤ s.now →
      (∀ e, s.beat.lastEdge = some e → (s.now - e) / 100 < 2000 →
        exec .acceptedEdge s = .next (s.withBeat { s.beat with pulse := none }).pump) ∧
      ((∀ e, s.beat.lastEdge = some e → 2000 ≤ (s.now - e) / 100) →
        ∃ t : State, exec .acceptedEdge s = .next t.pump ∧
          t = ((s.withBeat t.beat).withPlayback t.playback).withNotices
            { s.link.notices with
              beatState := if s.beat.clock = .freewheel then some ⟨.locked, .edge⟩ else s.link.notices.beatState } ∧
          t.beat.pulse = none ∧ t.beat.lastEdge = some s.now ∧ t.beat.lone = 0 ∧
          t.beat.clock = (if s.beat.clock = .freewheel then .locked else s.beat.clock) ∧
          t.beat.ring = (match s.beat.lastEdge with
            | some e =>
              if (s.now - e) / 100 ≤ 20000 then
                (if s.beat.ring.length < 4 then s.beat.ring else s.beat.ring.drop 1) ++ [(s.now - e) / 100]
              else s.beat.ring
            | none => s.beat.ring) ∧
          t.beat.period =
            (if t.beat.ring = [] then s.beat.period
            else (t.beat.ring.sum + t.beat.ring.length / 2) / t.beat.ring.length) ∧
          t.beat.flywheel = some (s.now + 100 * t.beat.period) ∧
          t.beat.tempo = s.beat.tempo ∧ t.beat.source = s.beat.source ∧ t.beat.filter = s.beat.filter ∧
          t.beat.beatsPerBar = s.beat.beatsPerBar ∧
          (4 * (s.now - s.beat.lastBeat) ≤ 100 * s.beat.period →
            t.beat.lastBeat = s.beat.lastBeat ∧ t.beat.beatsToBar = s.beat.beatsToBar ∧ t.beat.bar = s.beat.bar ∧
            t.playback = s.playback) ∧
          (100 * s.beat.period < 4 * (s.now - s.beat.lastBeat) →
            t.beat.lastBeat = s.now ∧
            (1 < s.beat.beatsToBar →
              t.beat.beatsToBar = s.beat.beatsToBar - 1 ∧ t.beat.bar = s.beat.bar ∧ t.playback = s.playback) ∧
            (s.beat.beatsToBar ≤ 1 →
              t.beat.beatsToBar = s.beat.beatsPerBar ∧ t.beat.bar = (s.beat.bar + 1) % 65536 ∧
              ∀ n < 8, t.cueList n = { s.cueList n with barsDue := (s.cueList n).barsDue + 1 })))

/-- A flywheel expiry reloads the timer with the present period, sets the last beat time, counts a lone beat of an EXTERNAL
clock up to 3, the third of a LOCKED clock making it FREEWHEEL, and counts the beat into the bar (R177, R179, R182). That
the bar start is handed to all eight lists is the model's reading (log entry 21). -/
def Obligations.FlywheelBeats : Prop :=
  ∀ (s : State) (e : Nat), s.resetting = none → s.beat.flywheel = some e → e ≤ s.now →
    ∃ t : State, exec .flywheelExpiry s = .next t.pump ∧
      t.beat.flywheel = some (e + 100 * s.beat.period) ∧ t.beat.lastBeat = e ∧ t.beat.period = s.beat.period ∧
      t.beat.ring = s.beat.ring ∧ t.beat.lastEdge = s.beat.lastEdge ∧ t.beat.tempo = s.beat.tempo ∧
      t.beat.source = s.beat.source ∧ t.beat.filter = s.beat.filter ∧ t.beat.pulse = s.beat.pulse ∧
      t.beat.beatsPerBar = s.beat.beatsPerBar ∧
      (s.beat.source = .manual → t.beat.lone = s.beat.lone ∧ t.beat.clock = s.beat.clock) ∧
      (s.beat.source = .external →
        t.beat.lone = Nat.min 3 (s.beat.lone + 1) ∧
        t.beat.clock = if 2 ≤ s.beat.lone ∧ s.beat.clock = .locked then .freewheel else s.beat.clock) ∧
      (1 < s.beat.beatsToBar →
        t.beat.beatsToBar = s.beat.beatsToBar - 1 ∧ t.beat.bar = s.beat.bar ∧ t.playback = s.playback) ∧
      (s.beat.beatsToBar ≤ 1 →
        t.beat.beatsToBar = s.beat.beatsPerBar ∧ t.beat.bar = (s.beat.bar + 1) % 65536 ∧
        ∀ n < 8, t.cueList n = { s.cueList n with barsDue := (s.cueList n).barsDue + 1 }) ∧
      t = ((s.withBeat t.beat).withPlayback t.playback).withNotices
        { s.link.notices with
          beatState := if t.beat.clock = s.beat.clock then s.link.notices.beatState else some ⟨.freewheel, .lost⟩ }

/-! ### Fixture lines (chapter 10) -/

/-- SET_LINE stores the settings as pending, refresh 25 to 1,000 ms and gap at most 1,000 µs, and moves or clears the sync
flag; no settings in force and no frame in progress change (R193). That the reply says 'pending' with a flag byte 1 before
the sync flag is the model's choice (log entry 10). -/
def Obligations.LineIsSet : Prop :=
  ∀ (s : State) (a : LineArgs), s.handed (.setLine a) = true → a.line ≤ 7 → 24 ≤ a.min → a.min ≤ 512 →
    ∃ (t : State) (refresh gap : Nat),
      (a.refresh < 25 → refresh = 25) ∧ (1000 < a.refresh → refresh = 1000) ∧
      (25 ≤ a.refresh → a.refresh ≤ 1000 → refresh = a.refresh) ∧
      (1000 < a.gap → gap = 1000) ∧ (a.gap ≤ 1000 → gap = a.gap) ∧
      exec (.setLine a) s = .next
        (t.answered .ok
          [BitVec.ofNat 8 a.min, BitVec.ofNat 8 (a.min / 256), BitVec.ofNat 8 refresh, BitVec.ofNat 8 (refresh / 256),
            BitVec.ofNat 8 gap, BitVec.ofNat 8 (gap / 256), 1, if a.sync = 0 then 0 else 1]) ∧
      t = s.withLines t.lines ∧
      t.line a.line = { s.line a.line with waiting := some ⟨a.min, refresh, gap⟩, sync := decide (a.sync ≠ 0) } ∧
      (∀ l < 8, l ≠ a.line →
        t.line l = if a.sync = 0 then s.line l else { s.line l with sync := false }) ∧
      t.lines.sync = if a.sync = 0 ∧ (s.line a.line).sync = true then false else s.lines.sync

/-- A frame start puts pending settings in force, fixes the slot count, copies the buffer, clears frame due, toggles SYNC on
the sync line and raises LINE_FRAMES once (R190, R191, R194). A refresh expiry reloads the timer and starts a frame, or sets
frame due while one is in progress; a frame end starts a frame at once when one is due (R192). Outside a reset LDE is high exactly
while the line is RUN or a frame is being sent, the line carries the frame in progress and mark otherwise (R195), and SYNC
stands as it was last toggled (R194); during a reset LDE and SYNC are low and the lines at mark (R207). -/
def Obligations.LinesSendFrames : Prop :=
  (∀ (s : State) (l : Nat),
    (s.ldePin l = true ↔ s.resetting = none ∧ ((s.line l).run = true ∨ (s.line l).frame.isSome = true)) ∧
    (s.syncPin = true ↔ s.resetting = none ∧ s.lines.sync = true) ∧
    (s.resetting.isSome = true ∨ (s.line l).frame = none → s.linePin l = true) ∧
    ∀ f : LineFrame, s.resetting = none → (s.line l).frame = some f →
      s.linePin l = frameLevel f (s.now - (f.ends - (192 + 44 * (f.count + 1) + f.gap * f.count)))) ∧
  (∀ (s : State) (l : Nat) (g : LineSettings), (s.line l).waiting.getD (s.line l).inForce = g →
    ∃ n, n = Nat.max g.min (s.line l).highest ∧
      (s.frameStart l).line l =
        { s.line l with
          inForce := g, waiting := none, due := false
          frame := some ⟨(s.line l).buffer, n, g.gap, s.now + (192 + 44 * (n + 1) + g.gap * n)⟩
          timer := some ((s.line l).timer.getD (s.now + 1000 * g.refresh)) } ∧
      (∀ j, j ≠ l → (s.frameStart l).line j = s.line j) ∧
      (s.frameStart l).lines.sync = (if (s.line l).sync = true then !s.lines.sync else s.lines.sync) ∧
      s.frameStart l = (s.withLines (s.frameStart l).lines).raise .lineFrames none 1) ∧
  (∀ (s : State) (l e : Nat), s.resetting = none → (s.line l).run = true → (s.line l).timer = some e → e ≤ s.now →
    ((s.line l).frame = none →
      exec (.refreshExpiry l) s = .next
        ((s.setLine l { s.line l with timer := some (e + 1000 * (s.line l).inForce.refresh) }).frameStart l).pump) ∧
    ((s.line l).frame.isSome = true →
      exec (.refreshExpiry l) s = .next
        (s.setLine l
          { s.line l with timer := some (e + 1000 * (s.line l).inForce.refresh), due := true }).pump)) ∧
  ∀ (s : State) (l : Nat) (f : LineFrame), s.resetting = none → (s.line l).frame = some f → f.ends ≤ s.now →
    ((s.line l).due = true → (s.line l).run = true →
      exec (.frameEnd l) s = .next ((s.setLine l { s.line l with frame := none }).frameStart l).pump) ∧
    ((s.line l).due = false ∨ (s.line l).run = false →
      exec (.frameEnd l) s = .next (s.setLine l { s.line l with frame := none }).pump)

/-- The waveform of a frame (10.3): a break of 176 µs low, a mark of 16 µs, then the start code slot and slots 1 to n, each
with a start bit, 8 data bits of its value in the snapshot, least significant first, and 2 stop bits, of 4 µs each, and a
slot gap of mark after every slot but the last. -/
def Obligations.FramesCarryTheirSlots : Prop :=
  ∀ (f : LineFrame),
    (∀ t, t < 176 → frameLevel f t = false) ∧ (∀ t, 176 ≤ t → t < 192 → frameLevel f t = true) ∧
    ∀ i, i ≤ f.count →
      (∀ d, d < 4 → frameLevel f (192 + (44 + f.gap) * i + d) = false) ∧
      (∀ b d, b < 8 → d < 4 →
        frameLevel f (192 + (44 + f.gap) * i + 4 * (b + 1) + d) =
          (if i = 0 then (0 : Byte) else Store.get 0 f.snapshot i).getLsbD b) ∧
      (∀ d, 36 ≤ d → d < 44 + f.gap → frameLevel f (192 + (44 + f.gap) * i + d) = true)

/-! ### Invariants -/

/-- The invariants hold right after reset (R38, R81, R108, R144, R145, R175, R197). -/
def Obligations.InvariantsHoldAtReset : Prop :=
  State.reset.stacksOk = true ∧ State.reset.poolsOk = true ∧ State.reset.beat.ok = true ∧ State.reset.memory.ok ∧
    State.reset.motionOk ∧ State.reset.storageOk = true ∧ State.reset.pending = []

/-- Every step keeps every claim stack in order: at most 4 entries, no two of one source, in falling priority (R38). Every
step keeps the job slots in use within their pools, 24 shared and 2 in each reserve, and no fixture gets a second QUEUED
job (R81, R82). -/
def Obligations.StacksAndPoolsStayInOrder : Prop :=
  (∀ s t : State, s.stacksOk = true → step s = .next t → t.stacksOk = true) ∧
  ∀ s t : State, s.poolsOk = true → step s = .next t → t.poolsOk = true

/-- Every step keeps the beat period within 2,000 to 20,000, with the ring, the tempo and the bar counts in their ranges
(R174 to R177, R182, R183). -/
def Obligations.BeatStaysInRange : Prop :=
  ∀ s t : State, s.beat.ok = true → step s = .next t → t.beat.ok = true

/-- Every step keeps the runs of Cue Memory apart, the fill mark at or below the palette floor and both directories in
strictly ascending number (R144, R145), and keeps the slot buffers, the snapshots of frames and the slots of Cue Memory in
canonical form. -/
def Obligations.CueMemoryStaysInOrder : Prop :=
  (∀ s t : State, s.memory.ok → step s = .next t → t.memory.ok) ∧
  ∀ s t : State, s.storageOk = true → step s = .next t → t.storageOk = true

/-- Every step keeps the motion position of every fixture within its kind's pan and tilt ranges (R108). -/
def Obligations.PositionsStayInRange : Prop :=
  ∀ s t : State, s.motionOk → step s = .next t → t.motionOk

/-! ### Hand-overs of an aim (chapters 3 and 6) -/

/-- What becomes of a motion record when an aim is handed over, started, delivered or given up. Carrying out an outcome
replaces that one record, raises RETARGET and LIMIT_CLAMP as it says, and reports a settled item to the Playback Unit and the
stack (R41). Starting a TIMED or a CHASE move on a stepping record (R101), beginning a sweep (R109), resuming after STOP and
at START (R116, R118). A hand-over of ANGLES, POINT or SWEEP, with its request class (R42, R98), the empty stack (R44, R98,
R113), and a delivery, a DEGENERATE one too (R70, R100, R111); a record that is not stepping only stores its target (R102). A claim hands over its stack's new top with the entry's own time,
a release with the release time (R42, R46). The model's readings: a delivered centre also replaces the target field, and a
DEGENERATE delivery on a stepping record leaves the target and LIMITED (log entry 26); a claim placed below that uncovers a
new top hands that top over with its own time (log entry 9); the first centre of a sweep begun anew by STOP low replaces
its centre (log entry 43), a sweep begun by a delivery takes the pending time (log entry 44), and the DONE sweep record of an
earlier aim does not keep a resumed SWEEP from beginning (log entry 46). -/
def Obligations.AimsAreHandedOver : Prop :=
  (∀ (s : State) (f : Nat) (o : MotionOut),
    ∃ t : State, s.applyMotion f o = t ∧
      t = (((s.withMotion t.motion).withLink t.link).withClaims t.claims).withPlayback t.playback ∧
      t.motionOf f = some o.after ∧ (∀ g, g ≠ f → t.motionOf g = s.motionOf g) ∧
      t.link =
        (if o.retarget = true then
          if o.clampEvent = true then (s.raise .retarget none 1).raise .limitClamp none 1 else s.raise .retarget none 1
        else if o.clampEvent = true then s.raise .limitClamp none 1 else s).link ∧
      t.claims.colour = s.claims.colour ∧ t.claims.prio = s.claims.prio ∧
      (o.report = none → t.playback = s.playback ∧ t.claims = s.claims) ∧
      ∀ tag, o.report = some tag →
        t.playback.reports = s.playback.reports ++ [⟨true, tag⟩] ∧ (∀ g, g ≠ f → t.aimStack g = s.aimStack g) ∧
        t.aimStack f = (s.aimStack f).map fun e => if e.tag = some tag then { e with owed := false } else e) ∧
  (∀ (k : Profile) (m d : Motion) (ms : Nat) (pan tilt : Int) (under : Bool),
    d = { m with tgtPan := pan, tgtTilt := tilt, sweep := none, brake := none, limited := false } →
    under = decide (m.mode = .timed ∨ m.mode = .chase ∨ m.mode = .sweep) →
    m.startMove k .timed ms pan tilt =
      (if pan = m.pan ∧ tilt = m.tilt then
        ⟨{ d with mode := .held, vPan := 0, vTilt := 0, plan := none, tag := if m.awaiting = true then m.tag else none },
          if m.awaiting = true then none else m.tag, under, false⟩
      else
        ⟨{ d with
            mode := .timed, vPan := 0, vTilt := 0, plan := some (makePlan k m pan tilt ms 1)
            limited := planLimited k m pan tilt ms }, none, under, false⟩) ∧
    m.startMove k .chase ms pan tilt =
      if pan = m.pan ∧ tilt = m.tilt ∧ m.vPan = 0 ∧ m.vTilt = 0 then
        ⟨{ d with mode := .held, plan := none, tag := if m.awaiting = true then m.tag else none },
          if m.awaiting = true then none else m.tag, under, false⟩
      else ⟨{ d with mode := .chase, plan := none }, none, under, false⟩) ∧
  (∀ (k : Profile) (m : Motion) (pa ta lm n ms : Nat) (pan tilt : Int) (w : Sweep),
    w = ⟨pan, tilt, max (k.panMin * 16) (min (k.panMax * 16) (pan + pa * 16)),
      max (k.tiltMin * 16) (min (k.tiltMax * 16) (tilt + ta * 16)),
      max (k.panMin * 16) (min (k.panMax * 16) (pan - pa * 16)),
      max (k.tiltMin * 16) (min (k.tiltMax * 16) (tilt - ta * 16)), pa, ta, lm, n, decide (n = 0), true, .toA, true⟩ →
    k.rangesOk →
    m.beginSweep k pa ta lm n pan tilt ms =
      ⟨{ m with
          tgtPan := pan, tgtTilt := tilt, brake := none, mode := .sweep, vPan := 0, vTilt := 0, sweep := some w
          plan := some (makePlan k m w.aPan w.aTilt ms 1), limited := planLimited k m w.aPan w.aTilt ms }, none,
        decide (m.mode = .timed ∨ m.mode = .chase ∨ m.mode = .sweep), false⟩) ∧
  (∀ (k : Profile) (m : Motion),
    (m.aim = none → m.resume k = ⟨m, none, false, false⟩ ∧ m.startLive k = ⟨m, none, false, false⟩) ∧
    (∀ p, m.aim = some (.point p) →
      m.resume k = m.startMove k .timed 0 m.tgtPan m.tgtTilt ∧ m.startLive k = ⟨m, none, false, false⟩) ∧
    (∀ a b, m.aim = some (.angles a b) →
      m.resume k = m.startMove k .timed 0 m.tgtPan m.tgtTilt ∧ m.startLive k = m.resume k) ∧
    ∀ cen pa ta lm n, m.aim = some (.sweep cen pa ta lm n) →
      (∀ a b, cen = .angles a b → m.startLive k = m.resume k) ∧
      (∀ p, cen = .point p → m.startLive k = ⟨m, none, false, false⟩) ∧
      (∀ w, m.sweep = some w → w.current = true → w.phase = .done →
        m.resume k =
          ⟨({ m with brake := none } : Motion).toCentre k { w with centrePan := m.tgtPan, centreTilt := m.tgtTilt } 0,
            none, false, false⟩) ∧
      ((∀ w, m.sweep = some w → w.current = false ∨ w.phase ≠ .done) →
        m.resume k = m.beginSweep k pa ta lm n m.tgtPan m.tgtTilt 0)) ∧
  (∀ (s : State) (f ms : Nat) (e : Entry AimClaim) (m d : Motion) (k : Profile), s.motionOf f = some m →
    s.profileOf f = some k →
    d = { m with
      sweep := m.sweep.map (fun w => { w with current := false }), aim := some e.body.target
      tag := if e.owed = true then e.tag else none } →
    (∀ pan tilt a b changed, e.body.target = .angles pan tilt → a = max k.panMin (min k.panMax pan) →
      b = max k.tiltMin (min k.tiltMax tilt) → changed = decide (a ≠ pan ∨ b ≠ tilt) → k.rangesOk →
      (s.motionStepping = false →
        s.handAim f e ms =
          ((s.applyMotion f
            ⟨{ d with awaiting := false, clamped := changed, tgtPan := a * 16, tgtTilt := b * 16 }, none, false,
              changed⟩).setOwed f none, false)) ∧
      (s.motionStepping = true →
        s.handAim f e ms =
          ((s.applyMotion f
            { ({ d with awaiting := false, clamped := changed } : Motion).startMove k e.body.law ms (a * 16) (b * 16) with
              clampEvent := changed }).setOwed f none, false))) ∧
    (∀ pan tilt pa ta lm n a b changed, e.body.target = .sweep (.angles pan tilt) pa ta lm n →
      a = max k.panMin (min k.panMax pan) → b = max k.tiltMin (min k.tiltMax tilt) →
      changed = decide (a ≠ pan ∨ b ≠ tilt) → k.rangesOk →
      (s.motionStepping = false →
        s.handAim f e ms =
          ((s.applyMotion f
            ⟨{ d with awaiting := false, clamped := changed, tgtPan := a * 16, tgtTilt := b * 16 }, none, false,
              changed⟩).setOwed f none, false)) ∧
      (s.motionStepping = true →
        s.handAim f e ms =
          ((s.applyMotion f
            { ({ d with awaiting := false, clamped := changed } : Motion).beginSweep k pa ta lm n (a * 16) (b * 16) ms with
              clampEvent := changed }).setOwed f none, false))) ∧
    (∀ (p : Nat) (law : Law) (cls : Cls) (v : State),
      (e.body.target = .point p ∧ law = e.body.law) ∨
        (law = .timed ∧ ∃ pa ta lm n, e.body.target = .sweep (.point p) pa ta lm n) →
      (e.source ≤ 7 → cls = .cue) → (e.source = 8 → cls = .track) → (8 < e.source → cls = .direct) →
      v = s.setMotionOf f (some { d with awaiting := true, pendLaw := law, pendMs := ms }) →
      ((s.point p).pos = none → s.handAim f e ms = (v, false)) ∧
      ((s.point p).pos.isSome = true →
        s.handAim f e ms = ((v.request f p cls).1, decide ((v.request f p cls).2 = .owed)))) ∧
    ∀ h : Motion, h = { m with aim := none, awaiting := false, tag := none } →
      (m.mode = .held →
        s.handNoAim f = (s.setMotionOf f (some { h with tgtPan := m.pan, tgtTilt := m.tilt })).setOwed f none) ∧
      (m.mode = .braking → s.handNoAim f = (s.setMotionOf f (some h)).setOwed f none) ∧
      (m.mode ≠ .held → m.mode ≠ .braking →
        s.handNoAim f =
          (s.setMotionOf f (some
            (if m.vPan = 0 ∧ m.vTilt = 0 then { h with plan := none, sweep := none, mode := .held, brake := none }
            else { h with plan := none, sweep := none, mode := .braking, brake := some .release }))).setOwed f none)) ∧
  (∀ (k : Profile) (m : Motion) (r : SolveResult) (stepping : Bool),
    (r.degenerate = true →
      m.deliver k stepping r =
        if stepping = true then
          ⟨{ m with
              awaiting := false, plan := none, sweep := none, brake := none, mode := .held, vPan := 0, vTilt := 0
              clamped := false, tag := none }, m.tag, false, false⟩
        else
          ⟨{ m with awaiting := false, clamped := false, sweep := none, tgtPan := m.pan, tgtTilt := m.tilt }, none, false,
            false⟩) ∧
    ∀ c d, selectAim k m.pan m.tilt r = some c → d = { m with clamped := decide (c.clamp ≠ 0), awaiting := false } →
      (stepping = false →
        m.deliver k stepping r =
          ⟨{ d with tgtPan := c.pan * 16, tgtTilt := c.tilt * 16 }, none, false, decide (c.clamp ≠ 0)⟩) ∧
      (stepping = true → (∀ cen pa ta lm n, m.aim ≠ some (.sweep cen pa ta lm n)) →
        m.deliver k stepping r =
          { d.startMove k (if m.awaiting = true then m.pendLaw else .chase) m.pendMs (c.pan * 16) (c.tilt * 16) with
            clampEvent := decide (c.clamp ≠ 0) }) ∧
      (stepping = true → ∀ cen pa ta lm n, m.aim = some (.sweep cen pa ta lm n) →
        (∀ w, m.sweep = some w → w.current = true → w.phase ≠ .done →
          m.deliver k stepping r =
            ⟨{ d with
                tgtPan := c.pan * 16, tgtTilt := c.tilt * 16
                sweep := some { w with centrePan := c.pan * 16, centreTilt := c.tilt * 16 } }, none, false,
              decide (c.clamp ≠ 0)⟩) ∧
        (∀ w, m.sweep = some w → w.current = true → w.phase = .done →
          m.deliver k stepping r =
            ⟨({ d with tgtPan := c.pan * 16, tgtTilt := c.tilt * 16, brake := none } : Motion).toCentre k
              { w with centrePan := c.pan * 16, centreTilt := c.tilt * 16 } w.legMs, none, false,
              decide (c.clamp ≠ 0)⟩) ∧
        ((∀ w, m.sweep = some w → w.current = false) →
          m.deliver k stepping r =
            { d.beginSweep k pa ta lm n (c.pan * 16) (c.tilt * 16) m.pendMs with
              clampEvent := decide (c.clamp ≠ 0) }))) ∧
  ∀ (s u : State) (f src ms : Nat) (c : AimClaim) (p : Placement AimClaim),
    p = placeClaim (s.aimStack f) src (s.priority src) c none →
    u = (s.setAimStack f p.stack).withPlayback
      { s.playback with reports := s.playback.reports ++ p.reports.map fun tag => ⟨false, tag⟩ } →
    (p.newTop = false → s.claimAim f src c = (u, p.answer, false)) ∧
    (p.newTop = true → ∀ e es, p.stack = e :: es →
      s.claimAim f src c = ((u.handAim f e e.body.ms).1, p.answer, (u.handAim f e e.body.ms).2)) ∧
    ∀ (rest : List (Entry AimClaim)) (v : State), rest = (s.aimStack f).filter (fun e => decide (e.source ≠ src)) →
      v = (s.setAimStack f rest).withPlayback
        { s.playback with
          reports := s.playback.reports ++
            (((s.aimStack f).filterMap fun e => if e.source = src ∧ e.owed = true then e.tag else none).map fun tag =>
              ⟨false, tag⟩) } →
      holdsSource src (s.aimStack f) = true →
      (topIsSource src (s.aimStack f) = false → s.releaseAim f src ms = (v, true)) ∧
      (topIsSource src (s.aimStack f) = true →
        (∀ e es, rest = e :: es → s.releaseAim f src ms = ((v.handAim f e ms).1, true)) ∧
        (rest = [] → s.releaseAim f src ms = (v.handNoAim f, true)))
end

