-- ==== Sys2Proof/Laws/Bytes.lean ====
section
/-! SUPPORT. Fields of the host link written and read back (11.8). -/

namespace Sys2Proof.Machine

theorem byteOf_toNat (n : Nat) : (byteOf n).toNat = n % 256 := by simp [byteOf]

@[simp] theorem u1_byteOf (n : Nat) (p : List Byte) : u1 (byteOf n :: p) 0 = n % 256 := by simp [u1, byteOf]

@[simp] theorem u1_succ (b : Byte) (p : List Byte) (o : Nat) : u1 (b :: p) (o + 1) = u1 p o := by simp [u1]

theorem u1_le1 (n : Nat) (p : List Byte) (h : n < 256) : u1 (le1 n ++ p) 0 = n := by
  simp [le1, Nat.mod_eq_of_lt h]

theorem u2_le2 (n : Nat) (p : List Byte) (h : n < 65536) : u2 (le2 n ++ p) 0 = n := by
  simp [le2, u2]; omega

theorem u4_le4 (n : Nat) (p : List Byte) (h : n < 4294967296) : u4 (le4 n ++ p) 0 = n := by
  have e3 := u1_succ (byteOf n) (byteOf (n / 256) :: byteOf (n / 65536) :: byteOf (n / 16777216) :: p) 2
  have e2 := u1_succ (byteOf n) (byteOf (n / 256) :: byteOf (n / 65536) :: byteOf (n / 16777216) :: p) 1
  simp only [le4, u4, u2, List.cons_append, List.nil_append, Nat.reduceAdd, Nat.zero_add] at *
  rw [e3, e2]
  simp
  omega

theorem s2_se2 (i : Int) (p : List Byte) (h : -32768 ≤ i) (h' : i < 32768) : s2 (se2 i ++ p) 0 = i := by
  have hb : (i % 65536).toNat < 65536 := by omega
  simp only [s2, se2, u2_le2 _ p hb]
  split <;> omega

theorem s4_se4 (i : Int) (p : List Byte) (h : -2147483648 ≤ i) (h' : i < 2147483648) : s4 (se4 i ++ p) 0 = i := by
  have hb : (i % 4294967296).toNat < 4294967296 := by omega
  simp only [s4, se4, u4_le4 _ p hb]
  split <;> omega

end Sys2Proof.Machine
end

