-- ==== Sys2Proof/Laws/Store.lean ====
section
/-! SUPPORT. What reading and writing numbered storage does: a read after a write, and the canonical form kept. -/

namespace Sys2Proof

variable {α : Type}

/-! ### Reads after writes -/

@[simp] theorem Store.get_erase_same (d : α) (m : Store α) (k : Nat) : Store.get d (Store.erase m k) k = d := by
  induction m with
  | nil => rfl
  | cons e m ih =>
    obtain ⟨j, v⟩ := e
    by_cases h : j = k <;> simp [Store.erase, Store.get, h, ih]

theorem Store.get_erase_other (d : α) (m : Store α) {k i : Nat} (hi : i ≠ k) :
    Store.get d (Store.erase m k) i = Store.get d m i := by
  induction m with
  | nil => rfl
  | cons e m ih =>
    obtain ⟨j, v⟩ := e
    by_cases h : j = k
    · subst h; simp [Store.erase, Store.get, ih, Ne.symm hi]
    · simp [Store.erase, Store.get, h, ih]

@[simp] theorem Store.get_insert_same (d : α) (m : Store α) (k : Nat) (v : α) (h : ∀ e ∈ m, e.1 ≠ k) :
    Store.get d (Store.insert k v m) k = v := by
  induction m with
  | nil => simp [Store.insert, Store.get]
  | cons e m ih =>
    obtain ⟨j, w⟩ := e
    have hj : j ≠ k := h (j, w) (by simp)
    have := ih fun e he => h e (by simp [he])
    by_cases hk : k < j <;> simp [Store.insert, Store.get, hk, hj, this]

theorem Store.get_insert_other (d : α) (m : Store α) {k i : Nat} (v : α) (hi : i ≠ k) :
    Store.get d (Store.insert k v m) i = Store.get d m i := by
  induction m with
  | nil => simp [Store.insert, Store.get, Ne.symm hi]
  | cons e m ih =>
    obtain ⟨j, w⟩ := e
    by_cases hk : k < j
    · simp [Store.insert, Store.get, hk, Ne.symm hi]
    · simp [Store.insert, Store.get, hk, ih]

theorem Store.key_of_mem_erase (m : Store α) (k : Nat) : ∀ e ∈ Store.erase m k, e.1 ≠ k ∧ e ∈ m := by
  induction m with
  | nil => simp [Store.erase]
  | cons e m ih =>
    obtain ⟨j, v⟩ := e
    intro x hx
    by_cases h : j = k
    · simp only [Store.erase, h, if_true] at hx
      exact ⟨(ih x hx).1, by simp [(ih x hx).2]⟩
    · simp only [Store.erase, h, if_false, List.mem_cons] at hx
      rcases hx with rfl | hx
      · exact ⟨h, by simp⟩
      · exact ⟨(ih x hx).1, by simp [(ih x hx).2]⟩

/-- A read after a write of one number: the value written there, and what stood anywhere else. -/
theorem Store.get_set [DecidableEq α] (d : α) (m : Store α) (k i : Nat) (v : α) :
    Store.get d (Store.set d m k v) i = if i = k then v else Store.get d m i := by
  unfold Store.set
  by_cases hi : i = k
  · subst hi
    by_cases hv : v = d
    · simp [hv]
    · simp [hv, Store.get_insert_same d _ i v fun e he => (Store.key_of_mem_erase m i e he).1]
  · by_cases hv : v = d
    · simp [hv, hi, Store.get_erase_other d m hi]
    · simp [hv, hi, Store.get_insert_other d _ v hi, Store.get_erase_other d m hi]

@[simp] theorem Store.get_set_same [DecidableEq α] (d : α) (m : Store α) (k : Nat) (v : α) :
    Store.get d (Store.set d m k v) k = v := by simp [Store.get_set]

theorem Store.get_set_other [DecidableEq α] (d : α) (m : Store α) {k i : Nat} (v : α) (hi : i ≠ k) :
    Store.get d (Store.set d m k v) i = Store.get d m i := by simp [Store.get_set, hi]

/-- A list of writes leaves every number it does not name. -/
theorem Store.get_setAll_other [DecidableEq α] (d : α) (m : Store α) (ws : List (Nat × α)) {i : Nat}
    (hi : ∀ w ∈ ws, w.1 ≠ i) : Store.get d (Store.setAll d m ws) i = Store.get d m i := by
  induction ws generalizing m with
  | nil => rfl
  | cons w ws ih =>
    obtain ⟨k, v⟩ := w
    rw [Store.setAll, ih _ fun w hw => hi w (by simp [hw])]
    exact Store.get_set_other d m v (Ne.symm (hi (k, v) (by simp)))

/-- A number written with one value alone reads as that value. -/
theorem Store.get_setAll_of_mem [DecidableEq α] (d : α) (m : Store α) (ws : List (Nat × α)) {i : Nat} {v : α}
    (hm : ∃ w ∈ ws, w.1 = i) (hv : ∀ w ∈ ws, w.1 = i → w.2 = v) : Store.get d (Store.setAll d m ws) i = v := by
  induction ws generalizing m with
  | nil => simp at hm
  | cons w ws ih =>
    obtain ⟨k, u⟩ := w
    rw [Store.setAll]
    by_cases hr : ∃ w ∈ ws, w.1 = i
    · exact ih _ hr fun w hw => hv w (by simp [hw])
    · rw [Store.get_setAll_other d _ ws fun w hw e => hr ⟨w, hw, e⟩]
      obtain ⟨w, hw, e⟩ := hm
      rcases List.mem_cons.1 hw with rfl | hw
      · have := hv (k, u) (by simp) e
        simp only at e this
        simp [← e, this]
      · exact absurd ⟨w, hw, e⟩ hr

/-! ### One write over another -/

theorem Store.erase_insert (m : Store α) (k : Nat) (v : α) (h : ∀ e ∈ m, e.1 ≠ k) :
    Store.erase (Store.insert k v m) k = m := by
  induction m with
  | nil => simp [Store.insert, Store.erase]
  | cons e m ih =>
    obtain ⟨j, w⟩ := e
    have hj : j ≠ k := h (j, w) (by simp)
    have hm : ∀ e ∈ m, e.1 ≠ k := fun e he => h e (by simp [he])
    have herase : ∀ l : Store α, (∀ e ∈ l, e.1 ≠ k) → Store.erase l k = l := by
      intro l
      induction l with
      | nil => simp [Store.erase]
      | cons e l ihl =>
        obtain ⟨i, u⟩ := e
        intro hl
        have hi : i ≠ k := hl (i, u) (by simp)
        simp [Store.erase, hi, ihl fun e he => hl e (by simp [he])]
    by_cases hk : k < j <;> simp [Store.insert, Store.erase, hk, hj, ih hm, herase m hm]

theorem Store.erase_erase (m : Store α) (k : Nat) : Store.erase (Store.erase m k) k = Store.erase m k := by
  induction m with
  | nil => rfl
  | cons e m ih =>
    obtain ⟨j, w⟩ := e
    by_cases h : j = k <;> simp [Store.erase, h, ih]

/-- The later of two writes of one number stands. -/
@[simp] theorem Store.set_set [DecidableEq α] (d : α) (m : Store α) (k : Nat) (v w : α) :
    Store.set d (Store.set d m k v) k w = Store.set d m k w := by
  have h : Store.erase (Store.set d m k v) k = Store.erase m k := by
    unfold Store.set
    by_cases hv : v = d
    · simp [hv, Store.erase_erase]
    · simp [hv, Store.erase_insert _ k v fun e he => (Store.key_of_mem_erase m k e he).1]
  rw [Store.set, h, ← Store.set]

/-! ### The canonical form -/

theorem Store.rising_iff (m : Store α) : Store.rising m = true ↔ m.Pairwise fun a b => a.1 < b.1 := by
  induction m with
  | nil => simp [Store.rising]
  | cons a m ih =>
    cases m with
    | nil => simp [Store.rising]
    | cons b m =>
      obtain ⟨j, v⟩ := a
      obtain ⟨k, w⟩ := b
      simp only [Store.rising, Bool.and_eq_true, decide_eq_true_eq, ih, List.pairwise_cons, List.mem_cons]
      constructor
      · rintro ⟨hjk, hk, hm⟩
        refine ⟨?_, hk, hm⟩
        rintro x (rfl | hx)
        · exact hjk
        · exact lt_trans hjk (hk x hx)
      · rintro ⟨hj, hk, hm⟩
        exact ⟨hj (k, w) (Or.inl rfl), hk, hm⟩

theorem Store.wf_iff [DecidableEq α] (d : α) (m : Store α) :
    Store.wf d m = true ↔ (m.Pairwise fun a b => a.1 < b.1) ∧ ∀ e ∈ m, e.2 ≠ d := by
  simp [Store.wf, Store.rising_iff]

theorem Store.erase_sublist (m : Store α) (k : Nat) : (Store.erase m k).Sublist m := by
  induction m with
  | nil => simp [Store.erase]
  | cons e m ih =>
    obtain ⟨j, v⟩ := e
    by_cases h : j = k
    · simpa [Store.erase, h] using ih.cons (j, v)
    · simpa [Store.erase, h] using ih

theorem Store.mem_insert (m : Store α) (k : Nat) (v : α) (e : Nat × α) (he : e ∈ Store.insert k v m) :
    e = (k, v) ∨ e ∈ m := by
  induction m with
  | nil => simpa [Store.insert] using he
  | cons x m ih =>
    obtain ⟨j, w⟩ := x
    by_cases hk : k < j
    · simpa [Store.insert, hk] using he
    · simp only [Store.insert, hk, if_false, List.mem_cons] at he
      rcases he with rfl | he
      · simp
      · rcases ih he with h | h <;> simp [h]

theorem Store.insert_rising (m : Store α) (k : Nat) (v : α) (hm : m.Pairwise fun a b => a.1 < b.1)
    (hk : ∀ e ∈ m, e.1 ≠ k) : (Store.insert k v m).Pairwise fun a b => a.1 < b.1 := by
  induction m with
  | nil => simp [Store.insert]
  | cons x m ih =>
    obtain ⟨j, w⟩ := x
    rw [List.pairwise_cons] at hm
    by_cases h : k < j
    · simp only [Store.insert, h, if_true, List.pairwise_cons, List.mem_cons]
      refine ⟨?_, hm.1, hm.2⟩
      rintro x (rfl | hx)
      · exact h
      · exact lt_trans h (hm.1 x hx)
    · simp only [Store.insert, h, if_false, List.pairwise_cons]
      refine ⟨fun x hx => ?_, ih hm.2 fun e he => hk e (by simp [he])⟩
      rcases Store.mem_insert m k v x hx with rfl | hx
      · have := hk (j, w) (by simp)
        simp only at this ⊢
        omega
      · exact hm.1 x hx

/-- A write keeps the canonical form. -/
theorem Store.wf_set [DecidableEq α] (d : α) (m : Store α) (k : Nat) (v : α) (h : Store.wf d m = true) :
    Store.wf d (Store.set d m k v) = true := by
  rw [Store.wf_iff] at h ⊢
  have he : (Store.erase m k).Pairwise fun a b => a.1 < b.1 := h.1.sublist (Store.erase_sublist m k)
  have hd : ∀ e ∈ Store.erase m k, e.2 ≠ d := fun e he => h.2 e (Store.key_of_mem_erase m k e he).2
  unfold Store.set
  by_cases hv : v = d
  · simpa [hv] using ⟨he, fun a b hab => hd (a, b) hab⟩
  · simp only [hv, if_false]
    refine ⟨Store.insert_rising _ k v he fun e he => (Store.key_of_mem_erase m k e he).1, fun e hm => ?_⟩
    rcases Store.mem_insert _ k v e hm with rfl | hm
    · exact hv
    · exact hd e hm

/-- A list of writes keeps the canonical form. -/
theorem Store.wf_setAll [DecidableEq α] (d : α) (m : Store α) (ws : List (Nat × α)) (h : Store.wf d m = true) :
    Store.wf d (Store.setAll d m ws) = true := by
  induction ws generalizing m with
  | nil => exact h
  | cons w ws ih => exact ih _ (Store.wf_set d m w.1 w.2 h)

end Sys2Proof
end

