-- ==== Sys2Proof/Laws/State.lean ====
section
/-! SUPPORT. What each update of the state leaves in each field and in each numbered record, so that no later proof unfolds
a record update. -/

namespace Sys2Proof.Machine

variable (s : State)

/-! ### Each block under each block's update -/

section Now
variable (v : Nat)
@[simp] theorem State.withNow_now : (s.withNow v).now = v := rfl
@[simp] theorem State.withNow_freeUses : (s.withNow v).freeUses = s.freeUses := rfl
@[simp] theorem State.withNow_resetting : (s.withNow v).resetting = s.resetting := rfl
@[simp] theorem State.withNow_part : (s.withNow v).part = s.part := rfl
@[simp] theorem State.withNow_stop : (s.withNow v).stop = s.stop := rfl
@[simp] theorem State.withNow_link : (s.withNow v).link = s.link := rfl
@[simp] theorem State.withNow_rig : (s.withNow v).rig = s.rig := rfl
@[simp] theorem State.withNow_points : (s.withNow v).points = s.points := rfl
@[simp] theorem State.withNow_claims : (s.withNow v).claims = s.claims := rfl
@[simp] theorem State.withNow_solver : (s.withNow v).solver = s.solver := rfl
@[simp] theorem State.withNow_cache : (s.withNow v).cache = s.cache := rfl
@[simp] theorem State.withNow_motion : (s.withNow v).motion = s.motion := rfl
@[simp] theorem State.withNow_colour : (s.withNow v).colour = s.colour := rfl
@[simp] theorem State.withNow_stopToMotion : (s.withNow v).stopToMotion = s.stopToMotion := rfl
@[simp] theorem State.withNow_stopToColour : (s.withNow v).stopToColour = s.stopToColour := rfl
@[simp] theorem State.withNow_memory : (s.withNow v).memory = s.memory := rfl
@[simp] theorem State.withNow_playback : (s.withNow v).playback = s.playback := rfl
@[simp] theorem State.withNow_beat : (s.withNow v).beat = s.beat := rfl
@[simp] theorem State.withNow_lines : (s.withNow v).lines = s.lines := rfl
@[simp] theorem State.withNow_pending : (s.withNow v).pending = s.pending := rfl
@[simp] theorem State.withNow_withNow (w : Nat) : (s.withNow v).withNow w = s.withNow w := rfl
@[simp] theorem State.withNow_self : s.withNow s.now = s := rfl
end Now

section FreeUses
variable (v : Nat)
@[simp] theorem State.withFreeUses_now : (s.withFreeUses v).now = s.now := rfl
@[simp] theorem State.withFreeUses_freeUses : (s.withFreeUses v).freeUses = v := rfl
@[simp] theorem State.withFreeUses_resetting : (s.withFreeUses v).resetting = s.resetting := rfl
@[simp] theorem State.withFreeUses_part : (s.withFreeUses v).part = s.part := rfl
@[simp] theorem State.withFreeUses_stop : (s.withFreeUses v).stop = s.stop := rfl
@[simp] theorem State.withFreeUses_link : (s.withFreeUses v).link = s.link := rfl
@[simp] theorem State.withFreeUses_rig : (s.withFreeUses v).rig = s.rig := rfl
@[simp] theorem State.withFreeUses_points : (s.withFreeUses v).points = s.points := rfl
@[simp] theorem State.withFreeUses_claims : (s.withFreeUses v).claims = s.claims := rfl
@[simp] theorem State.withFreeUses_solver : (s.withFreeUses v).solver = s.solver := rfl
@[simp] theorem State.withFreeUses_cache : (s.withFreeUses v).cache = s.cache := rfl
@[simp] theorem State.withFreeUses_motion : (s.withFreeUses v).motion = s.motion := rfl
@[simp] theorem State.withFreeUses_colour : (s.withFreeUses v).colour = s.colour := rfl
@[simp] theorem State.withFreeUses_stopToMotion : (s.withFreeUses v).stopToMotion = s.stopToMotion := rfl
@[simp] theorem State.withFreeUses_stopToColour : (s.withFreeUses v).stopToColour = s.stopToColour := rfl
@[simp] theorem State.withFreeUses_memory : (s.withFreeUses v).memory = s.memory := rfl
@[simp] theorem State.withFreeUses_playback : (s.withFreeUses v).playback = s.playback := rfl
@[simp] theorem State.withFreeUses_beat : (s.withFreeUses v).beat = s.beat := rfl
@[simp] theorem State.withFreeUses_lines : (s.withFreeUses v).lines = s.lines := rfl
@[simp] theorem State.withFreeUses_pending : (s.withFreeUses v).pending = s.pending := rfl
@[simp] theorem State.withFreeUses_withFreeUses (w : Nat) : (s.withFreeUses v).withFreeUses w = s.withFreeUses w := rfl
@[simp] theorem State.withFreeUses_self : s.withFreeUses s.freeUses = s := rfl
end FreeUses

section Resetting
variable (v : Option ResetCause)
@[simp] theorem State.withResetting_now : (s.withResetting v).now = s.now := rfl
@[simp] theorem State.withResetting_freeUses : (s.withResetting v).freeUses = s.freeUses := rfl
@[simp] theorem State.withResetting_resetting : (s.withResetting v).resetting = v := rfl
@[simp] theorem State.withResetting_part : (s.withResetting v).part = s.part := rfl
@[simp] theorem State.withResetting_stop : (s.withResetting v).stop = s.stop := rfl
@[simp] theorem State.withResetting_link : (s.withResetting v).link = s.link := rfl
@[simp] theorem State.withResetting_rig : (s.withResetting v).rig = s.rig := rfl
@[simp] theorem State.withResetting_points : (s.withResetting v).points = s.points := rfl
@[simp] theorem State.withResetting_claims : (s.withResetting v).claims = s.claims := rfl
@[simp] theorem State.withResetting_solver : (s.withResetting v).solver = s.solver := rfl
@[simp] theorem State.withResetting_cache : (s.withResetting v).cache = s.cache := rfl
@[simp] theorem State.withResetting_motion : (s.withResetting v).motion = s.motion := rfl
@[simp] theorem State.withResetting_colour : (s.withResetting v).colour = s.colour := rfl
@[simp] theorem State.withResetting_stopToMotion : (s.withResetting v).stopToMotion = s.stopToMotion := rfl
@[simp] theorem State.withResetting_stopToColour : (s.withResetting v).stopToColour = s.stopToColour := rfl
@[simp] theorem State.withResetting_memory : (s.withResetting v).memory = s.memory := rfl
@[simp] theorem State.withResetting_playback : (s.withResetting v).playback = s.playback := rfl
@[simp] theorem State.withResetting_beat : (s.withResetting v).beat = s.beat := rfl
@[simp] theorem State.withResetting_lines : (s.withResetting v).lines = s.lines := rfl
@[simp] theorem State.withResetting_pending : (s.withResetting v).pending = s.pending := rfl
@[simp] theorem State.withResetting_withResetting (w : Option ResetCause) : (s.withResetting v).withResetting w = s.withResetting w := rfl
@[simp] theorem State.withResetting_self : s.withResetting s.resetting = s := rfl
end Resetting

section Part
variable (v : PartState)
@[simp] theorem State.withPart_now : (s.withPart v).now = s.now := rfl
@[simp] theorem State.withPart_freeUses : (s.withPart v).freeUses = s.freeUses := rfl
@[simp] theorem State.withPart_resetting : (s.withPart v).resetting = s.resetting := rfl
@[simp] theorem State.withPart_part : (s.withPart v).part = v := rfl
@[simp] theorem State.withPart_stop : (s.withPart v).stop = s.stop := rfl
@[simp] theorem State.withPart_link : (s.withPart v).link = s.link := rfl
@[simp] theorem State.withPart_rig : (s.withPart v).rig = s.rig := rfl
@[simp] theorem State.withPart_points : (s.withPart v).points = s.points := rfl
@[simp] theorem State.withPart_claims : (s.withPart v).claims = s.claims := rfl
@[simp] theorem State.withPart_solver : (s.withPart v).solver = s.solver := rfl
@[simp] theorem State.withPart_cache : (s.withPart v).cache = s.cache := rfl
@[simp] theorem State.withPart_motion : (s.withPart v).motion = s.motion := rfl
@[simp] theorem State.withPart_colour : (s.withPart v).colour = s.colour := rfl
@[simp] theorem State.withPart_stopToMotion : (s.withPart v).stopToMotion = s.stopToMotion := rfl
@[simp] theorem State.withPart_stopToColour : (s.withPart v).stopToColour = s.stopToColour := rfl
@[simp] theorem State.withPart_memory : (s.withPart v).memory = s.memory := rfl
@[simp] theorem State.withPart_playback : (s.withPart v).playback = s.playback := rfl
@[simp] theorem State.withPart_beat : (s.withPart v).beat = s.beat := rfl
@[simp] theorem State.withPart_lines : (s.withPart v).lines = s.lines := rfl
@[simp] theorem State.withPart_pending : (s.withPart v).pending = s.pending := rfl
@[simp] theorem State.withPart_withPart (w : PartState) : (s.withPart v).withPart w = s.withPart w := rfl
@[simp] theorem State.withPart_self : s.withPart s.part = s := rfl
end Part

section Stop
variable (v : Bool)
@[simp] theorem State.withStop_now : (s.withStop v).now = s.now := rfl
@[simp] theorem State.withStop_freeUses : (s.withStop v).freeUses = s.freeUses := rfl
@[simp] theorem State.withStop_resetting : (s.withStop v).resetting = s.resetting := rfl
@[simp] theorem State.withStop_part : (s.withStop v).part = s.part := rfl
@[simp] theorem State.withStop_stop : (s.withStop v).stop = v := rfl
@[simp] theorem State.withStop_link : (s.withStop v).link = s.link := rfl
@[simp] theorem State.withStop_rig : (s.withStop v).rig = s.rig := rfl
@[simp] theorem State.withStop_points : (s.withStop v).points = s.points := rfl
@[simp] theorem State.withStop_claims : (s.withStop v).claims = s.claims := rfl
@[simp] theorem State.withStop_solver : (s.withStop v).solver = s.solver := rfl
@[simp] theorem State.withStop_cache : (s.withStop v).cache = s.cache := rfl
@[simp] theorem State.withStop_motion : (s.withStop v).motion = s.motion := rfl
@[simp] theorem State.withStop_colour : (s.withStop v).colour = s.colour := rfl
@[simp] theorem State.withStop_stopToMotion : (s.withStop v).stopToMotion = s.stopToMotion := rfl
@[simp] theorem State.withStop_stopToColour : (s.withStop v).stopToColour = s.stopToColour := rfl
@[simp] theorem State.withStop_memory : (s.withStop v).memory = s.memory := rfl
@[simp] theorem State.withStop_playback : (s.withStop v).playback = s.playback := rfl
@[simp] theorem State.withStop_beat : (s.withStop v).beat = s.beat := rfl
@[simp] theorem State.withStop_lines : (s.withStop v).lines = s.lines := rfl
@[simp] theorem State.withStop_pending : (s.withStop v).pending = s.pending := rfl
@[simp] theorem State.withStop_withStop (w : Bool) : (s.withStop v).withStop w = s.withStop w := rfl
@[simp] theorem State.withStop_self : s.withStop s.stop = s := rfl
end Stop

section Link
variable (v : Link)
@[simp] theorem State.withLink_now : (s.withLink v).now = s.now := rfl
@[simp] theorem State.withLink_freeUses : (s.withLink v).freeUses = s.freeUses := rfl
@[simp] theorem State.withLink_resetting : (s.withLink v).resetting = s.resetting := rfl
@[simp] theorem State.withLink_part : (s.withLink v).part = s.part := rfl
@[simp] theorem State.withLink_stop : (s.withLink v).stop = s.stop := rfl
@[simp] theorem State.withLink_link : (s.withLink v).link = v := rfl
@[simp] theorem State.withLink_rig : (s.withLink v).rig = s.rig := rfl
@[simp] theorem State.withLink_points : (s.withLink v).points = s.points := rfl
@[simp] theorem State.withLink_claims : (s.withLink v).claims = s.claims := rfl
@[simp] theorem State.withLink_solver : (s.withLink v).solver = s.solver := rfl
@[simp] theorem State.withLink_cache : (s.withLink v).cache = s.cache := rfl
@[simp] theorem State.withLink_motion : (s.withLink v).motion = s.motion := rfl
@[simp] theorem State.withLink_colour : (s.withLink v).colour = s.colour := rfl
@[simp] theorem State.withLink_stopToMotion : (s.withLink v).stopToMotion = s.stopToMotion := rfl
@[simp] theorem State.withLink_stopToColour : (s.withLink v).stopToColour = s.stopToColour := rfl
@[simp] theorem State.withLink_memory : (s.withLink v).memory = s.memory := rfl
@[simp] theorem State.withLink_playback : (s.withLink v).playback = s.playback := rfl
@[simp] theorem State.withLink_beat : (s.withLink v).beat = s.beat := rfl
@[simp] theorem State.withLink_lines : (s.withLink v).lines = s.lines := rfl
@[simp] theorem State.withLink_pending : (s.withLink v).pending = s.pending := rfl
@[simp] theorem State.withLink_withLink (w : Link) : (s.withLink v).withLink w = s.withLink w := rfl
@[simp] theorem State.withLink_self : s.withLink s.link = s := rfl
end Link

section Rig
variable (v : Rig)
@[simp] theorem State.withRig_now : (s.withRig v).now = s.now := rfl
@[simp] theorem State.withRig_freeUses : (s.withRig v).freeUses = s.freeUses := rfl
@[simp] theorem State.withRig_resetting : (s.withRig v).resetting = s.resetting := rfl
@[simp] theorem State.withRig_part : (s.withRig v).part = s.part := rfl
@[simp] theorem State.withRig_stop : (s.withRig v).stop = s.stop := rfl
@[simp] theorem State.withRig_link : (s.withRig v).link = s.link := rfl
@[simp] theorem State.withRig_rig : (s.withRig v).rig = v := rfl
@[simp] theorem State.withRig_points : (s.withRig v).points = s.points := rfl
@[simp] theorem State.withRig_claims : (s.withRig v).claims = s.claims := rfl
@[simp] theorem State.withRig_solver : (s.withRig v).solver = s.solver := rfl
@[simp] theorem State.withRig_cache : (s.withRig v).cache = s.cache := rfl
@[simp] theorem State.withRig_motion : (s.withRig v).motion = s.motion := rfl
@[simp] theorem State.withRig_colour : (s.withRig v).colour = s.colour := rfl
@[simp] theorem State.withRig_stopToMotion : (s.withRig v).stopToMotion = s.stopToMotion := rfl
@[simp] theorem State.withRig_stopToColour : (s.withRig v).stopToColour = s.stopToColour := rfl
@[simp] theorem State.withRig_memory : (s.withRig v).memory = s.memory := rfl
@[simp] theorem State.withRig_playback : (s.withRig v).playback = s.playback := rfl
@[simp] theorem State.withRig_beat : (s.withRig v).beat = s.beat := rfl
@[simp] theorem State.withRig_lines : (s.withRig v).lines = s.lines := rfl
@[simp] theorem State.withRig_pending : (s.withRig v).pending = s.pending := rfl
@[simp] theorem State.withRig_withRig (w : Rig) : (s.withRig v).withRig w = s.withRig w := rfl
@[simp] theorem State.withRig_self : s.withRig s.rig = s := rfl
end Rig

section Points
variable (v : Points)
@[simp] theorem State.withPoints_now : (s.withPoints v).now = s.now := rfl
@[simp] theorem State.withPoints_freeUses : (s.withPoints v).freeUses = s.freeUses := rfl
@[simp] theorem State.withPoints_resetting : (s.withPoints v).resetting = s.resetting := rfl
@[simp] theorem State.withPoints_part : (s.withPoints v).part = s.part := rfl
@[simp] theorem State.withPoints_stop : (s.withPoints v).stop = s.stop := rfl
@[simp] theorem State.withPoints_link : (s.withPoints v).link = s.link := rfl
@[simp] theorem State.withPoints_rig : (s.withPoints v).rig = s.rig := rfl
@[simp] theorem State.withPoints_points : (s.withPoints v).points = v := rfl
@[simp] theorem State.withPoints_claims : (s.withPoints v).claims = s.claims := rfl
@[simp] theorem State.withPoints_solver : (s.withPoints v).solver = s.solver := rfl
@[simp] theorem State.withPoints_cache : (s.withPoints v).cache = s.cache := rfl
@[simp] theorem State.withPoints_motion : (s.withPoints v).motion = s.motion := rfl
@[simp] theorem State.withPoints_colour : (s.withPoints v).colour = s.colour := rfl
@[simp] theorem State.withPoints_stopToMotion : (s.withPoints v).stopToMotion = s.stopToMotion := rfl
@[simp] theorem State.withPoints_stopToColour : (s.withPoints v).stopToColour = s.stopToColour := rfl
@[simp] theorem State.withPoints_memory : (s.withPoints v).memory = s.memory := rfl
@[simp] theorem State.withPoints_playback : (s.withPoints v).playback = s.playback := rfl
@[simp] theorem State.withPoints_beat : (s.withPoints v).beat = s.beat := rfl
@[simp] theorem State.withPoints_lines : (s.withPoints v).lines = s.lines := rfl
@[simp] theorem State.withPoints_pending : (s.withPoints v).pending = s.pending := rfl
@[simp] theorem State.withPoints_withPoints (w : Points) : (s.withPoints v).withPoints w = s.withPoints w := rfl
@[simp] theorem State.withPoints_self : s.withPoints s.points = s := rfl
end Points

section Claims
variable (v : Claims)
@[simp] theorem State.withClaims_now : (s.withClaims v).now = s.now := rfl
@[simp] theorem State.withClaims_freeUses : (s.withClaims v).freeUses = s.freeUses := rfl
@[simp] theorem State.withClaims_resetting : (s.withClaims v).resetting = s.resetting := rfl
@[simp] theorem State.withClaims_part : (s.withClaims v).part = s.part := rfl
@[simp] theorem State.withClaims_stop : (s.withClaims v).stop = s.stop := rfl
@[simp] theorem State.withClaims_link : (s.withClaims v).link = s.link := rfl
@[simp] theorem State.withClaims_rig : (s.withClaims v).rig = s.rig := rfl
@[simp] theorem State.withClaims_points : (s.withClaims v).points = s.points := rfl
@[simp] theorem State.withClaims_claims : (s.withClaims v).claims = v := rfl
@[simp] theorem State.withClaims_solver : (s.withClaims v).solver = s.solver := rfl
@[simp] theorem State.withClaims_cache : (s.withClaims v).cache = s.cache := rfl
@[simp] theorem State.withClaims_motion : (s.withClaims v).motion = s.motion := rfl
@[simp] theorem State.withClaims_colour : (s.withClaims v).colour = s.colour := rfl
@[simp] theorem State.withClaims_stopToMotion : (s.withClaims v).stopToMotion = s.stopToMotion := rfl
@[simp] theorem State.withClaims_stopToColour : (s.withClaims v).stopToColour = s.stopToColour := rfl
@[simp] theorem State.withClaims_memory : (s.withClaims v).memory = s.memory := rfl
@[simp] theorem State.withClaims_playback : (s.withClaims v).playback = s.playback := rfl
@[simp] theorem State.withClaims_beat : (s.withClaims v).beat = s.beat := rfl
@[simp] theorem State.withClaims_lines : (s.withClaims v).lines = s.lines := rfl
@[simp] theorem State.withClaims_pending : (s.withClaims v).pending = s.pending := rfl
@[simp] theorem State.withClaims_withClaims (w : Claims) : (s.withClaims v).withClaims w = s.withClaims w := rfl
@[simp] theorem State.withClaims_self : s.withClaims s.claims = s := rfl
end Claims

section Solver
variable (v : Solver)
@[simp] theorem State.withSolver_now : (s.withSolver v).now = s.now := rfl
@[simp] theorem State.withSolver_freeUses : (s.withSolver v).freeUses = s.freeUses := rfl
@[simp] theorem State.withSolver_resetting : (s.withSolver v).resetting = s.resetting := rfl
@[simp] theorem State.withSolver_part : (s.withSolver v).part = s.part := rfl
@[simp] theorem State.withSolver_stop : (s.withSolver v).stop = s.stop := rfl
@[simp] theorem State.withSolver_link : (s.withSolver v).link = s.link := rfl
@[simp] theorem State.withSolver_rig : (s.withSolver v).rig = s.rig := rfl
@[simp] theorem State.withSolver_points : (s.withSolver v).points = s.points := rfl
@[simp] theorem State.withSolver_claims : (s.withSolver v).claims = s.claims := rfl
@[simp] theorem State.withSolver_solver : (s.withSolver v).solver = v := rfl
@[simp] theorem State.withSolver_cache : (s.withSolver v).cache = s.cache := rfl
@[simp] theorem State.withSolver_motion : (s.withSolver v).motion = s.motion := rfl
@[simp] theorem State.withSolver_colour : (s.withSolver v).colour = s.colour := rfl
@[simp] theorem State.withSolver_stopToMotion : (s.withSolver v).stopToMotion = s.stopToMotion := rfl
@[simp] theorem State.withSolver_stopToColour : (s.withSolver v).stopToColour = s.stopToColour := rfl
@[simp] theorem State.withSolver_memory : (s.withSolver v).memory = s.memory := rfl
@[simp] theorem State.withSolver_playback : (s.withSolver v).playback = s.playback := rfl
@[simp] theorem State.withSolver_beat : (s.withSolver v).beat = s.beat := rfl
@[simp] theorem State.withSolver_lines : (s.withSolver v).lines = s.lines := rfl
@[simp] theorem State.withSolver_pending : (s.withSolver v).pending = s.pending := rfl
@[simp] theorem State.withSolver_withSolver (w : Solver) : (s.withSolver v).withSolver w = s.withSolver w := rfl
@[simp] theorem State.withSolver_self : s.withSolver s.solver = s := rfl
end Solver

section Cache
variable (v : Cache)
@[simp] theorem State.withCache_now : (s.withCache v).now = s.now := rfl
@[simp] theorem State.withCache_freeUses : (s.withCache v).freeUses = s.freeUses := rfl
@[simp] theorem State.withCache_resetting : (s.withCache v).resetting = s.resetting := rfl
@[simp] theorem State.withCache_part : (s.withCache v).part = s.part := rfl
@[simp] theorem State.withCache_stop : (s.withCache v).stop = s.stop := rfl
@[simp] theorem State.withCache_link : (s.withCache v).link = s.link := rfl
@[simp] theorem State.withCache_rig : (s.withCache v).rig = s.rig := rfl
@[simp] theorem State.withCache_points : (s.withCache v).points = s.points := rfl
@[simp] theorem State.withCache_claims : (s.withCache v).claims = s.claims := rfl
@[simp] theorem State.withCache_solver : (s.withCache v).solver = s.solver := rfl
@[simp] theorem State.withCache_cache : (s.withCache v).cache = v := rfl
@[simp] theorem State.withCache_motion : (s.withCache v).motion = s.motion := rfl
@[simp] theorem State.withCache_colour : (s.withCache v).colour = s.colour := rfl
@[simp] theorem State.withCache_stopToMotion : (s.withCache v).stopToMotion = s.stopToMotion := rfl
@[simp] theorem State.withCache_stopToColour : (s.withCache v).stopToColour = s.stopToColour := rfl
@[simp] theorem State.withCache_memory : (s.withCache v).memory = s.memory := rfl
@[simp] theorem State.withCache_playback : (s.withCache v).playback = s.playback := rfl
@[simp] theorem State.withCache_beat : (s.withCache v).beat = s.beat := rfl
@[simp] theorem State.withCache_lines : (s.withCache v).lines = s.lines := rfl
@[simp] theorem State.withCache_pending : (s.withCache v).pending = s.pending := rfl
@[simp] theorem State.withCache_withCache (w : Cache) : (s.withCache v).withCache w = s.withCache w := rfl
@[simp] theorem State.withCache_self : s.withCache s.cache = s := rfl
end Cache

section Motion
variable (v : MotionEngine)
@[simp] theorem State.withMotion_now : (s.withMotion v).now = s.now := rfl
@[simp] theorem State.withMotion_freeUses : (s.withMotion v).freeUses = s.freeUses := rfl
@[simp] theorem State.withMotion_resetting : (s.withMotion v).resetting = s.resetting := rfl
@[simp] theorem State.withMotion_part : (s.withMotion v).part = s.part := rfl
@[simp] theorem State.withMotion_stop : (s.withMotion v).stop = s.stop := rfl
@[simp] theorem State.withMotion_link : (s.withMotion v).link = s.link := rfl
@[simp] theorem State.withMotion_rig : (s.withMotion v).rig = s.rig := rfl
@[simp] theorem State.withMotion_points : (s.withMotion v).points = s.points := rfl
@[simp] theorem State.withMotion_claims : (s.withMotion v).claims = s.claims := rfl
@[simp] theorem State.withMotion_solver : (s.withMotion v).solver = s.solver := rfl
@[simp] theorem State.withMotion_cache : (s.withMotion v).cache = s.cache := rfl
@[simp] theorem State.withMotion_motion : (s.withMotion v).motion = v := rfl
@[simp] theorem State.withMotion_colour : (s.withMotion v).colour = s.colour := rfl
@[simp] theorem State.withMotion_stopToMotion : (s.withMotion v).stopToMotion = s.stopToMotion := rfl
@[simp] theorem State.withMotion_stopToColour : (s.withMotion v).stopToColour = s.stopToColour := rfl
@[simp] theorem State.withMotion_memory : (s.withMotion v).memory = s.memory := rfl
@[simp] theorem State.withMotion_playback : (s.withMotion v).playback = s.playback := rfl
@[simp] theorem State.withMotion_beat : (s.withMotion v).beat = s.beat := rfl
@[simp] theorem State.withMotion_lines : (s.withMotion v).lines = s.lines := rfl
@[simp] theorem State.withMotion_pending : (s.withMotion v).pending = s.pending := rfl
@[simp] theorem State.withMotion_withMotion (w : MotionEngine) : (s.withMotion v).withMotion w = s.withMotion w := rfl
@[simp] theorem State.withMotion_self : s.withMotion s.motion = s := rfl
end Motion

section Colour
variable (v : ColourEngine)
@[simp] theorem State.withColour_now : (s.withColour v).now = s.now := rfl
@[simp] theorem State.withColour_freeUses : (s.withColour v).freeUses = s.freeUses := rfl
@[simp] theorem State.withColour_resetting : (s.withColour v).resetting = s.resetting := rfl
@[simp] theorem State.withColour_part : (s.withColour v).part = s.part := rfl
@[simp] theorem State.withColour_stop : (s.withColour v).stop = s.stop := rfl
@[simp] theorem State.withColour_link : (s.withColour v).link = s.link := rfl
@[simp] theorem State.withColour_rig : (s.withColour v).rig = s.rig := rfl
@[simp] theorem State.withColour_points : (s.withColour v).points = s.points := rfl
@[simp] theorem State.withColour_claims : (s.withColour v).claims = s.claims := rfl
@[simp] theorem State.withColour_solver : (s.withColour v).solver = s.solver := rfl
@[simp] theorem State.withColour_cache : (s.withColour v).cache = s.cache := rfl
@[simp] theorem State.withColour_motion : (s.withColour v).motion = s.motion := rfl
@[simp] theorem State.withColour_colour : (s.withColour v).colour = v := rfl
@[simp] theorem State.withColour_stopToMotion : (s.withColour v).stopToMotion = s.stopToMotion := rfl
@[simp] theorem State.withColour_stopToColour : (s.withColour v).stopToColour = s.stopToColour := rfl
@[simp] theorem State.withColour_memory : (s.withColour v).memory = s.memory := rfl
@[simp] theorem State.withColour_playback : (s.withColour v).playback = s.playback := rfl
@[simp] theorem State.withColour_beat : (s.withColour v).beat = s.beat := rfl
@[simp] theorem State.withColour_lines : (s.withColour v).lines = s.lines := rfl
@[simp] theorem State.withColour_pending : (s.withColour v).pending = s.pending := rfl
@[simp] theorem State.withColour_withColour (w : ColourEngine) : (s.withColour v).withColour w = s.withColour w := rfl
@[simp] theorem State.withColour_self : s.withColour s.colour = s := rfl
end Colour

section StopToMotion
variable (v : List Bool)
@[simp] theorem State.withStopToMotion_now : (s.withStopToMotion v).now = s.now := rfl
@[simp] theorem State.withStopToMotion_freeUses : (s.withStopToMotion v).freeUses = s.freeUses := rfl
@[simp] theorem State.withStopToMotion_resetting : (s.withStopToMotion v).resetting = s.resetting := rfl
@[simp] theorem State.withStopToMotion_part : (s.withStopToMotion v).part = s.part := rfl
@[simp] theorem State.withStopToMotion_stop : (s.withStopToMotion v).stop = s.stop := rfl
@[simp] theorem State.withStopToMotion_link : (s.withStopToMotion v).link = s.link := rfl
@[simp] theorem State.withStopToMotion_rig : (s.withStopToMotion v).rig = s.rig := rfl
@[simp] theorem State.withStopToMotion_points : (s.withStopToMotion v).points = s.points := rfl
@[simp] theorem State.withStopToMotion_claims : (s.withStopToMotion v).claims = s.claims := rfl
@[simp] theorem State.withStopToMotion_solver : (s.withStopToMotion v).solver = s.solver := rfl
@[simp] theorem State.withStopToMotion_cache : (s.withStopToMotion v).cache = s.cache := rfl
@[simp] theorem State.withStopToMotion_motion : (s.withStopToMotion v).motion = s.motion := rfl
@[simp] theorem State.withStopToMotion_colour : (s.withStopToMotion v).colour = s.colour := rfl
@[simp] theorem State.withStopToMotion_stopToMotion : (s.withStopToMotion v).stopToMotion = v := rfl
@[simp] theorem State.withStopToMotion_stopToColour : (s.withStopToMotion v).stopToColour = s.stopToColour := rfl
@[simp] theorem State.withStopToMotion_memory : (s.withStopToMotion v).memory = s.memory := rfl
@[simp] theorem State.withStopToMotion_playback : (s.withStopToMotion v).playback = s.playback := rfl
@[simp] theorem State.withStopToMotion_beat : (s.withStopToMotion v).beat = s.beat := rfl
@[simp] theorem State.withStopToMotion_lines : (s.withStopToMotion v).lines = s.lines := rfl
@[simp] theorem State.withStopToMotion_pending : (s.withStopToMotion v).pending = s.pending := rfl
@[simp] theorem State.withStopToMotion_withStopToMotion (w : List Bool) : (s.withStopToMotion v).withStopToMotion w = s.withStopToMotion w := rfl
@[simp] theorem State.withStopToMotion_self : s.withStopToMotion s.stopToMotion = s := rfl
end StopToMotion

section StopToColour
variable (v : List Bool)
@[simp] theorem State.withStopToColour_now : (s.withStopToColour v).now = s.now := rfl
@[simp] theorem State.withStopToColour_freeUses : (s.withStopToColour v).freeUses = s.freeUses := rfl
@[simp] theorem State.withStopToColour_resetting : (s.withStopToColour v).resetting = s.resetting := rfl
@[simp] theorem State.withStopToColour_part : (s.withStopToColour v).part = s.part := rfl
@[simp] theorem State.withStopToColour_stop : (s.withStopToColour v).stop = s.stop := rfl
@[simp] theorem State.withStopToColour_link : (s.withStopToColour v).link = s.link := rfl
@[simp] theorem State.withStopToColour_rig : (s.withStopToColour v).rig = s.rig := rfl
@[simp] theorem State.withStopToColour_points : (s.withStopToColour v).points = s.points := rfl
@[simp] theorem State.withStopToColour_claims : (s.withStopToColour v).claims = s.claims := rfl
@[simp] theorem State.withStopToColour_solver : (s.withStopToColour v).solver = s.solver := rfl
@[simp] theorem State.withStopToColour_cache : (s.withStopToColour v).cache = s.cache := rfl
@[simp] theorem State.withStopToColour_motion : (s.withStopToColour v).motion = s.motion := rfl
@[simp] theorem State.withStopToColour_colour : (s.withStopToColour v).colour = s.colour := rfl
@[simp] theorem State.withStopToColour_stopToMotion : (s.withStopToColour v).stopToMotion = s.stopToMotion := rfl
@[simp] theorem State.withStopToColour_stopToColour : (s.withStopToColour v).stopToColour = v := rfl
@[simp] theorem State.withStopToColour_memory : (s.withStopToColour v).memory = s.memory := rfl
@[simp] theorem State.withStopToColour_playback : (s.withStopToColour v).playback = s.playback := rfl
@[simp] theorem State.withStopToColour_beat : (s.withStopToColour v).beat = s.beat := rfl
@[simp] theorem State.withStopToColour_lines : (s.withStopToColour v).lines = s.lines := rfl
@[simp] theorem State.withStopToColour_pending : (s.withStopToColour v).pending = s.pending := rfl
@[simp] theorem State.withStopToColour_withStopToColour (w : List Bool) : (s.withStopToColour v).withStopToColour w = s.withStopToColour w := rfl
@[simp] theorem State.withStopToColour_self : s.withStopToColour s.stopToColour = s := rfl
end StopToColour

section Memory
variable (v : CueMemory)
@[simp] theorem State.withMemory_now : (s.withMemory v).now = s.now := rfl
@[simp] theorem State.withMemory_freeUses : (s.withMemory v).freeUses = s.freeUses := rfl
@[simp] theorem State.withMemory_resetting : (s.withMemory v).resetting = s.resetting := rfl
@[simp] theorem State.withMemory_part : (s.withMemory v).part = s.part := rfl
@[simp] theorem State.withMemory_stop : (s.withMemory v).stop = s.stop := rfl
@[simp] theorem State.withMemory_link : (s.withMemory v).link = s.link := rfl
@[simp] theorem State.withMemory_rig : (s.withMemory v).rig = s.rig := rfl
@[simp] theorem State.withMemory_points : (s.withMemory v).points = s.points := rfl
@[simp] theorem State.withMemory_claims : (s.withMemory v).claims = s.claims := rfl
@[simp] theorem State.withMemory_solver : (s.withMemory v).solver = s.solver := rfl
@[simp] theorem State.withMemory_cache : (s.withMemory v).cache = s.cache := rfl
@[simp] theorem State.withMemory_motion : (s.withMemory v).motion = s.motion := rfl
@[simp] theorem State.withMemory_colour : (s.withMemory v).colour = s.colour := rfl
@[simp] theorem State.withMemory_stopToMotion : (s.withMemory v).stopToMotion = s.stopToMotion := rfl
@[simp] theorem State.withMemory_stopToColour : (s.withMemory v).stopToColour = s.stopToColour := rfl
@[simp] theorem State.withMemory_memory : (s.withMemory v).memory = v := rfl
@[simp] theorem State.withMemory_playback : (s.withMemory v).playback = s.playback := rfl
@[simp] theorem State.withMemory_beat : (s.withMemory v).beat = s.beat := rfl
@[simp] theorem State.withMemory_lines : (s.withMemory v).lines = s.lines := rfl
@[simp] theorem State.withMemory_pending : (s.withMemory v).pending = s.pending := rfl
@[simp] theorem State.withMemory_withMemory (w : CueMemory) : (s.withMemory v).withMemory w = s.withMemory w := rfl
@[simp] theorem State.withMemory_self : s.withMemory s.memory = s := rfl
end Memory

section Playback
variable (v : Playback)
@[simp] theorem State.withPlayback_now : (s.withPlayback v).now = s.now := rfl
@[simp] theorem State.withPlayback_freeUses : (s.withPlayback v).freeUses = s.freeUses := rfl
@[simp] theorem State.withPlayback_resetting : (s.withPlayback v).resetting = s.resetting := rfl
@[simp] theorem State.withPlayback_part : (s.withPlayback v).part = s.part := rfl
@[simp] theorem State.withPlayback_stop : (s.withPlayback v).stop = s.stop := rfl
@[simp] theorem State.withPlayback_link : (s.withPlayback v).link = s.link := rfl
@[simp] theorem State.withPlayback_rig : (s.withPlayback v).rig = s.rig := rfl
@[simp] theorem State.withPlayback_points : (s.withPlayback v).points = s.points := rfl
@[simp] theorem State.withPlayback_claims : (s.withPlayback v).claims = s.claims := rfl
@[simp] theorem State.withPlayback_solver : (s.withPlayback v).solver = s.solver := rfl
@[simp] theorem State.withPlayback_cache : (s.withPlayback v).cache = s.cache := rfl
@[simp] theorem State.withPlayback_motion : (s.withPlayback v).motion = s.motion := rfl
@[simp] theorem State.withPlayback_colour : (s.withPlayback v).colour = s.colour := rfl
@[simp] theorem State.withPlayback_stopToMotion : (s.withPlayback v).stopToMotion = s.stopToMotion := rfl
@[simp] theorem State.withPlayback_stopToColour : (s.withPlayback v).stopToColour = s.stopToColour := rfl
@[simp] theorem State.withPlayback_memory : (s.withPlayback v).memory = s.memory := rfl
@[simp] theorem State.withPlayback_playback : (s.withPlayback v).playback = v := rfl
@[simp] theorem State.withPlayback_beat : (s.withPlayback v).beat = s.beat := rfl
@[simp] theorem State.withPlayback_lines : (s.withPlayback v).lines = s.lines := rfl
@[simp] theorem State.withPlayback_pending : (s.withPlayback v).pending = s.pending := rfl
@[simp] theorem State.withPlayback_withPlayback (w : Playback) : (s.withPlayback v).withPlayback w = s.withPlayback w := rfl
@[simp] theorem State.withPlayback_self : s.withPlayback s.playback = s := rfl
end Playback

section Beat
variable (v : Beat)
@[simp] theorem State.withBeat_now : (s.withBeat v).now = s.now := rfl
@[simp] theorem State.withBeat_freeUses : (s.withBeat v).freeUses = s.freeUses := rfl
@[simp] theorem State.withBeat_resetting : (s.withBeat v).resetting = s.resetting := rfl
@[simp] theorem State.withBeat_part : (s.withBeat v).part = s.part := rfl
@[simp] theorem State.withBeat_stop : (s.withBeat v).stop = s.stop := rfl
@[simp] theorem State.withBeat_link : (s.withBeat v).link = s.link := rfl
@[simp] theorem State.withBeat_rig : (s.withBeat v).rig = s.rig := rfl
@[simp] theorem State.withBeat_points : (s.withBeat v).points = s.points := rfl
@[simp] theorem State.withBeat_claims : (s.withBeat v).claims = s.claims := rfl
@[simp] theorem State.withBeat_solver : (s.withBeat v).solver = s.solver := rfl
@[simp] theorem State.withBeat_cache : (s.withBeat v).cache = s.cache := rfl
@[simp] theorem State.withBeat_motion : (s.withBeat v).motion = s.motion := rfl
@[simp] theorem State.withBeat_colour : (s.withBeat v).colour = s.colour := rfl
@[simp] theorem State.withBeat_stopToMotion : (s.withBeat v).stopToMotion = s.stopToMotion := rfl
@[simp] theorem State.withBeat_stopToColour : (s.withBeat v).stopToColour = s.stopToColour := rfl
@[simp] theorem State.withBeat_memory : (s.withBeat v).memory = s.memory := rfl
@[simp] theorem State.withBeat_playback : (s.withBeat v).playback = s.playback := rfl
@[simp] theorem State.withBeat_beat : (s.withBeat v).beat = v := rfl
@[simp] theorem State.withBeat_lines : (s.withBeat v).lines = s.lines := rfl
@[simp] theorem State.withBeat_pending : (s.withBeat v).pending = s.pending := rfl
@[simp] theorem State.withBeat_withBeat (w : Beat) : (s.withBeat v).withBeat w = s.withBeat w := rfl
@[simp] theorem State.withBeat_self : s.withBeat s.beat = s := rfl
end Beat

section Lines
variable (v : Lines)
@[simp] theorem State.withLines_now : (s.withLines v).now = s.now := rfl
@[simp] theorem State.withLines_freeUses : (s.withLines v).freeUses = s.freeUses := rfl
@[simp] theorem State.withLines_resetting : (s.withLines v).resetting = s.resetting := rfl
@[simp] theorem State.withLines_part : (s.withLines v).part = s.part := rfl
@[simp] theorem State.withLines_stop : (s.withLines v).stop = s.stop := rfl
@[simp] theorem State.withLines_link : (s.withLines v).link = s.link := rfl
@[simp] theorem State.withLines_rig : (s.withLines v).rig = s.rig := rfl
@[simp] theorem State.withLines_points : (s.withLines v).points = s.points := rfl
@[simp] theorem State.withLines_claims : (s.withLines v).claims = s.claims := rfl
@[simp] theorem State.withLines_solver : (s.withLines v).solver = s.solver := rfl
@[simp] theorem State.withLines_cache : (s.withLines v).cache = s.cache := rfl
@[simp] theorem State.withLines_motion : (s.withLines v).motion = s.motion := rfl
@[simp] theorem State.withLines_colour : (s.withLines v).colour = s.colour := rfl
@[simp] theorem State.withLines_stopToMotion : (s.withLines v).stopToMotion = s.stopToMotion := rfl
@[simp] theorem State.withLines_stopToColour : (s.withLines v).stopToColour = s.stopToColour := rfl
@[simp] theorem State.withLines_memory : (s.withLines v).memory = s.memory := rfl
@[simp] theorem State.withLines_playback : (s.withLines v).playback = s.playback := rfl
@[simp] theorem State.withLines_beat : (s.withLines v).beat = s.beat := rfl
@[simp] theorem State.withLines_lines : (s.withLines v).lines = v := rfl
@[simp] theorem State.withLines_pending : (s.withLines v).pending = s.pending := rfl
@[simp] theorem State.withLines_withLines (w : Lines) : (s.withLines v).withLines w = s.withLines w := rfl
@[simp] theorem State.withLines_self : s.withLines s.lines = s := rfl
end Lines

section Pending
variable (v : List Instr)
@[simp] theorem State.withPending_now : (s.withPending v).now = s.now := rfl
@[simp] theorem State.withPending_freeUses : (s.withPending v).freeUses = s.freeUses := rfl
@[simp] theorem State.withPending_resetting : (s.withPending v).resetting = s.resetting := rfl
@[simp] theorem State.withPending_part : (s.withPending v).part = s.part := rfl
@[simp] theorem State.withPending_stop : (s.withPending v).stop = s.stop := rfl
@[simp] theorem State.withPending_link : (s.withPending v).link = s.link := rfl
@[simp] theorem State.withPending_rig : (s.withPending v).rig = s.rig := rfl
@[simp] theorem State.withPending_points : (s.withPending v).points = s.points := rfl
@[simp] theorem State.withPending_claims : (s.withPending v).claims = s.claims := rfl
@[simp] theorem State.withPending_solver : (s.withPending v).solver = s.solver := rfl
@[simp] theorem State.withPending_cache : (s.withPending v).cache = s.cache := rfl
@[simp] theorem State.withPending_motion : (s.withPending v).motion = s.motion := rfl
@[simp] theorem State.withPending_colour : (s.withPending v).colour = s.colour := rfl
@[simp] theorem State.withPending_stopToMotion : (s.withPending v).stopToMotion = s.stopToMotion := rfl
@[simp] theorem State.withPending_stopToColour : (s.withPending v).stopToColour = s.stopToColour := rfl
@[simp] theorem State.withPending_memory : (s.withPending v).memory = s.memory := rfl
@[simp] theorem State.withPending_playback : (s.withPending v).playback = s.playback := rfl
@[simp] theorem State.withPending_beat : (s.withPending v).beat = s.beat := rfl
@[simp] theorem State.withPending_lines : (s.withPending v).lines = s.lines := rfl
@[simp] theorem State.withPending_pending : (s.withPending v).pending = v := rfl
@[simp] theorem State.withPending_withPending (w : List Instr) : (s.withPending v).withPending w = s.withPending w := rfl
@[simp] theorem State.withPending_self : s.withPending s.pending = s := rfl
end Pending

/-! ### Numbered records under each block's update -/

section NowRecords
variable (v : Nat) (i : Nat)
@[simp] theorem State.withNow_kind : (s.withNow v).kind i = s.kind i := rfl
@[simp] theorem State.withNow_fixture : (s.withNow v).fixture i = s.fixture i := rfl
@[simp] theorem State.withNow_trussOffset : (s.withNow v).trussOffset i = s.trussOffset i := rfl
@[simp] theorem State.withNow_point : (s.withNow v).point i = s.point i := rfl
@[simp] theorem State.withNow_aimStack : (s.withNow v).aimStack i = s.aimStack i := rfl
@[simp] theorem State.withNow_colourStack : (s.withNow v).colourStack i = s.colourStack i := rfl
@[simp] theorem State.withNow_cacheEntry : (s.withNow v).cacheEntry i = s.cacheEntry i := rfl
@[simp] theorem State.withNow_motionOf : (s.withNow v).motionOf i = s.motionOf i := rfl
@[simp] theorem State.withNow_colourOf : (s.withNow v).colourOf i = s.colourOf i := rfl
@[simp] theorem State.withNow_cueList : (s.withNow v).cueList i = s.cueList i := rfl
@[simp] theorem State.withNow_line : (s.withNow v).line i = s.line i := rfl
@[simp] theorem State.withNow_patchOf : (s.withNow v).patchOf i = s.patchOf i := rfl
@[simp] theorem State.withNow_profileOf : (s.withNow v).profileOf i = s.profileOf i := rfl
@[simp] theorem State.withNow_isPatched : (s.withNow v).isPatched i = s.isPatched i := rfl
end NowRecords

section FreeUsesRecords
variable (v : Nat) (i : Nat)
@[simp] theorem State.withFreeUses_kind : (s.withFreeUses v).kind i = s.kind i := rfl
@[simp] theorem State.withFreeUses_fixture : (s.withFreeUses v).fixture i = s.fixture i := rfl
@[simp] theorem State.withFreeUses_trussOffset : (s.withFreeUses v).trussOffset i = s.trussOffset i := rfl
@[simp] theorem State.withFreeUses_point : (s.withFreeUses v).point i = s.point i := rfl
@[simp] theorem State.withFreeUses_aimStack : (s.withFreeUses v).aimStack i = s.aimStack i := rfl
@[simp] theorem State.withFreeUses_colourStack : (s.withFreeUses v).colourStack i = s.colourStack i := rfl
@[simp] theorem State.withFreeUses_cacheEntry : (s.withFreeUses v).cacheEntry i = s.cacheEntry i := rfl
@[simp] theorem State.withFreeUses_motionOf : (s.withFreeUses v).motionOf i = s.motionOf i := rfl
@[simp] theorem State.withFreeUses_colourOf : (s.withFreeUses v).colourOf i = s.colourOf i := rfl
@[simp] theorem State.withFreeUses_cueList : (s.withFreeUses v).cueList i = s.cueList i := rfl
@[simp] theorem State.withFreeUses_line : (s.withFreeUses v).line i = s.line i := rfl
@[simp] theorem State.withFreeUses_patchOf : (s.withFreeUses v).patchOf i = s.patchOf i := rfl
@[simp] theorem State.withFreeUses_profileOf : (s.withFreeUses v).profileOf i = s.profileOf i := rfl
@[simp] theorem State.withFreeUses_isPatched : (s.withFreeUses v).isPatched i = s.isPatched i := rfl
end FreeUsesRecords

section ResettingRecords
variable (v : Option ResetCause) (i : Nat)
@[simp] theorem State.withResetting_kind : (s.withResetting v).kind i = s.kind i := rfl
@[simp] theorem State.withResetting_fixture : (s.withResetting v).fixture i = s.fixture i := rfl
@[simp] theorem State.withResetting_trussOffset : (s.withResetting v).trussOffset i = s.trussOffset i := rfl
@[simp] theorem State.withResetting_point : (s.withResetting v).point i = s.point i := rfl
@[simp] theorem State.withResetting_aimStack : (s.withResetting v).aimStack i = s.aimStack i := rfl
@[simp] theorem State.withResetting_colourStack : (s.withResetting v).colourStack i = s.colourStack i := rfl
@[simp] theorem State.withResetting_cacheEntry : (s.withResetting v).cacheEntry i = s.cacheEntry i := rfl
@[simp] theorem State.withResetting_motionOf : (s.withResetting v).motionOf i = s.motionOf i := rfl
@[simp] theorem State.withResetting_colourOf : (s.withResetting v).colourOf i = s.colourOf i := rfl
@[simp] theorem State.withResetting_cueList : (s.withResetting v).cueList i = s.cueList i := rfl
@[simp] theorem State.withResetting_line : (s.withResetting v).line i = s.line i := rfl
@[simp] theorem State.withResetting_patchOf : (s.withResetting v).patchOf i = s.patchOf i := rfl
@[simp] theorem State.withResetting_profileOf : (s.withResetting v).profileOf i = s.profileOf i := rfl
@[simp] theorem State.withResetting_isPatched : (s.withResetting v).isPatched i = s.isPatched i := rfl
end ResettingRecords

section PartRecords
variable (v : PartState) (i : Nat)
@[simp] theorem State.withPart_kind : (s.withPart v).kind i = s.kind i := rfl
@[simp] theorem State.withPart_fixture : (s.withPart v).fixture i = s.fixture i := rfl
@[simp] theorem State.withPart_trussOffset : (s.withPart v).trussOffset i = s.trussOffset i := rfl
@[simp] theorem State.withPart_point : (s.withPart v).point i = s.point i := rfl
@[simp] theorem State.withPart_aimStack : (s.withPart v).aimStack i = s.aimStack i := rfl
@[simp] theorem State.withPart_colourStack : (s.withPart v).colourStack i = s.colourStack i := rfl
@[simp] theorem State.withPart_cacheEntry : (s.withPart v).cacheEntry i = s.cacheEntry i := rfl
@[simp] theorem State.withPart_motionOf : (s.withPart v).motionOf i = s.motionOf i := rfl
@[simp] theorem State.withPart_colourOf : (s.withPart v).colourOf i = s.colourOf i := rfl
@[simp] theorem State.withPart_cueList : (s.withPart v).cueList i = s.cueList i := rfl
@[simp] theorem State.withPart_line : (s.withPart v).line i = s.line i := rfl
@[simp] theorem State.withPart_patchOf : (s.withPart v).patchOf i = s.patchOf i := rfl
@[simp] theorem State.withPart_profileOf : (s.withPart v).profileOf i = s.profileOf i := rfl
@[simp] theorem State.withPart_isPatched : (s.withPart v).isPatched i = s.isPatched i := rfl
end PartRecords

section StopRecords
variable (v : Bool) (i : Nat)
@[simp] theorem State.withStop_kind : (s.withStop v).kind i = s.kind i := rfl
@[simp] theorem State.withStop_fixture : (s.withStop v).fixture i = s.fixture i := rfl
@[simp] theorem State.withStop_trussOffset : (s.withStop v).trussOffset i = s.trussOffset i := rfl
@[simp] theorem State.withStop_point : (s.withStop v).point i = s.point i := rfl
@[simp] theorem State.withStop_aimStack : (s.withStop v).aimStack i = s.aimStack i := rfl
@[simp] theorem State.withStop_colourStack : (s.withStop v).colourStack i = s.colourStack i := rfl
@[simp] theorem State.withStop_cacheEntry : (s.withStop v).cacheEntry i = s.cacheEntry i := rfl
@[simp] theorem State.withStop_motionOf : (s.withStop v).motionOf i = s.motionOf i := rfl
@[simp] theorem State.withStop_colourOf : (s.withStop v).colourOf i = s.colourOf i := rfl
@[simp] theorem State.withStop_cueList : (s.withStop v).cueList i = s.cueList i := rfl
@[simp] theorem State.withStop_line : (s.withStop v).line i = s.line i := rfl
@[simp] theorem State.withStop_patchOf : (s.withStop v).patchOf i = s.patchOf i := rfl
@[simp] theorem State.withStop_profileOf : (s.withStop v).profileOf i = s.profileOf i := rfl
@[simp] theorem State.withStop_isPatched : (s.withStop v).isPatched i = s.isPatched i := rfl
end StopRecords

section LinkRecords
variable (v : Link) (i : Nat)
@[simp] theorem State.withLink_kind : (s.withLink v).kind i = s.kind i := rfl
@[simp] theorem State.withLink_fixture : (s.withLink v).fixture i = s.fixture i := rfl
@[simp] theorem State.withLink_trussOffset : (s.withLink v).trussOffset i = s.trussOffset i := rfl
@[simp] theorem State.withLink_point : (s.withLink v).point i = s.point i := rfl
@[simp] theorem State.withLink_aimStack : (s.withLink v).aimStack i = s.aimStack i := rfl
@[simp] theorem State.withLink_colourStack : (s.withLink v).colourStack i = s.colourStack i := rfl
@[simp] theorem State.withLink_cacheEntry : (s.withLink v).cacheEntry i = s.cacheEntry i := rfl
@[simp] theorem State.withLink_motionOf : (s.withLink v).motionOf i = s.motionOf i := rfl
@[simp] theorem State.withLink_colourOf : (s.withLink v).colourOf i = s.colourOf i := rfl
@[simp] theorem State.withLink_cueList : (s.withLink v).cueList i = s.cueList i := rfl
@[simp] theorem State.withLink_line : (s.withLink v).line i = s.line i := rfl
@[simp] theorem State.withLink_patchOf : (s.withLink v).patchOf i = s.patchOf i := rfl
@[simp] theorem State.withLink_profileOf : (s.withLink v).profileOf i = s.profileOf i := rfl
@[simp] theorem State.withLink_isPatched : (s.withLink v).isPatched i = s.isPatched i := rfl
end LinkRecords

section RigRecords
variable (v : Rig) (i : Nat)
@[simp] theorem State.withRig_point : (s.withRig v).point i = s.point i := rfl
@[simp] theorem State.withRig_aimStack : (s.withRig v).aimStack i = s.aimStack i := rfl
@[simp] theorem State.withRig_colourStack : (s.withRig v).colourStack i = s.colourStack i := rfl
@[simp] theorem State.withRig_cacheEntry : (s.withRig v).cacheEntry i = s.cacheEntry i := rfl
@[simp] theorem State.withRig_motionOf : (s.withRig v).motionOf i = s.motionOf i := rfl
@[simp] theorem State.withRig_colourOf : (s.withRig v).colourOf i = s.colourOf i := rfl
@[simp] theorem State.withRig_cueList : (s.withRig v).cueList i = s.cueList i := rfl
@[simp] theorem State.withRig_line : (s.withRig v).line i = s.line i := rfl
end RigRecords

section PointsRecords
variable (v : Points) (i : Nat)
@[simp] theorem State.withPoints_kind : (s.withPoints v).kind i = s.kind i := rfl
@[simp] theorem State.withPoints_fixture : (s.withPoints v).fixture i = s.fixture i := rfl
@[simp] theorem State.withPoints_trussOffset : (s.withPoints v).trussOffset i = s.trussOffset i := rfl
@[simp] theorem State.withPoints_aimStack : (s.withPoints v).aimStack i = s.aimStack i := rfl
@[simp] theorem State.withPoints_colourStack : (s.withPoints v).colourStack i = s.colourStack i := rfl
@[simp] theorem State.withPoints_cacheEntry : (s.withPoints v).cacheEntry i = s.cacheEntry i := rfl
@[simp] theorem State.withPoints_motionOf : (s.withPoints v).motionOf i = s.motionOf i := rfl
@[simp] theorem State.withPoints_colourOf : (s.withPoints v).colourOf i = s.colourOf i := rfl
@[simp] theorem State.withPoints_cueList : (s.withPoints v).cueList i = s.cueList i := rfl
@[simp] theorem State.withPoints_line : (s.withPoints v).line i = s.line i := rfl
@[simp] theorem State.withPoints_patchOf : (s.withPoints v).patchOf i = s.patchOf i := rfl
@[simp] theorem State.withPoints_profileOf : (s.withPoints v).profileOf i = s.profileOf i := rfl
@[simp] theorem State.withPoints_isPatched : (s.withPoints v).isPatched i = s.isPatched i := rfl
end PointsRecords

section ClaimsRecords
variable (v : Claims) (i : Nat)
@[simp] theorem State.withClaims_kind : (s.withClaims v).kind i = s.kind i := rfl
@[simp] theorem State.withClaims_fixture : (s.withClaims v).fixture i = s.fixture i := rfl
@[simp] theorem State.withClaims_trussOffset : (s.withClaims v).trussOffset i = s.trussOffset i := rfl
@[simp] theorem State.withClaims_point : (s.withClaims v).point i = s.point i := rfl
@[simp] theorem State.withClaims_cacheEntry : (s.withClaims v).cacheEntry i = s.cacheEntry i := rfl
@[simp] theorem State.withClaims_motionOf : (s.withClaims v).motionOf i = s.motionOf i := rfl
@[simp] theorem State.withClaims_colourOf : (s.withClaims v).colourOf i = s.colourOf i := rfl
@[simp] theorem State.withClaims_cueList : (s.withClaims v).cueList i = s.cueList i := rfl
@[simp] theorem State.withClaims_line : (s.withClaims v).line i = s.line i := rfl
@[simp] theorem State.withClaims_patchOf : (s.withClaims v).patchOf i = s.patchOf i := rfl
@[simp] theorem State.withClaims_profileOf : (s.withClaims v).profileOf i = s.profileOf i := rfl
@[simp] theorem State.withClaims_isPatched : (s.withClaims v).isPatched i = s.isPatched i := rfl
end ClaimsRecords

section SolverRecords
variable (v : Solver) (i : Nat)
@[simp] theorem State.withSolver_kind : (s.withSolver v).kind i = s.kind i := rfl
@[simp] theorem State.withSolver_fixture : (s.withSolver v).fixture i = s.fixture i := rfl
@[simp] theorem State.withSolver_trussOffset : (s.withSolver v).trussOffset i = s.trussOffset i := rfl
@[simp] theorem State.withSolver_point : (s.withSolver v).point i = s.point i := rfl
@[simp] theorem State.withSolver_aimStack : (s.withSolver v).aimStack i = s.aimStack i := rfl
@[simp] theorem State.withSolver_colourStack : (s.withSolver v).colourStack i = s.colourStack i := rfl
@[simp] theorem State.withSolver_cacheEntry : (s.withSolver v).cacheEntry i = s.cacheEntry i := rfl
@[simp] theorem State.withSolver_motionOf : (s.withSolver v).motionOf i = s.motionOf i := rfl
@[simp] theorem State.withSolver_colourOf : (s.withSolver v).colourOf i = s.colourOf i := rfl
@[simp] theorem State.withSolver_cueList : (s.withSolver v).cueList i = s.cueList i := rfl
@[simp] theorem State.withSolver_line : (s.withSolver v).line i = s.line i := rfl
@[simp] theorem State.withSolver_patchOf : (s.withSolver v).patchOf i = s.patchOf i := rfl
@[simp] theorem State.withSolver_profileOf : (s.withSolver v).profileOf i = s.profileOf i := rfl
@[simp] theorem State.withSolver_isPatched : (s.withSolver v).isPatched i = s.isPatched i := rfl
end SolverRecords

section CacheRecords
variable (v : Cache) (i : Nat)
@[simp] theorem State.withCache_kind : (s.withCache v).kind i = s.kind i := rfl
@[simp] theorem State.withCache_fixture : (s.withCache v).fixture i = s.fixture i := rfl
@[simp] theorem State.withCache_trussOffset : (s.withCache v).trussOffset i = s.trussOffset i := rfl
@[simp] theorem State.withCache_point : (s.withCache v).point i = s.point i := rfl
@[simp] theorem State.withCache_aimStack : (s.withCache v).aimStack i = s.aimStack i := rfl
@[simp] theorem State.withCache_colourStack : (s.withCache v).colourStack i = s.colourStack i := rfl
@[simp] theorem State.withCache_motionOf : (s.withCache v).motionOf i = s.motionOf i := rfl
@[simp] theorem State.withCache_colourOf : (s.withCache v).colourOf i = s.colourOf i := rfl
@[simp] theorem State.withCache_cueList : (s.withCache v).cueList i = s.cueList i := rfl
@[simp] theorem State.withCache_line : (s.withCache v).line i = s.line i := rfl
@[simp] theorem State.withCache_patchOf : (s.withCache v).patchOf i = s.patchOf i := rfl
@[simp] theorem State.withCache_profileOf : (s.withCache v).profileOf i = s.profileOf i := rfl
@[simp] theorem State.withCache_isPatched : (s.withCache v).isPatched i = s.isPatched i := rfl
end CacheRecords

section MotionRecords
variable (v : MotionEngine) (i : Nat)
@[simp] theorem State.withMotion_kind : (s.withMotion v).kind i = s.kind i := rfl
@[simp] theorem State.withMotion_fixture : (s.withMotion v).fixture i = s.fixture i := rfl
@[simp] theorem State.withMotion_trussOffset : (s.withMotion v).trussOffset i = s.trussOffset i := rfl
@[simp] theorem State.withMotion_point : (s.withMotion v).point i = s.point i := rfl
@[simp] theorem State.withMotion_aimStack : (s.withMotion v).aimStack i = s.aimStack i := rfl
@[simp] theorem State.withMotion_colourStack : (s.withMotion v).colourStack i = s.colourStack i := rfl
@[simp] theorem State.withMotion_cacheEntry : (s.withMotion v).cacheEntry i = s.cacheEntry i := rfl
@[simp] theorem State.withMotion_colourOf : (s.withMotion v).colourOf i = s.colourOf i := rfl
@[simp] theorem State.withMotion_cueList : (s.withMotion v).cueList i = s.cueList i := rfl
@[simp] theorem State.withMotion_line : (s.withMotion v).line i = s.line i := rfl
@[simp] theorem State.withMotion_patchOf : (s.withMotion v).patchOf i = s.patchOf i := rfl
@[simp] theorem State.withMotion_profileOf : (s.withMotion v).profileOf i = s.profileOf i := rfl
@[simp] theorem State.withMotion_isPatched : (s.withMotion v).isPatched i = s.isPatched i := rfl
end MotionRecords

section ColourRecords
variable (v : ColourEngine) (i : Nat)
@[simp] theorem State.withColour_kind : (s.withColour v).kind i = s.kind i := rfl
@[simp] theorem State.withColour_fixture : (s.withColour v).fixture i = s.fixture i := rfl
@[simp] theorem State.withColour_trussOffset : (s.withColour v).trussOffset i = s.trussOffset i := rfl
@[simp] theorem State.withColour_point : (s.withColour v).point i = s.point i := rfl
@[simp] theorem State.withColour_aimStack : (s.withColour v).aimStack i = s.aimStack i := rfl
@[simp] theorem State.withColour_colourStack : (s.withColour v).colourStack i = s.colourStack i := rfl
@[simp] theorem State.withColour_cacheEntry : (s.withColour v).cacheEntry i = s.cacheEntry i := rfl
@[simp] theorem State.withColour_motionOf : (s.withColour v).motionOf i = s.motionOf i := rfl
@[simp] theorem State.withColour_cueList : (s.withColour v).cueList i = s.cueList i := rfl
@[simp] theorem State.withColour_line : (s.withColour v).line i = s.line i := rfl
@[simp] theorem State.withColour_patchOf : (s.withColour v).patchOf i = s.patchOf i := rfl
@[simp] theorem State.withColour_profileOf : (s.withColour v).profileOf i = s.profileOf i := rfl
@[simp] theorem State.withColour_isPatched : (s.withColour v).isPatched i = s.isPatched i := rfl
end ColourRecords

section StopToMotionRecords
variable (v : List Bool) (i : Nat)
@[simp] theorem State.withStopToMotion_kind : (s.withStopToMotion v).kind i = s.kind i := rfl
@[simp] theorem State.withStopToMotion_fixture : (s.withStopToMotion v).fixture i = s.fixture i := rfl
@[simp] theorem State.withStopToMotion_trussOffset : (s.withStopToMotion v).trussOffset i = s.trussOffset i := rfl
@[simp] theorem State.withStopToMotion_point : (s.withStopToMotion v).point i = s.point i := rfl
@[simp] theorem State.withStopToMotion_aimStack : (s.withStopToMotion v).aimStack i = s.aimStack i := rfl
@[simp] theorem State.withStopToMotion_colourStack : (s.withStopToMotion v).colourStack i = s.colourStack i := rfl
@[simp] theorem State.withStopToMotion_cacheEntry : (s.withStopToMotion v).cacheEntry i = s.cacheEntry i := rfl
@[simp] theorem State.withStopToMotion_motionOf : (s.withStopToMotion v).motionOf i = s.motionOf i := rfl
@[simp] theorem State.withStopToMotion_colourOf : (s.withStopToMotion v).colourOf i = s.colourOf i := rfl
@[simp] theorem State.withStopToMotion_cueList : (s.withStopToMotion v).cueList i = s.cueList i := rfl
@[simp] theorem State.withStopToMotion_line : (s.withStopToMotion v).line i = s.line i := rfl
@[simp] theorem State.withStopToMotion_patchOf : (s.withStopToMotion v).patchOf i = s.patchOf i := rfl
@[simp] theorem State.withStopToMotion_profileOf : (s.withStopToMotion v).profileOf i = s.profileOf i := rfl
@[simp] theorem State.withStopToMotion_isPatched : (s.withStopToMotion v).isPatched i = s.isPatched i := rfl
end StopToMotionRecords

section StopToColourRecords
variable (v : List Bool) (i : Nat)
@[simp] theorem State.withStopToColour_kind : (s.withStopToColour v).kind i = s.kind i := rfl
@[simp] theorem State.withStopToColour_fixture : (s.withStopToColour v).fixture i = s.fixture i := rfl
@[simp] theorem State.withStopToColour_trussOffset : (s.withStopToColour v).trussOffset i = s.trussOffset i := rfl
@[simp] theorem State.withStopToColour_point : (s.withStopToColour v).point i = s.point i := rfl
@[simp] theorem State.withStopToColour_aimStack : (s.withStopToColour v).aimStack i = s.aimStack i := rfl
@[simp] theorem State.withStopToColour_colourStack : (s.withStopToColour v).colourStack i = s.colourStack i := rfl
@[simp] theorem State.withStopToColour_cacheEntry : (s.withStopToColour v).cacheEntry i = s.cacheEntry i := rfl
@[simp] theorem State.withStopToColour_motionOf : (s.withStopToColour v).motionOf i = s.motionOf i := rfl
@[simp] theorem State.withStopToColour_colourOf : (s.withStopToColour v).colourOf i = s.colourOf i := rfl
@[simp] theorem State.withStopToColour_cueList : (s.withStopToColour v).cueList i = s.cueList i := rfl
@[simp] theorem State.withStopToColour_line : (s.withStopToColour v).line i = s.line i := rfl
@[simp] theorem State.withStopToColour_patchOf : (s.withStopToColour v).patchOf i = s.patchOf i := rfl
@[simp] theorem State.withStopToColour_profileOf : (s.withStopToColour v).profileOf i = s.profileOf i := rfl
@[simp] theorem State.withStopToColour_isPatched : (s.withStopToColour v).isPatched i = s.isPatched i := rfl
end StopToColourRecords

section MemoryRecords
variable (v : CueMemory) (i : Nat)
@[simp] theorem State.withMemory_kind : (s.withMemory v).kind i = s.kind i := rfl
@[simp] theorem State.withMemory_fixture : (s.withMemory v).fixture i = s.fixture i := rfl
@[simp] theorem State.withMemory_trussOffset : (s.withMemory v).trussOffset i = s.trussOffset i := rfl
@[simp] theorem State.withMemory_point : (s.withMemory v).point i = s.point i := rfl
@[simp] theorem State.withMemory_aimStack : (s.withMemory v).aimStack i = s.aimStack i := rfl
@[simp] theorem State.withMemory_colourStack : (s.withMemory v).colourStack i = s.colourStack i := rfl
@[simp] theorem State.withMemory_cacheEntry : (s.withMemory v).cacheEntry i = s.cacheEntry i := rfl
@[simp] theorem State.withMemory_motionOf : (s.withMemory v).motionOf i = s.motionOf i := rfl
@[simp] theorem State.withMemory_colourOf : (s.withMemory v).colourOf i = s.colourOf i := rfl
@[simp] theorem State.withMemory_cueList : (s.withMemory v).cueList i = s.cueList i := rfl
@[simp] theorem State.withMemory_line : (s.withMemory v).line i = s.line i := rfl
@[simp] theorem State.withMemory_patchOf : (s.withMemory v).patchOf i = s.patchOf i := rfl
@[simp] theorem State.withMemory_profileOf : (s.withMemory v).profileOf i = s.profileOf i := rfl
@[simp] theorem State.withMemory_isPatched : (s.withMemory v).isPatched i = s.isPatched i := rfl
end MemoryRecords

section PlaybackRecords
variable (v : Playback) (i : Nat)
@[simp] theorem State.withPlayback_kind : (s.withPlayback v).kind i = s.kind i := rfl
@[simp] theorem State.withPlayback_fixture : (s.withPlayback v).fixture i = s.fixture i := rfl
@[simp] theorem State.withPlayback_trussOffset : (s.withPlayback v).trussOffset i = s.trussOffset i := rfl
@[simp] theorem State.withPlayback_point : (s.withPlayback v).point i = s.point i := rfl
@[simp] theorem State.withPlayback_aimStack : (s.withPlayback v).aimStack i = s.aimStack i := rfl
@[simp] theorem State.withPlayback_colourStack : (s.withPlayback v).colourStack i = s.colourStack i := rfl
@[simp] theorem State.withPlayback_cacheEntry : (s.withPlayback v).cacheEntry i = s.cacheEntry i := rfl
@[simp] theorem State.withPlayback_motionOf : (s.withPlayback v).motionOf i = s.motionOf i := rfl
@[simp] theorem State.withPlayback_colourOf : (s.withPlayback v).colourOf i = s.colourOf i := rfl
@[simp] theorem State.withPlayback_line : (s.withPlayback v).line i = s.line i := rfl
@[simp] theorem State.withPlayback_patchOf : (s.withPlayback v).patchOf i = s.patchOf i := rfl
@[simp] theorem State.withPlayback_profileOf : (s.withPlayback v).profileOf i = s.profileOf i := rfl
@[simp] theorem State.withPlayback_isPatched : (s.withPlayback v).isPatched i = s.isPatched i := rfl
end PlaybackRecords

section BeatRecords
variable (v : Beat) (i : Nat)
@[simp] theorem State.withBeat_kind : (s.withBeat v).kind i = s.kind i := rfl
@[simp] theorem State.withBeat_fixture : (s.withBeat v).fixture i = s.fixture i := rfl
@[simp] theorem State.withBeat_trussOffset : (s.withBeat v).trussOffset i = s.trussOffset i := rfl
@[simp] theorem State.withBeat_point : (s.withBeat v).point i = s.point i := rfl
@[simp] theorem State.withBeat_aimStack : (s.withBeat v).aimStack i = s.aimStack i := rfl
@[simp] theorem State.withBeat_colourStack : (s.withBeat v).colourStack i = s.colourStack i := rfl
@[simp] theorem State.withBeat_cacheEntry : (s.withBeat v).cacheEntry i = s.cacheEntry i := rfl
@[simp] theorem State.withBeat_motionOf : (s.withBeat v).motionOf i = s.motionOf i := rfl
@[simp] theorem State.withBeat_colourOf : (s.withBeat v).colourOf i = s.colourOf i := rfl
@[simp] theorem State.withBeat_cueList : (s.withBeat v).cueList i = s.cueList i := rfl
@[simp] theorem State.withBeat_line : (s.withBeat v).line i = s.line i := rfl
@[simp] theorem State.withBeat_patchOf : (s.withBeat v).patchOf i = s.patchOf i := rfl
@[simp] theorem State.withBeat_profileOf : (s.withBeat v).profileOf i = s.profileOf i := rfl
@[simp] theorem State.withBeat_isPatched : (s.withBeat v).isPatched i = s.isPatched i := rfl
end BeatRecords

section LinesRecords
variable (v : Lines) (i : Nat)
@[simp] theorem State.withLines_kind : (s.withLines v).kind i = s.kind i := rfl
@[simp] theorem State.withLines_fixture : (s.withLines v).fixture i = s.fixture i := rfl
@[simp] theorem State.withLines_trussOffset : (s.withLines v).trussOffset i = s.trussOffset i := rfl
@[simp] theorem State.withLines_point : (s.withLines v).point i = s.point i := rfl
@[simp] theorem State.withLines_aimStack : (s.withLines v).aimStack i = s.aimStack i := rfl
@[simp] theorem State.withLines_colourStack : (s.withLines v).colourStack i = s.colourStack i := rfl
@[simp] theorem State.withLines_cacheEntry : (s.withLines v).cacheEntry i = s.cacheEntry i := rfl
@[simp] theorem State.withLines_motionOf : (s.withLines v).motionOf i = s.motionOf i := rfl
@[simp] theorem State.withLines_colourOf : (s.withLines v).colourOf i = s.colourOf i := rfl
@[simp] theorem State.withLines_cueList : (s.withLines v).cueList i = s.cueList i := rfl
@[simp] theorem State.withLines_patchOf : (s.withLines v).patchOf i = s.patchOf i := rfl
@[simp] theorem State.withLines_profileOf : (s.withLines v).profileOf i = s.profileOf i := rfl
@[simp] theorem State.withLines_isPatched : (s.withLines v).isPatched i = s.isPatched i := rfl
end LinesRecords

section PendingRecords
variable (v : List Instr) (i : Nat)
@[simp] theorem State.withPending_kind : (s.withPending v).kind i = s.kind i := rfl
@[simp] theorem State.withPending_fixture : (s.withPending v).fixture i = s.fixture i := rfl
@[simp] theorem State.withPending_trussOffset : (s.withPending v).trussOffset i = s.trussOffset i := rfl
@[simp] theorem State.withPending_point : (s.withPending v).point i = s.point i := rfl
@[simp] theorem State.withPending_aimStack : (s.withPending v).aimStack i = s.aimStack i := rfl
@[simp] theorem State.withPending_colourStack : (s.withPending v).colourStack i = s.colourStack i := rfl
@[simp] theorem State.withPending_cacheEntry : (s.withPending v).cacheEntry i = s.cacheEntry i := rfl
@[simp] theorem State.withPending_motionOf : (s.withPending v).motionOf i = s.motionOf i := rfl
@[simp] theorem State.withPending_colourOf : (s.withPending v).colourOf i = s.colourOf i := rfl
@[simp] theorem State.withPending_cueList : (s.withPending v).cueList i = s.cueList i := rfl
@[simp] theorem State.withPending_line : (s.withPending v).line i = s.line i := rfl
@[simp] theorem State.withPending_patchOf : (s.withPending v).patchOf i = s.patchOf i := rfl
@[simp] theorem State.withPending_profileOf : (s.withPending v).profileOf i = s.profileOf i := rfl
@[simp] theorem State.withPending_isPatched : (s.withPending v).isPatched i = s.isPatched i := rfl
end PendingRecords

/-! ### One record's update: that record, the other records and the other blocks -/

section SetKind
variable (i : Nat) (v : Option Profile)
theorem State.setKind_kind (j : Nat) : (s.setKind i v).kind j = if j = i then v else s.kind j := by
  simp only [State.setKind, State.kind]
  exact Store.get_set _ _ _ _ _
@[simp] theorem State.setKind_kind_same : (s.setKind i v).kind i = v := by simp [State.setKind_kind]
theorem State.setKind_kind_other {j : Nat} (h : j ≠ i) : (s.setKind i v).kind j = s.kind j := by simp [State.setKind_kind, h]
@[simp] theorem State.setKind_fixture (j : Nat) : (s.setKind i v).fixture j = s.fixture j := rfl
@[simp] theorem State.setKind_trussOffset (j : Nat) : (s.setKind i v).trussOffset j = s.trussOffset j := rfl
@[simp] theorem State.setKind_point (j : Nat) : (s.setKind i v).point j = s.point j := rfl
@[simp] theorem State.setKind_aimStack (j : Nat) : (s.setKind i v).aimStack j = s.aimStack j := rfl
@[simp] theorem State.setKind_colourStack (j : Nat) : (s.setKind i v).colourStack j = s.colourStack j := rfl
@[simp] theorem State.setKind_cacheEntry (j : Nat) : (s.setKind i v).cacheEntry j = s.cacheEntry j := rfl
@[simp] theorem State.setKind_motionOf (j : Nat) : (s.setKind i v).motionOf j = s.motionOf j := rfl
@[simp] theorem State.setKind_colourOf (j : Nat) : (s.setKind i v).colourOf j = s.colourOf j := rfl
@[simp] theorem State.setKind_cueList (j : Nat) : (s.setKind i v).cueList j = s.cueList j := rfl
@[simp] theorem State.setKind_line (j : Nat) : (s.setKind i v).line j = s.line j := rfl
@[simp] theorem State.setKind_now_kept : (s.setKind i v).now = s.now := rfl
@[simp] theorem State.setKind_freeUses_kept : (s.setKind i v).freeUses = s.freeUses := rfl
@[simp] theorem State.setKind_resetting_kept : (s.setKind i v).resetting = s.resetting := rfl
@[simp] theorem State.setKind_part_kept : (s.setKind i v).part = s.part := rfl
@[simp] theorem State.setKind_stop_kept : (s.setKind i v).stop = s.stop := rfl
@[simp] theorem State.setKind_link_kept : (s.setKind i v).link = s.link := rfl
@[simp] theorem State.setKind_points_kept : (s.setKind i v).points = s.points := rfl
@[simp] theorem State.setKind_claims_kept : (s.setKind i v).claims = s.claims := rfl
@[simp] theorem State.setKind_solver_kept : (s.setKind i v).solver = s.solver := rfl
@[simp] theorem State.setKind_cache_kept : (s.setKind i v).cache = s.cache := rfl
@[simp] theorem State.setKind_motion_kept : (s.setKind i v).motion = s.motion := rfl
@[simp] theorem State.setKind_colour_kept : (s.setKind i v).colour = s.colour := rfl
@[simp] theorem State.setKind_stopToMotion_kept : (s.setKind i v).stopToMotion = s.stopToMotion := rfl
@[simp] theorem State.setKind_stopToColour_kept : (s.setKind i v).stopToColour = s.stopToColour := rfl
@[simp] theorem State.setKind_memory_kept : (s.setKind i v).memory = s.memory := rfl
@[simp] theorem State.setKind_playback_kept : (s.setKind i v).playback = s.playback := rfl
@[simp] theorem State.setKind_beat_kept : (s.setKind i v).beat = s.beat := rfl
@[simp] theorem State.setKind_lines_kept : (s.setKind i v).lines = s.lines := rfl
@[simp] theorem State.setKind_pending_kept : (s.setKind i v).pending = s.pending := rfl
end SetKind

section SetFixture
variable (i : Nat) (v : Fixture)
theorem State.setFixture_fixture (j : Nat) : (s.setFixture i v).fixture j = if j = i then v else s.fixture j := by
  simp only [State.setFixture, State.fixture]
  exact Store.get_set _ _ _ _ _
@[simp] theorem State.setFixture_fixture_same : (s.setFixture i v).fixture i = v := by simp [State.setFixture_fixture]
theorem State.setFixture_fixture_other {j : Nat} (h : j ≠ i) : (s.setFixture i v).fixture j = s.fixture j := by simp [State.setFixture_fixture, h]
@[simp] theorem State.setFixture_kind (j : Nat) : (s.setFixture i v).kind j = s.kind j := rfl
@[simp] theorem State.setFixture_trussOffset (j : Nat) : (s.setFixture i v).trussOffset j = s.trussOffset j := rfl
@[simp] theorem State.setFixture_point (j : Nat) : (s.setFixture i v).point j = s.point j := rfl
@[simp] theorem State.setFixture_aimStack (j : Nat) : (s.setFixture i v).aimStack j = s.aimStack j := rfl
@[simp] theorem State.setFixture_colourStack (j : Nat) : (s.setFixture i v).colourStack j = s.colourStack j := rfl
@[simp] theorem State.setFixture_cacheEntry (j : Nat) : (s.setFixture i v).cacheEntry j = s.cacheEntry j := rfl
@[simp] theorem State.setFixture_motionOf (j : Nat) : (s.setFixture i v).motionOf j = s.motionOf j := rfl
@[simp] theorem State.setFixture_colourOf (j : Nat) : (s.setFixture i v).colourOf j = s.colourOf j := rfl
@[simp] theorem State.setFixture_cueList (j : Nat) : (s.setFixture i v).cueList j = s.cueList j := rfl
@[simp] theorem State.setFixture_line (j : Nat) : (s.setFixture i v).line j = s.line j := rfl
@[simp] theorem State.setFixture_now_kept : (s.setFixture i v).now = s.now := rfl
@[simp] theorem State.setFixture_freeUses_kept : (s.setFixture i v).freeUses = s.freeUses := rfl
@[simp] theorem State.setFixture_resetting_kept : (s.setFixture i v).resetting = s.resetting := rfl
@[simp] theorem State.setFixture_part_kept : (s.setFixture i v).part = s.part := rfl
@[simp] theorem State.setFixture_stop_kept : (s.setFixture i v).stop = s.stop := rfl
@[simp] theorem State.setFixture_link_kept : (s.setFixture i v).link = s.link := rfl
@[simp] theorem State.setFixture_points_kept : (s.setFixture i v).points = s.points := rfl
@[simp] theorem State.setFixture_claims_kept : (s.setFixture i v).claims = s.claims := rfl
@[simp] theorem State.setFixture_solver_kept : (s.setFixture i v).solver = s.solver := rfl
@[simp] theorem State.setFixture_cache_kept : (s.setFixture i v).cache = s.cache := rfl
@[simp] theorem State.setFixture_motion_kept : (s.setFixture i v).motion = s.motion := rfl
@[simp] theorem State.setFixture_colour_kept : (s.setFixture i v).colour = s.colour := rfl
@[simp] theorem State.setFixture_stopToMotion_kept : (s.setFixture i v).stopToMotion = s.stopToMotion := rfl
@[simp] theorem State.setFixture_stopToColour_kept : (s.setFixture i v).stopToColour = s.stopToColour := rfl
@[simp] theorem State.setFixture_memory_kept : (s.setFixture i v).memory = s.memory := rfl
@[simp] theorem State.setFixture_playback_kept : (s.setFixture i v).playback = s.playback := rfl
@[simp] theorem State.setFixture_beat_kept : (s.setFixture i v).beat = s.beat := rfl
@[simp] theorem State.setFixture_lines_kept : (s.setFixture i v).lines = s.lines := rfl
@[simp] theorem State.setFixture_pending_kept : (s.setFixture i v).pending = s.pending := rfl
end SetFixture

section SetTrussOffset
variable (i : Nat) (v : Pos)
theorem State.setTrussOffset_trussOffset (j : Nat) : (s.setTrussOffset i v).trussOffset j = if j = i then v else s.trussOffset j := by
  simp only [State.setTrussOffset, State.trussOffset]
  exact Store.get_set _ _ _ _ _
@[simp] theorem State.setTrussOffset_trussOffset_same : (s.setTrussOffset i v).trussOffset i = v := by simp [State.setTrussOffset_trussOffset]
theorem State.setTrussOffset_trussOffset_other {j : Nat} (h : j ≠ i) : (s.setTrussOffset i v).trussOffset j = s.trussOffset j := by simp [State.setTrussOffset_trussOffset, h]
@[simp] theorem State.setTrussOffset_kind (j : Nat) : (s.setTrussOffset i v).kind j = s.kind j := rfl
@[simp] theorem State.setTrussOffset_fixture (j : Nat) : (s.setTrussOffset i v).fixture j = s.fixture j := rfl
@[simp] theorem State.setTrussOffset_point (j : Nat) : (s.setTrussOffset i v).point j = s.point j := rfl
@[simp] theorem State.setTrussOffset_aimStack (j : Nat) : (s.setTrussOffset i v).aimStack j = s.aimStack j := rfl
@[simp] theorem State.setTrussOffset_colourStack (j : Nat) : (s.setTrussOffset i v).colourStack j = s.colourStack j := rfl
@[simp] theorem State.setTrussOffset_cacheEntry (j : Nat) : (s.setTrussOffset i v).cacheEntry j = s.cacheEntry j := rfl
@[simp] theorem State.setTrussOffset_motionOf (j : Nat) : (s.setTrussOffset i v).motionOf j = s.motionOf j := rfl
@[simp] theorem State.setTrussOffset_colourOf (j : Nat) : (s.setTrussOffset i v).colourOf j = s.colourOf j := rfl
@[simp] theorem State.setTrussOffset_cueList (j : Nat) : (s.setTrussOffset i v).cueList j = s.cueList j := rfl
@[simp] theorem State.setTrussOffset_line (j : Nat) : (s.setTrussOffset i v).line j = s.line j := rfl
@[simp] theorem State.setTrussOffset_now_kept : (s.setTrussOffset i v).now = s.now := rfl
@[simp] theorem State.setTrussOffset_freeUses_kept : (s.setTrussOffset i v).freeUses = s.freeUses := rfl
@[simp] theorem State.setTrussOffset_resetting_kept : (s.setTrussOffset i v).resetting = s.resetting := rfl
@[simp] theorem State.setTrussOffset_part_kept : (s.setTrussOffset i v).part = s.part := rfl
@[simp] theorem State.setTrussOffset_stop_kept : (s.setTrussOffset i v).stop = s.stop := rfl
@[simp] theorem State.setTrussOffset_link_kept : (s.setTrussOffset i v).link = s.link := rfl
@[simp] theorem State.setTrussOffset_points_kept : (s.setTrussOffset i v).points = s.points := rfl
@[simp] theorem State.setTrussOffset_claims_kept : (s.setTrussOffset i v).claims = s.claims := rfl
@[simp] theorem State.setTrussOffset_solver_kept : (s.setTrussOffset i v).solver = s.solver := rfl
@[simp] theorem State.setTrussOffset_cache_kept : (s.setTrussOffset i v).cache = s.cache := rfl
@[simp] theorem State.setTrussOffset_motion_kept : (s.setTrussOffset i v).motion = s.motion := rfl
@[simp] theorem State.setTrussOffset_colour_kept : (s.setTrussOffset i v).colour = s.colour := rfl
@[simp] theorem State.setTrussOffset_stopToMotion_kept : (s.setTrussOffset i v).stopToMotion = s.stopToMotion := rfl
@[simp] theorem State.setTrussOffset_stopToColour_kept : (s.setTrussOffset i v).stopToColour = s.stopToColour := rfl
@[simp] theorem State.setTrussOffset_memory_kept : (s.setTrussOffset i v).memory = s.memory := rfl
@[simp] theorem State.setTrussOffset_playback_kept : (s.setTrussOffset i v).playback = s.playback := rfl
@[simp] theorem State.setTrussOffset_beat_kept : (s.setTrussOffset i v).beat = s.beat := rfl
@[simp] theorem State.setTrussOffset_lines_kept : (s.setTrussOffset i v).lines = s.lines := rfl
@[simp] theorem State.setTrussOffset_pending_kept : (s.setTrussOffset i v).pending = s.pending := rfl
end SetTrussOffset

section SetPoint
variable (i : Nat) (v : Point)
theorem State.setPoint_point (j : Nat) : (s.setPoint i v).point j = if j = i then v else s.point j := by
  simp only [State.setPoint, State.point]
  exact Store.get_set _ _ _ _ _
@[simp] theorem State.setPoint_point_same : (s.setPoint i v).point i = v := by simp [State.setPoint_point]
theorem State.setPoint_point_other {j : Nat} (h : j ≠ i) : (s.setPoint i v).point j = s.point j := by simp [State.setPoint_point, h]
@[simp] theorem State.setPoint_kind (j : Nat) : (s.setPoint i v).kind j = s.kind j := rfl
@[simp] theorem State.setPoint_fixture (j : Nat) : (s.setPoint i v).fixture j = s.fixture j := rfl
@[simp] theorem State.setPoint_trussOffset (j : Nat) : (s.setPoint i v).trussOffset j = s.trussOffset j := rfl
@[simp] theorem State.setPoint_aimStack (j : Nat) : (s.setPoint i v).aimStack j = s.aimStack j := rfl
@[simp] theorem State.setPoint_colourStack (j : Nat) : (s.setPoint i v).colourStack j = s.colourStack j := rfl
@[simp] theorem State.setPoint_cacheEntry (j : Nat) : (s.setPoint i v).cacheEntry j = s.cacheEntry j := rfl
@[simp] theorem State.setPoint_motionOf (j : Nat) : (s.setPoint i v).motionOf j = s.motionOf j := rfl
@[simp] theorem State.setPoint_colourOf (j : Nat) : (s.setPoint i v).colourOf j = s.colourOf j := rfl
@[simp] theorem State.setPoint_cueList (j : Nat) : (s.setPoint i v).cueList j = s.cueList j := rfl
@[simp] theorem State.setPoint_line (j : Nat) : (s.setPoint i v).line j = s.line j := rfl
@[simp] theorem State.setPoint_now_kept : (s.setPoint i v).now = s.now := rfl
@[simp] theorem State.setPoint_freeUses_kept : (s.setPoint i v).freeUses = s.freeUses := rfl
@[simp] theorem State.setPoint_resetting_kept : (s.setPoint i v).resetting = s.resetting := rfl
@[simp] theorem State.setPoint_part_kept : (s.setPoint i v).part = s.part := rfl
@[simp] theorem State.setPoint_stop_kept : (s.setPoint i v).stop = s.stop := rfl
@[simp] theorem State.setPoint_link_kept : (s.setPoint i v).link = s.link := rfl
@[simp] theorem State.setPoint_rig_kept : (s.setPoint i v).rig = s.rig := rfl
@[simp] theorem State.setPoint_claims_kept : (s.setPoint i v).claims = s.claims := rfl
@[simp] theorem State.setPoint_solver_kept : (s.setPoint i v).solver = s.solver := rfl
@[simp] theorem State.setPoint_cache_kept : (s.setPoint i v).cache = s.cache := rfl
@[simp] theorem State.setPoint_motion_kept : (s.setPoint i v).motion = s.motion := rfl
@[simp] theorem State.setPoint_colour_kept : (s.setPoint i v).colour = s.colour := rfl
@[simp] theorem State.setPoint_stopToMotion_kept : (s.setPoint i v).stopToMotion = s.stopToMotion := rfl
@[simp] theorem State.setPoint_stopToColour_kept : (s.setPoint i v).stopToColour = s.stopToColour := rfl
@[simp] theorem State.setPoint_memory_kept : (s.setPoint i v).memory = s.memory := rfl
@[simp] theorem State.setPoint_playback_kept : (s.setPoint i v).playback = s.playback := rfl
@[simp] theorem State.setPoint_beat_kept : (s.setPoint i v).beat = s.beat := rfl
@[simp] theorem State.setPoint_lines_kept : (s.setPoint i v).lines = s.lines := rfl
@[simp] theorem State.setPoint_pending_kept : (s.setPoint i v).pending = s.pending := rfl
end SetPoint

section SetAimStack
variable (i : Nat) (v : List (Entry AimClaim))
theorem State.setAimStack_aimStack (j : Nat) : (s.setAimStack i v).aimStack j = if j = i then v else s.aimStack j := by
  simp only [State.setAimStack, State.aimStack]
  exact Store.get_set _ _ _ _ _
@[simp] theorem State.setAimStack_aimStack_same : (s.setAimStack i v).aimStack i = v := by simp [State.setAimStack_aimStack]
theorem State.setAimStack_aimStack_other {j : Nat} (h : j ≠ i) : (s.setAimStack i v).aimStack j = s.aimStack j := by simp [State.setAimStack_aimStack, h]
@[simp] theorem State.setAimStack_kind (j : Nat) : (s.setAimStack i v).kind j = s.kind j := rfl
@[simp] theorem State.setAimStack_fixture (j : Nat) : (s.setAimStack i v).fixture j = s.fixture j := rfl
@[simp] theorem State.setAimStack_trussOffset (j : Nat) : (s.setAimStack i v).trussOffset j = s.trussOffset j := rfl
@[simp] theorem State.setAimStack_point (j : Nat) : (s.setAimStack i v).point j = s.point j := rfl
@[simp] theorem State.setAimStack_colourStack (j : Nat) : (s.setAimStack i v).colourStack j = s.colourStack j := rfl
@[simp] theorem State.setAimStack_cacheEntry (j : Nat) : (s.setAimStack i v).cacheEntry j = s.cacheEntry j := rfl
@[simp] theorem State.setAimStack_motionOf (j : Nat) : (s.setAimStack i v).motionOf j = s.motionOf j := rfl
@[simp] theorem State.setAimStack_colourOf (j : Nat) : (s.setAimStack i v).colourOf j = s.colourOf j := rfl
@[simp] theorem State.setAimStack_cueList (j : Nat) : (s.setAimStack i v).cueList j = s.cueList j := rfl
@[simp] theorem State.setAimStack_line (j : Nat) : (s.setAimStack i v).line j = s.line j := rfl
@[simp] theorem State.setAimStack_now_kept : (s.setAimStack i v).now = s.now := rfl
@[simp] theorem State.setAimStack_freeUses_kept : (s.setAimStack i v).freeUses = s.freeUses := rfl
@[simp] theorem State.setAimStack_resetting_kept : (s.setAimStack i v).resetting = s.resetting := rfl
@[simp] theorem State.setAimStack_part_kept : (s.setAimStack i v).part = s.part := rfl
@[simp] theorem State.setAimStack_stop_kept : (s.setAimStack i v).stop = s.stop := rfl
@[simp] theorem State.setAimStack_link_kept : (s.setAimStack i v).link = s.link := rfl
@[simp] theorem State.setAimStack_rig_kept : (s.setAimStack i v).rig = s.rig := rfl
@[simp] theorem State.setAimStack_points_kept : (s.setAimStack i v).points = s.points := rfl
@[simp] theorem State.setAimStack_solver_kept : (s.setAimStack i v).solver = s.solver := rfl
@[simp] theorem State.setAimStack_cache_kept : (s.setAimStack i v).cache = s.cache := rfl
@[simp] theorem State.setAimStack_motion_kept : (s.setAimStack i v).motion = s.motion := rfl
@[simp] theorem State.setAimStack_colour_kept : (s.setAimStack i v).colour = s.colour := rfl
@[simp] theorem State.setAimStack_stopToMotion_kept : (s.setAimStack i v).stopToMotion = s.stopToMotion := rfl
@[simp] theorem State.setAimStack_stopToColour_kept : (s.setAimStack i v).stopToColour = s.stopToColour := rfl
@[simp] theorem State.setAimStack_memory_kept : (s.setAimStack i v).memory = s.memory := rfl
@[simp] theorem State.setAimStack_playback_kept : (s.setAimStack i v).playback = s.playback := rfl
@[simp] theorem State.setAimStack_beat_kept : (s.setAimStack i v).beat = s.beat := rfl
@[simp] theorem State.setAimStack_lines_kept : (s.setAimStack i v).lines = s.lines := rfl
@[simp] theorem State.setAimStack_pending_kept : (s.setAimStack i v).pending = s.pending := rfl
end SetAimStack

section SetColourStack
variable (i : Nat) (v : List (Entry ColourClaim))
theorem State.setColourStack_colourStack (j : Nat) : (s.setColourStack i v).colourStack j = if j = i then v else s.colourStack j := by
  simp only [State.setColourStack, State.colourStack]
  exact Store.get_set _ _ _ _ _
@[simp] theorem State.setColourStack_colourStack_same : (s.setColourStack i v).colourStack i = v := by simp [State.setColourStack_colourStack]
theorem State.setColourStack_colourStack_other {j : Nat} (h : j ≠ i) : (s.setColourStack i v).colourStack j = s.colourStack j := by simp [State.setColourStack_colourStack, h]
@[simp] theorem State.setColourStack_kind (j : Nat) : (s.setColourStack i v).kind j = s.kind j := rfl
@[simp] theorem State.setColourStack_fixture (j : Nat) : (s.setColourStack i v).fixture j = s.fixture j := rfl
@[simp] theorem State.setColourStack_trussOffset (j : Nat) : (s.setColourStack i v).trussOffset j = s.trussOffset j := rfl
@[simp] theorem State.setColourStack_point (j : Nat) : (s.setColourStack i v).point j = s.point j := rfl
@[simp] theorem State.setColourStack_aimStack (j : Nat) : (s.setColourStack i v).aimStack j = s.aimStack j := rfl
@[simp] theorem State.setColourStack_cacheEntry (j : Nat) : (s.setColourStack i v).cacheEntry j = s.cacheEntry j := rfl
@[simp] theorem State.setColourStack_motionOf (j : Nat) : (s.setColourStack i v).motionOf j = s.motionOf j := rfl
@[simp] theorem State.setColourStack_colourOf (j : Nat) : (s.setColourStack i v).colourOf j = s.colourOf j := rfl
@[simp] theorem State.setColourStack_cueList (j : Nat) : (s.setColourStack i v).cueList j = s.cueList j := rfl
@[simp] theorem State.setColourStack_line (j : Nat) : (s.setColourStack i v).line j = s.line j := rfl
@[simp] theorem State.setColourStack_now_kept : (s.setColourStack i v).now = s.now := rfl
@[simp] theorem State.setColourStack_freeUses_kept : (s.setColourStack i v).freeUses = s.freeUses := rfl
@[simp] theorem State.setColourStack_resetting_kept : (s.setColourStack i v).resetting = s.resetting := rfl
@[simp] theorem State.setColourStack_part_kept : (s.setColourStack i v).part = s.part := rfl
@[simp] theorem State.setColourStack_stop_kept : (s.setColourStack i v).stop = s.stop := rfl
@[simp] theorem State.setColourStack_link_kept : (s.setColourStack i v).link = s.link := rfl
@[simp] theorem State.setColourStack_rig_kept : (s.setColourStack i v).rig = s.rig := rfl
@[simp] theorem State.setColourStack_points_kept : (s.setColourStack i v).points = s.points := rfl
@[simp] theorem State.setColourStack_solver_kept : (s.setColourStack i v).solver = s.solver := rfl
@[simp] theorem State.setColourStack_cache_kept : (s.setColourStack i v).cache = s.cache := rfl
@[simp] theorem State.setColourStack_motion_kept : (s.setColourStack i v).motion = s.motion := rfl
@[simp] theorem State.setColourStack_colour_kept : (s.setColourStack i v).colour = s.colour := rfl
@[simp] theorem State.setColourStack_stopToMotion_kept : (s.setColourStack i v).stopToMotion = s.stopToMotion := rfl
@[simp] theorem State.setColourStack_stopToColour_kept : (s.setColourStack i v).stopToColour = s.stopToColour := rfl
@[simp] theorem State.setColourStack_memory_kept : (s.setColourStack i v).memory = s.memory := rfl
@[simp] theorem State.setColourStack_playback_kept : (s.setColourStack i v).playback = s.playback := rfl
@[simp] theorem State.setColourStack_beat_kept : (s.setColourStack i v).beat = s.beat := rfl
@[simp] theorem State.setColourStack_lines_kept : (s.setColourStack i v).lines = s.lines := rfl
@[simp] theorem State.setColourStack_pending_kept : (s.setColourStack i v).pending = s.pending := rfl
end SetColourStack

section SetCacheEntry
variable (i : Nat) (v : CacheEntry)
theorem State.setCacheEntry_cacheEntry (j : Nat) : (s.setCacheEntry i v).cacheEntry j = if j = i then v else s.cacheEntry j := by
  simp only [State.setCacheEntry, State.cacheEntry]
  exact Store.get_set _ _ _ _ _
@[simp] theorem State.setCacheEntry_cacheEntry_same : (s.setCacheEntry i v).cacheEntry i = v := by simp [State.setCacheEntry_cacheEntry]
theorem State.setCacheEntry_cacheEntry_other {j : Nat} (h : j ≠ i) : (s.setCacheEntry i v).cacheEntry j = s.cacheEntry j := by simp [State.setCacheEntry_cacheEntry, h]
@[simp] theorem State.setCacheEntry_kind (j : Nat) : (s.setCacheEntry i v).kind j = s.kind j := rfl
@[simp] theorem State.setCacheEntry_fixture (j : Nat) : (s.setCacheEntry i v).fixture j = s.fixture j := rfl
@[simp] theorem State.setCacheEntry_trussOffset (j : Nat) : (s.setCacheEntry i v).trussOffset j = s.trussOffset j := rfl
@[simp] theorem State.setCacheEntry_point (j : Nat) : (s.setCacheEntry i v).point j = s.point j := rfl
@[simp] theorem State.setCacheEntry_aimStack (j : Nat) : (s.setCacheEntry i v).aimStack j = s.aimStack j := rfl
@[simp] theorem State.setCacheEntry_colourStack (j : Nat) : (s.setCacheEntry i v).colourStack j = s.colourStack j := rfl
@[simp] theorem State.setCacheEntry_motionOf (j : Nat) : (s.setCacheEntry i v).motionOf j = s.motionOf j := rfl
@[simp] theorem State.setCacheEntry_colourOf (j : Nat) : (s.setCacheEntry i v).colourOf j = s.colourOf j := rfl
@[simp] theorem State.setCacheEntry_cueList (j : Nat) : (s.setCacheEntry i v).cueList j = s.cueList j := rfl
@[simp] theorem State.setCacheEntry_line (j : Nat) : (s.setCacheEntry i v).line j = s.line j := rfl
@[simp] theorem State.setCacheEntry_now_kept : (s.setCacheEntry i v).now = s.now := rfl
@[simp] theorem State.setCacheEntry_freeUses_kept : (s.setCacheEntry i v).freeUses = s.freeUses := rfl
@[simp] theorem State.setCacheEntry_resetting_kept : (s.setCacheEntry i v).resetting = s.resetting := rfl
@[simp] theorem State.setCacheEntry_part_kept : (s.setCacheEntry i v).part = s.part := rfl
@[simp] theorem State.setCacheEntry_stop_kept : (s.setCacheEntry i v).stop = s.stop := rfl
@[simp] theorem State.setCacheEntry_link_kept : (s.setCacheEntry i v).link = s.link := rfl
@[simp] theorem State.setCacheEntry_rig_kept : (s.setCacheEntry i v).rig = s.rig := rfl
@[simp] theorem State.setCacheEntry_points_kept : (s.setCacheEntry i v).points = s.points := rfl
@[simp] theorem State.setCacheEntry_claims_kept : (s.setCacheEntry i v).claims = s.claims := rfl
@[simp] theorem State.setCacheEntry_solver_kept : (s.setCacheEntry i v).solver = s.solver := rfl
@[simp] theorem State.setCacheEntry_motion_kept : (s.setCacheEntry i v).motion = s.motion := rfl
@[simp] theorem State.setCacheEntry_colour_kept : (s.setCacheEntry i v).colour = s.colour := rfl
@[simp] theorem State.setCacheEntry_stopToMotion_kept : (s.setCacheEntry i v).stopToMotion = s.stopToMotion := rfl
@[simp] theorem State.setCacheEntry_stopToColour_kept : (s.setCacheEntry i v).stopToColour = s.stopToColour := rfl
@[simp] theorem State.setCacheEntry_memory_kept : (s.setCacheEntry i v).memory = s.memory := rfl
@[simp] theorem State.setCacheEntry_playback_kept : (s.setCacheEntry i v).playback = s.playback := rfl
@[simp] theorem State.setCacheEntry_beat_kept : (s.setCacheEntry i v).beat = s.beat := rfl
@[simp] theorem State.setCacheEntry_lines_kept : (s.setCacheEntry i v).lines = s.lines := rfl
@[simp] theorem State.setCacheEntry_pending_kept : (s.setCacheEntry i v).pending = s.pending := rfl
end SetCacheEntry

section SetMotionOf
variable (i : Nat) (v : Option Motion)
theorem State.setMotionOf_motionOf (j : Nat) : (s.setMotionOf i v).motionOf j = if j = i then v else s.motionOf j := by
  simp only [State.setMotionOf, State.motionOf]
  exact Store.get_set _ _ _ _ _
@[simp] theorem State.setMotionOf_motionOf_same : (s.setMotionOf i v).motionOf i = v := by simp [State.setMotionOf_motionOf]
theorem State.setMotionOf_motionOf_other {j : Nat} (h : j ≠ i) : (s.setMotionOf i v).motionOf j = s.motionOf j := by simp [State.setMotionOf_motionOf, h]
@[simp] theorem State.setMotionOf_kind (j : Nat) : (s.setMotionOf i v).kind j = s.kind j := rfl
@[simp] theorem State.setMotionOf_fixture (j : Nat) : (s.setMotionOf i v).fixture j = s.fixture j := rfl
@[simp] theorem State.setMotionOf_trussOffset (j : Nat) : (s.setMotionOf i v).trussOffset j = s.trussOffset j := rfl
@[simp] theorem State.setMotionOf_point (j : Nat) : (s.setMotionOf i v).point j = s.point j := rfl
@[simp] theorem State.setMotionOf_aimStack (j : Nat) : (s.setMotionOf i v).aimStack j = s.aimStack j := rfl
@[simp] theorem State.setMotionOf_colourStack (j : Nat) : (s.setMotionOf i v).colourStack j = s.colourStack j := rfl
@[simp] theorem State.setMotionOf_cacheEntry (j : Nat) : (s.setMotionOf i v).cacheEntry j = s.cacheEntry j := rfl
@[simp] theorem State.setMotionOf_colourOf (j : Nat) : (s.setMotionOf i v).colourOf j = s.colourOf j := rfl
@[simp] theorem State.setMotionOf_cueList (j : Nat) : (s.setMotionOf i v).cueList j = s.cueList j := rfl
@[simp] theorem State.setMotionOf_line (j : Nat) : (s.setMotionOf i v).line j = s.line j := rfl
@[simp] theorem State.setMotionOf_now_kept : (s.setMotionOf i v).now = s.now := rfl
@[simp] theorem State.setMotionOf_freeUses_kept : (s.setMotionOf i v).freeUses = s.freeUses := rfl
@[simp] theorem State.setMotionOf_resetting_kept : (s.setMotionOf i v).resetting = s.resetting := rfl
@[simp] theorem State.setMotionOf_part_kept : (s.setMotionOf i v).part = s.part := rfl
@[simp] theorem State.setMotionOf_stop_kept : (s.setMotionOf i v).stop = s.stop := rfl
@[simp] theorem State.setMotionOf_link_kept : (s.setMotionOf i v).link = s.link := rfl
@[simp] theorem State.setMotionOf_rig_kept : (s.setMotionOf i v).rig = s.rig := rfl
@[simp] theorem State.setMotionOf_points_kept : (s.setMotionOf i v).points = s.points := rfl
@[simp] theorem State.setMotionOf_claims_kept : (s.setMotionOf i v).claims = s.claims := rfl
@[simp] theorem State.setMotionOf_solver_kept : (s.setMotionOf i v).solver = s.solver := rfl
@[simp] theorem State.setMotionOf_cache_kept : (s.setMotionOf i v).cache = s.cache := rfl
@[simp] theorem State.setMotionOf_colour_kept : (s.setMotionOf i v).colour = s.colour := rfl
@[simp] theorem State.setMotionOf_stopToMotion_kept : (s.setMotionOf i v).stopToMotion = s.stopToMotion := rfl
@[simp] theorem State.setMotionOf_stopToColour_kept : (s.setMotionOf i v).stopToColour = s.stopToColour := rfl
@[simp] theorem State.setMotionOf_memory_kept : (s.setMotionOf i v).memory = s.memory := rfl
@[simp] theorem State.setMotionOf_playback_kept : (s.setMotionOf i v).playback = s.playback := rfl
@[simp] theorem State.setMotionOf_beat_kept : (s.setMotionOf i v).beat = s.beat := rfl
@[simp] theorem State.setMotionOf_lines_kept : (s.setMotionOf i v).lines = s.lines := rfl
@[simp] theorem State.setMotionOf_pending_kept : (s.setMotionOf i v).pending = s.pending := rfl
end SetMotionOf

section SetColourOf
variable (i : Nat) (v : Option Colour)
theorem State.setColourOf_colourOf (j : Nat) : (s.setColourOf i v).colourOf j = if j = i then v else s.colourOf j := by
  simp only [State.setColourOf, State.colourOf]
  exact Store.get_set _ _ _ _ _
@[simp] theorem State.setColourOf_colourOf_same : (s.setColourOf i v).colourOf i = v := by simp [State.setColourOf_colourOf]
theorem State.setColourOf_colourOf_other {j : Nat} (h : j ≠ i) : (s.setColourOf i v).colourOf j = s.colourOf j := by simp [State.setColourOf_colourOf, h]
@[simp] theorem State.setColourOf_kind (j : Nat) : (s.setColourOf i v).kind j = s.kind j := rfl
@[simp] theorem State.setColourOf_fixture (j : Nat) : (s.setColourOf i v).fixture j = s.fixture j := rfl
@[simp] theorem State.setColourOf_trussOffset (j : Nat) : (s.setColourOf i v).trussOffset j = s.trussOffset j := rfl
@[simp] theorem State.setColourOf_point (j : Nat) : (s.setColourOf i v).point j = s.point j := rfl
@[simp] theorem State.setColourOf_aimStack (j : Nat) : (s.setColourOf i v).aimStack j = s.aimStack j := rfl
@[simp] theorem State.setColourOf_colourStack (j : Nat) : (s.setColourOf i v).colourStack j = s.colourStack j := rfl
@[simp] theorem State.setColourOf_cacheEntry (j : Nat) : (s.setColourOf i v).cacheEntry j = s.cacheEntry j := rfl
@[simp] theorem State.setColourOf_motionOf (j : Nat) : (s.setColourOf i v).motionOf j = s.motionOf j := rfl
@[simp] theorem State.setColourOf_cueList (j : Nat) : (s.setColourOf i v).cueList j = s.cueList j := rfl
@[simp] theorem State.setColourOf_line (j : Nat) : (s.setColourOf i v).line j = s.line j := rfl
@[simp] theorem State.setColourOf_now_kept : (s.setColourOf i v).now = s.now := rfl
@[simp] theorem State.setColourOf_freeUses_kept : (s.setColourOf i v).freeUses = s.freeUses := rfl
@[simp] theorem State.setColourOf_resetting_kept : (s.setColourOf i v).resetting = s.resetting := rfl
@[simp] theorem State.setColourOf_part_kept : (s.setColourOf i v).part = s.part := rfl
@[simp] theorem State.setColourOf_stop_kept : (s.setColourOf i v).stop = s.stop := rfl
@[simp] theorem State.setColourOf_link_kept : (s.setColourOf i v).link = s.link := rfl
@[simp] theorem State.setColourOf_rig_kept : (s.setColourOf i v).rig = s.rig := rfl
@[simp] theorem State.setColourOf_points_kept : (s.setColourOf i v).points = s.points := rfl
@[simp] theorem State.setColourOf_claims_kept : (s.setColourOf i v).claims = s.claims := rfl
@[simp] theorem State.setColourOf_solver_kept : (s.setColourOf i v).solver = s.solver := rfl
@[simp] theorem State.setColourOf_cache_kept : (s.setColourOf i v).cache = s.cache := rfl
@[simp] theorem State.setColourOf_motion_kept : (s.setColourOf i v).motion = s.motion := rfl
@[simp] theorem State.setColourOf_stopToMotion_kept : (s.setColourOf i v).stopToMotion = s.stopToMotion := rfl
@[simp] theorem State.setColourOf_stopToColour_kept : (s.setColourOf i v).stopToColour = s.stopToColour := rfl
@[simp] theorem State.setColourOf_memory_kept : (s.setColourOf i v).memory = s.memory := rfl
@[simp] theorem State.setColourOf_playback_kept : (s.setColourOf i v).playback = s.playback := rfl
@[simp] theorem State.setColourOf_beat_kept : (s.setColourOf i v).beat = s.beat := rfl
@[simp] theorem State.setColourOf_lines_kept : (s.setColourOf i v).lines = s.lines := rfl
@[simp] theorem State.setColourOf_pending_kept : (s.setColourOf i v).pending = s.pending := rfl
end SetColourOf

section SetCueList
variable (i : Nat) (v : CueList)
theorem State.setCueList_cueList (j : Nat) : (s.setCueList i v).cueList j = if j = i then v else s.cueList j := by
  simp only [State.setCueList, State.cueList]
  exact Store.get_set _ _ _ _ _
@[simp] theorem State.setCueList_cueList_same : (s.setCueList i v).cueList i = v := by simp [State.setCueList_cueList]
theorem State.setCueList_cueList_other {j : Nat} (h : j ≠ i) : (s.setCueList i v).cueList j = s.cueList j := by simp [State.setCueList_cueList, h]
@[simp] theorem State.setCueList_kind (j : Nat) : (s.setCueList i v).kind j = s.kind j := rfl
@[simp] theorem State.setCueList_fixture (j : Nat) : (s.setCueList i v).fixture j = s.fixture j := rfl
@[simp] theorem State.setCueList_trussOffset (j : Nat) : (s.setCueList i v).trussOffset j = s.trussOffset j := rfl
@[simp] theorem State.setCueList_point (j : Nat) : (s.setCueList i v).point j = s.point j := rfl
@[simp] theorem State.setCueList_aimStack (j : Nat) : (s.setCueList i v).aimStack j = s.aimStack j := rfl
@[simp] theorem State.setCueList_colourStack (j : Nat) : (s.setCueList i v).colourStack j = s.colourStack j := rfl
@[simp] theorem State.setCueList_cacheEntry (j : Nat) : (s.setCueList i v).cacheEntry j = s.cacheEntry j := rfl
@[simp] theorem State.setCueList_motionOf (j : Nat) : (s.setCueList i v).motionOf j = s.motionOf j := rfl
@[simp] theorem State.setCueList_colourOf (j : Nat) : (s.setCueList i v).colourOf j = s.colourOf j := rfl
@[simp] theorem State.setCueList_line (j : Nat) : (s.setCueList i v).line j = s.line j := rfl
@[simp] theorem State.setCueList_now_kept : (s.setCueList i v).now = s.now := rfl
@[simp] theorem State.setCueList_freeUses_kept : (s.setCueList i v).freeUses = s.freeUses := rfl
@[simp] theorem State.setCueList_resetting_kept : (s.setCueList i v).resetting = s.resetting := rfl
@[simp] theorem State.setCueList_part_kept : (s.setCueList i v).part = s.part := rfl
@[simp] theorem State.setCueList_stop_kept : (s.setCueList i v).stop = s.stop := rfl
@[simp] theorem State.setCueList_link_kept : (s.setCueList i v).link = s.link := rfl
@[simp] theorem State.setCueList_rig_kept : (s.setCueList i v).rig = s.rig := rfl
@[simp] theorem State.setCueList_points_kept : (s.setCueList i v).points = s.points := rfl
@[simp] theorem State.setCueList_claims_kept : (s.setCueList i v).claims = s.claims := rfl
@[simp] theorem State.setCueList_solver_kept : (s.setCueList i v).solver = s.solver := rfl
@[simp] theorem State.setCueList_cache_kept : (s.setCueList i v).cache = s.cache := rfl
@[simp] theorem State.setCueList_motion_kept : (s.setCueList i v).motion = s.motion := rfl
@[simp] theorem State.setCueList_colour_kept : (s.setCueList i v).colour = s.colour := rfl
@[simp] theorem State.setCueList_stopToMotion_kept : (s.setCueList i v).stopToMotion = s.stopToMotion := rfl
@[simp] theorem State.setCueList_stopToColour_kept : (s.setCueList i v).stopToColour = s.stopToColour := rfl
@[simp] theorem State.setCueList_memory_kept : (s.setCueList i v).memory = s.memory := rfl
@[simp] theorem State.setCueList_beat_kept : (s.setCueList i v).beat = s.beat := rfl
@[simp] theorem State.setCueList_lines_kept : (s.setCueList i v).lines = s.lines := rfl
@[simp] theorem State.setCueList_pending_kept : (s.setCueList i v).pending = s.pending := rfl
end SetCueList

section SetLine
variable (i : Nat) (v : Line)
theorem State.setLine_line (j : Nat) : (s.setLine i v).line j = if j = i then v else s.line j := by
  simp only [State.setLine, State.line]
  exact Store.get_set _ _ _ _ _
@[simp] theorem State.setLine_line_same : (s.setLine i v).line i = v := by simp [State.setLine_line]
theorem State.setLine_line_other {j : Nat} (h : j ≠ i) : (s.setLine i v).line j = s.line j := by simp [State.setLine_line, h]
@[simp] theorem State.setLine_kind (j : Nat) : (s.setLine i v).kind j = s.kind j := rfl
@[simp] theorem State.setLine_fixture (j : Nat) : (s.setLine i v).fixture j = s.fixture j := rfl
@[simp] theorem State.setLine_trussOffset (j : Nat) : (s.setLine i v).trussOffset j = s.trussOffset j := rfl
@[simp] theorem State.setLine_point (j : Nat) : (s.setLine i v).point j = s.point j := rfl
@[simp] theorem State.setLine_aimStack (j : Nat) : (s.setLine i v).aimStack j = s.aimStack j := rfl
@[simp] theorem State.setLine_colourStack (j : Nat) : (s.setLine i v).colourStack j = s.colourStack j := rfl
@[simp] theorem State.setLine_cacheEntry (j : Nat) : (s.setLine i v).cacheEntry j = s.cacheEntry j := rfl
@[simp] theorem State.setLine_motionOf (j : Nat) : (s.setLine i v).motionOf j = s.motionOf j := rfl
@[simp] theorem State.setLine_colourOf (j : Nat) : (s.setLine i v).colourOf j = s.colourOf j := rfl
@[simp] theorem State.setLine_cueList (j : Nat) : (s.setLine i v).cueList j = s.cueList j := rfl
@[simp] theorem State.setLine_now_kept : (s.setLine i v).now = s.now := rfl
@[simp] theorem State.setLine_freeUses_kept : (s.setLine i v).freeUses = s.freeUses := rfl
@[simp] theorem State.setLine_resetting_kept : (s.setLine i v).resetting = s.resetting := rfl
@[simp] theorem State.setLine_part_kept : (s.setLine i v).part = s.part := rfl
@[simp] theorem State.setLine_stop_kept : (s.setLine i v).stop = s.stop := rfl
@[simp] theorem State.setLine_link_kept : (s.setLine i v).link = s.link := rfl
@[simp] theorem State.setLine_rig_kept : (s.setLine i v).rig = s.rig := rfl
@[simp] theorem State.setLine_points_kept : (s.setLine i v).points = s.points := rfl
@[simp] theorem State.setLine_claims_kept : (s.setLine i v).claims = s.claims := rfl
@[simp] theorem State.setLine_solver_kept : (s.setLine i v).solver = s.solver := rfl
@[simp] theorem State.setLine_cache_kept : (s.setLine i v).cache = s.cache := rfl
@[simp] theorem State.setLine_motion_kept : (s.setLine i v).motion = s.motion := rfl
@[simp] theorem State.setLine_colour_kept : (s.setLine i v).colour = s.colour := rfl
@[simp] theorem State.setLine_stopToMotion_kept : (s.setLine i v).stopToMotion = s.stopToMotion := rfl
@[simp] theorem State.setLine_stopToColour_kept : (s.setLine i v).stopToColour = s.stopToColour := rfl
@[simp] theorem State.setLine_memory_kept : (s.setLine i v).memory = s.memory := rfl
@[simp] theorem State.setLine_playback_kept : (s.setLine i v).playback = s.playback := rfl
@[simp] theorem State.setLine_beat_kept : (s.setLine i v).beat = s.beat := rfl
@[simp] theorem State.setLine_pending_kept : (s.setLine i v).pending = s.pending := rfl
end SetLine

end Sys2Proof.Machine
end

