-- ==== Sys2Proof/Laws/Link.lean ====
section
/-! SUPPORT. The Host Link's operations: that they change nothing outside the link, and what taking a command or an event
comes to. -/

namespace Sys2Proof.Machine

variable (s : State)

/-! ### Nothing outside the link changes -/

theorem State.pump_frame : s.pump = s.withLink s.pump.link := by
  unfold State.pump
  split
  · rfl
  split
  · rfl
  split
  · rfl
  split <;> rfl

theorem State.answer_frame (st : Status) (data : List Byte) : s.answer st data = s.withLink (s.answer st data).link := by
  unfold State.answer; split <;> rfl

theorem State.setWork_frame (w : Work) : s.setWork w = s.withLink (s.setWork w).link := rfl

theorem State.answered_frame (st : Status) (data : List Byte) :
    s.answered st data = s.withLink (s.answered st data).link := by
  unfold State.answered
  rw [State.pump_frame, State.answer_frame]; rfl

theorem State.finish_frame (st : Status) (data : List Byte) : s.finish st data = s.withLink (s.finish st data).link := by
  unfold State.finish
  rw [State.answer_frame, State.pump_frame]; rfl

theorem State.check_frame (f : LinkFrame) : s.check f = s.withLink (s.check f).link := by
  unfold State.check State.refuse
  split
  · exact State.answer_frame ..
  · exact State.answer_frame ..
  · rfl

theorem State.dispatch_frame : s.dispatch = s.withLink s.dispatch.link := by
  unfold State.dispatch
  split
  · split
    · rfl
    · rw [State.check_frame]; rfl
  · rfl

theorem State.frameArrives_frame (f : LinkFrame) : s.frameArrives f = s.withLink (s.frameArrives f).link := by
  unfold State.frameArrives
  split
  · rw [State.dispatch_frame]; rfl
  · rfl

theorem State.receiveByte_frame (b : RxByte) : s.receiveByte b = s.withLink (s.receiveByte b).link := by
  unfold State.receiveByte
  split
  · unfold State.hunt; split <;> rfl
  · split
    · unfold State.hunt; split <;> rfl
    · unfold State.frameByte
      split
      · rfl
      split
      · rfl
      split
      · rw [State.frameArrives_frame]; rfl
      · rfl

theorem State.receive_frame (bs : List RxByte) : s.receive bs = s.withLink (s.receive bs).link := by
  induction bs generalizing s with
  | nil => rfl
  | cons b bs ih =>
    rw [State.receive, ih, State.receiveByte_frame]; rfl

/-! ### Taking commands and events -/

theorem State.handed_iff (c : Instr) :
    s.handed c = true ↔ s.resetting = none ∧ ∃ h, s.link.held = some h ∧ h.phase = .handed c := by
  cases hr : s.resetting <;> cases hh : s.link.held <;> simp [State.handed, hr, hh]

/-- The row of a command that its owner has runs the command's effect, and the transmitter then chooses. -/
theorem State.takeCommand_of_handed {c : Instr} (run : State → State) (h : s.handed c = true) :
    s.takeCommand c run = (run s).pump := by
  obtain ⟨hr, x, hx, hp⟩ := (s.handed_iff c).1 h
  simp [State.takeCommand, hx, hp, hr]

/-- Everything that a command's row can do: nothing, or the effect on a state that holds this command. -/
theorem State.takeCommand_cases (c : Instr) (run : State → State) :
    s.takeCommand c run = s ∨ ∃ l, (s.withLink l).handed c = true ∧ s.takeCommand c run = (run (s.withLink l)).pump := by
  unfold State.takeCommand
  split
  · next h hh =>
    split
    · next hp =>
      exact .inr ⟨s.link, by simp [State.handed_iff, hh, hp.1, hp.2], rfl⟩
    · exact .inl rfl
  · split
    · next kind _ _ =>
      split
      · next hf =>
        refine .inr ⟨(s.hold c kind).link, ?_, rfl⟩
        have hr : s.resetting = none := by
          simp only [State.free, State.linkOpen, Bool.and_eq_true, Option.isNone_iff_eq_none] at hf
          exact hf.1.1.1.1
        simp [State.handed_iff, State.hold, hr]
      · exact .inl rfl
    · exact .inl rfl

/-- An enabled event outside a reset runs, and the transmitter then chooses. -/
theorem State.event_of_enabled {en : Bool} (run : State → State) (hr : s.resetting = none) (he : en = true) :
    s.event en run = (run s).pump := by simp [State.event, hr, he]

/-- Everything that an event's row can do. -/
theorem State.event_cases (en : Bool) (run : State → State) :
    s.event en run = s ∨ (s.resetting = none ∧ en = true ∧ s.event en run = (run s).pump) := by
  cases hr : s.resetting <;> cases en <;> simp [State.event, hr]

/-- Counters and notices outside the raised event stay. -/
@[simp] theorem State.raise_notices (e : Activity) (cls : Option Cls) (n : Nat) :
    (s.raise e cls n).link.notices = s.link.notices := rfl

theorem State.raise_frame (e : Activity) (cls : Option Cls) (n : Nat) :
    s.raise e cls n = s.withLink { s.link with counters := (s.raise e cls n).link.counters } := rfl

end Sys2Proof.Machine
end

