-- ==== Sys2Proof/Laws/Frames.lean ====
section
/-! SUPPORT. What an aim and what a colour can change: an event on a motion record, a solve request, a hand-over, a claim or
a release on an AIM stack leave everything that `exceptAim` keeps, and those on a COLOUR stack everything that
`exceptColour` keeps. -/

namespace Sys2Proof.Machine

/-- The state with the blocks an aim passes through emptied: the link, the claims, the solver, its cache, the motion
records and the reports. -/
def State.exceptAim (s : State) : State :=
  { s with
    link := Link.reset, claims := ⟨[], [], []⟩, solver := ⟨[], none, []⟩, cache := ⟨[], 0⟩
    motion := ⟨[], none, false, []⟩, playback := ⟨[], []⟩ }

/-- The state with the blocks a colour passes through emptied: the link, the claims, the colour records, the reports and
the lines. -/
def State.exceptColour (s : State) : State :=
  { s with
    link := Link.reset, claims := ⟨[], [], []⟩, colour := ⟨[], none, false, []⟩, playback := ⟨[], []⟩
    lines := ⟨[], false⟩ }

variable (s : State)

/-! ### Updates that the frames do not see -/

@[simp] theorem State.withLink_exceptAim (v : Link) : (s.withLink v).exceptAim = s.exceptAim := rfl
@[simp] theorem State.withClaims_exceptAim (v : Claims) : (s.withClaims v).exceptAim = s.exceptAim := rfl
@[simp] theorem State.withSolver_exceptAim (v : Solver) : (s.withSolver v).exceptAim = s.exceptAim := rfl
@[simp] theorem State.withCache_exceptAim (v : Cache) : (s.withCache v).exceptAim = s.exceptAim := rfl
@[simp] theorem State.withMotion_exceptAim (v : MotionEngine) : (s.withMotion v).exceptAim = s.exceptAim := rfl
@[simp] theorem State.withPlayback_exceptAim (v : Playback) : (s.withPlayback v).exceptAim = s.exceptAim := rfl
@[simp] theorem State.withLink_exceptColour (v : Link) : (s.withLink v).exceptColour = s.exceptColour := rfl
@[simp] theorem State.withClaims_exceptColour (v : Claims) : (s.withClaims v).exceptColour = s.exceptColour := rfl
@[simp] theorem State.withColour_exceptColour (v : ColourEngine) : (s.withColour v).exceptColour = s.exceptColour := rfl
@[simp] theorem State.withPlayback_exceptColour (v : Playback) : (s.withPlayback v).exceptColour = s.exceptColour := rfl
@[simp] theorem State.withLines_exceptColour (v : Lines) : (s.withLines v).exceptColour = s.exceptColour := rfl

@[simp] theorem State.setOwed_exceptAim (f : Nat) (c : Option Cls) : (s.setOwed f c).exceptAim = s.exceptAim := by
  simp [State.setOwed]
@[simp] theorem State.setPointer_exceptAim (i : Nat) : (s.setPointer i).exceptAim = s.exceptAim := by
  simp [State.setPointer]
@[simp] theorem State.raise_exceptAim (e : Activity) (c : Option Cls) (n : Nat) :
    (s.raise e c n).exceptAim = s.exceptAim := by simp [State.raise]
@[simp] theorem State.raiseOnce_exceptAim (e : Activity) : (s.raiseOnce e).exceptAim = s.exceptAim := by
  simp [State.raiseOnce]
@[simp] theorem State.raiseJob_exceptAim (e : Activity) (c : Cls) : (s.raiseJob e c).exceptAim = s.exceptAim := by
  simp [State.raiseJob]
@[simp] theorem State.raiseOccupancy_exceptAim (c : Cls) : (s.raiseOccupancy c).exceptAim = s.exceptAim := by
  simp [State.raiseOccupancy]
@[simp] theorem State.notifySolveRejected_exceptAim (f : Nat) (c : Cls) :
    (s.notifySolveRejected f c).exceptAim = s.exceptAim := by simp [State.notifySolveRejected, State.withNotices]
@[simp] theorem State.setAimStack_exceptAim (f : Nat) (l : List (Entry AimClaim)) :
    (s.setAimStack f l).exceptAim = s.exceptAim := by simp [State.setAimStack]
@[simp] theorem State.setMotionOf_exceptAim (f : Nat) (m : Option Motion) :
    (s.setMotionOf f m).exceptAim = s.exceptAim := by simp [State.setMotionOf]
@[simp] theorem State.settleAim_exceptAim (f : Nat) (t : LaunchTag) : (s.settleAim f t).exceptAim = s.exceptAim := by
  simp [State.settleAim, State.sendReport]
@[simp] theorem State.setColourStack_exceptColour (f : Nat) (l : List (Entry ColourClaim)) :
    (s.setColourStack f l).exceptColour = s.exceptColour := by simp [State.setColourStack]
@[simp] theorem State.setColourOf_exceptColour (f : Nat) (m : Option Colour) :
    (s.setColourOf f m).exceptColour = s.exceptColour := by simp [State.setColourOf]
@[simp] theorem State.raiseOnce_exceptColour (e : Activity) : (s.raiseOnce e).exceptColour = s.exceptColour := by
  simp [State.raiseOnce, State.raise]
@[simp] theorem State.notifyGamutClamp_exceptColour (c : GamutClampNotice) :
    (s.notifyGamutClamp c).exceptColour = s.exceptColour := by simp [State.notifyGamutClamp, State.withNotices]
@[simp] theorem State.settleColour_exceptColour (f : Nat) (t : LaunchTag) :
    (s.settleColour f t).exceptColour = s.exceptColour := by simp [State.settleColour, State.sendReport]

/-! ### Reports -/

/-- Superseded reports join the reports sent, in order, and nothing else changes (R40). -/
theorem State.reportAllSuperseded_eq (ts : List LaunchTag) :
    s.reportAllSuperseded ts =
      s.withPlayback { s.playback with reports := s.playback.reports ++ ts.map fun t => ⟨false, t⟩ } := by
  induction ts generalizing s with
  | nil => simp only [State.reportAllSuperseded, List.map_nil, List.append_nil]; rfl
  | cons t ts ih => simp [State.reportAllSuperseded, ih, State.reportSuperseded, State.sendReport]

/-! ### Motion -/

@[simp] theorem State.applyMotion_exceptAim (f : Nat) (o : MotionOut) : (s.applyMotion f o).exceptAim = s.exceptAim := by
  unfold State.applyMotion
  cases o.retarget <;> cases o.clampEvent <;> cases o.report <;> simp

@[simp] theorem State.onMotion_exceptAim (f : Nat) (g : Profile → Motion → MotionOut) :
    (s.onMotion f g).exceptAim = s.exceptAim := by
  unfold State.onMotion; split <;> simp

@[simp] theorem State.onMotions_exceptAim (g : Profile → Motion → MotionOut) (fs : List Nat) :
    (s.onMotions g fs).exceptAim = s.exceptAim := by
  induction fs generalizing s with
  | nil => rfl
  | cons f fs ih => simp [State.onMotions, ih]

@[simp] theorem State.deliver_exceptAim (f : Nat) (r : SolveResult) : (s.deliver f r).exceptAim = s.exceptAim := by
  simp [State.deliver]

/-- An event on one record leaves every other record as it was. -/
theorem State.applyMotion_motionOf (f g : Nat) (o : MotionOut) :
    (s.applyMotion f o).motionOf g = if g = f then some o.after else s.motionOf g := by
  unfold State.applyMotion
  cases o.retarget <;> cases o.clampEvent <;> cases o.report <;> exact State.setMotionOf_motionOf ..

theorem State.onMotion_motionOf_other {f g : Nat} (h : Profile → Motion → MotionOut) (hg : g ≠ f) :
    (s.onMotion f h).motionOf g = s.motionOf g := by
  unfold State.onMotion; split
  · rw [State.applyMotion_motionOf, if_neg hg]
  · rfl

/-! ### Solve requests -/

@[simp] theorem State.requestHit_exceptAim (f i : Nat) (c : Cls) : (s.requestHit f i c).exceptAim = s.exceptAim := by
  unfold State.requestHit
  simp only [State.deliver_exceptAim]
  split <;> simp

@[simp] theorem State.requestMiss_exceptAim (f p : Nat) (c : Cls) :
    (s.requestMiss f p c).1.exceptAim = s.exceptAim := by
  unfold State.requestMiss
  simp only
  split
  · simp
  split <;> simp

@[simp] theorem State.request_exceptAim (f p : Nat) (c : Cls) : (s.request f p c).1.exceptAim = s.exceptAim := by
  unfold State.request; split <;> simp

@[simp] theorem State.reaim_exceptAim (f p : Nat) (law : Law) (c : Cls) :
    (s.reaim f p law c).1.exceptAim = s.exceptAim := by
  unfold State.reaim; split <;> simp

@[simp] theorem State.rigReaim_exceptAim (f : Nat) : (s.rigReaim f).exceptAim = s.exceptAim := by
  unfold State.rigReaim; split <;> simp

@[simp] theorem State.rigReaims_exceptAim (fs : List Nat) : (s.rigReaims fs).exceptAim = s.exceptAim := by
  induction fs generalizing s with
  | nil => rfl
  | cons f fs ih => simp [State.rigReaims, ih]

@[simp] theorem State.trackReaims_exceptAim (p : Nat) (fs : List Nat) :
    (s.trackReaims p fs).1.exceptAim = s.exceptAim := by
  induction fs generalizing s with
  | nil => rfl
  | cons f fs ih => simp [State.trackReaims, ih]

@[simp] theorem State.serveMarks_exceptAim (fs : List Nat) : (s.serveMarks fs).1.exceptAim = s.exceptAim := by
  induction fs generalizing s with
  | nil => rfl
  | cons f fs ih =>
    unfold State.serveMarks
    split
    · exact ih s
    · split
      · split
        · have hreq := fun p c => s.request_exceptAim f p c
          split
          · next h => rw [ih, ← hreq, h]
          · next h => rw [← hreq, h]
        · simp [ih]
      · simp [ih]

@[simp] theorem State.owedService_exceptAim (p : Pool) : (s.owedService p).exceptAim = s.exceptAim := by
  cases p <;> simp [State.owedService]

@[simp] theorem State.dropJobs_exceptAim (f : Nat) : (s.dropJobs f).exceptAim = s.exceptAim := by
  unfold State.dropJobs
  simp only
  split
  · simp
  · simp

/-- An invalidation touches the cache alone. -/
theorem State.invalidateFrom_frame (q : CacheEntry → Bool) (l : List Nat) :
    s.invalidateFrom q l = s.withCache (s.invalidateFrom q l).cache := by
  induction l generalizing s with
  | nil => rfl
  | cons i l ih =>
    rw [State.invalidateFrom, ih]
    split <;> rfl

/-! ### AIM stacks -/

@[simp] theorem State.reportAllSuperseded_exceptAim (ts : List LaunchTag) :
    (s.reportAllSuperseded ts).exceptAim = s.exceptAim := by rw [State.reportAllSuperseded_eq]; rfl

@[simp] theorem State.handAim_exceptAim (f : Nat) (e : Entry AimClaim) (ms : Nat) :
    (s.handAim f e ms).1.exceptAim = s.exceptAim := by
  unfold State.handAim
  simp only
  split
  · split <;> simp
  · simp

@[simp] theorem State.handNoAim_exceptAim (f : Nat) : (s.handNoAim f).exceptAim = s.exceptAim := by
  simp [State.handNoAim]

@[simp] theorem State.placeAim_exceptAim (f src : Nat) (c : AimClaim) (tag : Option LaunchTag) :
    (s.placeAim f src c tag).1.exceptAim = s.exceptAim := by
  simp [State.placeAim]

@[simp] theorem State.finishAim_exceptAim (f : Nat) (p : Placed) : (s.finishAim f p).1.exceptAim = s.exceptAim := by
  unfold State.finishAim State.handTopAim
  split
  · split <;> simp
  · rfl

/-- A claim on an AIM stack changes only what an aim passes through (R39 to R42). -/
@[simp] theorem State.claimAim_exceptAim (f src : Nat) (c : AimClaim) :
    (s.claimAim f src c).1.exceptAim = s.exceptAim := by simp [State.claimAim]

/-- A release from an AIM stack changes only what an aim passes through (R46). -/
@[simp] theorem State.releaseAim_exceptAim (f src ms : Nat) : (s.releaseAim f src ms).1.exceptAim = s.exceptAim := by
  unfold State.releaseAim
  simp only
  split
  · split
    · split <;> simp
    · simp
  · rfl

/-! ### COLOUR stacks -/

@[simp] theorem State.writeSlots_exceptColour (line base : Nat) (ws : List (Nat × Nat)) :
    (s.writeSlots line base ws).exceptColour = s.exceptColour := rfl

@[simp] theorem State.writeColour_exceptColour (f : Nat) (outs : List Nat) :
    (s.writeColour f outs).exceptColour = s.exceptColour := by
  unfold State.writeColour; split <;> rfl

@[simp] theorem State.applyColour_exceptColour (f : Nat) (o : ColourOut) :
    (s.applyColour f o).exceptColour = s.exceptColour := by
  unfold State.applyColour
  cases o.clamp <;> cases o.write <;> cases o.report <;> simp

@[simp] theorem State.onColour_exceptColour (f : Nat) (g : Profile → Patch → Colour → ColourOut) :
    (s.onColour f g).exceptColour = s.exceptColour := by
  unfold State.onColour; split <;> simp

@[simp] theorem State.onColours_exceptColour (g : State → Profile → Patch → Colour → ColourOut) (fs : List Nat) :
    (s.onColours g fs).exceptColour = s.exceptColour := by
  induction fs generalizing s with
  | nil => rfl
  | cons f fs ih => simp [State.onColours, ih]

@[simp] theorem State.handColour_exceptColour (f : Nat) (t : ColourTarget) (ms : Nat) (tag : Option LaunchTag) :
    (s.handColour f t ms tag).exceptColour = s.exceptColour := by simp [State.handColour]

@[simp] theorem State.handNoColour_exceptColour (f : Nat) : (s.handNoColour f).exceptColour = s.exceptColour := by
  simp [State.handNoColour]

@[simp] theorem State.reportAllSuperseded_exceptColour (ts : List LaunchTag) :
    (s.reportAllSuperseded ts).exceptColour = s.exceptColour := by rw [State.reportAllSuperseded_eq]; rfl

@[simp] theorem State.placeColour_exceptColour (f src : Nat) (c : ColourClaim) (tag : Option LaunchTag) :
    (s.placeColour f src c tag).1.exceptColour = s.exceptColour := by
  simp [State.placeColour]

@[simp] theorem State.finishColour_exceptColour (f : Nat) (p : Placed) :
    (s.finishColour f p).exceptColour = s.exceptColour := by
  unfold State.finishColour State.handTopColour
  split
  · split <;> simp
  · rfl

/-- A claim on a COLOUR stack changes only what a colour passes through (R39, R40, R43). -/
@[simp] theorem State.claimColour_exceptColour (f src : Nat) (c : ColourClaim) :
    (s.claimColour f src c).1.exceptColour = s.exceptColour := by simp [State.claimColour]

/-- A release from a COLOUR stack changes only what a colour passes through (R46). -/
@[simp] theorem State.releaseColour_exceptColour (f src ms : Nat) :
    (s.releaseColour f src ms).1.exceptColour = s.exceptColour := by
  unfold State.releaseColour
  simp only
  split
  · split
    · split <;> simp
    · simp
  · rfl

end Sys2Proof.Machine
end

