-- ==== Sys2Proof/Laws/Claims.lean ====
section
/-! SUPPORT. The list operations of a claim stack: where an entry is put in, what a source's removal leaves, and that both
keep the falling priorities. -/

namespace Sys2Proof.Machine

variable {α : Type}

/-- Priorities fall from the top of a stack down (R38). -/
def falling (l : List (Entry α)) : Prop := l.Pairwise fun x y => y.prio ≤ x.prio

@[simp] theorem insertEntry_length (e : Entry α) (l : List (Entry α)) :
    (insertEntry e l).length = l.length + 1 := by
  induction l with
  | nil => rfl
  | cons x l ih => unfold insertEntry; split <;> simp [ih]

@[simp] theorem mem_insertEntry (e x : Entry α) (l : List (Entry α)) : x ∈ insertEntry e l ↔ x = e ∨ x ∈ l := by
  induction l with
  | nil => simp [insertEntry]
  | cons y l ih =>
    unfold insertEntry
    split
    · simp
    · simp only [List.mem_cons, ih]; tauto

theorem insertEntry_perm (e : Entry α) (l : List (Entry α)) : (insertEntry e l).Perm (e :: l) := by
  induction l with
  | nil => simp [insertEntry]
  | cons y l ih =>
    unfold insertEntry
    split
    · exact List.Perm.refl _
    · exact (ih.cons y).trans (List.Perm.swap e y l)

/-- In a stack of falling priorities the new entry stands below every entry of higher priority and above all others
(R39, part 2). -/
theorem insertEntry_eq (e : Entry α) (l : List (Entry α)) (h : falling l) :
    insertEntry e l = (l.filter fun x => decide (e.prio < x.prio)) ++ e :: l.filter fun x => decide (x.prio ≤ e.prio) := by
  induction l with
  | nil => rfl
  | cons y l ih =>
    unfold falling at h ih
    rw [List.pairwise_cons] at h
    unfold insertEntry
    split
    · next hy =>
      have hl : ∀ x ∈ l, x.prio ≤ e.prio := fun x hx => le_trans (h.1 x hx) hy
      have h1 : (l.filter fun x => decide (e.prio < x.prio)) = [] := by
        rw [List.filter_eq_nil_iff]; intro x hx; simpa using hl x hx
      have h2 : (l.filter fun x => decide (x.prio ≤ e.prio)) = l := by
        rw [List.filter_eq_self]; intro x hx; simpa using hl x hx
      simp [hy, h1, h2]
    · next hy =>
      rw [ih h.2]
      simp [hy, Nat.lt_of_not_le hy]

theorem insertEntry_falling (e : Entry α) (l : List (Entry α)) (h : falling l) : falling (insertEntry e l) := by
  induction l with
  | nil => simp [insertEntry, falling]
  | cons y l ih =>
    unfold falling at h ih ⊢
    rw [List.pairwise_cons] at h
    unfold insertEntry
    split
    · next hy =>
      refine List.pairwise_cons.2 ⟨?_, List.pairwise_cons.2 h⟩
      intro x hx
      rcases List.mem_cons.1 hx with rfl | hx
      · exact hy
      · exact le_trans (h.1 x hx) hy
    · next hy =>
      refine List.pairwise_cons.2 ⟨?_, ih h.2⟩
      intro x hx
      rcases (mem_insertEntry e x l).1 hx with rfl | hx
      · omega
      · exact h.1 x hx

theorem withoutSource_falling (src : Nat) (l : List (Entry α)) (h : falling l) : falling (withoutSource src l) :=
  h.sublist List.filter_sublist

@[simp] theorem mem_withoutSource (src : Nat) (x : Entry α) (l : List (Entry α)) :
    x ∈ withoutSource src l ↔ x ∈ l ∧ x.source ≠ src := by simp [withoutSource]

@[simp] theorem holdsSource_iff (src : Nat) (l : List (Entry α)) :
    holdsSource src l = true ↔ ∃ x ∈ l, x.source = src := by simp [holdsSource]

/-- An active claim with a launch tag is the new top, and owes a report (R39, R40 part 3). -/
theorem placeClaim_active {stack : List (Entry α)} {src prio : Nat} {body : α} {tag : LaunchTag}
    (h : (placeClaim stack src prio body (some tag)).answer = .active) :
    (placeClaim stack src prio body (some tag)).newTop = true ∧
      ∃ es, (placeClaim stack src prio body (some tag)).stack = ⟨src, prio, body, some tag, true⟩ :: es := by
  have top : ∀ e es, (insertEntry ⟨src, prio, body, some tag, false⟩ (withoutSource src stack)).take 4 = e :: es →
      e.source = src → e = ⟨src, prio, body, some tag, false⟩ := by
    intro e es h1 h2
    have hm : e ∈ insertEntry ⟨src, prio, body, some tag, false⟩ (withoutSource src stack) :=
      List.mem_of_mem_take (by rw [h1]; simp)
    rw [mem_insertEntry, mem_withoutSource] at hm
    exact hm.resolve_right fun h => h.2 h2
  unfold placeClaim at h ⊢
  dsimp only at h ⊢
  split at h
  · next h0 =>
    rw [if_pos h0]
    split at h
    · next e below hk =>
      simp only [hk]
      split at h
      · next hs =>
        have he := top e below hk hs
        simp only [hs, if_true]
        split
        · exact ⟨rfl, below, by rw [he]; rfl⟩
        · exact ⟨rfl, by rw [he]; cases below <;> exact ⟨_, rfl⟩⟩
      · simp at h
    · simp at h
  · simp at h

end Sys2Proof.Machine
end

