-- ==== Sys2Proof/Laws/Colour.lean ====
section
/-! SUPPORT. What the stages of the emitter solve come to, emitter by emitter (R130 to R133), and the slot values of their
outputs (R189). -/

namespace Sys2Proof.Machine

/-- The hued emitters are those with a hue, each with its place (R130). -/
theorem huedFrom_eq (i : Nat) (es : List Emitter) :
    huedFrom i es = (es.zipIdx i).filterMap fun x => x.1.hue.map fun hue => (x.2, hue) := by
  induction es generalizing i with
  | nil => rfl
  | cons e es ih => cases h : e.hue <;> simp [huedFrom, h, ih]

/-- The pairs are those of consecutive hued emitters (R130). -/
theorem mem_huePairs (l : List (Nat × Nat)) (x y : Nat × Nat) :
    (x, y) ∈ huePairs l ↔ ∃ k : Nat, l[k]? = some x ∧ l[k + 1]? = some y := by
  induction l with
  | nil => simp [huePairs]
  | cons a l ih =>
    cases l with
    | nil => simp [huePairs]
    | cons b l =>
      simp only [huePairs, List.mem_cons, Prod.mk.injEq, ih]
      constructor
      · rintro (⟨rfl, rfl⟩ | ⟨k, h1, h2⟩)
        · exact ⟨0, rfl, rfl⟩
        · exact ⟨k + 1, h1, h2⟩
      · rintro ⟨k, h1, h2⟩
        cases k with
        | zero => simp at h1 h2; exact .inl ⟨h1.symm, h2.symm⟩
        | succ k => exact .inr ⟨k, h1, h2⟩

/-- The trimmed level of each emitter (R130 to R133). -/
theorem trimmedLevels_get (q : HuePair) (white : Bool) (s i : Nat) (es : List Emitter) (trims : List Nat) (j : Nat)
    (e : Emitter) (h : es[j]? = some e) :
    (trimmedLevels q white s i es trims)[j]? =
      some (trimmedLevel e.gain (trims.getD j 4096) (satLevel white s e.hue.isNone (pairLevel q (i + j)))) := by
  induction es generalizing i j trims with
  | nil => simp at h
  | cons a es ih =>
    cases j with
    | zero => simp at h; subst h; simp [trimmedLevels]; cases trims <;> rfl
    | succ j =>
      simp only [trimmedLevels, List.getElem?_cons_succ] at h ⊢
      have e2 : trims.tail.getD j 4096 = trims.getD (j + 1) 4096 := by cases trims <;> simp
      rw [ih (i + 1) trims.tail j h, e2]; congr 4; omega

/-- The clamped emitters are those whose trimmed level exceeds 4,096 (R133). -/
theorem mem_clampedFrom (l : List Nat) (i j : Nat) :
    j ∈ clampedFrom i l ↔ i ≤ j ∧ ∃ b, l[j - i]? = some b ∧ 4096 < b := by
  induction l generalizing i with
  | nil => simp [clampedFrom]
  | cons b l ih =>
    have e : j ∈ clampedFrom i (b :: l) ↔ (j = i ∧ 4096 < b) ∨ j ∈ clampedFrom (i + 1) l := by
      rw [clampedFrom]; split <;> simp_all
    rw [e, ih]
    constructor
    · rintro (⟨rfl, h⟩ | ⟨h1, c, h2, h3⟩)
      · exact ⟨le_refl _, b, by simp, h⟩
      · exact ⟨by omega, c, by rw [show j - i = (j - (i + 1)) + 1 by omega]; exact h2, h3⟩
    · rintro ⟨h1, c, h2, h3⟩
      by_cases e : j = i
      · subst e; simp at h2; subst h2; exact .inl ⟨rfl, h3⟩
      · rw [show j - i = (j - (i + 1)) + 1 by omega] at h2
        exact .inr ⟨by omega, c, h2, h3⟩

/-- Every emitter with an output has its slot values, split by its roles (R189). -/
theorem emitterSlots_eq (es : List Emitter) (outs : List Nat) :
    emitterSlots es outs = (es.zip outs).flatMap fun x => splitValue x.1.coarse x.1.fine x.2 := by
  induction es generalizing outs with
  | nil => simp [emitterSlots]
  | cons e es ih => cases outs <;> simp [emitterSlots, ih]

/-- A 16-bit value gives slot values of 8 bits (R74, R189). -/
theorem splitValue_le (coarse : Nat) (fine : Option Nat) {v : Nat} (h : v ≤ 65535) :
    ∀ w ∈ splitValue coarse fine v, w.2 ≤ 255 := by
  intro w hw
  unfold splitValue at hw
  split at hw <;> simp at hw
  · rcases hw with rfl | rfl <;> simp <;> omega
  · subst hw; simp

end Sys2Proof.Machine
end

