-- ==== Sys2Proof/Laws/Dispatch.lean ====
section
/-! SUPPORT. Every row of the table has an effect: no command, event or step faults or is refused. -/

namespace Sys2Proof.Machine

/-- Every command and event answers a next state, in every state. -/
theorem exec_next (c : Instr) (s : State) : ∃ t, exec c s = .next t := by
  cases c <;> exact ⟨_, rfl⟩

/-- The part never stops. -/
theorem step_next (s : State) : ∃ t, step s = .next t := by
  unfold step State.idle
  split
  · exact exec_next ..
  · split
    · exact exec_next ..
    · exact ⟨_, rfl⟩

end Sys2Proof.Machine
end

