-- ==== Sys2Proof/Laws/Memory.lean ====
section
/-! SUPPORT. The addressed buffers, slot buffers and Cue Memory: every operation on them keeps the canonical form, reads
back what it wrote and leaves every other slot. -/

namespace Sys2Proof.Machine

/-! ### Cue Memory -/

variable (m : CueMemory)

theorem CueMemory.writeRun_wf (start : Nat) (l : List (Option CueSlot)) (h : Store.wf none m.slots = true) :
    Store.wf none (m.writeRun start l).slots = true := Store.wf_setAll _ _ _ h

theorem CueMemory.freeRun_wf (e : DirEntry) (h : Store.wf none m.slots = true) :
    Store.wf none (m.freeRun e).slots = true := m.writeRun_wf _ _ h

theorem CueMemory.freeNumber_wf (d : List DirEntry) (n : Nat) (h : Store.wf none m.slots = true) :
    Store.wf none (m.freeNumber d n).slots = true := by
  unfold CueMemory.freeNumber; split
  · exact m.freeRun_wf _ h
  · exact h

theorem CueMemory.copyRun_wf (e : DirEntry) (dest : Nat) (h : Store.wf none m.slots = true) :
    Store.wf none (m.copyRun e dest).slots = true := CueMemory.writeRun_wf _ _ _ (m.freeRun_wf e h)

theorem CueMemory.storeCue_wf (start cue ms : Nat) (link : LinkKind) (es : List RawEntry)
    (h : Store.wf none m.slots = true) : Store.wf none (m.storeCue start cue link ms es).slots = true :=
  CueMemory.writeRun_wf _ _ _ (m.freeNumber_wf _ _ h)

theorem CueMemory.storePalette_wf (start q sat fade : Nat) (hue : Int) (os : List (Nat × OverrideValue))
    (h : Store.wf none m.slots = true) : Store.wf none (m.storePalette start q hue sat fade os).slots = true :=
  CueMemory.writeRun_wf _ _ _ (m.freeNumber_wf _ _ h)

theorem CueMemory.deleteCue_wf (cue : Nat) (h : Store.wf none m.slots = true) :
    Store.wf none (m.deleteCue cue).slots = true := m.freeNumber_wf _ _ h

theorem CueMemory.deletePalette_wf (q : Nat) (h : Store.wf none m.slots = true) :
    Store.wf none (m.deletePalette q).slots = true := m.freeNumber_wf _ _ h

theorem CueMemory.packStep_wf (h : Store.wf none m.slots = true) : Store.wf none m.packStep.slots = true := by
  unfold CueMemory.packStep
  split
  · split
    · simp only; split
      · exact h
      · exact m.copyRun_wf _ _ h
    · exact h
  · split
    · simp only; split
      · exact h
      · exact m.copyRun_wf _ _ h
    · exact h

/-- The contents numbered from a start, one after another. -/
theorem mem_numberFrom {α : Type} (start : Nat) (l : List α) (w : Nat × α) :
    w ∈ numberFrom start l ↔ ∃ i, l[i]? = some w.2 ∧ w.1 = start + i := by
  induction l generalizing start with
  | nil => simp [numberFrom]
  | cons a l ih =>
    simp only [numberFrom, List.mem_cons, ih]
    constructor
    · rintro (rfl | ⟨i, hi, hw⟩)
      · exact ⟨0, by simp⟩
      · exact ⟨i + 1, by simpa using hi, by omega⟩
    · rintro ⟨i, hi, hw⟩
      cases i with
      | zero =>
        obtain ⟨j, b⟩ := w
        simp only [List.getElem?_cons_zero, Option.some.injEq, Nat.add_zero] at hi hw
        exact .inl (by rw [hw, hi])
      | succ i => exact .inr ⟨i, by simpa using hi, by omega⟩

/-- A run written reads back slot by slot. -/
theorem CueMemory.writeRun_get (start : Nat) (l : List (Option CueSlot)) (i : Nat) (v : Option CueSlot)
    (h : l[i]? = some v) : Store.get none (m.writeRun start l).slots (start + i) = v := by
  refine Store.get_setAll_of_mem none m.slots _ ⟨(start + i, v), (mem_numberFrom ..).2 ⟨i, h, rfl⟩, rfl⟩ ?_
  rintro ⟨j, w⟩ hw hj
  obtain ⟨k, hk, hjk⟩ := (mem_numberFrom ..).1 hw
  simp only at hk hj hjk ⊢
  have : k = i := by omega
  subst this
  rw [h] at hk
  exact (Option.some.inj hk).symm

/-- A run written leaves every slot outside it. -/
theorem CueMemory.writeRun_get_other (start : Nat) (l : List (Option CueSlot)) (j : Nat)
    (h : j < start ∨ start + l.length ≤ j) : Store.get none (m.writeRun start l).slots j = Store.get none m.slots j := by
  refine Store.get_setAll_other none m.slots _ fun w hw e => ?_
  obtain ⟨i, hi, hwi⟩ := (mem_numberFrom ..).1 hw
  have : i < l.length := by
    rw [List.getElem?_eq_some_iff] at hi
    exact hi.1
  omega

/-! ### Slot buffers -/

variable (s : State)

/-- A whole write keeps the buffer of its line canonical (R188). -/
theorem State.writeSlots_wf (line base : Nat) (ws : List (Nat × Nat)) (h : Store.wf 0 (s.line line).buffer = true) :
    Store.wf 0 ((s.writeSlots line base ws).line line).buffer = true := by
  simp only [State.writeSlots, State.setLine_line_same]
  exact Store.wf_setAll _ _ _ h

/-- A whole write leaves the other lines. -/
theorem State.writeSlots_line_other (line base : Nat) (ws : List (Nat × Nat)) {l : Nat} (h : l ≠ line) :
    (s.writeSlots line base ws).line l = s.line l := State.setLine_line_other _ _ _ h

/-- A whole write leaves the slots it does not name. -/
theorem State.writeSlots_get_other (line base : Nat) (ws : List (Nat × Nat)) (i : Nat)
    (h : ∀ w ∈ ws, base + w.1 ≠ i) :
    Store.get 0 ((s.writeSlots line base ws).line line).buffer i = Store.get 0 (s.line line).buffer i := by
  simp only [State.writeSlots, State.setLine_line_same]
  refine Store.get_setAll_other _ _ _ ?_
  simp only [List.mem_map]
  rintro w ⟨x, hx, rfl⟩
  exact h x hx

/-- Reset's storage is canonical. -/
theorem reset_slots_wf : Store.wf none State.reset.memory.slots = true ∧ State.reset.lines.lines = [] := ⟨rfl, rfl⟩

end Sys2Proof.Machine
end

