-- ==== Sys2Proof/Laws/Pack.lean ====
section
/-! SUPPORT. The order in which a pack takes the runs, and what moving one leaves (R152). -/

namespace Sys2Proof.Machine

theorem insertByStart_perm (e : DirEntry) (l : List DirEntry) : (insertByStart e l).Perm (e :: l) := by
  induction l with
  | nil => simp [insertByStart]
  | cons x xs ih =>
    simp only [insertByStart]; split
    · rfl
    · exact (List.Perm.cons x ih).trans (List.Perm.swap _ _ _)

theorem byStart_perm (l : List DirEntry) : (byStart l).Perm l := by
  induction l with
  | nil => rfl
  | cons x xs ih => exact (insertByStart_perm x _).trans (ih.cons x)

theorem insertByStart_sorted (e : DirEntry) (l : List DirEntry) (h : l.Pairwise fun a b => a.start < b.start)
    (hd : ∀ x ∈ l, x.start ≠ e.start) : (insertByStart e l).Pairwise fun a b => a.start < b.start := by
  induction l with
  | nil => simp [insertByStart]
  | cons x xs ih =>
    rw [List.pairwise_cons] at h
    simp only [insertByStart]; split
    · next hx =>
      refine List.pairwise_cons.2 ⟨fun y hy => ?_, List.pairwise_cons.2 h⟩
      rcases List.mem_cons.1 hy with rfl | hy
      · exact hx
      · exact hx.trans (h.1 y hy)
    · next hx =>
      refine List.pairwise_cons.2 ⟨fun y hy => ?_, ih h.2 fun y hy => hd y (by simp [hy])⟩
      rcases List.mem_cons.1 ((insertByStart_perm e xs).mem_iff.1 hy) with rfl | hy
      · have := hd x (by simp); omega
      · exact h.1 y hy

/-- Runs that are apart and not empty have different starts. -/
theorem dirOk_starts {d : List DirEntry} (h : dirOk d) : d.Pairwise fun a b => a.start ≠ b.start := by
  refine List.pairwise_iff_forall_sublist.2 fun {a b} hs => ?_
  have := List.pairwise_iff_forall_sublist.1 h.2.1 hs
  have ha := h.2.2 a (hs.subset (by simp))
  have hb := h.2.2 b (hs.subset (by simp))
  unfold DirEntry.apart at this; omega

theorem byStart_sorted {d : List DirEntry} (h : dirOk d) : (byStart d).Pairwise fun a b => a.start < b.start := by
  have hd := dirOk_starts h
  clear h
  induction d with
  | nil => exact List.Pairwise.nil
  | cons x xs ih =>
    rw [List.pairwise_cons] at hd
    exact insertByStart_sorted x _ (ih hd.2) fun y hy => (hd.1 y ((byStart_perm xs).mem_iff.1 hy)).symm

/-- A directory in order has one arrangement in ascending start. -/
theorem byStart_eq {d l : List DirEntry} (h : dirOk d) (hp : l.Perm d) (hl : l.Pairwise fun a b => a.start < b.start) :
    byStart d = l := by
  refine List.Perm.eq_of_pairwise ?_ (byStart_sorted h) hl ((byStart_perm d).trans hp.symm)
  intro a b _ _ h1 h2; omega

/-- Moving the entry of a number changes that one entry. -/
theorem moveEntry_eq {d : List DirEntry} (h : dirOk d) {e : DirEntry} (he : e ∈ d) (start : Nat) :
    moveEntry e.number start d = d.map fun x => if x = e then { e with start := start } else x := by
  unfold moveEntry
  refine List.map_congr_left fun x hx => ?_
  by_cases hxe : x = e
  · subst hxe; simp
  · have hn := List.pairwise_iff_getElem.1 h.1
    have : x.number ≠ e.number := by
      obtain ⟨i, hi, rfl⟩ := List.getElem_of_mem hx
      obtain ⟨j, hj, rfl⟩ := List.getElem_of_mem he
      rcases lt_trichotomy i j with hij | rfl | hij
      · exact (hn i j hi hj hij).ne
      · exact absurd rfl hxe
      · exact (hn j i hj hi hij).ne'
    simp [hxe, this]

/-- A run copied leaves every slot outside its old and its new place. -/
theorem CueMemory.copyRun_get_other (m : CueMemory) (e : DirEntry) (dest a : Nat) (h1 : a < dest ∨ dest + e.length ≤ a)
    (h2 : a < e.start ∨ e.start + e.length ≤ a) :
    Store.get none (m.copyRun e dest).slots a = Store.get none m.slots a := by
  rw [CueMemory.copyRun, CueMemory.writeRun_get_other _ _ _ _ (by simpa [CueMemory.runContents] using h1)]
  exact m.writeRun_get_other _ _ _ (by simpa using h2)

end Sys2Proof.Machine
end

