-- ==== Sys2Proof/Laws/PerInstr.lean ====
section
/-! SUPPORT. What holds of every command as syntax: a command that a frame carries has one of the command kinds 0x01 to
0x5F of 11.9, so no command's kind meets a notice's, READY's or a reply's. One lemma for each constructor. -/

namespace Sys2Proof.Laws

/-- The kind code of a row that a frame carries lies in 0x01 to 0x5F (11.9). -/
def Carried.Statement (c : Instr) : Prop := (encodeCommand c).all (fun f => decide (0 < f.1) && decide (f.1 < 0x60)) = true

theorem Carried.powerOn : Carried.Statement .powerOn := rfl
theorem Carried.resetLow : Carried.Statement .resetLow := rfl
theorem Carried.resetEnd : Carried.Statement .resetEnd := rfl
theorem Carried.receiveFrame (bytes : List RxByte) : Carried.Statement (.receiveFrame bytes) := rfl
theorem Carried.interByteTimeout : Carried.Statement .interByteTimeout := rfl
theorem Carried.transmitEnd : Carried.Statement .transmitEnd := rfl
theorem Carried.identify : Carried.Statement .identify := rfl
theorem Carried.start : Carried.Statement .start := rfl
theorem Carried.standby : Carried.Statement .standby := rfl
theorem Carried.restart : Carried.Statement .restart := rfl
theorem Carried.setNotice (levels : List Nat) : Carried.Statement (.setNotice levels) := rfl
theorem Carried.setCounter (counter event mask : Nat) : Carried.Statement (.setCounter counter event mask) := rfl
theorem Carried.readCounters : Carried.Statement .readCounters := rfl
theorem Carried.clearCounters : Carried.Statement .clearCounters := rfl
theorem Carried.stopChange (high : Bool) : Carried.Statement (.stopChange high) := rfl
theorem Carried.motionStopHigh : Carried.Statement .motionStopHigh := rfl
theorem Carried.motionStopLow : Carried.Statement .motionStopLow := rfl
theorem Carried.colourStopHigh : Carried.Statement .colourStopHigh := rfl
theorem Carried.colourResume : Carried.Statement .colourResume := rfl
theorem Carried.playbackStopLow (list : Nat) : Carried.Statement (.playbackStopLow list) := rfl
theorem Carried.startReaim : Carried.Statement .startReaim := rfl
theorem Carried.startMotion : Carried.Statement .startMotion := rfl
theorem Carried.startLines : Carried.Statement .startLines := rfl
theorem Carried.standbyMotion : Carried.Statement .standbyMotion := rfl
theorem Carried.standbyColour : Carried.Statement .standbyColour := rfl
theorem Carried.standbyList (list : Nat) : Carried.Statement (.standbyList list) := rfl
theorem Carried.standbyLines : Carried.Statement .standbyLines := rfl
theorem Carried.defineKind (k : RawKind) : Carried.Statement (.defineKind k) := rfl
theorem Carried.dropKind (kind : Nat) : Carried.Statement (.dropKind kind) := rfl
theorem Carried.queryKind (kind : Nat) : Carried.Statement (.queryKind kind) := rfl
theorem Carried.patch (a : PatchArgs) : Carried.Statement (.patch a) := rfl
theorem Carried.unpatch (first count : Nat) : Carried.Statement (.unpatch first count) := rfl
theorem Carried.unpatchFixture : Carried.Statement .unpatchFixture := rfl
theorem Carried.setPose (a : PoseArgs) : Carried.Statement (.setPose a) := rfl
theorem Carried.setTrim (fixture : Nat) (trims : List Nat) : Carried.Statement (.setTrim fixture trims) := rfl
theorem Carried.setPassthrough (fixture : Nat) (values : List Nat) : Carried.Statement (.setPassthrough fixture values) := rfl
theorem Carried.setTruss (truss : Nat) (offset : Pos) : Carried.Statement (.setTruss truss offset) := rfl
theorem Carried.copyRig (a : CopyArgs) : Carried.Statement (.copyRig a) := rfl
theorem Carried.recordCopy : Carried.Statement .recordCopy := rfl
theorem Carried.queryFixture (fixture : Nat) : Carried.Statement (.queryFixture fixture) := rfl
theorem Carried.setPoint (point : Nat) (pos : Pos) : Carried.Statement (.setPoint point pos) := rfl
theorem Carried.bindTag (point tag : Nat) (offset : Pos) : Carried.Statement (.bindTag point tag offset) := rfl
theorem Carried.unbindTag (point : Nat) : Carried.Statement (.unbindTag point) := rfl
theorem Carried.track (records : List TrackRec) : Carried.Statement (.track records) := rfl
theorem Carried.trackPointMove : Carried.Statement .trackPointMove := rfl
theorem Carried.staleTimerExpiry (point : Nat) : Carried.Statement (.staleTimerExpiry point) := rfl
theorem Carried.setStaleLimit (ms : Nat) : Carried.Statement (.setStaleLimit ms) := rfl
theorem Carried.queryPoint (point : Nat) : Carried.Statement (.queryPoint point) := rfl
theorem Carried.setPriority (source priority : Nat) : Carried.Statement (.setPriority source priority) := rfl
theorem Carried.directAim (e : RawEntry) : Carried.Statement (.directAim e) := rfl
theorem Carried.directAimFixture : Carried.Statement .directAimFixture := rfl
theorem Carried.directColour (e : RawEntry) : Carried.Statement (.directColour e) := rfl
theorem Carried.directColourFixture : Carried.Statement .directColourFixture := rfl
theorem Carried.releaseDirect (a : ReleaseArgs) : Carried.Statement (.releaseDirect a) := rfl
theorem Carried.releaseDirectFixture : Carried.Statement .releaseDirectFixture := rfl
theorem Carried.bindFollow (first count point : Nat) : Carried.Statement (.bindFollow first count point) := rfl
theorem Carried.bindFollowFixture : Carried.Statement .bindFollowFixture := rfl
theorem Carried.unbindFollow (first count : Nat) : Carried.Statement (.unbindFollow first count) := rfl
theorem Carried.unbindFollowFixture : Carried.Statement .unbindFollowFixture := rfl
theorem Carried.queryClaims (fixture : Nat) : Carried.Statement (.queryClaims fixture) := rfl
theorem Carried.flushCache : Carried.Statement .flushCache := rfl
theorem Carried.querySolver : Carried.Statement .querySolver := rfl
theorem Carried.jobStart : Carried.Statement .jobStart := rfl
theorem Carried.jobCompletion : Carried.Statement .jobCompletion := rfl
theorem Carried.motionStep (fixture : Nat) : Carried.Statement (.motionStep fixture) := rfl
theorem Carried.halt (first count : Nat) : Carried.Statement (.halt first count) := rfl
theorem Carried.haltFixture : Carried.Statement .haltFixture := rfl
theorem Carried.queryMotion (fixture : Nat) : Carried.Statement (.queryMotion fixture) := rfl
theorem Carried.fadeStep (fixture : Nat) : Carried.Statement (.fadeStep fixture) := rfl
theorem Carried.queryColour (fixture : Nat) : Carried.Statement (.queryColour fixture) := rfl
theorem Carried.storeCue (mark : Nat) (a : CueArgs) : Carried.Statement (.storeCue mark a) := rfl
theorem Carried.storeCueFirst (a : CueArgs) : Carried.Statement (.storeCueFirst a) := rfl
theorem Carried.storeCueMore (a : CueArgs) : Carried.Statement (.storeCueMore a) := rfl
theorem Carried.storeCueLast (a : CueArgs) : Carried.Statement (.storeCueLast a) := rfl
theorem Carried.deleteCue (cue : Nat) : Carried.Statement (.deleteCue cue) := rfl
theorem Carried.storePalette (a : PaletteArgs) : Carried.Statement (.storePalette a) := rfl
theorem Carried.paletteUpdate : Carried.Statement .paletteUpdate := rfl
theorem Carried.deletePalette (palette : Nat) : Carried.Statement (.deletePalette palette) := rfl
theorem Carried.pack : Carried.Statement .pack := rfl
theorem Carried.packStep : Carried.Statement .packStep := rfl
theorem Carried.abortPack : Carried.Statement .abortPack := rfl
theorem Carried.defineList (a : ListArgs) : Carried.Statement (.defineList a) := rfl
theorem Carried.go (list cue bar : Nat) : Carried.Statement (.go list cue bar) := rfl
theorem Carried.walkStep (list : Nat) : Carried.Statement (.walkStep list) := rfl
theorem Carried.walkEnd (list : Nat) : Carried.Statement (.walkEnd list) := rfl
theorem Carried.launchReport (r : Report) : Carried.Statement (.launchReport r) := rfl
theorem Carried.linkTimerExpiry (list : Nat) : Carried.Statement (.linkTimerExpiry list) := rfl
theorem Carried.listBarStart (list : Nat) : Carried.Statement (.listBarStart list) := rfl
theorem Carried.releaseList (list : Nat) : Carried.Statement (.releaseList list) := rfl
theorem Carried.releaseListFixture : Carried.Statement .releaseListFixture := rfl
theorem Carried.queryList (list : Nat) : Carried.Statement (.queryList list) := rfl
theorem Carried.queryMemory : Carried.Statement .queryMemory := rfl
theorem Carried.beatRise : Carried.Statement .beatRise := rfl
theorem Carried.acceptedEdge : Carried.Statement .acceptedEdge := rfl
theorem Carried.flywheelExpiry : Carried.Statement .flywheelExpiry := rfl
theorem Carried.setBeatSource (source filter : Nat) : Carried.Statement (.setBeatSource source filter) := rfl
theorem Carried.setTempo (tempo : Nat) : Carried.Statement (.setTempo tempo) := rfl
theorem Carried.setBar (beats : Nat) : Carried.Statement (.setBar beats) := rfl
theorem Carried.queryClock : Carried.Statement .queryClock := rfl
theorem Carried.refreshExpiry (line : Nat) : Carried.Statement (.refreshExpiry line) := rfl
theorem Carried.frameEnd (line : Nat) : Carried.Statement (.frameEnd line) := rfl
theorem Carried.setLine (a : LineArgs) : Carried.Statement (.setLine a) := rfl
theorem Carried.queryLine (line first count : Nat) : Carried.Statement (.queryLine line first count) := rfl
theorem Carried.beatPulseFall : Carried.Statement .beatPulseFall := rfl

end Sys2Proof.Laws
end

