-- ==== Sys2Proof/Laws/Playback.lean ====
section
/-! SUPPORT. What launches and automatic GOs come to, in the terms of Safety; what the search for the next cue and for the
next claim of a walk finds (R156, R161); what a change of STOP leaves in the lists (R166). -/

namespace Sys2Proof.Machine

variable (s : State)

/-- An automatic GO launches the next cue, or spends the link (R164). -/
theorem State.automaticGo_autoGo (n : Nat) (cause : LaunchCause) : s.automaticGo n cause (s.autoGo n cause) := by
  refine ⟨fun h => ?_, fun c entries link ms h h2 => ?_⟩
  · simp only [State.autoGo, h]; rfl
  · simp only [State.autoGo, h, State.makeLaunch, h2]; rfl

/-- A launch that resolves is made (R160, parts 2 to 4). -/
theorem State.launch_of_resolved {n c entries ms : Nat} {want : Option Nat} {link : LinkKind} (cause : LaunchCause)
    (h : s.resolveCue (s.cueList n) want = some c) (h2 : s.cueHeader c = some (entries, link, ms)) :
    s.launch n want cause = s.launched n c cause link ms := by
  simp only [State.launch, h, State.makeLaunch, h2]; rfl

/-- A launch that does not resolve is dropped (R160, part 1). -/
theorem State.launch_of_unresolved {n : Nat} {want : Option Nat} (cause : LaunchCause)
    (h : s.resolveCue (s.cueList n) want = none) : s.launch n want cause = s.dropped n cause := by
  simp only [State.launch, h]; rfl

/-- A list entering ARMED: its armed GO stands, and the link of its launch is spent (R159). -/
theorem State.enterArmed_eq (n : Nat) (want : Option Nat) :
    s.enterArmed n want = s.setCueList n
      { s.cueList n with
        mode := .armed, armedGo := some want, pendingGo := none
        launch := (s.cueList n).launch.map fun r =>
          { r with timer := none, wait := false, due := false, spent := true } } := rfl

/-- STOP going high pauses each list of the numbers once, and changes nothing else (R166). -/
theorem State.pauseLists_spec {ns : List Nat} (hn : ns.Nodup) :
    s.pauseLists ns = s.withPlayback (s.pauseLists ns).playback ∧
      (s.pauseLists ns).playback.reports = s.playback.reports ∧
      ∀ n, (s.pauseLists ns).cueList n = if n ∈ ns then (s.cueList n).pause s.now else s.cueList n := by
  induction ns generalizing s with
  | nil => exact ⟨rfl, rfl, fun n => by simp [State.pauseLists]⟩
  | cons a l ih =>
    rw [List.nodup_cons] at hn
    obtain ⟨h1, h2, h3⟩ := ih (s.setCueList a ((s.cueList a).pause s.now)) hn.2
    refine ⟨h1, h2, fun n => ?_⟩
    simp only [State.pauseLists]
    rw [h3]
    by_cases e : n = a
    · subst e; simp [hn.1]
    · simp [State.setCueList_cueList, e]

/-- STOP going low gives each list of the numbers one change to take, and changes nothing else (R166, R206). -/
theorem State.giveLow_spec {ns : List Nat} (hn : ns.Nodup) :
    s.giveLow ns = s.withPlayback (s.giveLow ns).playback ∧ (s.giveLow ns).playback.reports = s.playback.reports ∧
      ∀ n, (s.giveLow ns).cueList n =
        if n ∈ ns then { s.cueList n with lowsDue := (s.cueList n).lowsDue + 1 } else s.cueList n := by
  induction ns generalizing s with
  | nil => exact ⟨rfl, rfl, fun n => by simp [State.giveLow]⟩
  | cons a l ih =>
    rw [List.nodup_cons] at hn
    obtain ⟨h1, h2, h3⟩ := ih (s.setCueList a { s.cueList a with lowsDue := (s.cueList a).lowsDue + 1 }) hn.2
    refine ⟨h1, h2, fun n => ?_⟩
    simp only [State.giveLow]
    rw [h3]
    by_cases e : n = a
    · subst e; simp [hn.1]
    · simp [State.setCueList_cueList, e]

/-- The first of a rising list that passes a test is the least that passes it. -/
theorem find_rising {l : List Nat} (hl : l.Pairwise (· < ·)) (p : Nat → Bool) (c : Nat) :
    l.find? p = some c ↔ (c ∈ l ∧ p c = true) ∧ ∀ d ∈ l, p d = true → c ≤ d := by
  induction l with
  | nil => simp
  | cons x l ih =>
    rw [List.pairwise_cons] at hl
    rw [List.find?_cons]
    simp only [List.mem_cons]
    split
    · next h =>
      rw [Option.some.injEq]
      constructor
      · rintro rfl
        exact ⟨⟨.inl rfl, h⟩, fun d hd _ => hd.elim (fun e => e ▸ le_refl _) fun hd => (hl.1 d hd).le⟩
      · rintro ⟨⟨rfl | h1, -⟩, h2⟩
        · rfl
        · have := h2 x (.inl rfl) h; have := hl.1 c h1; omega
    · next h =>
      rw [ih hl.2]
      constructor
      · rintro ⟨⟨h1, h2⟩, h3⟩
        exact ⟨⟨.inr h1, h2⟩, fun d hd hp => hd.elim (fun e => by simp_all) fun hd => h3 d hd hp⟩
      · rintro ⟨⟨rfl | h1, h2⟩, h3⟩
        · simp_all
        · exact ⟨⟨h1, h2⟩, fun d hd hp => h3 d (.inr hd) hp⟩

/-- The stored cue numbers in a list's range are rising (R145). -/
theorem State.cuesInRange_rising (h : dirOk s.memory.cues) (l : CueList) : (s.cuesInRange l).Pairwise (· < ·) :=
  List.Pairwise.filter _ (List.pairwise_map.2 h.1)

theorem State.mem_cuesInRange (l : CueList) (c : Nat) :
    c ∈ s.cuesInRange l ↔ (∃ e ∈ s.memory.cues, e.number = c) ∧ l.first ≤ c ∧ c ≤ l.last := by
  simp [State.cuesInRange, CueList.inRange]

/-- A walk finds no claim to make exactly when every fixture left to it is UNPATCHED (R161). -/
theorem State.firstPatched_eq_none (k : Nat) (l : List WalkItem) :
    s.firstPatched k l = none ↔ ∀ (j : Nat) w, l[j]? = some w → s.isPatched w.fixture = false := by
  induction l generalizing k with
  | nil => simp [State.firstPatched]
  | cons x l ih =>
    simp only [State.firstPatched]
    split
    · next h => simp; exact ⟨0, x, rfl, by simpa using h⟩
    · next h =>
      rw [ih]
      constructor
      · intro h1 j w hw
        cases j with
        | zero => simp at hw; subst hw; simpa using h
        | succ j => exact h1 j w (by simpa using hw)
      · intro h1 j w hw; exact h1 (j + 1) w (by simpa using hw)

/-- The claim that a walk finds is the first on a PATCHED fixture (R161). -/
theorem State.firstPatched_eq_some (k pos : Nat) (w : WalkItem) (l : List WalkItem) :
    s.firstPatched k l = some (pos, w) ↔
      ∃ j : Nat, pos = k + j + 1 ∧ l[j]? = some w ∧ s.isPatched w.fixture = true ∧
        ∀ (i : Nat) v, i < j → l[i]? = some v → s.isPatched v.fixture = false := by
  induction l generalizing k with
  | nil => simp [State.firstPatched]
  | cons x l ih =>
    simp only [State.firstPatched]
    split
    · next h =>
      simp only [Option.some.injEq, Prod.mk.injEq]
      constructor
      · rintro ⟨rfl, rfl⟩; exact ⟨0, rfl, rfl, h, by simp⟩
      · rintro ⟨j, h1, h2, h3, h4⟩
        cases j with
        | zero => simp at h2; exact ⟨h1.symm, h2⟩
        | succ j => have := h4 0 x (by omega) rfl; simp_all
    · next h =>
      rw [ih]
      constructor
      · rintro ⟨j, h1, h2, h3, h4⟩
        refine ⟨j + 1, by omega, by simpa using h2, h3, fun i v hj hw => ?_⟩
        cases i with
        | zero => simp at hw; subst hw; simpa using h
        | succ i => exact h4 i v (by omega) (by simpa using hw)
      · rintro ⟨j, h1, h2, h3, h4⟩
        cases j with
        | zero => simp at h2; subst h2; exact absurd h3 h
        | succ j =>
          exact ⟨j, by omega, by simpa using h2, h3, fun i v hj hw => h4 (i + 1) v (by omega) (by simpa using hw)⟩

end Sys2Proof.Machine
end

