-- ==== Sys2Proof/Laws/Solve.lean ====
section
/-! SUPPORT. What the search for an angle finds (R62, R63), which aims are candidates (R66, R67), and the range of a count
(R72). -/

namespace Sys2Proof.Machine

/-- The search keeps its bounds: where it ends, `p` is false, or the top is reached, and just below it `p` is true, or the
bottom is reached. -/
theorem leastFalse_spec (p : Nat → Bool) (top fuel lo hi : Nat) (h : lo ≤ hi) (hf : hi - lo < 2 ^ fuel) (ht : hi ≤ top)
    (hlo : 0 < lo → p (lo - 1) = true) (hhi : hi < top → p hi = false) :
    leastFalse p fuel lo hi ≤ top ∧ (0 < leastFalse p fuel lo hi → p (leastFalse p fuel lo hi - 1) = true) ∧
      (leastFalse p fuel lo hi < top → p (leastFalse p fuel lo hi) = false) := by
  induction fuel generalizing lo hi with
  | zero =>
    obtain rfl : lo = hi := by omega
    exact ⟨ht, hlo, hhi⟩
  | succ n ih =>
    have e : 2 ^ (n + 1) = 2 * 2 ^ n := by rw [pow_succ]; ring
    simp only [leastFalse]
    split
    · split
      · next hp => exact ih _ _ (by omega) (by omega) ht (fun _ => by simpa using hp) hhi
      · next hp => exact ih _ _ (by omega) (by omega) (by omega) hlo fun _ => by simpa using hp
    · obtain rfl : lo = hi := by omega
      exact ⟨ht, hlo, hhi⟩

/-- An angle of the first quadrant lies above the half mark below it, and not above the one that follows it (R62). -/
theorem quadrantAngle_spec (opp adj : Nat) :
    quadrantAngle opp adj ≤ 9000 ∧ (0 < quadrantAngle opp adj → angleAbove opp adj (quadrantAngle opp adj - 1) = true) ∧
      (quadrantAngle opp adj < 9000 → angleAbove opp adj (quadrantAngle opp adj) = false) :=
  leastFalse_spec (angleAbove opp adj) 9000 14 0 9000 (by omega) (by decide) (by omega) (by omega) (by omega)

/-- The candidates of a result with neither flag: each branch at every whole turn whose pan lies in range (R66). -/
theorem mem_plainCandidates {k : Profile} (hk : k.rangesOk) {phi : Int} (_ : 0 ≤ phi) (_ : phi ≤ 35999) (theta : Int)
    (c : Candidate) :
    c ∈ plainCandidates k phi theta ↔
      k.panMin ≤ c.pan ∧ c.pan ≤ k.panMax ∧
        ∃ turn : Int,
          (c.branchB = false ∧ c.pan = phi + turn * 36000 ∧ c.tilt = theta) ∨
            (c.branchB = true ∧ c.pan = phi + 18000 + turn * 36000 ∧ c.tilt = -theta) := by
  obtain ⟨b, p, t⟩ := c
  obtain ⟨a1, a2, -⟩ := hk
  simp only [plainCandidates, turns, List.mem_filter, List.mem_append, List.mem_map, Candidate.mk.injEq,
    Bool.and_eq_true, decide_eq_true_eq]
  constructor
  · rintro ⟨⟨x, -, rfl, rfl, rfl⟩ | ⟨x, -, rfl, rfl, rfl⟩, h3, h4⟩
    · exact ⟨h3, h4, x, .inl ⟨rfl, rfl, rfl⟩⟩
    · exact ⟨h3, h4, x, .inr ⟨rfl, rfl, rfl⟩⟩
  · rintro ⟨h3, h4, x, ⟨rfl, rfl, rfl⟩ | ⟨rfl, rfl, rfl⟩⟩
    · refine ⟨.inl ⟨x, ?_, rfl, rfl, rfl⟩, h3, h4⟩; simp; omega
    · refine ⟨.inr ⟨x, ?_, rfl, rfl, rfl⟩, h3, h4⟩; simp; omega

/-- The count of a position in range lies within 16 bits (R72). -/
theorem axisCount_le {lo hi pos : Int} (h0 : lo ≤ hi) (h2 : pos ≤ hi * 16) :
    axisCount lo hi pos ≤ 65535 := by
  unfold axisCount
  rcases eq_or_lt_of_le h0 with h | h
  · subst h; simp
  · have := Int.ediv_lt_of_lt_mul (a := (pos - lo * 16) * 65535 + (hi - lo) * 16 / 2) (b := 65536) (c := (hi - lo) * 16)
      (by omega) (by omega)
    omega

end Sys2Proof.Machine
end

