-- ==== Sys2Proof/Laws/Time.lean ====
section
/-! SUPPORT. What the passing of a microsecond can change: the time, and the step and fade timers with the records due a
step (R97, R123). -/

namespace Sys2Proof.Machine

variable (s : State)

theorem State.stepTimerTick_frame : s.stepTimerTick = s.withMotion s.stepTimerTick.motion := by
  unfold State.stepTimerTick; split <;> [split; skip] <;> rfl

theorem State.fadeTimerTick_frame : s.fadeTimerTick = s.withColour s.fadeTimerTick.colour := by
  unfold State.fadeTimerTick; split <;> [split; skip] <;> rfl

theorem State.tick_motion : s.tick.motion = (s.withNow (s.now + 1)).stepTimerTick.motion := by
  unfold State.tick; rw [State.fadeTimerTick_frame]; rfl

theorem State.tick_frame : s.tick = ((s.withNow (s.now + 1)).withMotion s.tick.motion).withColour s.tick.colour := by
  rw [s.tick_motion, ← State.stepTimerTick_frame]; exact State.fadeTimerTick_frame _

/-- The fixtures due a motion step are those whose records are not HELD (R97). -/
theorem State.mem_moving (f : Nat) : f ∈ s.moving ↔ ∃ m : Motion, (f, some m) ∈ s.motion.records ∧ m.mode ≠ .held := by
  simp only [State.moving, List.mem_map, List.mem_filter]
  constructor
  · rintro ⟨⟨_, _ | m⟩, ⟨h1, h2⟩, rfl⟩
    · simp at h2
    · exact ⟨m, h1, by simpa using h2⟩
  · rintro ⟨m, h1, h2⟩
    exact ⟨(f, some m), ⟨h1, by simpa using h2⟩, rfl⟩

/-- The fixtures due a fade step are those whose records are FADING (R123). -/
theorem State.mem_fading (f : Nat) :
    f ∈ s.fading ↔ ∃ c : Colour, (f, some c) ∈ s.colour.records ∧ c.fade.isSome = true := by
  simp only [State.fading, List.mem_map, List.mem_filter]
  constructor
  · rintro ⟨⟨_, _ | c⟩, ⟨h1, h2⟩, rfl⟩
    · simp at h2
    · exact ⟨c, h1, by simpa using h2⟩
  · rintro ⟨c, h1, h2⟩
    exact ⟨(f, some c), ⟨h1, by simpa using h2⟩, rfl⟩

end Sys2Proof.Machine
end

