-- ==== Sys2Proof/Tests/Slice0.lean ====
section
/-! SUPPORT. Small tests of one step each, the refusals of ill-formed terms, worked figures of the spec, and for every
statement with hypotheses a state and operands that meet them. Expected values are the spec's own, by the rule or worked
case that each section names. -/

set_option Elab.async false

namespace Sys2Proof.Tests

open Sys2Proof Sys2Proof.Machine

/-! ### Small states -/

/-- The part right after a reset's end and READY's sending, LIVE, with STOP low. -/
def calm : State :=
  { State.reset with resetting := none, part := .live, link := { Link.reset with readySent := true } }

/-- A state with a command handed to its owner. -/
def given (s : State) (c : Instr) : State :=
  match encodeCommand c with
  | some (k, _) => s.hold c k
  | none => s

/-- A state with work under way. -/
def working (s : State) (w : Work) : State := s.withLink { s.link with held := some ⟨0x39, 1, 8, .working w⟩ }

/-- The next state of an outcome. -/
def out (r : Result) : State :=
  match r with
  | .next s => s
  | _ => State.reset

/-- The status, room and data of the reply being sent. -/
def reply (r : Result) : Option (List Byte) := ((out r).link.sending).map fun x => x.frame.payload

/-- The kind of the worked cases: emitters red, green and blue and a white, 8-bit roles (7.5). -/
def kindA : RawKind :=
  { kind := 4, panMin := -27000, panMax := 27000, tiltMin := -13500, tiltMax := 13500, vmaxPan := 600, vmaxTilt := 600
    amaxPan := 8, amaxTilt := 8, gain := 64, footprint := 16, panCoarse := 0, panFine := 1, tiltCoarse := 2, tiltFine := 3
    model := 1, listCount := 4, wheelRole := 255
    emitters := [⟨0, 4096, 4, 5⟩, ⟨1200, 3686, 6, 7⟩, ⟨2400, 4096, 8, 9⟩, ⟨65535, 4096, 10, 11⟩]
    wheel := [], pass := [12] }

/-- A kind without colour. -/
def kindB : RawKind :=
  { kindA with kind := 5, footprint := 4, model := 0, listCount := 0, emitters := [], pass := [] }

def profA : Profile := kindA.profile

/-- A PATCHED record of kind 4 on line 0. -/
def patchA (base : Nat) : Patch :=
  ⟨4, 0, base, 2, ⟨-4000, 0, 0⟩, 0, .hung, false, false, 0, 0, [4096, 4096, 4096, 4096], [0]⟩

def motionA : Motion := { Motion.fresh 0 0 with aim := some (.point 5) }

def colourA : Colour := Colour.fresh profA.model

/-- LIST0's claim on point 5 for 2,000 ms. -/
def entryA : Entry AimClaim := ⟨0, 8, ⟨.point 5, .timed, 2000⟩, some ⟨0, 5⟩, true⟩

/-- Fixtures 17 and 18 PATCHED on line 0, 17 aimed at point 5 by LIST0; truss 2 and points 3 (bound) and 5 SET. -/
def rigged : State :=
  { calm with
    rig := ⟨[(4, some profA)], [(17, ⟨some (patchA 1), 1⟩), (18, ⟨some (patchA 17), 1⟩)], [(2, ⟨0, 6000, 9000⟩)]⟩
    points := ⟨[(3, ⟨some ⟨1000, 2000, 0⟩, some ⟨7, ⟨0, 0, 1200⟩⟩, 1, false, some 500000⟩),
      (5, ⟨some ⟨0, 3000, 1500⟩, none, 1, false, none⟩)], 500⟩
    claims := ⟨[8, 8, 8, 9, 8, 8, 8, 8, 10, 12], [(17, [entryA])], []⟩
    motion := ⟨[(17, some motionA), (18, some (Motion.fresh 0 0))], none, false, []⟩
    colour := ⟨[(17, some colourA), (18, some colourA)], none, false, []⟩ }

/-- An entry of 35 bytes that passes every check: fixture 17, ANGLES (0, 0), TIMED, 1,000 ms. -/
def rawAim : RawEntry := ⟨17, 1, 2, 0, 0, 0, 0, 0, 0, 0, 0, 0, 1000, 0, 0, 0, 0⟩

/-- The same fixture with HUESAT (300, 800) in 500 ms. -/
def rawColour : RawEntry := ⟨17, 1, 0, 0, 0, 0, 0, 0, 0, 0, 0, 1, 0, 0, 500, 300, 800⟩

def patchArgs : PatchArgs := ⟨20, 4, 1, 1, 1, ⟨-3000, 0, 0⟩, 0, 0, 0, 0⟩

def cueA : CueArgs := ⟨5, 0, 3000, [rawAim]⟩

def paletteA : PaletteArgs := ⟨3, 1200, 900, 500, [⟨4, 0, 1250, 900, 0⟩]⟩

/-! ### Ill-formed terms are refused -/

theorem test_wf_refuses_numbers_of_another_width :
    ([.dropKind 256, .queryKind 256, .queryFixture 256, .queryClaims 256, .queryMotion 256, .queryColour 256,
      .unbindTag 256, .queryPoint 256, .deletePalette 256, .releaseList 256, .queryList 256, .setBar 256,
      .setStaleLimit 65536, .setTempo 65536, .deleteCue 65536, .setPriority 256 0, .setPriority 0 256,
      .setBeatSource 256 0, .setBeatSource 0 256, .go 256 0 0, .go 0 65536 0, .go 0 0 256, .setCounter 256 1 0,
      .setCounter 0 256 0, .setCounter 0 1 256, .unpatch 256 1, .unpatch 0 65536, .halt 256 1, .halt 0 65536,
      .unbindFollow 256 1, .unbindFollow 0 65536, .bindFollow 256 1 0, .bindFollow 0 65536 0, .bindFollow 0 1 256,
      .queryLine 256 1 1, .queryLine 0 65536 1, .queryLine 0 1 65536] : List Instr).all
      (fun c => !c.wellFormed) = true := by decide +kernel

theorem test_wf_refuses_rows_of_no_block :
    ([.playbackStopLow 8, .standbyList 8, .walkStep 8, .walkEnd 8, .linkTimerExpiry 8, .listBarStart 8,
      .launchReport ⟨true, 8, 0⟩, .launchReport ⟨true, 0, 65536⟩, .refreshExpiry 8, .frameEnd 8, .staleTimerExpiry 128,
      .motionStep 256, .fadeStep 256] : List Instr).all (fun c => !c.wellFormed) = true := by decide +kernel

theorem test_wf_refuses_lists_of_another_length :
    ([.setNotice [1, 1, 1], .setNotice [256, 1, 1, 1, 1, 1, 1, 1, 1], .setTrim 256 [], .setTrim 0 [65536],
      .setTrim 0 (List.replicate 510 0), .setPassthrough 256 [], .setPassthrough 0 [256],
      .setPassthrough 0 (List.replicate 1020 0), .track (List.replicate 79 ⟨0, 0, 0, 0⟩), .track [⟨256, 0, 0, 0⟩],
      .track [⟨0, 2147483648, 0, 0⟩]] : List Instr).all (fun c => !c.wellFormed) = true := by decide +kernel

theorem test_wf_refuses_positions :
    ([.setTruss 256 ⟨0, 0, 0⟩, .setTruss 0 ⟨2147483648, 0, 0⟩, .setPoint 256 ⟨0, 0, 0⟩, .setPoint 0 ⟨0, -2147483649, 0⟩,
      .bindTag 256 0 ⟨0, 0, 0⟩, .bindTag 0 256 ⟨0, 0, 0⟩, .bindTag 0 0 ⟨0, 0, 2147483648⟩] : List Instr).all
      (fun c => !c.wellFormed) = true := by decide +kernel

theorem test_wf_refuses_kinds :
    ([{ kindA with kind := 256 }, { kindA with panMin := -2147483649 }, { kindA with panMax := 2147483648 },
      { kindA with tiltMin := -32769 }, { kindA with tiltMax := 32768 }, { kindA with vmaxPan := 65536 },
      { kindA with vmaxTilt := 65536 }, { kindA with amaxPan := 65536 }, { kindA with amaxTilt := 65536 },
      { kindA with gain := 65536 }, { kindA with footprint := 256 }, { kindA with panCoarse := 256 },
      { kindA with panFine := 256 }, { kindA with tiltCoarse := 256 }, { kindA with tiltFine := 256 },
      { kindA with model := 256 }, { kindA with listCount := 3 }, { kindA with wheelRole := 256 },
      { kindA with emitters := [⟨65536, 0, 0, 0⟩, ⟨0, 0, 0, 0⟩, ⟨0, 0, 0, 0⟩, ⟨0, 0, 0, 0⟩] },
      { kindA with wheel := [⟨0, 0, 0⟩] }, { kindB with model := 2, listCount := 1, wheel := [⟨0, 65536, 0⟩] },
      { kindA with pass := [256] }, { kindA with pass := List.replicate 256 0 },
      { kindB with model := 2, listCount := 255, wheel := List.replicate 255 ⟨0, 0, 0⟩ }] : List RawKind).all
      (fun k => !(Instr.defineKind k).wellFormed) = true := by decide +kernel

theorem test_wf_refuses_rig_payloads :
    ([.patch { patchArgs with fixture := 256 }, .patch { patchArgs with kind := 256 }, .patch { patchArgs with line := 256 },
      .patch { patchArgs with base := 65536 }, .patch { patchArgs with truss := 256 },
      .patch { patchArgs with pos := ⟨2147483648, 0, 0⟩ }, .patch { patchArgs with yaw := 65536 },
      .patch { patchArgs with body := 256 }, .patch { patchArgs with homePan := 2147483648 },
      .patch { patchArgs with homeTilt := 32768 }, .setPose ⟨256, ⟨0, 0, 0⟩, 0, 0, 0, 0⟩,
      .setPose ⟨0, ⟨0, 2147483648, 0⟩, 0, 0, 0, 0⟩, .setPose ⟨0, ⟨0, 0, 0⟩, 65536, 0, 0, 0⟩,
      .setPose ⟨0, ⟨0, 0, 0⟩, 0, 256, 0, 0⟩, .setPose ⟨0, ⟨0, 0, 0⟩, 0, 0, -2147483649, 0⟩,
      .setPose ⟨0, ⟨0, 0, 0⟩, 0, 0, 0, -32769⟩, .copyRig ⟨256, 0, 1, ⟨0, 0, 0⟩, 0⟩, .copyRig ⟨0, 256, 1, ⟨0, 0, 0⟩, 0⟩,
      .copyRig ⟨0, 0, 65536, ⟨0, 0, 0⟩, 0⟩, .copyRig ⟨0, 0, 1, ⟨0, 0, 2147483648⟩, 0⟩,
      .copyRig ⟨0, 0, 1, ⟨0, 0, 0⟩, 32768⟩] : List Instr).all (fun c => !c.wellFormed) = true := by decide +kernel

theorem test_wf_refuses_entries :
    ([{ rawAim with first := 256 }, { rawAim with count := 65536 }, { rawAim with aim := 256 }, { rawAim with law := 256 },
      { rawAim with units := 256 }, { rawAim with point := 256 }, { rawAim with pan := 2147483648 },
      { rawAim with tilt := 32768 }, { rawAim with panAmp := 65536 }, { rawAim with tiltAmp := 65536 },
      { rawAim with legs := 256 }, { rawAim with colour := 256 }, { rawAim with moveTime := 4294967296 },
      { rawAim with legTime := 4294967296 }, { rawAim with fadeTime := 4294967296 }, { rawAim with hue := 32768 },
      { rawAim with sat := 65536 }] : List RawEntry).all
      (fun e => !(Instr.directAim e).wellFormed && !(Instr.directColour e).wellFormed &&
        !(Instr.storeCueMore { cueA with entries := [e] }).wellFormed) = true := by decide +kernel

theorem test_wf_refuses_cues_palettes_lists_and_lines :
    ([.storeCue 1 cueA, .storeCue 3 cueA, .storeCue 256 cueA, .storeCue 0 { cueA with cue := 65536 },
      .storeCueFirst { cueA with link := 256 }, .storeCueLast { cueA with time := 4294967296 },
      .storeCueFirst { cueA with entries := List.replicate 29 rawAim }, .storePalette { paletteA with palette := 256 },
      .storePalette { paletteA with hue := 32768 }, .storePalette { paletteA with sat := 65536 },
      .storePalette { paletteA with fade := 65536 }, .storePalette { paletteA with overrides := [⟨256, 0, 0, 0, 0⟩] },
      .storePalette { paletteA with overrides := [⟨0, 256, 0, 0, 0⟩] },
      .storePalette { paletteA with overrides := [⟨0, 0, 0, 0, 1⟩] },
      .storePalette { paletteA with overrides := [⟨0, 1, 7, 0, 1⟩] },
      .storePalette { paletteA with overrides := List.replicate 169 ⟨0, 0, 0, 0, 0⟩ }, .defineList ⟨256, 1, 2, 0, 0⟩,
      .defineList ⟨0, 65536, 2, 0, 0⟩, .defineList ⟨0, 1, 65536, 0, 0⟩, .defineList ⟨0, 1, 2, 256, 0⟩,
      .defineList ⟨0, 1, 2, 0, 4294967296⟩, .setLine ⟨256, 24, 25, 0, 0⟩, .setLine ⟨0, 65536, 25, 0, 0⟩,
      .setLine ⟨0, 24, 65536, 0, 0⟩, .setLine ⟨0, 24, 25, 65536, 0⟩, .setLine ⟨0, 24, 25, 0, 256⟩,
      .releaseDirect ⟨256, 1, 0, 0, 0⟩, .releaseDirect ⟨0, 65536, 0, 0, 0⟩, .releaseDirect ⟨0, 1, 256, 0, 0⟩,
      .releaseDirect ⟨0, 1, 0, 256, 0⟩, .releaseDirect ⟨0, 1, 0, 0, 4294967296⟩] : List Instr).all
      (fun c => !c.wellFormed) = true := by decide +kernel

theorem test_wf_accepts :
    ([.defineKind kindA, .defineKind kindB, .patch patchArgs, .directAim rawAim, .storeCue 0 cueA, .storePalette paletteA,
      .setNotice (List.replicate 9 3), .track (List.replicate 78 ⟨63, 0, 0, 0⟩), .setTempo 1200] : List Instr).all
      (fun c => c.wellFormed) = true := by decide +kernel

/-! ### Frames on the link, byte by byte (11.8) -/

/-- SET_TEMPO 1,200 with tag 9: sync byte, length 2, kind 0x51, tag, 0xB0 0x04. -/
theorem test_frame_of_set_tempo :
    (out (exec (.receiveFrame (([0xC3, 2, 0, 0x51, 9, 0xB0, 4] : List Byte).map fun b => ⟨b, true⟩)) calm)) =
      calm.withLink { calm.link with held := some ⟨0x51, 9, 8, .handed (.setTempo 1200)⟩ } := by decide +kernel

/-- SET_TRUSS 2 to (0, 6000, -9000): 4-byte little-endian coordinates in two's complement. -/
theorem test_frame_of_set_truss :
    parseCommand 0x18 [2, 0, 0, 0, 0, 0x70, 0x17, 0, 0, 0xD8, 0xDC, 0xFF, 0xFF] =
      .command (.setTruss 2 ⟨0, 6000, -9000⟩) := by decide +kernel

/-- A STORE_CUE frame whose entry count does not agree with its length fails the length check (R200). -/
theorem test_frame_of_wrong_length : parseCommand 0x40 [5, 0, 0, 0, 0, 0, 0, 0, 1, 17] = .badLength := by decide +kernel

theorem test_kind_of_no_command : parseCommand 0x0F [] = .unknownKind ∧ parseCommand 0x85 [] = .unknownKind := by
  decide +kernel

/-- GO of list 2, cue 300, with BAR: kind 0x47, 2-byte cue number. -/
theorem test_frame_of_go : encodeCommand (.go 2 300 1) = some (0x47, [2, 44, 1, 1]) := by decide +kernel

/-! ### Worked cases of chapters 2, 4 and 6 -/

/-- 4.5.1: fixture 17 and point 5 give 3,687 and 3,369 cd. -/
theorem test_solve_hung :
    Snapshot.solve ⟨⟨0, 3000, 1500⟩, ⟨-4000, 0, 0⟩, 0, .hung, ⟨0, 6000, 9000⟩, 0, 0⟩ = ⟨3687, 3369, false, false⟩ := by
  decide +kernel

/-- 4.5.2: straight below and straight above. -/
theorem test_solve_axial :
    Snapshot.solve ⟨⟨-4000, 6000, 0⟩, ⟨-4000, 0, 0⟩, 0, .hung, ⟨0, 6000, 9000⟩, 0, 0⟩ = ⟨0, 0, false, true⟩ ∧
      Snapshot.solve ⟨⟨-4000, 6000, 12000⟩, ⟨-4000, 0, 0⟩, 0, .hung, ⟨0, 6000, 9000⟩, 0, 0⟩ = ⟨0, 18000, false, true⟩ := by
  decide +kernel

/-- 4.5.3: a standing fixture with yaw 9,000. -/
theorem test_solve_standing :
    Snapshot.solve ⟨⟨0, 0, 3000⟩, ⟨2000, 2000, 0⟩, 9000, .standing, ⟨0, 0, 0⟩, 0, 0⟩ = ⟨13500, 4331, false, false⟩ := by
  decide +kernel

/-- 4.5.1 and 4.5.2: the aims chosen, by cost, on the yoke's own axis, and clamped. -/
theorem test_select :
    ((selectAim profA 0 0 ⟨3687, 3369, false, false⟩).map fun c => (c.pan, c.tilt, c.clamp)) = some (3687, 3369, 0) ∧
      ((selectAim profA 58992 53904 ⟨0, 0, false, true⟩).map fun c => (c.pan, c.tilt, c.clamp)) = some (3687, 0, 0) ∧
      ((selectAim profA 58992 53904 ⟨0, 18000, false, true⟩).map fun c => (c.pan, c.tilt, c.clamp)) =
        some (3687, 13500, 4500) := by decide +kernel

/-- 4.5.1: the slot values on arrival. -/
theorem test_aim_slots : aimSlots profA (patchA 1) 58992 53904 = [(0, 145), (1, 122), (2, 159), (3, 241)] := by
  decide +kernel

/-- 2.4's worked example: what becomes of the records of tag 7 (applied to point 3 with its offset), 9 (ignored) and one
out of range (skipped). -/
theorem test_track_records :
    rigged.classify ⟨7, ⟨1000, 2000, 0⟩⟩ = .applied [(3, ⟨1000, 2000, 1200⟩)] ∧
      rigged.classify ⟨9, ⟨500, 500, 0⟩⟩ = .ignored ∧ rigged.classify ⟨7, ⟨0, 250000, 0⟩⟩ = .skipped := by decide +kernel

/-- The chase worked step by step (chapter 6): steps 1, 6, 7 and 15. -/
theorem test_chase_steps :
    chaseAxis (-27000) 27000 600 64 64 2000 0 0 = (64, 64, false) ∧
      chaseAxis (-27000) 27000 600 64 64 2000 960 320 = (1220, 260, false) ∧
      chaseAxis (-27000) 27000 600 64 64 2000 1220 260 = (1416, 196, false) ∧
      chaseAxis (-27000) 27000 600 64 64 2000 1921 26 = (2000, 0, true) := by decide +kernel

/-! ### Worked cases of chapters 7 to 10 -/

/-- The RGBW fixture, the wrap pair, and the clamped trim (7.5). -/
theorem test_emitter_solve :
    (match profA.model with
      | .emitter es =>
        [emitterSolve es [4096, 4096, 4096, 4096] 300 800, emitterSolve es [4096, 4096, 4096, 4096] 3300 1000,
          emitterSolve es [4300, 4096, 4096, 4096] 3300 1000]
      | _ => []) =
      [([52431, 15728, 0, 13104], []), ([65535, 0, 21840, 0], []), ([65535, 0, 21840, 0], [0])] := by decide +kernel

/-- The wheel match of 7.6: amber. -/
theorem test_wheel_match :
    wheelMatch 300 800 [⟨0, 0, 0⟩, ⟨0, 1000, 20⟩, ⟨400, 900, 40⟩, ⟨1200, 1000, 60⟩, ⟨2400, 1000, 80⟩, ⟨3000, 800, 100⟩] =
      some ⟨400, 900, 40⟩ := by decide +kernel

/-- GO with no cue stored: NOT_FOUND, room 8 (R157). -/
theorem test_go_of_nothing_stored : reply (exec (.go 0 0 0) (given rigged (.go 0 0 0))) = some [5, 8] := by decide +kernel

/-- R176's examples: 1,200 gives 5,000, 300 gives 20,000, 1,285 gives 4,669. -/
theorem test_tempo_periods : tempoPeriod 1200 = 5000 ∧ tempoPeriod 300 = 20000 ∧ tempoPeriod 1285 = 4669 := by
  decide +kernel

/-- The worked run of chapter 9: the late edge at 1,741.5 ms moves the period to 4,805 and makes no beat. -/
theorem test_late_edge :
    (Beat.takeEdge { Beat.reset 0 with ring := [4800, 4800], period := 4800, lastEdge := some 1260000 } 1741500).period =
        4805 ∧
      (Beat.counts { Beat.reset 0 with period := 4800, lastBeat := 1740000 } 1741500) = false := by decide +kernel

/-- 10.3: the longest frame without a slot gap lasts 22,764 µs. -/
theorem test_frame_length : frameMicros 512 0 = 22764 := by decide

/-! ### The worked sequence of chapter 3 -/

/-- LIST3 with priority 9 above LIST0's owed entry: active, and LIST0's tag is reported superseded (step 2). -/
theorem test_claim_supersedes :
    let p := placeClaim [entryA] 3 9 ⟨.angles 9000 (-4500), .timed, 1000⟩ (some ⟨3, 12⟩)
    p.stack.map (fun e => (e.source, e.owed)) = [(3, true), (0, false)] ∧ p.reports = [⟨0, 5⟩] ∧ p.answer = .active := by
  decide +kernel

/-- LIST1 with priority 8 in fourth place evicts LIST0; LIST2 with priority 4 is not placed (steps 5 and 6). -/
theorem test_claim_evicts :
    let a : AimClaim := ⟨.angles 0 0, .timed, 4000⟩
    let full : List (Entry AimClaim) := [⟨9, 12, a, none, false⟩, ⟨8, 10, a, none, false⟩, ⟨3, 9, a, some ⟨3, 12⟩, false⟩,
      ⟨0, 8, a, some ⟨0, 5⟩, false⟩]
    (placeClaim full 1 8 a (some ⟨1, 2⟩)).stack.map (fun e => e.source) = [9, 8, 3, 1] ∧
      (placeClaim full 1 8 a (some ⟨1, 2⟩)).answer = .below ∧ (placeClaim full 1 8 a (some ⟨1, 2⟩)).reports = [] ∧
      (placeClaim full 2 4 a none).answer = .notPlaced := by decide +kernel

/-! ### Witnesses: for every statement with hypotheses, a state and operands that meet them, clause by clause -/

/-- A frame being sent. -/
def sendingOf (s : State) (w : TxKind) (f : LinkFrame) : State := s.withLink { s.link with sending := some ⟨f, w, 0⟩ }

/-- Some frame of the link. -/
def someFrame : LinkFrame := ⟨0x60, 0, [0]⟩

/-- A command is in its owner's hands. -/
def ready (s : State) (c : Instr) : Bool := (given s c).handed c

theorem wit_StepTakesFrontCommand :
    (calm.withPending [.identify]).pending = .identify :: [] ∧ calm.pending = [] ∧
      (given calm .identify).ownEvent = some .identify ∧ calm.ownEvent = none := by decide +kernel

theorem wit_CommandRowsWaitForTheDispatcher :
    encodeCommand .identify = some (1, []) ∧ calm.free = true ∧ calm.link.queue = [] ∧
      Instr.identify.wellFormed = true ∧ (given calm .start).link.held = some ⟨2, 0, 8, .handed .start⟩ ∧
      HeldPhase.handed .start ≠ .handed .identify ∧ State.reset.link.held = none ∧ State.reset.free = false ∧
      State.reset.resetting.isSome = true ∧ Instr.jobStart ≠ .powerOn ∧ Instr.jobStart ≠ .resetLow ∧
      Instr.jobStart ≠ .resetEnd ∧ (∀ high ∈ [true, false], Instr.jobStart ≠ .stopChange high) ∧
      (encodeCommand (.dropKind 256)).isSome = true ∧ (Instr.dropKind 256).wellFormed = false ∧
      (calm.withLink { calm.link with queue := [⟨2, 0, []⟩] }).free = true := by decide +kernel

theorem wit_CommandPayloadsReadBack :
    ([.track [⟨7, 1000, -2000, 0⟩], .storeCue 0 cueA, .defineKind kindA, .storePalette paletteA] : List Instr).all
      (fun c => c.wellFormed && (encodeCommand c).isSome) = true := by decide +kernel

theorem wit_FrameReachesItsOwner :
    (Instr.go 2 300 1).wellFormed = true ∧ encodeCommand (.go 2 300 1) = some (0x47, [2, 44, 1, 1]) ∧ 255 < 256 ∧
      calm.free = true ∧ calm.link.queue = [] ∧ calm.link.receiver = .hunting := by decide +kernel

/-- A full receive queue behind a held command. -/
def crowded : State :=
  (given calm .identify).withLink
    { (given calm .identify).link with queue := List.replicate 8 ⟨1, 0, []⟩ }

theorem wit_FramesQueueOrDrop :
    calm.resetting = none ∧ (given calm .identify).link.held.isSome = true ∧
      (given calm .identify).link.queue.length < 8 ∧ crowded.link.held.isSome = true ∧ 8 ≤ crowded.link.queue.length ∧
      (calm.withLink { calm.link with receiver := .inFrame [] 0 }).link.receiver = .inFrame [] 0 ∧
      0 + 1005 < (calm.withNow 1006).now ∧ (calm.withNow 1005).now ≤ 0 + 1005 ∧ (0xC2 : Byte) ≠ 0xC3 ∧ 1020 < (0xFD : Byte).toNat + 256 * (3 : Byte).toNat := by decide +kernel

/-- R198: a byte that begins within 1 ms of the end of the one before belongs to the frame; a later one does not. -/
theorem test_gap_of_a_millisecond :
    ([1005, 1006].map fun t =>
      (out (exec (.receiveFrame [⟨1, true⟩])
        ((calm.withLink { calm.link with receiver := .inFrame [] 0 }).withNow t))).link.receiver) =
      [.inFrame [1] 1005, .hunting] := by decide +kernel

theorem wit_TransmitEndsAndDispatch :
    calm.resetting = none ∧ (sendingOf calm .notice someFrame).link.sending = some ⟨someFrame, .notice, 0⟩ ∧
      (sendingOf calm .ready someFrame).link.sending = some ⟨someFrame, .ready, 0⟩ ∧
      (sendingOf calm .reply ⟨0x84, 0, [0, 8]⟩).link.sending = some ⟨⟨0x84, 0, [0, 8]⟩, .reply, 0⟩ ∧
      (sendingOf calm .reply ⟨0x81, 0, [0, 8]⟩).link.sending = some ⟨⟨0x81, 0, [0, 8]⟩, .reply, 0⟩ ∧
      0 ≤ calm.now ∧ LinkFrame.isRestart ⟨0x84, 0, [0, 8]⟩ = true ∧ LinkFrame.isRestart ⟨0x81, 0, [0, 8]⟩ = false ∧
      calm.free = true ∧ parseCommand 0x51 [0xB0, 4] = .command (.setTempo 1200) ∧
      parseCommand 0x0F [] = .unknownKind ∧ parseCommand 0x51 [] = .badLength := by decide +kernel

/-- Two notices of equal level and one of a higher level pending. -/
def noisy : Notices :=
  { Notices.reset with
    listSettled := some ⟨0, 5, 1⟩, trackStale := some ⟨.stale, 3⟩, beatState := some ⟨.locked, .edge⟩
    levels := [1, 1, 1, 2, 2, 1, 1, 1, 0] }

theorem wit_TransmitterChoosesInOrder :
    noisy.best = some 3 ∧ Notices.reset.best = none ∧ (sendingOf calm .notice someFrame).link.sending.isSome = true ∧
      calm.resetting = none ∧ calm.link.sending = none ∧ calm.link.readyWaiting = false ∧ calm.link.waitingReply = none ∧
      (calm.withNotices noisy).link.notices.best = some 3 ∧
      (calm.withLink { calm.link with held := some ⟨1, 0, 8, .replyWaiting someFrame⟩ }).link.waitingReply =
        some someFrame := by decide +kernel

theorem wit_RepliesAreFormed :
    (given calm .identify).link.held = some ⟨1, 0, 8, .handed .identify⟩ ∧ calm.resetting = none ∧
      (given calm .identify).link.readyWaiting = false ∧ (given calm .identify).link.sending = none ∧
      (sendingOf (given calm .identify) .notice someFrame).link.sending.isSome = true := by decide +kernel

theorem wit_ResetEnds :
    State.reset.resetting.isSome = true ∧ State.reset.link.sending = none ∧ calm.resetting = none := by decide +kernel

theorem wit_QueriesAnswerAndChangeNothing :
    ([.identify, .readCounters, .queryKind 4, .queryFixture 255, .queryPoint 127, .queryClaims 17, .querySolver,
      .queryMotion 17, .queryColour 17, .queryList 7, .queryMemory, .queryClock, .queryLine 7 512 1,
      .queryLine 0 1 512, .queryKind 5, .queryClaims 19, .queryMotion 19, .queryColour 19] : List Instr).all
      (ready rigged) = true ∧ rigged.kind 5 = none ∧ rigged.patchOf 19 = none ∧
      rigged.kind 4 = some profA ∧ rigged.patchOf 17 = some (patchA 1) ∧ rigged.profileOf 17 = some profA ∧
      rigged.motionOf 17 = some motionA ∧ rigged.colourOf 17 = some colourA := by decide +kernel

theorem wit_OutOfRangeCommandsAreRefused :
    ([.setNotice [4, 1, 1, 1, 1, 1, 1, 1, 1], .setCounter 4 1 0, .setCounter 0 14 0, .defineKind { kindA with kind := 32 },
      .dropKind 32, .queryKind 32, .patch { patchArgs with line := 8 }, .setTrim 300 [], .setTruss 16 ⟨0, 0, 0⟩,
      .copyRig ⟨0, 1, 0, ⟨0, 0, 0⟩, 0⟩, .setPoint 128 ⟨0, 0, 0⟩, .setPoint 0 ⟨200001, 0, 0⟩, .bindTag 0 64 ⟨0, 0, 0⟩,
      .unbindTag 128, .track [], .setPriority 10 0, .setPriority 0 16, .directAim { rawAim with count := 257 },
      .directColour { rawColour with colour := 4 }, .releaseDirect ⟨0, 1, 3, 0, 0⟩, .bindFollow 0 1 128,
      .unbindFollow 0 0, .halt 256 1, .storeCue 4 cueA, .storeCueFirst { cueA with link := 5 }, .storeCueMore cueA,
      .storeCueLast cueA, .deleteCue 10000, .storePalette { paletteA with palette := 64 }, .deletePalette 64,
      .defineList ⟨8, 1, 2, 0, 0⟩, .go 8 0 0, .go 0 10000 0, .releaseList 8, .setBeatSource 2 0, .setBar 17,
      .setLine ⟨0, 23, 25, 0, 0⟩, .setLine ⟨0, 513, 25, 0, 0⟩, .queryLine 0 512 2] : List Instr).all
      (ready calm) = true ∧ RawKind.ok { kindA with kind := 32 } = false ∧
      PatchArgs.rangesOk { patchArgs with line := 8 } = false ∧ posOk ⟨200001, 0, 0⟩ = false ∧
      RawEntry.directAimOk { rawAim with count := 257 } = false ∧
      RawEntry.directColourOk { rawColour with colour := 4 } = false ∧ rangeOk 0 0 = false ∧ rangeOk 256 1 = false ∧
      (given calm (.storeCueMore cueA)).stagedFor cueA = none ∧ paletteOk { paletteA with palette := 64 } = false ∧
      listArgsOk ⟨8, 1, 2, 0, 0⟩ = false := by decide +kernel

theorem wit_NoticeLevelsAndCounters :
    ready calm (.setNotice [0, 1, 2, 3, 0, 1, 2, 3, 0]) = true ∧ (∀ l ∈ [0, 1, 2, 3, 0, 1, 2, 3, 0], l ≤ 3) ∧
      ready calm (.setCounter 3 Activity.linkError.code 15) = true ∧ ready calm .clearCounters = true ∧
      calm.link.counters[2]? = some ⟨.cacheMiss, 15, 0⟩ ∧ (calm.notifyStopState true .live).noticePin = true ∧
      calm.noticePin = false := by decide +kernel

theorem wit_PartStateCommands :
    ([.start, .standby, .restart] : List Instr).all (fun c => ready calm c && ready (calm.withPart .standby) c) = true ∧
      (given calm .start).part = .live ∧ (given (calm.withPart .standby) .start).part = .standby := by decide +kernel

/-- START under way. -/
def starting : State := working rigged (.start true true true true)

theorem wit_StartPartsTaken :
    starting.resetting = none ∧ starting.work = some (.start true true true true) ∧ starting.motion.stopSeen = false ∧
      (starting.withMotion { starting.motion with stopSeen := true }).work = some (.start true true true true) ∧
      starting.stopToColour.head? ≠ some false ∧ starting.colour.stopSeen = false ∧
      (starting.withColour { starting.colour with stopSeen := true }).stopToColour.head? ≠ some false := by decide +kernel

/-- STANDBY under way. -/
def leaving : State := working rigged (.standby true true true [0, 7])

theorem wit_StandbyPartsTaken :
    leaving.resetting = none ∧ leaving.work = some (.standby true true true [0, 7]) ∧ 7 ∈ [0, 7] ∧
      17 ∈ leaving.patchedFixtures ∧ leaving.motionOf 17 = some motionA ∧ leaving.colourOf 17 = some colourA ∧
      leaving.profileOf 17 = some profA ∧ 19 ∉ leaving.patchedFixtures ∧ leaving.part = .live ∧
      (leaving.withPart .standby).work = some (.standby true true true [0, 7]) := by decide +kernel

theorem wit_StopChangeIsGivenOn :
    calm.resetting = none ∧ true ≠ calm.stop ∧ false = calm.stop ∧ State.reset.resetting.isSome = true := by
  decide +kernel

/-- A change of STOP on its way to the engines. -/
def stopping (high : Bool) : State := (rigged.withStopToMotion [high]).withStopToColour [high]

/-- List 3 paused with link due, and a STOP low to take. -/
def dueLaunch : Launch := { Launch.fresh 5 1 .host .onDone 0 with due := true, walkDone := true }

def pausedDue : State :=
  rigged.setCueList 3 { CueList.fresh with mode := .settled, paused := true, launch := some dueLaunch, lowsDue := 1 }

theorem wit_StopReachesTheBlocks :
    (stopping true).resetting = none ∧ (stopping true).stopToMotion = true :: [] ∧
      (stopping false).stopToMotion = false :: [] ∧ (stopping true).stopToColour = true :: [] ∧
      (stopping false).stopToColour = false :: [] ∧ (stopping true).part = .live ∧
      17 ∈ (stopping true).patchedFixtures ∧ (stopping true).motionOf 17 = some motionA ∧
      (stopping true).colourOf 17 = some colourA ∧ (stopping true).profileOf 17 = some profA ∧
      0 < ((rigged.setCueList 3 { CueList.fresh with lowsDue := 1 }).cueList 3).lowsDue ∧ rigged.stop = false ∧
      (((rigged.setCueList 3 { CueList.fresh with lowsDue := 1 }).cueList 3).liveLaunch.any fun q => q.due) = false ∧
      ((stopping true).withPart .standby).stopToMotion = true :: [] ∧
      ((stopping false).withPart .standby).stopToColour = false :: [] ∧ (pausedDue.cueList 3).lowsDue = 1 ∧
      pausedDue.stop = false ∧ (pausedDue.withStop true).stop = true ∧
      (pausedDue.cueList 3).liveLaunch = some dueLaunch ∧ dueLaunch.due = true := by
  decide +kernel

/-- R206, R166: a STOP that goes low and high again before a list has taken the low does not lose it: the link due is no
more due after PLAYBACK_STOP_LOW, and the list waits again. -/
theorem test_stop_low_is_not_lost :
    let s := out (exec (.stopChange true) (out (exec (.stopChange false)
      ((pausedDue.setCueList 3 { pausedDue.cueList 3 with lowsDue := 0 }).withStop true))))
    let t := out (exec (.playbackStopLow 3) s)
    (s.cueList 3).lowsDue = 1 ∧ (s.cueList 3).launch.map (fun r => r.due) = some true ∧ (t.cueList 3).lowsDue = 0 ∧
      (t.cueList 3).paused = true ∧ (t.cueList 3).launch.map (fun r => (r.due, r.spent)) = some (false, true) := by
  decide +kernel

theorem wit_KindsAreDefined :
    ready rigged (.defineKind kindA) = true ∧ kindA.ok = true ∧ (given rigged (.defineKind kindA)).kindInUse 4 = true ∧
      ready rigged (.defineKind kindB) = true ∧ kindB.ok = true ∧
      (given rigged (.defineKind kindB)).kindInUse 5 = false := by decide +kernel

/-- Kind 31 DEFINED beside kind 4. -/
def spare : State := rigged.setKind 31 (some kindB.profile)

theorem wit_KindsAreDropped :
    ([.dropKind 32, .dropKind 5, .dropKind 4, .dropKind 31, .patch { patchArgs with kind := 5 }] : List Instr).all
      (ready spare) = true ∧ 31 < 32 ∧ spare.kind 5 = none ∧ (spare.kind 4).isSome = true ∧ spare.kindInUse 4 = true ∧
      (spare.kind 31).isSome = true ∧ spare.kindInUse 31 = false ∧
      PatchArgs.rangesOk { patchArgs with kind := 5 } = true := by decide +kernel

/-- PATCH payloads for the forms: created, moved, overlapping, of another kind, and off the end of a line. -/
def patchMove : PatchArgs := { patchArgs with fixture := 18, line := 0, base := 497 }

def patchOther : PatchArgs := { patchArgs with fixture := 18, kind := 31 }

theorem wit_PatchForms :
    ([.patch patchArgs, .patch patchMove, .patch patchOther, .patch { patchOther with fixture := 17 },
      .patch { patchMove with base := 498 }, .patch { patchMove with base := 16 }] : List Instr).all (ready spare) = true ∧
      ([patchArgs, patchMove, patchOther].all fun a => a.rangesOk && (mountingOf (a.body % 4)).isSome) = true ∧
      patchArgs.fitsKind profA = true ∧ patchMove.fitsKind profA = true ∧ patchOther.fitsKind kindB.profile = true ∧
      PatchArgs.fitsKind { patchMove with base := 498 } profA = false ∧
      spare.patchedOther 17 31 = true ∧ spare.holdsClaims 17 = true ∧ spare.patchedOther 18 31 = true ∧
      spare.holdsClaims 18 = false ∧ spare.overlapsOther 0 16 16 18 = true ∧ spare.overlapsOther 0 497 16 18 = false ∧
      spare.overlapsOther 1 1 16 20 = false ∧ spare.patchOf 20 = none ∧ spare.patchOf 18 = some (patchA 17) ∧
      spare.patchOf 17 = some (patchA 1) ∧ spare.motionOf 17 = some motionA ∧ spare.colourOf 17 = some colourA := by
  decide +kernel

theorem wit_FixtureIsCreated :
    rigged.aimStack 20 = [] ∧ ∀ w ∈ footprintSlots profA (patchA 33) 0 0 (Colour.fresh profA.model).outputs, w.1 < 16 := by
  decide +kernel

theorem wit_FixtureIsUnpatched :
    (working rigged (.unpatch [17, 18] 0 0)).resetting = none ∧
      (working rigged (.unpatch [17, 18] 0 0)).work = some (.unpatch (17 :: [18]) 0 0) ∧
      (working rigged (.unpatch [17, 18] 0 0)).patchOf 17 = some (patchA 1) ∧
      (working rigged (.unpatch [17, 18] 0 0)).profileOf 17 = some profA ∧ entryA.owed = true ∧
      entryA.tag = some ⟨0, 5⟩ := by decide +kernel

/-- R10, R53: unpatching fixture 17 reports LIST0's owed entry superseded. -/
theorem test_unpatch_reports : (rigged.unpatchOne 17).playback.reports = [⟨false, 0, 5⟩] := by decide +kernel

theorem wit_PoseTrimsAndPassthrough :
    ([.setPose ⟨17, ⟨200000, -200000, 0⟩, 35999, 1, 27000, -13500⟩, .setPose ⟨17, ⟨0, 0, 0⟩, 0, 0, 27001, 0⟩,
      .setTrim 17 [0, 1, 2, 9000], .setPassthrough 17 [255], .setTrim 17 [0, 1, 2], .setPassthrough 17 [], .setPose ⟨20, ⟨0, 0, 0⟩, 0, 0, 0, 0⟩, .setTrim 20 [],
      .setPassthrough 20 []] : List Instr).all (ready rigged) = true ∧ posOk ⟨200000, -200000, 0⟩ = true ∧
      mountingOf 1 = some .standing ∧ profA.homeOk 27000 (-13500) = true ∧ profA.homeOk 27001 0 = false ∧
      rigged.patchOf 17 = some (patchA 1) ∧ rigged.profileOf 17 = some profA ∧ profA.emitterCount = 4 ∧
      profA.pass.length = 1 ∧ rigged.patchOf 20 = none ∧ 0 < profA.emitterCount ∧ kindB.profile.model = .none := by
  decide +kernel

theorem wit_TrussMoves : ready rigged (.setTruss 15 ⟨0, 0, 200000⟩) = true ∧ posOk ⟨0, 0, 200000⟩ = true := by
  decide +kernel

/-- COPY_RIG of fixtures 17 and 18 to 30 and 31, and three that fail a check. -/
def copyA : CopyArgs := ⟨17, 30, 2, ⟨4000, 0, 0⟩, 32⟩

theorem wit_RigIsCopied :
    ([.copyRig copyA, .copyRig { copyA with slotDelta := -17 }, .copyRig { copyA with slotDelta := 16 },
      .copyRig { copyA with src := 18, dst := 17, count := 1 }] : List Instr).all (ready rigged) = true ∧
      copyA.pairs.all (rigged.pairOk copyA) = true ∧
      (CopyArgs.pairs { copyA with slotDelta := -17 }).all (rigged.pairOk { copyA with slotDelta := -17 }) = false ∧
      rigged.copyOverlaps copyA = false ∧ rigged.copyOverlaps { copyA with slotDelta := 16 } = true ∧
      (copyA.pairs.any fun pr => rigged.holdsClaims pr.2) = false ∧
      rigged.copyOverlaps { copyA with src := 18, dst := 17, count := 1 } = false ∧
      (CopyArgs.pairs { copyA with src := 18, dst := 17, count := 1 }).any (fun pr => rigged.holdsClaims pr.2) = true ∧
      (working rigged (.copyRig [(17, 30)] ⟨4000, 0, 0⟩ 32 0)).work =
        some (.copyRig ((17, 30) :: []) ⟨4000, 0, 0⟩ 32 0) ∧
      (working rigged (.copyRig [(40, 18)] ⟨0, 0, 0⟩ 0 0)).work = some (.copyRig ((40, 18) :: []) ⟨0, 0, 0⟩ 0 0) ∧
      rigged.patchOf 40 = none ∧ rigged.patchOf 17 = some (patchA 1) ∧ rigged.profileOf 17 = some profA := by
  decide +kernel

theorem wit_PointMoves :
    ready rigged (.setPoint 127 ⟨0, 0, -200000⟩) = true ∧ posOk ⟨0, 0, -200000⟩ = true ∧
      (rigged.point 127).binding = none ∧ ready rigged (.setPoint 3 ⟨0, 0, 0⟩) = true ∧
      (rigged.point 3).binding.isSome = true := by decide +kernel

theorem wit_TagsBindPoints :
    ([.bindTag 127 63 ⟨0, 0, 0⟩, .unbindTag 3, .unbindTag 5] : List Instr).all (ready rigged) = true ∧
      (rigged.point 3).binding.isSome = true ∧ (rigged.point 5).binding = none ∧
      (rigged.point 3).timer = some 500000 ∧ 500000 ≤ (rigged.withNow 500000).now := by decide +kernel

theorem wit_StaleLimitIsStored :
    ([.setStaleLimit 99, .setStaleLimit 100, .setStaleLimit 5000, .setStaleLimit 5001] : List Instr).all
      (ready calm) = true := by decide +kernel

theorem wit_TrackTakesItsRecords :
    ready rigged (.track (List.replicate 64 ⟨7, 0, 0, 0⟩)) = true ∧ ready rigged (.track [⟨63, 200001, 0, 0⟩]) = true ∧
      (working rigged (.track [(3, ⟨0, 0, 0⟩)] 1 1 0 0 0)).work = some (.track ((3, ⟨0, 0, 0⟩) :: []) 1 1 0 0 0) ∧
      rigged.resetting = none := by decide +kernel

theorem wit_PriorityIsSet :
    ([.setPriority 9 15, .setPriority 10 0, .setPriority 0 16] : List Instr).all (ready calm) = true := by decide +kernel

theorem wit_RangeCommandsBegin :
    ([.unpatch 0 256, .directAim rawAim, .directColour rawColour, .releaseDirect ⟨255, 256, 2, 1, 0⟩, .bindFollow 0 1 127,
      .unbindFollow 255 1, .halt 0 256, .releaseList 7] : List Instr).all (ready rigged) = true ∧
      rawAim.directAimOk = true ∧ (rigged.aimClaim rawAim).isSome = true ∧ rawColour.directColourOk = true ∧
      (rigged.colourClaim rawColour).isSome = true ∧ rangeOk 255 256 = true ∧ rangeOk 0 1 = true ∧
      (List.range 4).all (fun n => decide (rigged.aimClaim { rawAim with aim := n } = none ↔ n = 0) &&
        decide (rigged.colourClaim { rawColour with colour := n } = none ↔ n = 0)) = true := by decide +kernel

/-- R184: 8 quarter-beats are 1,000 ms at period 5,000, and 961 ms at period 4,804. -/
theorem test_quarter_beats :
    (rigged.withBeat { rigged.beat with period := 5000 }).toMs true 8 = 1000 ∧
      (rigged.withBeat { rigged.beat with period := 4804 }).toMs true 8 = 961 := by decide +kernel

/-- A claim by angles. -/
def claimA : AimClaim := ⟨.angles 9000 (-4500), .timed, 1000⟩

theorem wit_RangeCommandsTakeEachFixture :
    (([.directAim [17] claimA ⟨0, 0, 0, 0, 0⟩, .directColour [17] ⟨.hueSat 300 800, 500⟩ ⟨0, 0, 0, 0, 0⟩,
      .releaseDirect [17] true true 0 ⟨0, 0, 0⟩, .bindFollow [17] 3 ⟨0, 0, 0, 0, 0⟩, .unbindFollow [17] ⟨0, 0, 0⟩,
      .halt [17] ⟨0, 0, 0⟩, .releaseList [17] 0 1000 0] : List Work).all
      (fun w => decide ((working rigged w).work = some w)) = true ∧ rigged.motionOf 17 = some motionA ∧
      rigged.profileOf 17 = some profA ∧ (working rigged (.halt [17] ⟨0, 0, 0⟩)).link.held.isSome = true ∧
      (true = true ∨ false = true ∨ false = true ∨ false = true) ∧ ([7] : List Nat) ≠ []) ∧
      (∀ n, le1 n = [BitVec.ofNat 8 n]) ∧ ∀ n, le2 n = [BitVec.ofNat 8 n, BitVec.ofNat 8 (n / 256)] :=
  ⟨by decide +kernel, fun _ => rfl, fun _ => rfl⟩

/-- A full stack in falling priorities. -/
def fullStack : List (Entry AimClaim) :=
  [⟨9, 12, claimA, none, false⟩, ⟨8, 10, claimA, none, false⟩, ⟨3, 9, claimA, some ⟨3, 12⟩, false⟩, entryA]

/-- A full COLOUR stack. -/
def fullColours : List (Entry ColourClaim) :=
  [⟨9, 12, ⟨.hueSat 0 0, 0⟩, none, false⟩, ⟨8, 10, ⟨.palette 3, 0⟩, none, false⟩,
    ⟨3, 9, ⟨.palette 3, 0⟩, some ⟨3, 12⟩, false⟩, ⟨0, 8, ⟨.wheelSlot 1, 500⟩, some ⟨0, 5⟩, true⟩]

def coloured : State := rigged.setColourStack 17 fullColours

theorem wit_StacksTakeAndGiveUpClaims :
    stackOk fullStack = true ∧ (placeClaim fullStack 2 4 claimA none).answer = .notPlaced ∧
      (placeClaim fullStack 1 8 claimA none).answer = .below ∧ (placeClaim fullStack 9 12 claimA none).answer = .active ∧
      holdsSource 9 (rigged.aimStack 17) = false ∧ holdsSource 0 (rigged.aimStack 17) = true ∧
      fullStack.head?.any (fun e => decide (e.source = 9)) = true ∧
      (placeClaim fullStack 8 15 claimA none).answer = .active ∧
      fullStack.head?.any (fun e => decide (e.source = 8)) = false ∧ stackOk fullColours = true ∧
      (placeClaim fullColours 2 4 ⟨.palette 0, 0⟩ none).answer = .notPlaced ∧
      (placeClaim fullColours 1 8 ⟨.palette 0, 0⟩ none).answer = .below ∧
      (placeClaim fullColours 9 12 ⟨.palette 0, 0⟩ none).answer = .active ∧
      holdsSource 1 (coloured.colourStack 17) = false ∧ holdsSource 0 (coloured.colourStack 17) = true ∧
      topIsSource 0 (coloured.colourStack 17) = false ∧ topIsSource 9 (coloured.colourStack 17) = true ∧
      (placeClaim (coloured.colourStack 17) 9 12 ⟨.palette 0, 0⟩ none).newTop = true ∧
      (placeClaim (coloured.colourStack 17) 1 8 ⟨.palette 0, 0⟩ none).newTop = false := by decide +kernel

/-- A job of fixture 17 for point 5. -/
def jobA : Job := ⟨17, 5, .cue, .shared⟩

/-- That job SOLVING with the given generations of its point. -/
def solving (gen : Nat) : State := rigged.withSolver ⟨[], some (jobA, { rigged.snapshot jobA with pointGen := gen }), []⟩

/-- The shared pool full; with `r` slots of the CUE reserve in use and a CUE mark on fixture 17. -/
def pooled (r : Nat) : State :=
  rigged.withSolver
    ⟨(List.range 24).map (fun i => ⟨100 + i, 5, .rig, .shared⟩) ++
      (List.range r).map (fun i => ⟨150 + i, 5, .cue, .reserve .cue⟩), none, [(17, some .cue)]⟩

/-- Entry 31 holds the result of fixture 17 and point 5. -/
def cached (s : State) : State := s.setCacheEntry 31 ⟨true, 17, 5, ⟨0, 0, false, false⟩⟩

/-- Fixture 17 aimed at point 9, which is UNSET. -/
def unsetAim : State := (pooled 2).setAimStack 17 [{ entryA with body := ⟨.point 9, .timed, 0⟩ }]

theorem wit_Snapshot :
    rigged.patchOf jobA.fixture = some (patchA 1) ∧ (rigged.point jobA.point).pos = some ⟨0, 3000, 1500⟩ := by
  decide +kernel

theorem wit_SolverRunsJobs :
    ready rigged .flushCache = true ∧ (rigged.withSolver ⟨[jobA], none, []⟩).solver.solving = none ∧
      (rigged.withSolver ⟨[jobA], none, []⟩).solver.queued = jobA :: [] ∧ (solving 0).resetting = none ∧
      (solving 0).solver.solving = some (jobA, { rigged.snapshot jobA with pointGen := 0 }) ∧
      0 ≠ ((solving 0).point 5).gen ∧ (solving 1).solver.solving = some (jobA, rigged.snapshot jobA) ∧
      (rigged.snapshot jobA).pointGen = ((solving 1).point 5).gen ∧
      (rigged.snapshot jobA).poseGen = ((solving 1).fixture 17).gen ∧ (solving 1).cacheFind 17 5 = none ∧
      ((solving 1).setCacheEntry 31 ⟨true, 17, 5, ⟨0, 0, false, false⟩⟩).cacheFind 17 5 = some 31 ∧
      (solving 1).aimedAt 17 = some 5 ∧ ((solving 1).setAimStack 17 []).aimedAt 17 ≠ some 5 ∧
      (solving 1).motionOf 17 = some motionA ∧ (solving 1).profileOf 17 = some profA ∧
      (cached rigged).cacheFind 17 5 = some 31 ∧ rigged.cacheFind 17 5 = none ∧
      (∃ j ∈ (rigged.withSolver ⟨[jobA], none, []⟩).solver.queued, j.fixture = 17) ∧
      (∀ j ∈ (pooled 2).solver.queued, j.fixture ≠ 17) ∧ rigged.solver.used .shared < 24 ∧
      24 ≤ (pooled 1).solver.used .shared ∧ (pooled 1).solver.used (.reserve .cue) < 2 ∧
      2 ≤ (pooled 2).solver.used (.reserve .cue) ∧ (rigged.point 9).pos = none ∧ (rigged.point 5).pos.isSome = true ∧
      rigged.aimStack 17 = entryA :: [] ∧ (pooled 2).owedMark 17 = some .cue ∧ (pooled 2).owedMark 18 = none ∧
      (pooled 2).aimedAt 17 = some 5 ∧ ((cached (pooled 2)).request 17 5 .cue).2 = .hit ∧
      ((pooled 2).request 17 5 .cue).2 ≠ .hit ∧ unsetAim.owedMark 17 = some .cue ∧ unsetAim.aimedAt 17 = some 9 ∧
      (unsetAim.point 9).pos = none := by decide +kernel

theorem wit_SolveResultsLieInRange :
    (Snapshot.solve ⟨⟨0, 0, 0⟩, ⟨0, 0, 0⟩, 0, .standing, ⟨0, 0, 0⟩, 0, 0⟩).degenerate = true ∧
      (Snapshot.solve ⟨⟨0, 0, 1⟩, ⟨0, 0, 0⟩, 0, .standing, ⟨0, 0, 0⟩, 0, 0⟩).axial = true ∧
      (Snapshot.solve ⟨⟨0, 0, -1⟩, ⟨0, 0, 0⟩, 0, .standing, ⟨0, 0, 0⟩, 0, 0⟩).axial = true ∧
      (8999 < 9000 ∧ 16384 = (16384 * scaledCos 0 1 + 2 ^ 199) / 2 ^ 200 ∧ 0 = (16384 * scaledSin 0 1 + 2 ^ 199) / 2 ^ 200) ∧
      yawCoefficients 0 = (16384, 0) ∧ (0 < quadrantAngle 1 1 ∧ quadrantAngle 1 1 < 9000) ∧
      Snapshot.frame ⟨⟨1, 1, 0⟩, ⟨0, 0, 0⟩, 0, .hung, ⟨0, 0, 0⟩, 0, 0⟩ = ⟨1, -1, 0⟩ := by decide +kernel

theorem wit_SelectedAimsLieInRange :
    profA.rangesOk ∧ profA.holds 432000 (-216000) ∧ 35999 ≤ 35999 ∧
      (candidates profA 0 ⟨35999, 18000, false, false⟩).map (fun c => (c.branchB, c.pan, c.tilt)) =
        [(false, -1, 18000), (true, -18001, -18000), (true, 17999, -18000)] ∧
      (candidates profA 27000 ⟨0, 18000, false, true⟩).map (fun c => (c.branchB, c.pan, c.tilt)) =
        [(false, 27000, 18000), (true, 9000, -18000)] ∧
      candidates profA 0 ⟨0, 0, true, false⟩ = [] := by
  unfold Profile.rangesOk Profile.holds; decide +kernel

/-- Fixture 17 chasing a target on pan, and fixture 18 HELD, both due a step. -/
def stepping : State :=
  rigged.withMotion
    ⟨[(17, some { motionA with mode := .chase, tgtPan := 2000 }), (18, some (Motion.fresh 0 0))], some 4000, false,
      [17, 18]⟩

/-- A plan of two steps of 1,600 mu on pan, at step k. -/
def planTwo (k : Nat) : Plan := ⟨0, 0, 1600, 0, 2, k⟩

/-- A sweep in a phase, with one leg to run. -/
def sweepAt (phase : SweepPhase) : Sweep := ⟨1600, 0, 1600, 0, -1600, 0, 100, 0, 1000, 1, false, true, phase, true⟩

def sweeping (k : Nat) (phase : SweepPhase) : Motion :=
  { motionA with mode := .sweep, plan := some (planTwo k), sweep := some (sweepAt phase) }

theorem wit_MotionStepMovesOneRecord :
    (stepping.motion.timer = some 4000 ∧ 0 + 1 < 4000 ∧ 4000 ≤ (stepping.withNow 3999).now + 1 ∧
      rigged.motion.timer = none ∧ stepping.part = .live ∧ stepping.motion.stopSeen = false ∧
      (stepping.withPart .standby).part ≠ .live) ∧
    stepping.resetting = none ∧ 17 ∈ stepping.motion.due ∧ 18 ∈ stepping.motion.due ∧
      stepping.motionOf 17 = some { motionA with mode := .chase, tgtPan := 2000 } ∧
      stepping.motionOf 18 = some (Motion.fresh 0 0) ∧ stepping.profileOf 17 = some profA ∧
      stepping.patchOf 17 = some (patchA 1) ∧ stepping.profileOf 18 = some profA ∧
      stepping.patchOf 18 = some (patchA 17) ∧
      (Motion.step profA { motionA with mode := .chase, tgtPan := 2000 }).after.pan ≠ 0 ∧
      (Motion.step profA (Motion.fresh 0 0)).after.pan = 0 ∧ (Motion.step profA (Motion.fresh 0 0)).after.tilt = 0 ∧
      profA.rangesOk ∧ profA.holds 0 0 ∧ profA.holds 2000 0 ∧ (-432001 : Int) < -27000 * 16 ∧ (27000 : Int) * 16 < 432001 ∧
      (-27000 : Int) * 16 ≤ 432000 ∧ (432000 : Int) ≤ 27000 * 16 ∧ (sweeping 0 .toA).plan = some (planTwo 0) ∧
      planPosition 0 1600 (planFraction 2 1) = 800 ∧ planPosition 0 1600 (planFraction 2 2) = 1600 ∧
      profA.holds 800 0 ∧ profA.holds 1600 0 ∧ (planTwo 0).k + 1 < (planTwo 0).n ∧ (planTwo 1).n ≤ (planTwo 1).k + 1 ∧
      ({ sweeping 0 .leg with mode := .timed } : Motion).mode = .timed ∧ (sweeping 1 .toA).mode = .sweep ∧
      (sweeping 1 .leg).sweep = some (sweepAt .leg) ∧ (sweeping 1 .toCentre).sweep = some (sweepAt .toCentre) ∧
      (sweepAt .toCentre).centrePan = 1600 ∧ (sweepAt .toCentre).centreTilt = 0 ∧
      ({ sweepAt .toCentre with centrePan := 0 } : Sweep).centrePan ≠ 1600 ∧
      ({ motionA with mode := .chase } : Motion).mode = .chase ∧
      ({ motionA with mode := .braking, brake := some .halt } : Motion).mode = .braking ∧ motionA.mode = .held := by
  refine ⟨by decide +kernel, ?_⟩; unfold Profile.rangesOk Profile.holds; decide +kernel

/-- R72, R73: the counts at the ends of the ranges. -/
theorem wit_AimCounts :
    profA.rangesOk ∧ profA.holds (profA.panMin * 16) (profA.tiltMax * 16) ∧
      panCount profA (patchA 1) (profA.panMin * 16) = 0 ∧ tiltCount profA (patchA 1) (profA.tiltMax * 16) = 65535 ∧
      panCount profA { patchA 1 with panInvert := true } (profA.panMin * 16) = 65535 := by
  unfold Profile.rangesOk Profile.holds; decide +kernel

theorem wit_PlansReachTheirTargets :
    (0 < 500 ∧ 250 ≤ 500 ∧ 500 ≤ 500) ∧ 65536 ≤ 65536 ∧ (0 < 600 ∧ 3 * 58992 ≤ 148 * (2 * 600)) ∧
      (0 < 8 ∧ 6 * 58992 ≤ 211 ^ 2 * 8) ∧ 131069 ≤ 131069 ∧ speedSteps 58992 600 = 148 ∧ accelSteps 58992 8 = 211 := by
  decide +kernel

theorem wit_AimsAreHandedOver :
    rigged.motionOf 17 = some motionA ∧ rigged.profileOf 17 = some profA ∧ profA.rangesOk ∧
      entryA.body.target = .point 5 ∧ (rigged.point 5).pos.isSome = true ∧ (rigged.point 9).pos = none ∧
      claimA.target = .angles 9000 (-4500) ∧ rigged.motionStepping = true ∧
      (rigged.withPart .standby).motionStepping = false ∧ (0 ≤ 7 ∧ 8 < 9) ∧ motionA.mode = .held ∧
      (sweeping 0 .toA).mode ≠ .held ∧ (sweeping 0 .toA).mode ≠ .braking ∧ (sweepAt .done).phase = .done ∧
      (sweeping 0 .leg).sweep = some (sweepAt .leg) ∧ (sweepAt .leg).current = true ∧ (sweepAt .leg).phase ≠ .done ∧
      ({ sweepAt .leg with current := false } : Sweep).current = false ∧
      (selectAim profA 0 0 ⟨0, 0, false, false⟩).isSome = true ∧ (⟨0, 0, true, false⟩ : SolveResult).degenerate = true ∧
      (placeClaim (rigged.aimStack 17) 9 12 claimA none).newTop = true ∧
      ((placeClaim (rigged.aimStack 17) 9 12 claimA none).stack.head?).isSome = true ∧
      (placeClaim (rigged.aimStack 17) 3 4 claimA none).newTop = false ∧ holdsSource 0 (rigged.aimStack 17) = true ∧
      topIsSource 0 (rigged.aimStack 17) = true ∧ holdsSource 0 fullStack = true ∧ topIsSource 0 fullStack = false ∧
      (entryA :: fullStack).filter (fun e => decide (e.source ≠ 0)) =
        ⟨9, 12, claimA, none, false⟩ :: [⟨8, 10, claimA, none, false⟩, ⟨3, 9, claimA, some ⟨3, 12⟩, false⟩] := by
  unfold Profile.rangesOk; decide +kernel

/-- Fixture 17's fade at its last step, and fixture 18's with a step to spare. -/
def fadeLast : Fade := ⟨[0, 0, 0, 0], [52431, 15728, 0, 13104], 13, 12⟩

def fading : State :=
  rigged.withColour
    ⟨[(17, some { colourA with fade := some fadeLast, tag := some ⟨0, 5⟩ }),
      (18, some { colourA with fade := some { fadeLast with k := 11 } })], some 8000, false, [17, 18]⟩

theorem wit_FadeStepMovesOneRecord :
    (fading.colour.timer = some 8000 ∧ 0 + 1 < 8000 ∧ 8000 ≤ (fading.withNow 7999).now + 1 ∧
      rigged.colour.timer = none) ∧
    fading.resetting = none ∧ 17 ∈ fading.colour.due ∧ 18 ∈ fading.colour.due ∧
      fading.colourOf 17 = some { colourA with fade := some fadeLast, tag := some ⟨0, 5⟩ } ∧
      fading.colourOf 18 = some { colourA with fade := some { fadeLast with k := 11 } } ∧
      fading.profileOf 17 = some profA ∧ fading.patchOf 17 = some (patchA 1) ∧ fading.profileOf 18 = some profA ∧
      fading.patchOf 18 = some (patchA 17) ∧ fadeLast.steps ≤ fadeLast.k + 1 ∧ 11 + 1 < fadeLast.steps ∧
      (rigged.withColour { rigged.colour with due := [17] }).colourOf 17 = some colourA ∧ colourA.fade = none ∧
      fadeValues 4 13 [0, 0, 0, 0] [0, 0, 0, 0] = colourA.outputs := by
  decide +kernel

/-- Cue 5 stored at slot 0 and palette 3 at slot 8,190. -/
def stored : State :=
  rigged.withMemory
    ((rigged.memory.storeCue 0 5 .manual 0 [rawAim]).storePalette 8190 3 1200 900 500 [(4, .hueSat 1250 900)])

/-- A kind with a wheel of two positions, and fixture 19 PATCHED with it. -/
def kindW : RawKind :=
  { kindB with kind := 6, footprint := 5, model := 2, listCount := 2, wheelRole := 4, wheel := [⟨0, 0, 0⟩, ⟨0, 1000, 20⟩] }

def patchW : Patch := { patchA 100 with kind := 6, trims := [], pass := [] }

def wheeled : State :=
  ((stored.setKind 6 (some kindW.profile)).setFixture 19 ⟨some patchW, 1⟩).setColourOf 19
    (some { Colour.fresh kindW.profile.model with target := some (.palette 3) })

/-- The emitters of kind 4: red, green, blue and white. -/
def emittersA : List Emitter :=
  [⟨some 0, 4096, 4, some 5⟩, ⟨some 1200, 3686, 6, some 7⟩, ⟨some 2400, 4096, 8, some 9⟩, ⟨none, 4096, 10, some 11⟩]

theorem wit_ColourValuesLieInRange :
    (0 < 13 ∧ 13 ≤ 13) ∧ (wheelMatch 0 0 [⟨0, 0, 0⟩, ⟨0, 1000, 20⟩]) = some ⟨0, 0, 0⟩ ∧
      ((3300 : Nat) : Int) = (-300) % 3600 ∧ kindW.profile.model = .wheel [⟨0, 0, 0⟩, ⟨0, 1000, 20⟩] 4 ∧
      profA.model = .emitter emittersA ∧ kindB.profile.model = .none ∧
      ([⟨0, 0, 0⟩, ⟨0, 1000, 20⟩] : List WheelPos)[1]? = some ⟨0, 1000, 20⟩ ∧
      ([⟨0, 0, 0⟩, ⟨0, 1000, 20⟩] : List WheelPos).getLast? = some ⟨0, 1000, 20⟩ ∧
      (∀ e ∈ stored.memory.palettes, e.number ≠ 4) ∧ stored.paletteEntry 3 = some ⟨3, 8190, 2⟩ ∧
      stored.readSlot (8190 + 1) = some (.override (patchA 1).kind (.hueSat 1250 900)) ∧
      stored.readSlot 8190 = some (.paletteHeader 3 1200 900 500 1) ∧
      stored.readSlot (8190 + 1) = some (.override 4 (.hueSat 1250 900)) ∧ patchW.kind ≠ 4 ∧
      wheeled.profileOf 19 = some kindW.profile ∧ wheeled.patchOf 19 = some patchW ∧
      wheeled.colourOf 19 = some { Colour.fresh kindW.profile.model with target := some (.palette 3) } ∧
      wheeled.colourStepping = true ∧ (wheeled.withPart .standby).colourStepping = false ∧
      (wheeled.resolveColour kindW.profile patchW (.palette 3)).1 = .snap 20 true ∧
      (wheeled.resolveColour profA (patchA 1) (.wheelSlot 1)).1 = .ineffective ∧
      (wheeled.resolveColour profA (patchA 1) (.hueSat 300 800)).1 = .levels [52431, 15728, 0, 13104] 300 800 [] ∧
      colourSlots kindW.profile [20] = [(4, 20)] ∧ (∀ v ∈ [52431, 15728, 0, 13104], v ≤ 65535) ∧
      wheeled.profileOf 17 = some profA ∧ wheeled.patchOf 17 = some (patchA 1) ∧ wheeled.colourOf 17 = some colourA ∧
      colourA.target = none ∧ huedFrom 0 emittersA ≠ [] ∧ coveringPair (huedFrom 0 emittersA) 300 = ⟨0, 1, 1200, 300⟩ ∧
      coveringPair (huedFrom 0 emittersA) 3599 = ⟨2, 0, 1200, 1199⟩ ∧ emittersA[3]? = some ⟨none, 4096, 10, some 11⟩ := by
  decide +kernel

/-- A pack under way over those two runs. -/
def packing : State := stored.withMemory stored.memory.beginPack

/-- A cue staged over two frames. -/
def staged : State := stored.withMemory { stored.memory with staging := some ⟨5, .manual, 0, [rawAim]⟩ }

/-- Cue Memory with a free space of two slots, and holes. -/
def tight : State :=
  rigged.withMemory { rigged.memory with cues := [⟨5, 8186, 2⟩], palettes := [⟨3, 8190, 2⟩] }

/-- Cue Memory with every slot in a run. -/
def brimming : State :=
  rigged.withMemory { rigged.memory with cues := [⟨5, 0, 8190⟩], palettes := [⟨3, 8190, 2⟩] }

/-- Cue 6 staged, one entry so far. -/
def stagedIn (s : State) : State := s.withMemory { s.memory with staging := some ⟨6, .manual, 0, [rawAim]⟩ }

theorem wit_CuesAreStored :
    ([.storeCue 0 cueA, .storeCueFirst cueA, .storeCueMore cueA, .storeCueLast cueA] : List Instr).all
      (fun c => ready staged c && ready packing c) = true ∧ linkOfCode cueA.link = some .manual ∧ cueFieldsOk cueA = true ∧
      packing.cueBusy 5 = true ∧ stored.cueBusy 5 = false ∧ stored.memory.judgeCue 5 2 = .stored 0 true ∧
      stored.memory.judgeCue 6 2 = .stored 2 false ∧ tight.memory.judgeCue 6 3 = .needsPack ∧
      brimming.memory.judgeCue 6 3 = .full ∧ staged.memory.staging = some ⟨5, .manual, 0, [rawAim]⟩ ∧
      morePartOk cueA = true ∧ 1 + cueA.entries.length ≤ 255 ∧ staged.memory.judgeCue 5 3 = .stored 0 true ∧
      ready (stagedIn tight) (.storeCueLast { cueA with cue := 6 }) = true ∧
      (stagedIn tight).memory.judgeCue 6 3 = .needsPack ∧
      ready (stagedIn brimming) (.storeCueLast { cueA with cue := 6 }) = true ∧
      (stagedIn brimming).memory.judgeCue 6 3 = .full ∧ fillOf tight.memory.cues + 2 = floorOf tight.memory.palettes ∧
      tight.memory.cues.filter (fun e => decide (e.number ≠ 6)) = tight.memory.cues ∧
      8188 + ((tight.memory.cues ++ tight.memory.palettes).map fun e => e.length).sum = 8192 ∧
      tight.memory.cues.any (fun e => decide (e.number = 6)) = false ∧
      512 ≤ (List.replicate 512 (⟨7, 0, 1⟩ : DirEntry)).length := by
  decide +kernel

theorem wit_PalettesAndDeletes :
    ([.storePalette paletteA, .deleteCue 5, .deleteCue 9999, .deletePalette 3, .deletePalette 63] : List Instr).all
      (fun c => ready stored c && ready packing c) = true ∧ paletteOk paletteA = true ∧ packing.memory.packing = true ∧
      stored.memory.packing = false ∧ stored.memory.judgePalette 3 2 = .stored 8190 true ∧
      tight.memory.judgePalette 4 3 = .needsPack ∧ brimming.memory.judgePalette 4 3 = .full ∧
      (working stored (.storePalette [17] 3 8190 1)).work = some (.storePalette (17 :: []) 3 8190 1) ∧
      dirFind 9999 stored.memory.cues = none ∧ dirFind 5 stored.memory.cues = some ⟨5, 0, 2⟩ ∧
      packing.cueBusy 5 = true ∧ stored.cueBusy 5 = false ∧ stored.paletteEntry 63 = none ∧
      (stored.paletteEntry 3).isSome = true ∧ fillOf tight.memory.cues + 2 = floorOf tight.memory.palettes ∧
      tight.memory.palettes.filter (fun e => decide (e.number ≠ 4)) = tight.memory.palettes ∧
      tight.memory.palettes.any (fun e => decide (e.number = 3)) = true ∧
      tight.memory.palettes.filter (fun e => decide (e.number ≠ 3)) = [] := by decide +kernel

/-- A pack at a count of runs taken, over two cue runs and two palette runs with holes between them. -/
def holed (taken : Nat) : CueMemory :=
  { rigged.memory with
    cues := [⟨5, 10, 2⟩, ⟨6, 2, 3⟩], palettes := [⟨1, 8100, 4⟩, ⟨3, 8000, 2⟩], pack := ⟨.cues, taken, 4, 0⟩ }

theorem wit_PackOrder :
    ((holed 1).ok ∧ (holed 1).pack.taken < (holed 1).cues.length ∧ [⟨6, 2, 3⟩, ⟨5, 10, 2⟩].Perm (holed 1).cues ∧
      ([⟨6, 2, 3⟩, ⟨5, 10, 2⟩] : List DirEntry).Pairwise (fun a b => a.start < b.start) ∧
      ([⟨6, 2, 3⟩, ⟨5, 10, 2⟩] : List DirEntry)[1]? = some ⟨5, 10, 2⟩ ∧
      ([⟨6, 2, 3⟩, ⟨5, 10, 2⟩] : List DirEntry)[0]? = some ⟨6, 2, 3⟩ ∧ 1 = 0 + 1 ∧ 5 = 2 + 3) ∧
    ((holed 3).ok ∧ (holed 3).cues.length + 1 = (holed 3).pack.taken ∧
      [⟨1, 8100, 4⟩, ⟨3, 8000, 2⟩].Perm (holed 3).palettes ∧
      ([⟨1, 8100, 4⟩, ⟨3, 8000, 2⟩] : List DirEntry).Pairwise (fun a b => b.start < a.start) ∧
      ([⟨1, 8100, 4⟩, ⟨3, 8000, 2⟩] : List DirEntry)[1]? = some ⟨3, 8000, 2⟩ ∧ 8098 = 8100 - 2) ∧
    ((holed 2).cues.length + 0 = (holed 2).pack.taken ∧ 8188 = 8192 - 4) ∧
      (holed 4).cues.length + (holed 4).palettes.length ≤ (holed 4).pack.taken := by
  unfold CueMemory.ok dirOk DirEntry.apart; decide +kernel

/-- R152: the cue runs are taken in ascending start, each copied to the end of the one before it. -/
theorem test_pack_takes_the_lowest_run_first :
    (holed 0).packStep.cues = [⟨5, 10, 2⟩, ⟨6, 0, 3⟩] ∧ (holed 0).packStep.pack.moved = 3 ∧
      (holed 0).packStep.packStep.cues = [⟨5, 3, 2⟩, ⟨6, 0, 3⟩] := by decide +kernel

theorem wit_PacksKeepEveryRun :
    (ready stored .pack && ready packing .pack && ready calm .pack && ready stored .abortPack &&
      ready packing .abortPack) = true ∧ packing.memory.packing = true ∧ stored.memory.packing = false ∧
      0 < stored.memory.cues.length + stored.memory.palettes.length ∧ calm.memory.cues = [] ∧
      calm.memory.palettes = [] ∧ packing.resetting = none ∧ packing.memory.packStep.packing = true ∧
      packing.memory.packStep.packStep.packing = false ∧ packing.memory.ok ∧
      dirFind 5 packing.memory.cues = some ⟨5, 0, 2⟩ ∧ dirFind 3 packing.memory.palettes = some ⟨3, 8190, 2⟩ := by
  unfold CueMemory.ok dirOk DirEntry.apart; decide +kernel

/-- List 2 LAUNCHING cue 5, at its start and with its walk done but for the end. -/
def launchA : Launch := Launch.fresh 5 1 .host .manual 0

def launching : State :=
  stored.setCueList 2 { CueList.fresh with mode := .launching, current := some 5, serial := 1, launch := some launchA }

def walked : State :=
  launching.setCueList 2 { launching.cueList 2 with launch := some { launchA with walk := 1, count := 1 } }

theorem wit_ListsAreDefinedAndStarted :
    (ready stored (.defineList ⟨7, 1, 9999, 255, 600000⟩) && ready launching (.defineList ⟨2, 1, 9999, 0, 0⟩) &&
      ready stored (.go 2 5 0) && ready stored (.go 2 0 1) && ready stored (.go 2 9999 0) && ready launching (.go 2 5 0) &&
      ready (stored.withPart .standby) (.go 2 5 0) && ready (stored.withStop true) (.go 2 5 0)) = true ∧
      listArgsOk ⟨7, 1, 9999, 255, 600000⟩ = true ∧ listArgsOk ⟨2, 1, 9999, 0, 0⟩ = true ∧
      (stored.cueList 7).mode = .released ∧ (launching.cueList 2).mode ≠ .released ∧ stored.part = .live ∧
      stored.stop = false ∧ stored.resolveCue (stored.cueList 2) (some 9999) = none ∧
      stored.resolveCue (stored.cueList 2) (some 5) = some 5 ∧ stored.resolveCue (stored.cueList 2) none = some 5 ∧
      launching.resolveCue (launching.cueList 2) (some 5) = some 5 ∧ (launching.cueList 2).mode = .launching ∧
      (launching.cueList 2).pendingGo = none ∧
      ((launching.setCueList 2 { launching.cueList 2 with pendingGo := some ⟨none, true⟩ }).cueList 2).pendingGo.isSome =
        true ∧
      (stored.cueList 2).mode ≠ .launching ∧ stored.cueHeader 5 = some (1, .manual, 0) := by decide +kernel

/-- Cues 3 and 5 stored, and lists at a current cue. -/
def twoCues : State := rigged.withMemory { rigged.memory with cues := [⟨3, 0, 2⟩, ⟨5, 2, 2⟩] }

theorem wit_NextCue :
    twoCues.memory.ok ∧ (∃ stored : Nat → Prop, ∀ c, stored c ↔
      (∃ e ∈ twoCues.memory.cues, e.number = c) ∧ CueList.fresh.first ≤ c ∧ c ≤ CueList.fresh.last) ∧
    twoCues.nextCue CueList.fresh = some 3 ∧ twoCues.nextCue { CueList.fresh with current := some 4 } = some 5 ∧
      twoCues.nextCue { CueList.fresh with current := some 5 } = none ∧
      twoCues.nextCue { CueList.fresh with current := some 5, wrap := true } = some 3 ∧
      twoCues.resolveCue { CueList.fresh with first := 4 } (some 3) = none := by
  refine ⟨?_, ⟨_, fun _ => Iff.rfl⟩, by decide +kernel⟩
  unfold CueMemory.ok dirOk DirEntry.apart; decide +kernel

/-- R159: GO with BAR on a SETTLED list arms it, and the link of its launch is spent. -/
theorem test_arming_spends_the_link :
    (((out (exec (.go 2 5 1) (given
        (launching.setCueList 2 { launching.cueList 2 with mode := .settled }) (.go 2 5 1)))).cueList 2).launch.map
      fun r => (r.live, r.spent)) = some (true, true) := by decide +kernel

/-- The same with a COLOUR spec in the entry. -/
def launchingColour : State :=
  launching.withMemory (rigged.memory.storeCue 0 5 .manual 0 [rawColour])

/-- A walk at its end with a link, a count and a pending GO. -/
def endLaunch (link : LinkKind) (count : Nat) : Launch := { launchA with walk := 1, count := count, link := link, linkMs := 0 }

def ending (link : LinkKind) (count : Nat) (go : Option HeldGo) : State :=
  launching.setCueList 2 { launching.cueList 2 with launch := some (endLaunch link count), pendingGo := go }

theorem wit_WalksClaimAndEnd :
    (launching.resetting = none ∧ launching.walkReady 2 = some (launchA, some (1, ⟨0, 17, .aim⟩)) ∧
      launching.cueEntry 5 0 = some rawAim ∧ (launching.aimClaim rawAim).isSome = true ∧
      launchingColour.walkReady 2 = some (launchA, some (1, ⟨0, 17, .colour⟩)) ∧
      launchingColour.cueEntry 5 0 = some rawColour ∧ (launchingColour.colourClaim rawColour).isSome = true) ∧
      ([.manual, .onDone, .after, .doneOrAfter, .nextBar] : List LinkKind).all (fun k =>
        [0, 1].all fun c => decide ((ending k c none).walkReady 2 = some (endLaunch k c, none)) &&
          decide (((ending k c none).cueList 2).pendingGo = none)) = true ∧
      (ending .manual 1 none).part = .live ∧ (ending .manual 1 none).stop = false ∧
      ((ending .onDone 0 none).withStop true).walkReady 2 = some (endLaunch .onDone 0, none) ∧
      ((ending .onDone 0 none).withPart .standby).walkReady 2 = some (endLaunch .onDone 0, none) ∧
      ((ending .manual 1 (some ⟨none, true⟩)).cueList 2).pendingGo = some ⟨none, true⟩ ∧
      ((ending .manual 1 (some ⟨some 5, false⟩)).cueList 2).pendingGo = some ⟨some 5, false⟩ ∧
      (ending .manual 1 (some ⟨some 5, false⟩)).walkReady 2 = some (endLaunch .manual 1, none) ∧
      (ending .manual 1 (some ⟨some 9, false⟩)).resolveCue ((ending .manual 1 none).cueList 2) (some 9) = none ∧
      (ending .manual 1 (some ⟨some 5, false⟩)).resolveCue ((ending .manual 1 none).cueList 2) (some 5) = some 5 ∧
      launching.cueHeader 5 = some (1, .manual, 0) ∧
      (placeClaim (launching.aimStack 17) 2 (launching.priority 2) claimA (some ⟨2, 1⟩)).answer = .active ∧
      (placeClaim ([⟨9, 12, claimA, none, false⟩] : List (Entry AimClaim)) 2 8 claimA (some ⟨2, 1⟩)).newTop = false ∧
      ((placeClaim (launching.aimStack 17) 2 (launching.priority 2) claimA (some ⟨2, 1⟩)).stack.head?).isSome = true ∧
      (placeClaim (launchingColour.colourStack 17) 2 8 (⟨.hueSat 300 800, 500⟩ : ColourClaim) (some ⟨2, 1⟩)).newTop =
        true :=
  ⟨by decide +kernel, by decide +kernel⟩

/-- R161: a walk takes AIM before COLOUR and passes over UNPATCHED fixtures: of 16 to 18 the first is not PATCHED. -/
def walkOver : State :=
  launching.withMemory
    (rigged.memory.storeCue 0 5 .manual 0 [{ rawAim with first := 16, count := 3, colour := 1 }])

theorem wit_WalkOrder :
    launching.cueHeader launchA.cue = some (1, .manual, 0) ∧
      ((launching.cueList 2).paused = false ∧ (launching.cueList 2).launch = some launchA ∧ launchA.live = true ∧
        (launching.cueList 2).mode = .launching ∧ launchA.walkDone = false) ∧
      walkOver.walkReady 2 = some (launchA, some (3, ⟨0, 17, .aim⟩)) ∧
      (walkOver.setCueList 2 { walkOver.cueList 2 with launch := some { launchA with walk := 3 } }).walkReady 2 =
        some ({ launchA with walk := 3 }, some (4, ⟨0, 17, .colour⟩)) ∧
      (walkOver.setCueList 2 { walkOver.cueList 2 with launch := some { launchA with walk := 6 } }).walkReady 2 =
        some ({ launchA with walk := 6 }, none) := by decide +kernel

/-- List 2 RUNNING with a count and a report on its way. -/
def running (count : Nat) : State :=
  (launching.withPlayback { launching.playback with reports := [⟨true, 2, 1⟩] }).setCueList 2
    { launching.cueList 2 with mode := .running, launch := some { launchA with walkDone := true, count := count } }

/-- List 2 RUNNING with a link timer that has expired. -/
def timed : State :=
  stored.setCueList 2
    { CueList.fresh with mode := .running, launch := some { launchA with walkDone := true, timer := some (.running 0) } }

/-- List 2 ARMED for cue 5 with a bar start to take. -/
def armed : State := stored.setCueList 2 { CueList.fresh with mode := .armed, armedGo := some (some 5), barsDue := 1 }

/-- List 2 in a state with one item left, its report on its way, and a link. -/
def lastItem (mode : ListMode) (link : LinkKind) (spent : Bool) : State :=
  (running 1).setCueList 2
    { (running 1).cueList 2 with
      mode := mode, launch := some { launchA with walkDone := true, count := 1, link := link, spent := spent } }

/-- List 2 SETTLED with link wait set and a bar start to take. -/
def waiting : State :=
  stored.setCueList 2
    { CueList.fresh with
      mode := .settled, barsDue := 1, launch := some { launchA with walkDone := true, link := .nextBar, wait := true } }

theorem wit_ReportsTimersAndBars :
    (running 2).resetting = none ∧ (⟨true, 2, 1⟩ : Report) ∈ (running 2).playback.reports ∧
      ((running 2).cueList 2).liveLaunch = some { launchA with walkDone := true, count := 2 } ∧
      ((running 0).cueList 2).liveLaunch = some { launchA with walkDone := true, count := 0 } ∧
      (stored.cueList 2).liveLaunch = none ∧ launchA.serial = 1 ∧
      ([.manual, .onDone, .after, .doneOrAfter, .nextBar] : List LinkKind).all (fun k =>
        [.running, .armed, .launching].all fun m => [true, false].all fun x =>
          decide (((lastItem m k x).cueList 2).liveLaunch =
            some { launchA with walkDone := true, count := 1, link := k, spent := x }) &&
          decide (((lastItem m k x).cueList 2).mode = m) && (lastItem m k x).playback.reports.contains ⟨true, 2, 1⟩) =
        true ∧
      (lastItem .running .onDone false).part = .live ∧ (lastItem .running .onDone false).stop = false ∧
      timed.linkTimerDue 2 = true ∧ timed.part = .live ∧ (timed.withPart .standby).linkTimerDue 2 = true ∧
      timed.nextCue (timed.cueList 2) = some 5 ∧ timed.cueHeader 5 = some (1, .manual, 0) ∧
      (timed.withMemory rigged.memory).nextCue ((timed.withMemory rigged.memory).cueList 2) = none ∧
      0 < (armed.cueList 2).barsDue ∧ (armed.withStop true).stop = true ∧ armed.stop = false ∧
      (armed.cueList 2).mode = .armed ∧ (armed.cueList 2).armedGo = some (some 5) ∧
      armed.resolveCue (armed.cueList 2) (some 5) = some 5 ∧ armed.cueHeader 5 = some (1, .manual, 0) ∧
      (armed.withMemory rigged.memory).resolveCue ((armed.withMemory rigged.memory).cueList 2) (some 5) = none ∧
      ((stored.setCueList 2 { CueList.fresh with barsDue := 1 }).cueList 2).mode ≠ .armed ∧
      (((stored.setCueList 2 { CueList.fresh with barsDue := 1 }).cueList 2).liveLaunch.any fun r => r.wait) = false ∧
      0 < (waiting.cueList 2).barsDue ∧ (waiting.cueList 2).mode ≠ .armed ∧ waiting.part = .live ∧ waiting.stop = false ∧
      ((waiting.cueList 2).liveLaunch.any fun r => r.wait) = true := by
  decide +kernel

/-- R164, R165: a settling report applies ON_DONE, and nothing once the link is spent. -/
theorem test_spent_link :
    ([false, true].map fun x =>
      let s := lastItem .running .onDone x
      ((out (exec (.launchReport ⟨true, 2, 1⟩) (s.setCueList 2 { s.cueList 2 with wrap := true }))).cueList 2).mode) =
      [.launching, .settled] := by decide +kernel

theorem wit_TempoAndBarAreSet :
    ([.setTempo 299, .setTempo 300, .setTempo 3000, .setTempo 3001, .setBar 0, .setBar 1, .setBar 16, .setBar 17] :
      List Instr).all (ready calm) = true := by decide +kernel

/-- The Beat Clock with source MANUAL. -/
def manual : State := calm.withBeat ((Beat.reset 0).changeSource .manual 0)

theorem wit_BeatSourceIsSet :
    ([.setBeatSource 0 1, .setBeatSource 1 0, .setBeatSource 2 0, .setBeatSource 0 2] : List Instr).all
      (fun c => ready calm c && ready manual c) = true ∧ calm.beat.source = .external ∧ manual.beat.source = .manual := by
  decide +kernel

/-- A pulse at time 780 ms after an edge at 300 ms, with its timing still running or over. -/
def pulsed (accepts : Nat) : State :=
  (calm.withNow 780000).withBeat
    { calm.beat with pulse := some ⟨accepts, true⟩, lastEdge := some 300000, clock := .locked, flywheel := some 800000 }

theorem wit_EdgesLockTheClock :
    calm.resetting = none ∧ calm.beat.source = .external ∧ (pulsed 780001).beat.pulse = some ⟨780001, true⟩ ∧
      (pulsed 780001).now < 780001 ∧ (pulsed 780000).beat.pulse = some ⟨780000, true⟩ ∧ 780000 ≤ (pulsed 780000).now ∧
      (pulsed 780000).beat.lastEdge = some 300000 ∧ 2000 ≤ ((pulsed 780000).now - 300000) / 100 ∧
      (499900 - 300000) / 100 < 2000 ∧ 100 * calm.beat.period < 4 * ((pulsed 780000).now - calm.beat.lastBeat) ∧
      calm.beat.beatsToBar ≤ 1 ∧ 1 < ({ calm.beat with beatsToBar := 2 } : Beat).beatsToBar ∧
      4 * (780000 - 655000) ≤ 100 * calm.beat.period := by decide +kernel

theorem wit_FlywheelBeats :
    calm.resetting = none ∧ ((calm.withNow 500000).withBeat { calm.beat with flywheel := some 500000 }).beat.flywheel =
        some 500000 ∧ 500000 ≤ (calm.withNow 500000).now ∧ calm.beat.source = .external ∧
      manual.beat.source = .manual ∧ calm.beat.beatsToBar ≤ 1 := by decide +kernel

theorem wit_LineIsSet :
    ([.setLine ⟨7, 24, 24, 1001, 1⟩, .setLine ⟨0, 512, 1001, 1000, 0⟩, .setLine ⟨0, 512, 25, 0, 0⟩,
      .setLine ⟨0, 512, 1000, 0, 0⟩] : List Instr).all (ready calm) = true := by decide +kernel

/-- Line 3 RUN with its refresh timer expired, and with a frame in progress that has ended. -/
def lineRun : State := calm.setLine 3 { Line.fresh with run := true, timer := some 0 }

def lineBusy (due : Bool) : State :=
  calm.setLine 3 { Line.fresh with run := true, timer := some 0, due := due, frame := some ⟨[], 24, 0, 0⟩ }

theorem wit_LinesSendFrames :
    (lineRun.line 3).waiting.getD (lineRun.line 3).inForce = ⟨512, 25, 0⟩ ∧ lineRun.resetting = none ∧
      (lineRun.line 3).run = true ∧ (lineRun.line 3).timer = some 0 ∧ 0 ≤ lineRun.now ∧ (lineRun.line 3).frame = none ∧
      ((lineBusy false).line 3).frame = some ⟨[], 24, 0, 0⟩ ∧ ((lineBusy false).line 3).due = false ∧
      ((lineBusy true).line 3).due = true ∧ ((lineBusy true).line 3).run = true ∧ lineRun.ldePin 3 = true ∧
      lineRun.linePin 3 = true ∧ (lineBusy false).linePin 3 = false := by decide +kernel

theorem wit_StacksAndPoolsStayInOrder :
    (rigged.stacksOk = true ∧ ∃ t, step rigged = .next t) ∧
      (rigged.withSolver ⟨[jobA], none, []⟩).poolsOk = true ∧ ∃ t, step (rigged.withSolver ⟨[jobA], none, []⟩) = .next t :=
  ⟨⟨by decide +kernel, step_next _⟩, by decide +kernel, step_next _⟩

theorem wit_BeatStaysInRange : calm.beat.ok = true ∧ ∃ t, step calm = .next t := ⟨by decide +kernel, step_next _⟩

theorem wit_CueMemoryStaysInOrder :
    (packing.memory.ok ∧ ∃ t, step packing = .next t) ∧ stored.storageOk = true ∧ ∃ t, step stored = .next t :=
  ⟨⟨by unfold CueMemory.ok dirOk DirEntry.apart; decide +kernel, step_next _⟩, by decide +kernel, step_next _⟩

theorem rigged_kind (j : Nat) (k : Profile) (h : rigged.kind j = some k) : k = profA := by
  simp only [State.kind, rigged, Store.get] at h
  split at h
  · exact (Option.some.inj h).symm
  · simp at h

theorem rigged_patch (f : Nat) (p : Patch) (h : rigged.patchOf f = some p) :
    (f = 17 ∧ p = patchA 1) ∨ (f = 18 ∧ p = patchA 17) := by
  simp only [State.patchOf, State.fixture, rigged, Store.get] at h
  split at h
  · next e => exact .inl ⟨e.symm, (Option.some.inj h).symm⟩
  · split at h
    · next e => exact .inr ⟨e.symm, (Option.some.inj h).symm⟩
    · simp [Fixture.free] at h

theorem rigged_motion (f : Nat) (m : Motion) (h : rigged.motionOf f = some m) :
    (f = 17 ∧ m = motionA) ∨ (f = 18 ∧ m = Motion.fresh 0 0) := by
  simp only [State.motionOf, rigged, Store.get] at h
  split at h
  · next e => exact .inl ⟨e.symm, (Option.some.inj h).symm⟩
  · split at h
    · next e => exact .inr ⟨e.symm, (Option.some.inj h).symm⟩
    · simp at h

theorem wit_PositionsStayInRange : rigged.motionOk ∧ ∃ t, step rigged = .next t := by
  have hr : profA.rangesOk ∧ profA.holds 0 0 := by unfold Profile.rangesOk Profile.holds; decide +kernel
  refine ⟨⟨?_, ?_, ?_, ?_⟩, step_next _⟩
  · intro f p hp
    rcases rigged_patch f p hp with ⟨rfl, rfl⟩ | ⟨rfl, rfl⟩ <;>
      exact ⟨by decide, profA, by decide +kernel, hr.1, hr.2⟩
  · intro f m hm
    rcases rigged_motion f m hm with ⟨rfl, rfl⟩ | ⟨rfl, rfl⟩ <;> exact ⟨profA, by decide +kernel, hr.2, hr.2⟩
  · intro j k hk
    rw [rigged_kind j k hk]; exact hr.1
  · intro todo d sd n hw
    exact absurd hw (by simp [State.work, rigged, calm, Link.reset])

end Sys2Proof.Tests
end

