-- ==== Sys2Proof/Proofs/Kinds.lean ====
section
/-! PROOFS. Kinds dropped from the kind table, and the PATCH that names an UNDEFINED kind (1.1, 1.2). -/

namespace Sys2Proof.Machine

variable (s : State)

/-! ### The effect of DROP_KIND, one equation for each outcome (R3) -/

section DropKind
variable {k : Nat}

theorem State.dropKind_of_out_of_range (hk : 31 < k) : s.dropKind k = s.refuse .badArg := by
  simp [State.dropKind, hk]

theorem State.dropKind_of_undefined (hk : k ≤ 31) (hu : s.kind k = none) : s.dropKind k = s.refuse .notFound := by
  simp [State.dropKind, Nat.not_lt.2 hk, hu]

theorem State.dropKind_of_inUse (hk : k ≤ 31) (hd : (s.kind k).isSome = true) (hi : s.kindInUse k = true) :
    s.dropKind k = s.refuse .inUse := by
  simp [State.dropKind, Nat.not_lt.2 hk, Option.isNone_eq_false_iff.2 hd, hi]

theorem State.dropKind_of_notInUse (hk : k ≤ 31) (hd : (s.kind k).isSome = true) (hi : s.kindInUse k = false) :
    s.dropKind k = (s.setKind k none).answer .ok [] := by
  simp [State.dropKind, Nat.not_lt.2 hk, Option.isNone_eq_false_iff.2 hd, hi]

end DropKind

/-- Stage 2 of PATCH's checks (R6): within the ranges of stage 1, a kind that is UNDEFINED is not found. -/
theorem State.patch_of_undefined {a : PatchArgs} (ha : a.rangesOk = true) (hu : s.kind a.kind = none) :
    s.patch a = s.refuse .notFound := by
  simp [State.patch, ha, hu]

/-! ### The rows of DROP_KIND and PATCH, once the command is with its owner -/

theorem exec_dropKind_of_handed {k : Nat} (h : s.handed (.dropKind k) = true) :
    exec (.dropKind k) s = .next (s.dropKind k).pump :=
  congrArg Host.Outcome.next (s.takeCommand_of_handed _ h)

theorem exec_patch_of_handed {a : PatchArgs} (h : s.handed (.patch a) = true) :
    exec (.patch a) s = .next (s.patch a).pump :=
  congrArg Host.Outcome.next (s.takeCommand_of_handed _ h)

/-- Settles O20: a case for each outcome of DROP_KIND's checks, in their order; the state it leaves is `s.setKind k none`,
answered OK. -/
theorem kindsAreDropped : Obligations.KindsAreDropped := by
  intro s
  refine ⟨fun k h => ?_, fun a h ha hu => ?_⟩
  · rw [exec_dropKind_of_handed s h]
    refine ⟨fun hk => ?_, fun hk hu => ?_, fun hk hd hi => ?_, fun hk hd hi => ?_⟩
    · rw [s.dropKind_of_out_of_range hk]; rfl
    · rw [s.dropKind_of_undefined hk hu]; rfl
    · rw [s.dropKind_of_inUse hk hd hi]; rfl
    · rw [s.dropKind_of_notInUse hk hd hi]
      exact ⟨s.setKind k none, rfl, rfl, rfl, rfl, s.setKind_kind k none⟩
  · rw [exec_patch_of_handed s h, s.patch_of_undefined ha hu]; rfl

end Sys2Proof.Machine
end

