-- ==== Sys2Proof/Proofs/Priority.lean ====
section
/-! PROOFS. The priority of a source, set by SET_PRIORITY (3.1). -/

namespace Sys2Proof.Machine

variable (s : State)

/-! ### The effect of SET_PRIORITY, one equation for each outcome (R37) -/

section SetPriority
variable {source prio : Nat}

theorem State.setPriority_of_out_of_range (h : 9 < source ∨ 15 < prio) :
    s.setPriority source prio = s.refuse .badArg :=
  if_pos h

/-- The reply's byte is the priority that `s` holds, before the write; the stacks stand as they did. -/
theorem State.setPriority_of_in_range (hsource : source ≤ 9) (hprio : prio ≤ 15) :
    s.setPriority source prio =
      (s.withClaims { s.claims with prio := s.claims.prio.set source prio }).answer .ok (le1 (s.priority source)) :=
  if_neg (not_or.2 ⟨Nat.not_lt.2 hsource, Nat.not_lt.2 hprio⟩)

end SetPriority

/-! ### The row of SET_PRIORITY, once the command is with its owner -/

theorem exec_setPriority_of_handed {source prio : Nat} (h : s.handed (.setPriority source prio) = true) :
    exec (.setPriority source prio) s = .next (s.setPriority source prio).pump :=
  congrArg Host.Outcome.next (s.takeCommand_of_handed _ h)

/-- Settles O31: a case for each side of SET_PRIORITY's one check. -/
theorem priorityIsSet : Obligations.PriorityIsSet := by
  intro s source prio h
  rw [exec_setPriority_of_handed s h]
  refine ⟨fun hout => ?_, fun hsource hprio => ?_⟩
  · rw [s.setPriority_of_out_of_range hout]; rfl
  · rw [s.setPriority_of_in_range hsource hprio]; rfl

end Sys2Proof.Machine
end

section
/-! PROOFS. The commands of the Beat Clock: SET_TEMPO, SET_BAR and SET_BEAT_SOURCE (9.2, 9.4, 9.5). -/

namespace Sys2Proof.Machine

variable (s : State)

/-! ### Tempo and period (R176) -/

/-- Adding half the divisor before the division is round half up of the quotient, for an odd divisor too. -/
theorem roundHalfUpNat_eq (a b : Nat) : roundHalfUpNat a b = (2 * a + b) / (2 * b) := by
  rw [roundHalfUpNat, ← Nat.div_div_eq_div_mul, Nat.mul_add_div Nat.two_pos]

section SetTempo
variable (b : Beat) {tempo : Nat}

theorem Beat.setTempo_tempo : (b.setTempo tempo).tempo = min 3000 (max 300 tempo) := rfl

theorem Beat.setTempo_tempo_of_low (h : tempo < 300) : (b.setTempo tempo).tempo = 300 := by
  rw [b.setTempo_tempo]; omega

theorem Beat.setTempo_tempo_of_high (h : 3000 < tempo) : (b.setTempo tempo).tempo = 3000 := by
  rw [b.setTempo_tempo]; omega

theorem Beat.setTempo_tempo_of_in_range (hlow : 300 ≤ tempo) (hhigh : tempo ≤ 3000) :
    (b.setTempo tempo).tempo = tempo := by
  rw [b.setTempo_tempo]; omega

end SetTempo

/-- The period follows the stored tempo at once under MANUAL and stands under EXTERNAL. -/
theorem Beat.setTempo_eq (b : Beat) (tempo : Nat) :
    b.setTempo tempo =
      { b with
        tempo := (b.setTempo tempo).tempo
        period := if b.source = .manual then tempoPeriod (b.setTempo tempo).tempo else b.period } := rfl

theorem exec_setTempo_of_handed {tempo : Nat} (h : s.handed (.setTempo tempo) = true) :
    exec (.setTempo tempo) s = .next (s.setTempo tempo).pump :=
  congrArg Host.Outcome.next (s.takeCommand_of_handed _ h)

/-! ### The bar (R183) -/

section SetBar
variable {beats : Nat}

theorem State.setBar_of_out_of_range (h : beats < 1 ∨ 16 < beats) : s.setBar beats = s.refuse .badArg :=
  if_pos h

theorem State.setBar_of_in_range (hlow : 1 ≤ beats) (hhigh : beats ≤ 16) :
    s.setBar beats =
      (s.withBeat { s.beat with beatsPerBar := beats, beatsToBar := 1 }).answer .ok (le2 s.beat.bar) :=
  if_neg (not_or.2 ⟨Nat.not_lt.2 hlow, Nat.not_lt.2 hhigh⟩)

end SetBar

/-- With one beat to the bar left, the next beat is a bar start (R182). -/
theorem Beat.startsBar_of_last_beat {b : Beat} (h : b.beatsToBar = 1) : b.startsBar = true :=
  decide_eq_true h.le

theorem exec_setBar_of_handed {beats : Nat} (h : s.handed (.setBar beats) = true) :
    exec (.setBar beats) s = .next (s.setBar beats).pump :=
  congrArg Host.Outcome.next (s.takeCommand_of_handed _ h)

/-- Settles O48: the stored tempo is the clamped one, its period by `roundHalfUpNat_eq`; SET_BAR has a case for each side
of its one check. -/
theorem tempoAndBarAreSet : Obligations.TempoAndBarAreSet := by
  refine ⟨fun s tempo h => ?_, fun s beats h => ?_⟩
  · refine ⟨(s.beat.setTempo tempo).tempo, tempoPeriod (s.beat.setTempo tempo).tempo, s.beat.setTempo_tempo_of_low,
      s.beat.setTempo_tempo_of_high, s.beat.setTempo_tempo_of_in_range, roundHalfUpNat_eq 6000000 _, ?_, rfl⟩
    rw [exec_setTempo_of_handed s h, ← s.beat.setTempo_eq tempo]; rfl
  · rw [exec_setBar_of_handed s h]
    refine ⟨fun hout => ?_, fun hlow hhigh => ⟨?_, Beat.startsBar_of_last_beat rfl⟩⟩
    · rw [s.setBar_of_out_of_range hout]; rfl
    · rw [s.setBar_of_in_range hlow hhigh]; rfl

/-! ### The source and the filter (R181) -/

theorem sourceOfCode_code (src : BeatSource) : sourceOfCode src.code = some src := by cases src <;> rfl

theorem sourceOfCode_of_out_of_range {code : Nat} (h : 1 < code) : sourceOfCode code = none := by
  match code, h with
  | _ + 2, _ => rfl

/-- A flag on the link, written from a flag of the command. -/
theorem flagByte_decide (p : Prop) [Decidable p] : flagByte (decide p) = [if p then 1 else 0] := by
  by_cases hp : p <;> simp [flagByte, hp]

section ChangeSource
variable (b : Beat) (src : BeatSource) (now : Nat)

@[simp] theorem Beat.changeSource_source : (b.changeSource src now).source = src := by cases src <;> rfl
@[simp] theorem Beat.changeSource_filter : (b.changeSource src now).filter = b.filter := by cases src <;> rfl
@[simp] theorem Beat.changeSource_clock : (b.changeSource src now).clock = clockOfSource src := by cases src <;> rfl

end ChangeSource

@[simp] theorem State.notifyBeatState_beat (clock : ClockState) (cause : ClockCause) :
    (s.notifyBeatState clock cause).beat = s.beat := rfl

/-! SET_BEAT_SOURCE's effect, one equation for each outcome. -/

section SetBeatSource
variable {src : BeatSource} {source filter : Nat}

theorem State.setBeatSourceCmd_of_out_of_range (h : 1 < source ∨ 1 < filter) :
    s.setBeatSourceCmd source filter = s.refuse .badArg := by
  rcases h with hsource | hfilter
  · simp [State.setBeatSourceCmd, sourceOfCode_of_out_of_range hsource]
  · cases hcode : sourceOfCode source <;> simp [State.setBeatSourceCmd, hcode, Nat.not_le.2 hfilter]

/-- The source already in force: the filter alone is set, and no notice is made pending. -/
theorem State.setBeatSourceCmd_of_in_force (hfilter : filter ≤ 1) (hsrc : s.beat.source = src) :
    s.setBeatSourceCmd src.code filter =
      (s.withBeat { s.beat with filter := decide (filter = 1) }).answer .ok
        (le1 src.code ++ flagByte (decide (filter = 1)) ++ le1 s.beat.clock.code) := by
  simp [State.setBeatSourceCmd, sourceOfCode_code, State.setBeatSource, hfilter, hsrc]

/-- A change of source: the filter is set, the clock starts under the new source, and BEAT_STATE is pending. -/
theorem State.setBeatSourceCmd_of_change (hfilter : filter ≤ 1) (hsrc : s.beat.source ≠ src) :
    s.setBeatSourceCmd src.code filter =
      ((s.withBeat (({ s.beat with filter := decide (filter = 1) } : Beat).changeSource src s.now)).notifyBeatState
        (clockOfSource src) .source).answer .ok
        (le1 src.code ++ flagByte (decide (filter = 1)) ++ le1 (clockOfSource src).code) := by
  simp [State.setBeatSourceCmd, sourceOfCode_code, State.setBeatSource, hfilter, hsrc]

end SetBeatSource

theorem exec_setBeatSource_of_handed {source filter : Nat} (h : s.handed (.setBeatSource source filter) = true) :
    exec (.setBeatSource source filter) s = .next (s.setBeatSourceCmd source filter).pump :=
  congrArg Host.Outcome.next (s.takeCommand_of_handed _ h)

/-- The row of SET_BEAT_SOURCE for the source already in force. -/
theorem exec_setBeatSource_of_in_force {src : BeatSource} {f : Nat} (h : s.handed (.setBeatSource src.code f) = true)
    (hf : f ≤ 1) (hsrc : s.beat.source = src) :
    exec (.setBeatSource src.code f) s = .next
      ((s.withBeat { s.beat with filter := decide (f = 1) }).answered .ok
        [byteOf src.code, if f = 1 then 1 else 0, byteOf s.beat.clock.code]) := by
  rw [exec_setBeatSource_of_handed s h, s.setBeatSourceCmd_of_in_force hf hsrc, flagByte_decide]; rfl

/-- The row of SET_BEAT_SOURCE for a change of source. -/
theorem exec_setBeatSource_of_change {src : BeatSource} {f : Nat} (h : s.handed (.setBeatSource src.code f) = true)
    (hf : f ≤ 1) (hsrc : s.beat.source ≠ src) :
    exec (.setBeatSource src.code f) s = .next
      (((s.withBeat (({ s.beat with filter := decide (f = 1) } : Beat).changeSource src s.now)).notifyBeatState
        (clockOfSource src) .source).answered .ok
        [byteOf src.code, if f = 1 then 1 else 0, byteOf (clockOfSource src).code]) := by
  rw [exec_setBeatSource_of_handed s h, s.setBeatSourceCmd_of_change hf hsrc, flagByte_decide]; rfl

/-- Settles O49: each source named while it is in force, each change of source, and the refusal. -/
theorem beatSourceIsSet : Obligations.BeatSourceIsSet := by
  intro s
  refine ⟨fun f h hf hsrc => ?_, fun f h hf hsrc => ?_, fun f h hf hsrc => ?_, fun f h hf hsrc => ?_,
    fun source f h hout => ?_⟩
  · exact exec_setBeatSource_of_in_force s (src := .external) h hf hsrc
  · exact exec_setBeatSource_of_in_force s (src := .manual) h hf hsrc
  · exact exec_setBeatSource_of_change s (src := .manual) h hf (by simp [hsrc])
  · exact exec_setBeatSource_of_change s (src := .external) h hf (by simp [hsrc])
  · rw [exec_setBeatSource_of_handed s h, s.setBeatSourceCmd_of_out_of_range hout]; rfl

end Sys2Proof.Machine
end

