-- ==== Sys2Proof/Proofs/Rows.lean ====
section
/-! PROOFS. What every row of the table comes to: the effect of a command's row and of an event's row, when each is taken,
and the one induction that every invariant of a step uses. -/

namespace Sys2Proof.Machine

/-- The effect of a row once it is taken, the transmitter's choice after it apart. The two resets and the end of a reset,
which no wrapper guards, leave this function's state as it is. -/
def rowEffect (c : Instr) (s : State) : State :=
  match c with
  | .receiveFrame bytes => s.receive bytes
  | .interByteTimeout => s.discardFrame
  | .transmitEnd => s.endSending
  | .identify => s.answer .ok identityBlock
  | .start => s.start
  | .standby => s.standby
  | .restart => s.answer .ok []
  | .setNotice levels => State.setNotice levels s
  | .setCounter counter ev mask => State.setCounter counter ev mask s
  | .readCounters => s.answer .ok (countersData s)
  | .clearCounters => s.clearCounters
  | .motionStopHigh => s.motionStopHigh
  | .motionStopLow => s.motionStopLow
  | .colourStopHigh => s.colourStopHigh
  | .colourResume => s.colourResume
  | .playbackStopLow list => s.resumeList list
  | .startReaim => s.startReaim
  | .startMotion => s.startMotion
  | .startLines => s.startAllLines
  | .standbyMotion => s.standbyMotion
  | .standbyColour => s.standbyColour
  | .standbyList list => State.standbyList list s
  | .standbyLines => s.standbyLines
  | .defineKind k => State.defineKind k s
  | .dropKind kind => State.dropKind kind s
  | .queryKind kind => State.queryKind kind s
  | .patch a => State.patch a s
  | .unpatch first count => State.beginUnpatch first count s
  | .unpatchFixture => s.unpatchNext
  | .setPose a => State.setPose a s
  | .setTrim f trims => State.setTrim f trims s
  | .setPassthrough f values => State.setPassthrough f values s
  | .setTruss t o => State.setTruss t o s
  | .copyRig a => State.copyRig a s
  | .recordCopy => s.copyNext
  | .queryFixture f => State.queryFixture f s
  | .setPoint p pos => State.setPointCmd p pos s
  | .bindTag p tag offset => State.bindTag p tag offset s
  | .unbindTag p => State.unbindTag p s
  | .track records => State.track records s
  | .trackPointMove => s.trackNext
  | .staleTimerExpiry p => State.staleExpiry p s
  | .setStaleLimit ms => State.setStaleLimit ms s
  | .queryPoint p => State.queryPoint p s
  | .setPriority source prio => State.setPriority source prio s
  | .directAim e => State.directAim e s
  | .directAimFixture => s.directAimNext
  | .directColour e => State.directColour e s
  | .directColourFixture => s.directColourNext
  | .releaseDirect a => State.releaseDirect a s
  | .releaseDirectFixture => s.releaseDirectNext
  | .bindFollow first count point => State.bindFollow first count point s
  | .bindFollowFixture => s.bindFollowNext
  | .unbindFollow first count => State.unbindFollow first count s
  | .unbindFollowFixture => s.unbindFollowNext
  | .queryClaims f => State.queryClaims f s
  | .flushCache => s.flushCache
  | .querySolver => s.answer .ok (solverData s)
  | .jobStart => s.startJob
  | .jobCompletion => s.completeJob
  | .motionStep f => State.motionStep f s
  | .halt first count => State.halt first count s
  | .haltFixture => s.haltNext
  | .queryMotion f => State.queryMotion f s
  | .fadeStep f => State.fadeStep f s
  | .queryColour f => State.queryColour f s
  | .storeCue mark a => State.storeCue mark a s
  | .storeCueFirst a => State.storeCueFirst a s
  | .storeCueMore a => State.storeCueMore a s
  | .storeCueLast a => State.storeCueLast a s
  | .deleteCue cue => State.deleteCue cue s
  | .storePalette a => State.storePalette a s
  | .paletteUpdate => s.updateNext
  | .deletePalette q => State.deletePalette q s
  | .pack => s.beginPack
  | .packStep => s.packNext
  | .abortPack => s.abortPack
  | .defineList a => State.defineList a s
  | .go n cue bar => State.go n cue bar s
  | .walkStep n => State.walkNext n s
  | .walkEnd n => State.walkLast n s
  | .launchReport r => State.reportTaken r s
  | .linkTimerExpiry n => s.linkExpiry n
  | .listBarStart n => s.takeBar n
  | .releaseList n => State.releaseList n s
  | .releaseListFixture => s.releaseListNext
  | .queryList n => State.queryList n s
  | .queryMemory => s.answer .ok (memoryData s.memory)
  | .beatRise => s.beatRise
  | .acceptedEdge => s.takeEdge
  | .flywheelExpiry => s.flywheelExpiry
  | .setBeatSource source filter => State.setBeatSourceCmd source filter s
  | .setTempo tempo => State.setTempo tempo s
  | .setBar beats => State.setBar beats s
  | .queryClock => s.answer .ok (clockData s)
  | .refreshExpiry l => State.refreshNext l s
  | .frameEnd l => s.frameEnd l
  | .setLine a => State.setLineCmd a s
  | .queryLine l first count => State.queryLine l first count s
  | .beatPulseFall => s.withBeat { s.beat with pulse := none }
  | .stopChange high => State.stopChange high s
  | .powerOn | .resetLow | .resetEnd => s

/-- Whether the event of a row that no frame carries can happen. -/
def rowEnabled (c : Instr) (s : State) : Bool :=
  match c with
  | .receiveFrame _ => true
  | .interByteTimeout => s.interByteOver
  | .transmitEnd => s.sentOver
  | .motionStopHigh => decide (s.stopToMotion.head? = some true)
  | .motionStopLow => decide (s.stopToMotion.head? = some false)
  | .colourStopHigh => decide (s.stopToColour.head? = some true)
  | .colourResume => decide (s.stopToColour.head? = some false) || s.startingColour
  | .playbackStopLow list => decide (0 < (s.cueList list).lowsDue)
  | .startReaim => s.starting.any fun w => w.1
  | .startMotion => s.starting.any fun w => w.2.1
  | .startLines => s.starting.any fun w => w.2.2.2
  | .standbyMotion => s.standingBy.any fun w => w.1
  | .standbyColour => s.standingBy.any fun w => w.2.1
  | .standbyList list => s.standingBy.any fun w => w.2.2.2.contains list
  | .standbyLines => s.standingBy.any fun w => w.2.2.1
  | .unpatchFixture => s.unpatching.isSome
  | .recordCopy => s.copying
  | .trackPointMove => s.tracking
  | .staleTimerExpiry p => s.staleDue p
  | .directAimFixture => s.directAiming
  | .directColourFixture => s.directColouring
  | .releaseDirectFixture => s.releasingDirect
  | .bindFollowFixture => s.bindingFollow
  | .unbindFollowFixture => s.unbindingFollow
  | .jobStart => s.jobReady
  | .jobCompletion => s.solver.solving.isSome
  | .motionStep f => s.motion.due.contains f
  | .haltFixture => s.halting
  | .fadeStep f => s.colour.due.contains f
  | .paletteUpdate => s.updating
  | .packStep => s.memory.packing
  | .walkStep n => s.walkStepReady n
  | .walkEnd n => s.walkEndReady n
  | .launchReport r => s.playback.reports.contains r
  | .linkTimerExpiry n => s.linkTimerDue n
  | .listBarStart n => decide (0 < (s.cueList n).barsDue)
  | .releaseListFixture => s.releasingList
  | .beatRise => decide (s.beat.source = .external)
  | .acceptedEdge => s.edgeDue
  | .flywheelExpiry => s.flywheelDue.isSome
  | .refreshExpiry l => (s.refreshDue l).isSome
  | .frameEnd l => s.frameOver l
  | .beatPulseFall => s.pulseTimed
  | .stopChange high => decide (high ≠ s.stop)
  | _ => false

/-- A change of STOP during a reset: only its level is taken (log entry 13). -/
def State.takeLevel (s : State) (high : Bool) : State :=
  ((s.withStop high).withMotion { s.motion with stopSeen := high }).withColour { s.colour with stopSeen := high }

/-- The rows that happen during a reset too. -/
def unguarded : Instr → Bool
  | .powerOn | .resetLow | .resetEnd | .stopChange _ => true
  | _ => false

variable (s : State)

/-- The row of a command that a frame carries is taken as a command. -/
theorem exec_of_carried {c : Instr} (h : (encodeCommand c).isSome = true) :
    exec c s = .next (s.takeCommand c (rowEffect c)) := by
  cases c <;> first | rfl | cases h

/-- Every other row is an event, but for the four that happen during a reset too. -/
theorem exec_of_event {c : Instr} (h : encodeCommand c = none) (hu : unguarded c = false) :
    exec c s = .next (s.event (rowEnabled c s) (rowEffect c)) := by
  cases c <;> first | rfl | (cases h; done) | cases hu

/-- The row of a command that is with its owner. -/
theorem exec_of_handed {c : Instr} (hc : (encodeCommand c).isSome = true) (h : s.handed c = true) :
    exec c s = .next (rowEffect c s).pump := by
  rw [exec_of_carried s hc, s.takeCommand_of_handed _ h]

/-- The row of an event that can happen outside a reset. -/
theorem exec_of_enabled {c : Instr} (hc : encodeCommand c = none) (hu : unguarded c = false) (hr : s.resetting = none)
    (he : rowEnabled c s = true) : exec c s = .next (rowEffect c s).pump := by
  rw [exec_of_event s hc hu, s.event_of_enabled _ hr he]

/-- STOP_CHANGE outside a reset is an event too. -/
theorem exec_stopChange_of_running (high : Bool) (hr : s.resetting = none) :
    exec (.stopChange high) s = .next (s.event (decide (high ≠ s.stop)) (State.stopChange high)) := by
  simp [exec, execStopChange, hr]

/-! ### What keeps a predicate through every step -/

/-- What a predicate of the state has to survive, so that every step keeps it: a command held, the transmitter's choice,
the resets, the passing of time, and the effect of each row. -/
structure KeptByRows (P : State → Prop) : Prop where
  pending : ∀ s q, P s → P (s.withPending q)
  hold : ∀ s c kind, s.link.held = none → P s → P (s.hold c kind)
  pump : ∀ s, P s → P s.pump
  reset : ∀ s cause, P s → P (s.beginReset cause)
  ends : ∀ s, P s → P s.endReset
  level : ∀ s high, P s → P (s.takeLevel high)
  tick : ∀ s, P s → P s.tick
  effect : ∀ c s, P s → P (rowEffect c s)

variable {P : State → Prop}

theorem KeptByRows.takeCommand (k : KeptByRows P) (c : Instr) (h : P s) : P (s.takeCommand c (rowEffect c)) := by
  unfold State.takeCommand
  split
  · split
    · exact k.pump _ (k.effect c s h)
    · exact h
  · next hheld =>
    split
    · split
      · exact k.pump _ (k.effect c _ (k.hold s c _ hheld h))
      · exact h
    · exact h

theorem KeptByRows.event (k : KeptByRows P) (en : Bool) (c : Instr) (h : P s) : P (s.event en (rowEffect c)) := by
  rcases s.event_cases en (rowEffect c) with he | ⟨_, _, he⟩ <;> rw [he]
  · exact h
  · exact k.pump _ (k.effect c s h)

theorem KeptByRows.exec (k : KeptByRows P) (c : Instr) {t : State} (h : P s) (ht : exec c s = .next t) : P t := by
  by_cases hc : (encodeCommand c).isSome = true
  · rw [exec_of_carried s hc] at ht
    cases ht; exact k.takeCommand s c h
  rw [Option.not_isSome_iff_eq_none] at hc
  by_cases hu : unguarded c = false
  · rw [exec_of_event s hc hu] at ht
    cases ht; exact k.event s _ c h
  · cases c <;> first | exact absurd rfl hu | skip
    case powerOn => cases ht; exact k.reset s _ h
    case resetLow => cases ht; exact k.reset s _ h
    case resetEnd =>
      cases ht
      split
      · exact k.pump _ (k.ends s h)
      · exact h
    case stopChange high =>
      cases ht
      split
      · exact k.level s high h
      · exact k.event s _ (.stopChange high) h

/-- A predicate that survives each of these is kept by every step. -/
theorem KeptByRows.step (k : KeptByRows P) {t : State} (h : P s) (ht : step s = .next t) : P t := by
  unfold Machine.step State.idle at ht
  split at ht
  · exact k.exec _ _ (k.pending s _ h) ht
  · split at ht
    · exact k.exec s _ h ht
    · cases ht; exact k.tick s h

end Sys2Proof.Machine
end

