-- ==== Sys2Proof/Proofs/RowCore.lean ====
section
/-! PROOFS. Everything that a row can do outside the Host Link: one inversion lemma, from which every invariant of the other
blocks is derived. -/

namespace Sys2Proof.Machine

/-- Every destination still to be copied lies in the table (R16). -/
def Work.copiesOk (w : Work) : Prop := ∀ todo d sd n, w = .copyRig todo d sd n → ∀ pr ∈ todo, pr.2 ≤ 255

/-- `t` is `s` but for the Host Link, where no record copy that R16 forbids becomes work to be done. -/
structure State.SameOutside (s t : State) : Prop where
  frame : t = s.withLink t.link
  copies : s.copyOk → t.copyOk

variable (s : State)

/-! ### The work of the held command -/

theorem State.copyOk_of_work {s t : State} (h : t.work = s.work ∨ t.work = none) (hs : s.copyOk) : t.copyOk := by
  intro todo d sd n hw
  rcases h with h | h
  · exact hs todo d sd n (h ▸ hw)
  · rw [h] at hw; cases hw

theorem State.work_of_held {s t : State} (h : t.link.held = s.link.held) : t.work = s.work := by
  unfold State.work; rw [h]

theorem State.work_answer (st : Status) (data : List Byte) : (s.answer st data).work = none := by
  unfold State.answer State.work
  cases h : s.link.held <;> simp [State.withLink, h]

theorem State.work_pump : s.pump.work = s.work ∨ s.pump.work = none := by
  unfold State.pump
  split
  · exact .inl rfl
  split
  · exact .inl rfl
  split
  · right
    cases h : s.link.held <;> simp [State.work, State.sendReply, State.beginSend, State.withLink, Link.setPhase, h]
  · split
    · exact .inl (State.work_of_held rfl)
    · exact .inl rfl

theorem State.work_setWork (w : Work) : (s.setWork w).work = some w ∨ (s.setWork w).work = none := by
  unfold State.setWork State.work
  cases h : s.link.held <;> simp [State.withLink, Link.setPhase, h]

theorem State.work_check (f : LinkFrame) : (s.check f).work = none := by
  unfold State.check State.refuse
  split
  · exact s.work_answer _ _
  · exact s.work_answer _ _
  · unfold State.work
    cases h : s.link.held <;> simp [State.withLink, Link.setPhase, h]

theorem State.work_dispatch : s.dispatch.work = s.work ∨ s.dispatch.work = none := by
  unfold State.dispatch
  split
  · split
    · exact .inl rfl
    · exact .inr (State.work_check ..)
  · exact .inl rfl

/-! ### Changes of the link alone -/

theorem State.SameOutside.refl : s.SameOutside s := ⟨rfl, id⟩

theorem State.SameOutside.trans {s t u : State} (h : s.SameOutside t) (h' : t.SameOutside u) : s.SameOutside u := by
  obtain ⟨hf, hc⟩ := h
  obtain ⟨hf', hc'⟩ := h'
  exact ⟨by rw [hf', hf]; rfl, fun hs => hc' (hc hs)⟩

theorem State.sameOutside_withLink (l : Link) (h : l.held = s.link.held) :
    s.SameOutside (s.withLink l) :=
  ⟨rfl, State.copyOk_of_work (.inl (State.work_of_held h))⟩

theorem State.sameOutside_free (l : Link) (h : l.held = none) : s.SameOutside (s.withLink l) :=
  ⟨rfl, State.copyOk_of_work (.inr (by simp [State.work, State.withLink, h]))⟩

theorem State.sameOutside_pump : s.SameOutside s.pump := ⟨s.pump_frame, State.copyOk_of_work s.work_pump⟩

theorem State.sameOutside_answer (st : Status) (data : List Byte) : s.SameOutside (s.answer st data) :=
  ⟨s.answer_frame st data, State.copyOk_of_work (.inr (s.work_answer st data))⟩

theorem State.sameOutside_dispatch : s.SameOutside s.dispatch := ⟨s.dispatch_frame, State.copyOk_of_work s.work_dispatch⟩

theorem State.sameOutside_frameArrives (f : LinkFrame) : s.SameOutside (s.frameArrives f) := by
  unfold State.frameArrives
  split
  · exact .trans (s.sameOutside_withLink _ (by rfl)) (State.sameOutside_dispatch _)
  · exact s.sameOutside_withLink _ (by rfl)

theorem State.sameOutside_hunt (b : RxByte) : s.SameOutside (s.hunt b) := by
  unfold State.hunt
  split
  · exact s.sameOutside_withLink _ (by rfl)
  · exact .refl s

theorem State.sameOutside_discardFrame : s.SameOutside s.discardFrame := s.sameOutside_withLink _ (by rfl)

theorem State.sameOutside_receiveByte (b : RxByte) : s.SameOutside (s.receiveByte b) := by
  unfold State.receiveByte
  split
  · exact s.sameOutside_hunt b
  · split
    · exact .trans s.sameOutside_discardFrame (State.sameOutside_hunt _ b)
    · unfold State.frameByte
      split
      · exact s.sameOutside_discardFrame
      split
      · exact s.sameOutside_discardFrame
      split
      · exact .trans (s.sameOutside_withLink _ (by rfl)) (State.sameOutside_frameArrives ..)
      · exact s.sameOutside_withLink _ (by rfl)

theorem State.sameOutside_receive (bs : List RxByte) : s.SameOutside (s.receive bs) := by
  induction bs generalizing s with
  | nil => exact .refl s
  | cons b bs ih => exact .trans (s.sameOutside_receiveByte b) (ih _)

theorem State.sameOutside_setWork (w : Work) (hw : w.copiesOk) : s.SameOutside (s.setWork w) := by
  refine ⟨s.setWork_frame w, fun hs => ?_⟩
  rcases s.work_setWork w with h | h
  · intro todo d sd n hw'
    exact hw todo d sd n (Option.some.inj (h.symm.trans hw'))
  · exact State.copyOk_of_work (.inr h) hs

/-- Work that copies no record (1.6). -/
def Work.isCopy : Work → Bool
  | .copyRig .. => true
  | _ => false

theorem Work.copiesOk_of_other {w : Work} (h : w.isCopy = false) : w.copiesOk := by
  rintro _ _ _ _ rfl
  cases h

theorem State.sameOutside_worksOn {w : Work} (hw : w.isCopy = false) : s.SameOutside (s.setWork w) :=
  s.sameOutside_setWork w (Work.copiesOk_of_other hw)

theorem State.sameOutside_finish (st : Status) (data : List Byte) : s.SameOutside (s.finish st data) :=
  .trans s.sameOutside_pump (State.sameOutside_answer _ st data)

/-- A command of several events goes on with its work or is answered; either way nothing outside the link changes. -/
theorem State.sameOutside_goOn (p : Prop) [Decidable p] (st : Status) (data : List Byte) (w : Work)
    (hw : w.copiesOk) : s.SameOutside (if p then s.finish st data else s.setWork w) := by
  split
  · exact s.sameOutside_finish st data
  · exact s.sameOutside_setWork w hw

theorem State.sameOutside_goesOn (p : Prop) [Decidable p] (st : Status) (data : List Byte) {w : Work}
    (hw : w.isCopy = false) : s.SameOutside (if p then s.finish st data else s.setWork w) :=
  s.sameOutside_goOn p st data w (Work.copiesOk_of_other hw)

theorem State.sameOutside_finishStart (r m c l : Bool) : s.SameOutside (s.finishStart r m c l) := by
  unfold State.finishStart
  split
  · exact s.sameOutside_worksOn rfl
  · exact s.sameOutside_finish ..

theorem State.sameOutside_finishStandby (m c l : Bool) (ls : List Nat) :
    s.SameOutside (s.finishStandby m c l ls) := by
  unfold State.finishStandby
  split
  · exact s.sameOutside_worksOn rfl
  · exact s.sameOutside_finish ..

/-- What a row can do outside the Host Link, one constructor for each effect, with the checks that the row has made. -/
inductive RowCore (s : State) : State → Prop where
  | nothing : RowCore s s
  | reset (cause : ResetCause) : RowCore s (s.beginReset cause)
  | part (p : PartState) : RowCore s (s.withPart p)
  | stopChange (high : Bool) : RowCore s (State.stopChange high s)
  | motionStopHigh : RowCore s s.motionStopHigh
  | motionStopLow : RowCore s s.motionStopLow
  | colourStopHigh : RowCore s s.colourStopHigh
  | colourSees (high : Bool) : RowCore s (s.colourSees high)
  | colourStopLow : RowCore s (s.colourSees false).resumeColours
  | resumeColours : RowCore s s.resumeColours
  | resumeList (n : Nat) : RowCore s (s.resumeList n)
  | rigReaims (fs : List Nat) : RowCore s (s.rigReaims fs)
  | syncStepTimer : RowCore s s.syncStepTimer
  | startMotion : RowCore s (s.onMotions (fun k m => m.startLive k) s.patchedFixtures).syncStepTimer
  | startLines : RowCore s (s.startLines (List.range 8))
  | standbyMotion : RowCore s (s.onMotions (fun _ m => m.standby) s.patchedFixtures).syncStepTimer
  | standbyColour : RowCore s (s.stopFadeTimer.onColours (fun _ _ _ c => c.standby) s.patchedFixtures)
  | setCueList (n : Nat) (l : CueList) : RowCore s (s.setCueList n l)
  | standbyLines :
    RowCore s ((s.idleLines (List.range 8)).withLines { (s.idleLines (List.range 8)).lines with sync := false })
  | defineKind (k : RawKind) (hk : k.ok = true) (hu : s.kindInUse k.kind = false) :
    RowCore s (s.setKind k.kind (some k.profile))
  | dropKind (k : Nat) (hu : s.kindInUse k = false) : RowCore s (s.setKind k none)
  | carryPatch (a : PatchArgs) (m : Mounting) (k : Profile) (ha : a.rangesOk = true) (hk : s.kind a.kind = some k)
    (hf : a.fitsKind k = true) : RowCore s (s.carryPatch a m k)
  | unpatchOne (f : Nat) : RowCore s (s.unpatchOne f)
  | setPose (a : PoseArgs) (m : Mounting) (p : Patch) (k : Profile) (hp : s.patchOf a.fixture = some p)
    (hk : s.profileOf a.fixture = some k) (hh : k.homeOk a.homePan a.homeTilt = true) :
    RowCore s ((s.setFixture a.fixture { s.fixture a.fixture with patch := some (PoseOf a m p) }).poseChange a.fixture)
  | setTrim (f : Nat) (p : Patch) (trims : List Nat) (hp : s.patchOf f = some p) :
    RowCore s (s.setFixture f { s.fixture f with patch := some { p with trims := trims } })
  | setPassthrough (f : Nat) (p : Patch) (k : Profile) (values : List Nat) (hp : s.patchOf f = some p) :
    RowCore s ((s.setFixture f { s.fixture f with patch := some { p with pass := values } }).writeSlots p.line p.base
      (k.pass.zip values))
  | moveTruss (t : Nat) (o : Pos) : RowCore s (s.moveTruss t o)
  | copyRecord (src dst : Nat) (prs : List (Nat × Nat)) (d : Pos) (sd : Int) (n : Nat)
    (hw : s.work = some (.copyRig ((src, dst) :: prs) d sd n)) : RowCore s (s.copyRecord src dst d sd)
  | movePoint (p : Nat) (pos : Pos) : RowCore s (s.movePoint p pos).1
  | setPoint (p : Nat) (r : Point) : RowCore s (s.setPoint p r)
  | staleLimit (n : Nat) : RowCore s (s.withPoints { s.points with staleLimit := n })
  | priority (l : List Nat) : RowCore s (s.withClaims { s.claims with prio := l })
  | claimAim (f src : Nat) (c : AimClaim) : RowCore s (s.claimAim f src c).1
  | claimColour (f src : Nat) (c : ColourClaim) : RowCore s (s.claimColour f src c).1
  | releaseAim (f src ms : Nat) : RowCore s (s.releaseAim f src ms).1
  | releaseBoth (f src : Nat) (aim colour : Bool) (ms : Nat) : RowCore s (s.releaseBoth f src aim colour ms).1
  | flushCache : RowCore s ((s.invalidate fun _ => true).setPointer 0)
  | startJob : RowCore s s.startJob
  | completeJob : RowCore s s.completeJob
  | motionStep (f : Nat) : RowCore s (State.motionStep f s)
  | halt (f : Nat) : RowCore s ((s.onMotion f fun _ m => m.halt).syncStepTimer)
  | fadeStep (f : Nat) : RowCore s (State.fadeStep f s)
  | storeCue (cue start : Nat) (replaced : Bool) (link : LinkKind) (linkMs : Nat) (es : List RawEntry) (g : Option Staging)
    (hj : s.memory.judgeCue cue (es.length + 1) = .stored start replaced) :
    RowCore s (s.withMemory { s.memory.storeCue start cue link linkMs es with staging := g })
  | stage (g : Option Staging) : RowCore s (s.withMemory { s.memory with staging := g })
  | deleteCue (cue : Nat) : RowCore s (s.withMemory (s.memory.deleteCue cue))
  | storePalette (a : PaletteArgs) (start : Nat) (replaced : Bool) (ha : paletteOk a = true)
    (hj : s.memory.judgePalette a.palette (a.overrides.length + 1) = .stored start replaced) :
    RowCore s (s.withMemory
      (s.memory.storePalette start a.palette a.hue a.sat a.fade (a.overrides.map RawOverride.stored)))
  | updatePalette (f q ms : Nat) : RowCore s (s.updatePalette f q ms)
  | deletePalette (q : Nat) : RowCore s ((s.withMemory (s.memory.deletePalette q)).clearOrigins q (List.range 256))
  | pack (p : PackState) : RowCore s (s.withMemory { s.memory with pack := p })
  | packStep : RowCore s (s.withMemory s.memory.packStep)
  | launch (n : Nat) (want : Option Nat) (cause : LaunchCause) : RowCore s (s.launch n want cause)
  | walkClaim (n : Nat) (r : Launch) (pos : Nat) (w : WalkItem) : RowCore s (s.walkClaim n r pos w)
  | walkEnd (n : Nat) (r : Launch) : RowCore s (s.walkEnd n r)
  | report (r : Report) : RowCore s (State.reportTaken r s)
  | linkExpiry (n : Nat) : RowCore s (s.linkExpiry n)
  | takeBar (n : Nat) : RowCore s (s.takeBar n)
  | pulse (p : Option Pulse) : RowCore s (s.withBeat { s.beat with pulse := p })
  | takeEdge : RowCore s s.takeEdge
  | flywheelBeat (t : Nat) : RowCore s (s.flywheelBeat t)
  | setBeatSource (src : BeatSource) (filter : Bool) : RowCore s (s.setBeatSource src filter)
  | setTempo (tempo : Nat) : RowCore s (s.withBeat (s.beat.setTempo tempo))
  | setBar (beats : Nat) (hb : ¬(beats < 1 ∨ 16 < beats)) :
    RowCore s (s.withBeat { s.beat with beatsPerBar := beats, beatsToBar := 1 })
  | refreshExpiry (l t : Nat) : RowCore s (s.refreshExpiry l t)
  | frameEnd (l : Nat) : RowCore s (s.frameEnd l)
  | setLine (l : Nat) (g : LineSettings) (on : Bool) :
    RowCore s ((s.setLine l { s.line l with waiting := some g }).setSync l on)

/-- The row's effect is one of these, but for the link, where no record copy that R16 forbids becomes work to be done. -/
def HasCore (s t : State) : Prop :=
  ∃ u, RowCore s u ∧ t = u.withLink t.link ∧ (s.copyOk → u.copyOk → t.copyOk)

theorem RowCore.then {s u t : State} (h : RowCore s u) (ho : u.SameOutside t) : HasCore s t :=
  ⟨u, h, ho.frame, fun _ => ho.copies⟩

theorem HasCore.unchanged {s t : State} (h : s.SameOutside t) : HasCore s t := RowCore.nothing.then h

theorem HasCore.answer (st : Status) (data : List Byte) : HasCore s (s.answer st data) :=
  .unchanged (s.sameOutside_answer st data)

theorem HasCore.refuse (st : Status) : HasCore s (s.refuse st) := .answer s st []

theorem RowCore.answered {s u : State} (h : RowCore s u) (st : Status) (data : List Byte) : HasCore s (u.answer st data) :=
  h.then (u.sameOutside_answer st data)

theorem RowCore.self {s u : State} (h : RowCore s u) : HasCore s u := h.then (.refl u)

/-! ### Row by row -/

theorem endSending_core : HasCore s s.endSending := by
  unfold State.endSending State.transmitted
  split
  · split
    · exact .unchanged (.trans (s.sameOutside_withLink _ (by rfl)) (State.sameOutside_dispatch _))
    · split
      · exact (RowCore.reset _).self
      · exact .unchanged (.trans (s.sameOutside_free _ (by rfl)) (State.sameOutside_dispatch _))
    · exact .unchanged (s.sameOutside_withLink _ (by rfl))
  · exact .unchanged (.refl s)

theorem start_core : HasCore s s.start := by
  unfold State.start; split
  · exact .answer ..
  · exact (RowCore.part .live).then (State.sameOutside_worksOn _ rfl)

theorem standby_core : HasCore s s.standby := by
  unfold State.standby; split
  · exact .answer ..
  · exact (RowCore.part .standby).then (State.sameOutside_worksOn _ rfl)

theorem setNotice_core (levels : List Nat) : HasCore s (State.setNotice levels s) := by
  unfold State.setNotice; split
  · exact .refuse ..
  · exact .unchanged (.trans (s.sameOutside_withLink _ (by rfl)) (State.sameOutside_answer ..))

theorem setCounter_core (n e mask : Nat) : HasCore s (State.setCounter n e mask s) := by
  unfold State.setCounter; split
  · split
    · exact .unchanged (.trans (s.sameOutside_withLink _ (by rfl)) (State.sameOutside_answer ..))
    · exact .refuse ..
  · exact .refuse ..

theorem colourResume_core : HasCore s s.colourResume := by
  unfold State.colourResume; split
  · dsimp only
    split
    · exact RowCore.colourStopLow.self
    · exact (RowCore.colourSees false).self
  · split
    · split
      · exact .unchanged (State.sameOutside_finishStart ..)
      · exact RowCore.resumeColours.then (State.sameOutside_finishStart ..)
    · exact .unchanged (.refl s)

theorem startReaim_core : HasCore s s.startReaim := by
  unfold State.startReaim; split
  · exact (RowCore.rigReaims _).then (State.sameOutside_finishStart ..)
  · exact .unchanged (.refl s)

theorem startMotion_core : HasCore s s.startMotion := by
  unfold State.startMotion; split
  · dsimp only
    split
    · exact RowCore.syncStepTimer.then (State.sameOutside_finishStart ..)
    · exact RowCore.startMotion.then (State.sameOutside_finishStart ..)
  · exact .unchanged (.refl s)

theorem startAllLines_core : HasCore s s.startAllLines := by
  unfold State.startAllLines; split
  · exact RowCore.startLines.then (State.sameOutside_finishStart ..)
  · exact .unchanged (.refl s)

theorem standbyMotion_core : HasCore s s.standbyMotion := by
  unfold State.standbyMotion; split
  · exact RowCore.standbyMotion.then (State.sameOutside_finishStandby ..)
  · exact .unchanged (.refl s)

theorem standbyColour_core : HasCore s s.standbyColour := by
  unfold State.standbyColour; split
  · exact RowCore.standbyColour.then (State.sameOutside_finishStandby ..)
  · exact .unchanged (.refl s)

theorem standbyList_core (n : Nat) : HasCore s (State.standbyList n s) := by
  unfold State.standbyList; split
  · exact (RowCore.setCueList n _).then (State.sameOutside_finishStandby ..)
  · exact .unchanged (.refl s)

theorem standbyLines_core : HasCore s s.standbyLines := by
  unfold State.standbyLines; split
  · exact RowCore.standbyLines.then (State.sameOutside_finishStandby ..)
  · exact .unchanged (.refl s)

theorem defineKind_core (k : RawKind) : HasCore s (State.defineKind k s) := by
  unfold State.defineKind; split
  · exact .refuse ..
  · next hk =>
    split
    · exact .refuse ..
    · next hu => exact (RowCore.defineKind k (by simpa using hk) (by simpa using hu)).answered ..

theorem dropKind_core (k : Nat) : HasCore s (State.dropKind k s) := by
  unfold State.dropKind; split
  · exact .refuse ..
  split
  · exact .refuse ..
  split
  · exact .refuse ..
  · next hu => exact (RowCore.dropKind k (by simpa using hu)).answered ..

theorem queryKind_core (k : Nat) : HasCore s (State.queryKind k s) := by
  unfold State.queryKind; split
  · exact .refuse ..
  · split
    · exact .answer ..
    · exact .refuse ..

theorem patch_core (a : PatchArgs) : HasCore s (State.patch a s) := by
  unfold State.patch; split
  · exact .refuse ..
  next ha =>
  split
  · exact .refuse ..
  · next k m hk _ =>
    split
    · exact .refuse ..
    next hf =>
    unfold State.patchWith; split
    · exact .refuse ..
    split
    · exact .refuse ..
    · exact (RowCore.carryPatch a m k (by simpa using ha) hk (by simpa using hf)).answered ..
  · exact .refuse ..

theorem unpatchNext_core : HasCore s s.unpatchNext := by
  unfold State.unpatchNext; split
  · exact (RowCore.unpatchOne _).then (State.sameOutside_goesOn _ _ _ _ rfl)
  · exact .unchanged (.refl s)

theorem setPose_core (a : PoseArgs) : HasCore s (State.setPose a s) := by
  unfold State.setPose; split
  · split
    · next p k hp hk =>
      split
      · exact .refuse ..
      · next hh => exact (RowCore.setPose a _ p k hp hk (by simpa using hh)).answered ..
    · exact .refuse ..
  · exact .refuse ..

theorem setTrim_core (f : Nat) (trims : List Nat) : HasCore s (State.setTrim f trims s) := by
  unfold State.setTrim; split
  · exact .refuse ..
  split
  · next p _ hp _ =>
    split
    · exact .refuse ..
    · exact (RowCore.setTrim f p _ hp).answered ..
  · exact .refuse ..

theorem setPassthrough_core (f : Nat) (values : List Nat) : HasCore s (State.setPassthrough f values s) := by
  unfold State.setPassthrough; split
  · exact .refuse ..
  split
  · next p k hp _ =>
    split
    · exact .refuse ..
    · exact (RowCore.setPassthrough f p k values hp).answered ..
  · exact .refuse ..

theorem setTruss_core (t : Nat) (o : Pos) : HasCore s (State.setTruss t o s) := by
  unfold State.setTruss; split
  · exact .refuse ..
  · exact (RowCore.moveTruss t o).answered ..

theorem mem_order {a : CopyArgs} {pr : Nat × Nat} (h : pr ∈ a.order) : pr ∈ a.pairs := by
  unfold CopyArgs.order at h
  split at h
  · exact List.mem_reverse.1 h
  · exact h

/-- The destinations of a COPY_RIG that passes its first check lie in the table (R16). -/
theorem copiesOk_of_pairsOk {a : CopyArgs} (h : a.pairs.all (s.pairOk a) = true) (d : Pos) (sd : Int) (n : Nat) :
    (Work.copyRig a.order d sd n).copiesOk := by
  rintro _ _ _ _ ⟨⟩ pr hpr
  have hok := List.all_eq_true.1 h pr (mem_order hpr)
  unfold State.pairOk at hok
  simp only [Bool.and_eq_true, decide_eq_true_eq] at hok
  exact hok.1

/-- A record copy, and the copies that COPY_RIG then goes on to: a part of those it had before. -/
theorem copyNext_core : HasCore s s.copyNext := by
  unfold State.copyNext; split
  · next _ pr prs d sd n hw =>
    obtain ⟨src, dst⟩ := pr
    have hmore : s.copyOk → (Work.copyRig prs d sd (n + 1)).copiesOk := by
      rintro hs _ _ _ _ ⟨⟩ pr hpr
      exact hs _ _ _ _ hw pr (List.mem_cons_of_mem _ hpr)
    refine ⟨_, .copyRecord src dst prs d sd n hw, ?_, fun hs => (State.sameOutside_goOn _ _ _ _ _ (hmore hs)).copies⟩
    unfold State.goCopy
    split
    · exact State.finish_frame ..
    · exact State.setWork_frame ..
  · exact .unchanged (.refl s)

theorem copyRig_core (a : CopyArgs) : HasCore s (State.copyRig a s) := by
  unfold State.copyRig; split
  · exact .refuse ..
  next hok =>
  split
  · exact .refuse ..
  split
  · exact .refuse ..
  · exact .unchanged (State.sameOutside_goOn _ _ _ _ _ (copiesOk_of_pairsOk s (by simpa using (not_or.1 hok).2) _ _ _))

theorem setPointCmd_core (p : Nat) (pos : Pos) : HasCore s (State.setPointCmd p pos s) := by
  unfold State.setPointCmd; split
  · exact .refuse ..
  split
  · exact .refuse ..
  · exact (RowCore.movePoint p pos).answered ..

theorem bindTag_core (p tag : Nat) (o : Pos) : HasCore s (State.bindTag p tag o s) := by
  unfold State.bindTag; split
  · exact .refuse ..
  · exact (RowCore.setPoint p _).answered ..

theorem unbindTag_core (p : Nat) : HasCore s (State.unbindTag p s) := by
  unfold State.unbindTag; split
  · exact .refuse ..
  split
  · exact (RowCore.setPoint p _).answered ..
  · exact .answer ..

/-- The records of TRACK raise TRACK_SKIPPED and change nothing else (R26). -/
theorem State.sameOutside_takeRecords (rs : List TrackRec) : s.SameOutside (s.takeRecords rs).1 := by
  induction rs generalizing s with
  | nil => exact .refl s
  | cons r rs ih =>
    unfold State.takeRecords
    split
    · exact ih s
    · exact .trans (s.sameOutside_withLink _ (by rfl)) (ih _)
    · exact ih s

theorem track_core (rs : List TrackRec) : HasCore s (State.track rs s) := by
  unfold State.track; split
  · exact .refuse ..
  · exact .unchanged (.trans (s.sameOutside_takeRecords rs) (State.sameOutside_goesOn _ _ _ _ rfl))

theorem trackNext_core : HasCore s s.trackNext := by
  unfold State.trackNext; split
  · exact (RowCore.movePoint _ _).then (State.sameOutside_goesOn _ _ _ _ rfl)
  · exact .unchanged (.refl s)

theorem setPriority_core (source prio : Nat) : HasCore s (State.setPriority source prio s) := by
  unfold State.setPriority; split
  · exact .refuse ..
  · exact (RowCore.priority _).answered ..

theorem directAim_core (e : RawEntry) : HasCore s (State.directAim e s) := by
  unfold State.directAim; split
  · exact .unchanged (State.sameOutside_goesOn _ _ _ _ rfl)
  · exact .refuse ..

theorem directAimNext_core : HasCore s s.directAimNext := by
  unfold State.directAimNext; split
  · exact (RowCore.claimAim _ _ _).then (State.sameOutside_goesOn _ _ _ _ rfl)
  · exact .unchanged (.refl s)

theorem directColour_core (e : RawEntry) : HasCore s (State.directColour e s) := by
  unfold State.directColour; split
  · exact .unchanged (State.sameOutside_goesOn _ _ _ _ rfl)
  · exact .refuse ..

theorem directColourNext_core : HasCore s s.directColourNext := by
  unfold State.directColourNext; split
  · exact (RowCore.claimColour _ _ _).then (State.sameOutside_goesOn _ _ _ _ rfl)
  · exact .unchanged (.refl s)

theorem releaseDirect_core (a : ReleaseArgs) : HasCore s (State.releaseDirect a s) := by
  unfold State.releaseDirect; split
  · exact .refuse ..
  · exact .unchanged (State.sameOutside_goesOn _ _ _ _ rfl)

theorem releaseDirectNext_core : HasCore s s.releaseDirectNext := by
  unfold State.releaseDirectNext; split
  · exact (RowCore.releaseBoth _ _ _ _ _).then (State.sameOutside_goesOn _ _ _ _ rfl)
  · exact .unchanged (.refl s)

theorem bindFollow_core (first count p : Nat) : HasCore s (State.bindFollow first count p s) := by
  unfold State.bindFollow; split
  · exact .refuse ..
  · exact .unchanged (State.sameOutside_goesOn _ _ _ _ rfl)

theorem bindFollowNext_core : HasCore s s.bindFollowNext := by
  unfold State.bindFollowNext; split
  · exact (RowCore.claimAim _ _ _).then (State.sameOutside_goesOn _ _ _ _ rfl)
  · exact .unchanged (.refl s)

theorem unbindFollow_core (first count : Nat) : HasCore s (State.unbindFollow first count s) := by
  unfold State.unbindFollow; split
  · exact .unchanged (State.sameOutside_goesOn _ _ _ _ rfl)
  · exact .refuse ..

theorem unbindFollowNext_core : HasCore s s.unbindFollowNext := by
  unfold State.unbindFollowNext; split
  · exact (RowCore.releaseAim _ _ _).then (State.sameOutside_goesOn _ _ _ _ rfl)
  · exact .unchanged (.refl s)

theorem flushCache_core : HasCore s s.flushCache := by
  unfold State.flushCache; exact RowCore.flushCache.answered ..

theorem halt_core (first count : Nat) : HasCore s (State.halt first count s) := by
  unfold State.halt; split
  · exact .unchanged (State.sameOutside_goesOn _ _ _ _ rfl)
  · exact .refuse ..

theorem haltNext_core : HasCore s s.haltNext := by
  unfold State.haltNext; split
  · exact (RowCore.halt _).then (State.sameOutside_goesOn _ _ _ _ rfl)
  · exact .unchanged (.refl s)

/-- A query changes nothing outside the link: its answer, whatever its checks find. -/
theorem HasCore.ite (p : Prop) [Decidable p] {t u : State} (ht : HasCore s t) (hu : HasCore s u) :
    HasCore s (if p then t else u) := by split <;> assumption

theorem queryMotion_core (f : Nat) : HasCore s (State.queryMotion f s) := by
  unfold State.queryMotion; split
  · exact .refuse ..
  split
  · exact .answer ..
  · exact .refuse ..

theorem queryColour_core (f : Nat) : HasCore s (State.queryColour f s) := by
  unfold State.queryColour; split
  · exact .refuse ..
  split
  · exact .answer ..
  · exact .refuse ..

theorem storeCueRun_core (cue : Nat) (link : LinkKind) (ms : Nat) (es : List RawEntry) (clear : Bool) :
    HasCore s (s.storeCueRun cue link ms es clear) := by
  unfold State.storeCueRun; split
  · next start replaced hj =>
    cases clear
    · exact (RowCore.storeCue cue start replaced link ms es (s.memory.storeCue start cue link ms es).staging hj).answered ..
    · exact (RowCore.storeCue cue start replaced link ms es none hj).answered ..
  · exact .refuse ..
  · exact .refuse ..

theorem storeCue_core (mark : Nat) (a : CueArgs) : HasCore s (State.storeCue mark a s) := by
  unfold State.storeCue; split
  · exact .ite s _ (.refuse ..) (.ite s _ (.refuse ..) (storeCueRun_core ..))
  · exact .refuse ..

theorem storeCueFirst_core (a : CueArgs) : HasCore s (State.storeCueFirst a s) := by
  unfold State.storeCueFirst; split
  · exact .ite s _ ((RowCore.stage _).answered ..) (.refuse ..)
  · exact .refuse ..

theorem storeCueMore_core (a : CueArgs) : HasCore s (State.storeCueMore a s) := by
  unfold State.storeCueMore; split
  · exact (RowCore.stage _).answered ..
  · exact .refuse ..

theorem storeCueLast_core (a : CueArgs) : HasCore s (State.storeCueLast a s) := by
  unfold State.storeCueLast; split
  · exact .ite s _ (.refuse ..) (storeCueRun_core ..)
  · exact .refuse ..

theorem deleteCue_core (cue : Nat) : HasCore s (State.deleteCue cue s) := by
  unfold State.deleteCue; split
  · exact .refuse ..
  split
  · exact .refuse ..
  · exact .ite s _ (.refuse ..) ((RowCore.deleteCue cue).answered ..)

theorem storePalette_core (a : PaletteArgs) : HasCore s (State.storePalette a s) := by
  unfold State.storePalette; split
  · exact .refuse ..
  next ha =>
  split
  · exact .refuse ..
  split
  · next start replaced hj =>
    exact (RowCore.storePalette a start replaced (by simpa using ha) hj).then (State.sameOutside_goesOn _ _ _ _ rfl)
  · exact .refuse ..
  · exact .refuse ..

theorem updateNext_core : HasCore s s.updateNext := by
  unfold State.updateNext; split
  · exact (RowCore.updatePalette _ _ _).then (State.sameOutside_goesOn _ _ _ _ rfl)
  · exact .unchanged (.refl s)

theorem deletePalette_core (q : Nat) : HasCore s (State.deletePalette q s) := by
  unfold State.deletePalette
  exact .ite s _ (.refuse ..) (.ite s _ (.refuse ..) (.ite s _ (.refuse ..) ((RowCore.deletePalette q).answered ..)))

theorem beginPack_core : HasCore s s.beginPack := by
  unfold State.beginPack; split
  · exact .refuse ..
  · dsimp only
    split
    · exact (RowCore.pack _).then (.trans (State.sameOutside_withLink _ _ (by rfl)) (State.sameOutside_answer ..))
    · exact (RowCore.pack _).answered ..

theorem packNext_core : HasCore s s.packNext := by
  unfold State.packNext
  dsimp only
  split
  · exact RowCore.packStep.self
  · exact RowCore.packStep.then (State.sameOutside_withLink _ _ (by rfl))

theorem abortPack_core : HasCore s s.abortPack := by
  unfold State.abortPack; split
  · exact (RowCore.pack _).then (.trans (State.sameOutside_withLink _ _ (by rfl)) (State.sameOutside_answer ..))
  · exact .refuse ..

theorem defineList_core (a : ListArgs) : HasCore s (State.defineList a s) := by
  unfold State.defineList
  exact .ite s _ (.refuse ..) (.ite s _ (.refuse ..) ((RowCore.setCueList _ _).answered ..))

theorem takeGo_core (n : Nat) (want : Option Nat) (bar : Bool) : HasCore s (s.takeGo n want bar) := by
  have hstart : HasCore s (if bar then s.goArm n want else s.goLaunch n want) :=
    .ite s _ ((RowCore.setCueList _ _).answered ..) ((RowCore.launch n want .host).answered ..)
  unfold State.takeGo
  cases (s.cueList n).mode with
  | launching => exact (RowCore.setCueList _ _).answered ..
  | released | running | settled | armed => exact hstart

theorem go_core (n cue bar : Nat) : HasCore s (State.go n cue bar s) := by
  unfold State.go
  exact .ite s _ (.refuse ..) (.ite s _ (.refuse ..) (.ite s _ (.refuse ..) (.ite s _ (.refuse ..)
    (.ite s _ (.refuse ..) (takeGo_core ..)))))

theorem walkNext_core (n : Nat) : HasCore s (State.walkNext n s) := by
  unfold State.walkNext; split
  · exact (RowCore.walkClaim n _ _ _).self
  · exact .unchanged (.refl s)

theorem walkLast_core (n : Nat) : HasCore s (State.walkLast n s) := by
  unfold State.walkLast; split
  · exact (RowCore.walkEnd n _).self
  · exact .unchanged (.refl s)

theorem releaseList_core (n : Nat) : HasCore s (State.releaseList n s) := by
  unfold State.releaseList; split
  · exact .refuse ..
  · exact (RowCore.setCueList n _).then (State.sameOutside_goesOn _ _ _ _ rfl)

theorem releaseListNext_core : HasCore s s.releaseListNext := by
  unfold State.releaseListNext; split
  · exact (RowCore.releaseBoth _ _ _ _ _).then (State.sameOutside_goesOn _ _ _ _ rfl)
  · exact .unchanged (.refl s)

theorem flywheelExpiry_core : HasCore s s.flywheelExpiry := by
  unfold State.flywheelExpiry; split
  · exact (RowCore.flywheelBeat _).self
  · exact .unchanged (.refl s)

theorem setBeatSourceCmd_core (source filter : Nat) : HasCore s (State.setBeatSourceCmd source filter s) := by
  unfold State.setBeatSourceCmd; split
  · exact .ite s _ ((RowCore.setBeatSource _ _).answered ..) (.refuse ..)
  · exact .refuse ..

theorem setBar_core (beats : Nat) : HasCore s (State.setBar beats s) := by
  unfold State.setBar; split
  · exact .refuse ..
  · next hb => exact (RowCore.setBar beats hb).answered ..

theorem refreshNext_core (l : Nat) : HasCore s (State.refreshNext l s) := by
  unfold State.refreshNext; split
  · exact (RowCore.refreshExpiry l _).self
  · exact .unchanged (.refl s)

theorem setLineCmd_core (a : LineArgs) : HasCore s (State.setLineCmd a s) := by
  unfold State.setLineCmd; split
  · exact .refuse ..
  · exact (RowCore.setLine _ _ _).answered ..

/-- Everything that a row can do outside the link. -/
theorem rowEffect_core (c : Instr) : HasCore s (rowEffect c s) := by
  cases c with
  | powerOn | resetLow | resetEnd => exact .unchanged (.refl s)
  | receiveFrame bytes => exact .unchanged (s.sameOutside_receive bytes)
  | interByteTimeout => exact .unchanged s.sameOutside_discardFrame
  | transmitEnd => exact endSending_core s
  | identify | restart | readCounters | querySolver | queryMemory | queryClock => exact .answer ..
  | start => exact start_core s
  | standby => exact standby_core s
  | setNotice levels => exact setNotice_core s levels
  | setCounter n e mask => exact setCounter_core s n e mask
  | clearCounters => exact .unchanged (.trans (s.sameOutside_withLink _ (by rfl)) (State.sameOutside_answer ..))
  | stopChange high => exact (RowCore.stopChange high).self
  | motionStopHigh => exact RowCore.motionStopHigh.self
  | motionStopLow => exact RowCore.motionStopLow.self
  | colourStopHigh => exact RowCore.colourStopHigh.self
  | colourResume => exact colourResume_core s
  | playbackStopLow n => exact (RowCore.resumeList n).self
  | startReaim => exact startReaim_core s
  | startMotion => exact startMotion_core s
  | startLines => exact startAllLines_core s
  | standbyMotion => exact standbyMotion_core s
  | standbyColour => exact standbyColour_core s
  | standbyList n => exact standbyList_core s n
  | standbyLines => exact standbyLines_core s
  | defineKind k => exact defineKind_core s k
  | dropKind k => exact dropKind_core s k
  | queryKind k => exact queryKind_core s k
  | patch a => exact patch_core s a
  | unpatch first count => exact .unchanged (State.sameOutside_goesOn _ _ _ _ rfl)
  | unpatchFixture => exact unpatchNext_core s
  | setPose a => exact setPose_core s a
  | setTrim f trims => exact setTrim_core s f trims
  | setPassthrough f values => exact setPassthrough_core s f values
  | setTruss t o => exact setTruss_core s t o
  | copyRig a => exact copyRig_core s a
  | recordCopy => exact copyNext_core s
  | queryFixture f => exact .ite s _ (.refuse ..) (.answer ..)
  | setPoint p pos => exact setPointCmd_core s p pos
  | bindTag p tag o => exact bindTag_core s p tag o
  | unbindTag p => exact unbindTag_core s p
  | track rs => exact track_core s rs
  | trackPointMove => exact trackNext_core s
  | staleTimerExpiry p => exact (RowCore.setPoint p _).then (State.sameOutside_withLink _ _ (by rfl))
  | setStaleLimit ms => exact (RowCore.staleLimit _).answered ..
  | queryPoint p => exact .ite s _ (.refuse ..) (.answer ..)
  | setPriority source prio => exact setPriority_core s source prio
  | directAim e => exact directAim_core s e
  | directAimFixture => exact directAimNext_core s
  | directColour e => exact directColour_core s e
  | directColourFixture => exact directColourNext_core s
  | releaseDirect a => exact releaseDirect_core s a
  | releaseDirectFixture => exact releaseDirectNext_core s
  | bindFollow first count p => exact bindFollow_core s first count p
  | bindFollowFixture => exact bindFollowNext_core s
  | unbindFollow first count => exact unbindFollow_core s first count
  | unbindFollowFixture => exact unbindFollowNext_core s
  | queryClaims f => exact .ite s _ (.refuse ..) (.ite s _ (.answer ..) (.refuse ..))
  | flushCache => exact flushCache_core s
  | jobStart => exact RowCore.startJob.self
  | jobCompletion => exact RowCore.completeJob.self
  | motionStep f => exact (RowCore.motionStep f).self
  | halt first count => exact halt_core s first count
  | haltFixture => exact haltNext_core s
  | queryMotion f => exact queryMotion_core s f
  | fadeStep f => exact (RowCore.fadeStep f).self
  | queryColour f => exact queryColour_core s f
  | storeCue mark a => exact storeCue_core s mark a
  | storeCueFirst a => exact storeCueFirst_core s a
  | storeCueMore a => exact storeCueMore_core s a
  | storeCueLast a => exact storeCueLast_core s a
  | deleteCue cue => exact deleteCue_core s cue
  | storePalette a => exact storePalette_core s a
  | paletteUpdate => exact updateNext_core s
  | deletePalette q => exact deletePalette_core s q
  | pack => exact beginPack_core s
  | packStep => exact packNext_core s
  | abortPack => exact abortPack_core s
  | defineList a => exact defineList_core s a
  | go n cue bar => exact go_core s n cue bar
  | walkStep n => exact walkNext_core s n
  | walkEnd n => exact walkLast_core s n
  | launchReport r => exact (RowCore.report r).self
  | linkTimerExpiry n => exact (RowCore.linkExpiry n).self
  | listBarStart n => exact (RowCore.takeBar n).self
  | releaseList n => exact releaseList_core s n
  | releaseListFixture => exact releaseListNext_core s
  | queryList n => exact .ite s _ (.refuse ..) (.answer ..)
  | beatRise | beatPulseFall => exact (RowCore.pulse _).self
  | acceptedEdge => exact RowCore.takeEdge.self
  | flywheelExpiry => exact flywheelExpiry_core s
  | setBeatSource source filter => exact setBeatSourceCmd_core s source filter
  | setTempo tempo => exact (RowCore.setTempo tempo).answered ..
  | setBar beats => exact setBar_core s beats
  | refreshExpiry l => exact refreshNext_core s l
  | frameEnd l => exact (RowCore.frameEnd l).self
  | setLine a => exact setLineCmd_core s a
  | queryLine l first count => exact .ite s _ (.refuse ..) (.answer ..)

end Sys2Proof.Machine
end

