-- ==== Sys2Proof/Proofs/Stacks.lean ====
section
/-! PROOFS. Claim stacks stay in order (R38): what each operation on a stack does to its sources and priorities. -/

namespace Sys2Proof.Machine

variable {α : Type}

theorem allDistinct_iff (l : List Nat) : allDistinct l = true ↔ l.Nodup := by
  induction l with
  | nil => simp [allDistinct]
  | cons a l ih => simp [allDistinct, ih]

theorem stackOk_iff (l : List (Entry α)) :
    stackOk l = true ↔ l.length ≤ 4 ∧ (l.map fun e => e.source).Nodup ∧ falling l := by
  simp [stackOk, allDistinct_iff, falling, List.pairwise_map, and_assoc]

/-- A stack's order is a matter of its sources and priorities alone. -/
theorem stackOk_congr {l l' : List (Entry α)}
    (h : (l.map fun e => (e.source, e.prio)) = l'.map fun e => (e.source, e.prio)) : stackOk l = stackOk l' := by
  have hlen := congrArg List.length h
  have hs := congrArg (List.map Prod.fst) h
  have hp := congrArg (List.map Prod.snd) h
  simp only [List.length_map, List.map_map, Function.comp_def] at hlen hs hp
  simp [stackOk, hlen, hs, hp]

theorem stackOk_sublist {l l' : List (Entry α)} (hs : l'.Sublist l) (h : stackOk l = true) : stackOk l' = true := by
  rw [stackOk_iff] at h ⊢
  obtain ⟨hlen, hnd, hfall⟩ := h
  exact ⟨hs.length_le.trans hlen, hnd.sublist (hs.map _), hfall.sublist hs⟩

theorem stackOk_withoutSource (src : Nat) {l : List (Entry α)} (h : stackOk l = true) :
    stackOk (withoutSource src l) = true := stackOk_sublist List.filter_sublist h

theorem stackOk_clearOwed (t : LaunchTag) (l : List (Entry α)) : stackOk (clearOwed t l) = stackOk l := by
  refine stackOk_congr ?_
  induction l with
  | nil => rfl
  | cons e es ih => unfold clearOwed; split <;> simp [ih]

theorem stackOk_clearSecond (l : List (Entry α)) : stackOk (clearSecond l) = stackOk l :=
  stackOk_congr (by cases l with
    | nil => rfl
    | cons a l => cases l <;> rfl)

/-- A new entry among entries of other sources, the stack cut off below the fourth. -/
theorem stackOk_insertEntry_take (e : Entry α) {l : List (Entry α)} (h : stackOk l = true)
    (hs : ∀ x ∈ l, x.source ≠ e.source) : stackOk ((insertEntry e l).take 4) = true := by
  rw [stackOk_iff] at h ⊢
  obtain ⟨-, hnd, hfall⟩ := h
  refine ⟨by simp, ?_, (insertEntry_falling e l hfall).sublist (List.take_sublist _ _)⟩
  have hfull : ((insertEntry e l).map fun x => x.source).Nodup := by
    rw [((insertEntry_perm e l).map _).nodup_iff, List.map_cons, List.nodup_cons]
    exact ⟨by simpa using hs, hnd⟩
  exact hfull.sublist ((List.take_sublist _ _).map _)

theorem stackOk_placeClaim {stack : List (Entry α)} (src prio : Nat) (body : α) (tag : Option LaunchTag)
    (h : stackOk stack = true) : stackOk (placeClaim stack src prio body tag).stack = true := by
  have hkept : stackOk ((insertEntry ⟨src, prio, body, tag, false⟩ (withoutSource src stack)).take 4) = true :=
    stackOk_insertEntry_take _ (stackOk_withoutSource src h) fun x hx => ((mem_withoutSource ..).1 hx).2
  unfold placeClaim
  dsimp only
  split
  · split
    · next e below hk =>
      have hall := hkept
      rw [hk] at hkept
      have htop : stackOk ({ e with owed := tag.isSome } :: below) = true := by
        exact (stackOk_congr (l' := e :: below) rfl).trans hkept
      split
      · split
        · exact htop
        · exact (stackOk_clearSecond _).trans htop
      · exact hall
    · exact h
  · exact h

end Sys2Proof.Machine

namespace Sys2Proof

variable {α : Type}

/-! ### Reading a store whose values all have a property -/

theorem Store.mem_set [DecidableEq α] {d : α} {m : Store α} {k : Nat} {v : α} {e : Nat × α}
    (he : e ∈ Store.set d m k v) : e = (k, v) ∨ e ∈ m := by
  unfold Store.set at he
  split at he
  · exact .inr (Store.key_of_mem_erase m k e he).2
  · exact (Store.mem_insert _ _ _ _ he).imp_right fun h => (Store.key_of_mem_erase m k e h).2

theorem Store.get_cases (d : α) (m : Store α) (k : Nat) : Store.get d m k = d ∨ (k, Store.get d m k) ∈ m := by
  induction m with
  | nil => exact .inl rfl
  | cons e m ih =>
    obtain ⟨j, v⟩ := e
    unfold Store.get
    split
    · next h => subst h; simp
    · exact ih.imp_right fun h => List.mem_cons_of_mem _ h

/-- A property that the value of an unlisted number has, and every listed one. -/
theorem Store.get_of_all {p : α → Prop} {d : α} {m : Store α} (hd : p d) (h : ∀ e ∈ m, p e.2) (k : Nat) :
    p (Store.get d m k) := by
  rcases Store.get_cases d m k with hk | hk
  · rw [hk]; exact hd
  · exact h _ hk

theorem Store.all_set [DecidableEq α] {p : α → Prop} {d : α} {m : Store α} {k : Nat} {v : α} (h : ∀ e ∈ m, p e.2)
    (hv : p v) : ∀ e ∈ Store.set d m k v, p e.2 := by
  intro e he
  rcases Store.mem_set he with rfl | he
  · exact hv
  · exact h e he

end Sys2Proof
end

