-- ==== Sys2Proof/Proofs/Selection.lean ====
section
/-! PROOFS. The selection of an aim at delivery (R65 to R69): the candidates of a result, the order of choice, and the
ranges of the aim selected. -/

namespace Sys2Proof.Machine

theorem clampInt_eq {lo hi : Int} (h : lo ≤ hi) (x : Int) : clampInt lo hi x = max lo (min hi x) := by
  unfold clampInt
  split
  · omega
  · split <;> omega

theorem clampInt_le {lo hi : Int} (h : lo ≤ hi) (x : Int) : lo ≤ clampInt lo hi x ∧ clampInt lo hi x ≤ hi := by
  rw [clampInt_eq h]; omega

theorem toCd_eq (mu : Int) : toCd mu = (2 * mu + 16) / 32 := rfl

/-- A position in a kind's range rounds to whole centidegrees in that range. -/
theorem toCd_le {lo hi mu : Int} (hlo : lo * 16 ≤ mu) (hhi : mu ≤ hi * 16) : lo ≤ toCd mu ∧ toCd mu ≤ hi := by
  rw [toCd_eq]; omega

/-! ### Candidates -/

theorem candidates_of_degenerate {k : Profile} {present : Int} {r : SolveResult} (h : r.degenerate = true) :
    candidates k present r = [] := by simp [candidates, h]

theorem mem_turns (t : Int) : t ∈ turns ↔ -3 ≤ t ∧ t ≤ 3 := by
  simp only [turns, List.mem_cons, List.not_mem_nil, or_false]; omega

/-- Every whole turn whose pan lies in range is tried (R66). -/
theorem mem_candidates_of_plain {k : Profile} {present : Int} {r : SolveResult} (hk : k.rangesOk) (hphi : r.phi ≤ 35999)
    (hd : r.degenerate = false) (ha : r.axial = false) (c : Candidate) :
    c ∈ candidates k present r ↔ k.panMin ≤ c.pan ∧ c.pan ≤ k.panMax ∧
      ∃ turn : Int,
        (c.branchB = false ∧ c.pan = r.phi + turn * 36000 ∧ c.tilt = r.theta) ∨
          (c.branchB = true ∧ c.pan = r.phi + 18000 + turn * 36000 ∧ c.tilt = -(r.theta : Int)) := by
  obtain ⟨hmin, hmax, -⟩ := hk
  obtain ⟨b, pan, tilt⟩ := c
  simp only [candidates, hd, ha, plainCandidates, List.mem_filter, List.mem_append, List.mem_map, mem_turns, Bool.false_eq_true,
    if_false, Candidate.mk.injEq, Bool.and_eq_true, decide_eq_true_eq]
  constructor
  · rintro ⟨⟨t, -, rfl, rfl, rfl⟩ | ⟨t, -, rfl, rfl, rfl⟩, hlo, hhi⟩
    · exact ⟨hlo, hhi, t, .inl ⟨rfl, rfl, rfl⟩⟩
    · exact ⟨hlo, hhi, t, .inr ⟨rfl, rfl, rfl⟩⟩
  · rintro ⟨hlo, hhi, t, ⟨rfl, rfl, rfl⟩ | ⟨rfl, rfl, rfl⟩⟩
    · exact ⟨.inl ⟨t, by omega, rfl, rfl, rfl⟩, hlo, hhi⟩
    · exact ⟨.inr ⟨t, by omega, rfl, rfl, rfl⟩, hlo, hhi⟩

theorem mem_candidates_of_axial {k : Profile} {present : Int} {r : SolveResult} (hd : r.degenerate = false)
    (ha : r.axial = true) (c : Candidate) :
    c ∈ candidates k present r ↔ (c.branchB = false ∧ c.pan = present ∧ c.tilt = r.theta) ∨
      (r.theta ≠ 0 ∧ k.panMin ≤ c.pan ∧ c.pan ≤ k.panMax ∧ c.branchB = true ∧
        (c.pan = present + 18000 ∨ c.pan = present - 18000) ∧ c.tilt = -(r.theta : Int)) := by
  obtain ⟨b, pan, tilt⟩ := c
  simp only [candidates, hd, ha, axialCandidates, Bool.false_eq_true, if_false, if_true, List.mem_cons,
    Candidate.mk.injEq]
  by_cases ht : r.theta = 0
  · simp [ht]
  · have ht' : ¬(r.theta : Int) = 0 := by exact_mod_cast ht
    simp only [ht', if_false, ht, not_false_eq_true, ne_eq, true_and, List.mem_filter, List.mem_cons, Candidate.mk.injEq,
      List.not_mem_nil, or_false, Bool.and_eq_true, decide_eq_true_eq]
    tauto

/-- A result that is not DEGENERATE has a candidate: a range of a kind is at least a whole turn wide. -/
theorem candidates_ne_nil {k : Profile} {present : Int} {r : SolveResult} (hk : k.rangesOk) (hphi : r.phi ≤ 35999)
    (hd : r.degenerate = false) : candidates k present r ≠ [] := by
  cases ha : r.axial
  · have hspan : ∃ t : Int, k.panMin ≤ r.phi + t * 36000 ∧ r.phi + t * 36000 ≤ k.panMax := by
      obtain ⟨-, -, hspan, -⟩ := hk
      exact ⟨(k.panMax - r.phi) / 36000, by omega, by omega⟩
    obtain ⟨t, hlo, hhi⟩ := hspan
    exact List.ne_nil_of_mem ((mem_candidates_of_plain hk hphi hd ha ⟨false, _, _⟩).2 ⟨hlo, hhi, t, .inl ⟨rfl, rfl, rfl⟩⟩)
  · exact List.ne_nil_of_mem ((mem_candidates_of_axial hd ha ⟨false, _, _⟩).2 (.inl ⟨rfl, rfl, rfl⟩))

/-- A candidate's pan lies in the kind's range, the present pan of an AXIAL result among them. -/
theorem pan_of_mem_candidates {k : Profile} {present : Int} {r : SolveResult} (hlo : k.panMin ≤ present)
    (hhi : present ≤ k.panMax) {c : Candidate} (hc : c ∈ candidates k present r) :
    k.panMin ≤ c.pan ∧ c.pan ≤ k.panMax := by
  cases hd : r.degenerate
  · cases ha : r.axial
    · simp only [candidates, hd, ha, plainCandidates, List.mem_filter, Bool.false_eq_true, if_false, Bool.and_eq_true,
        decide_eq_true_eq] at hc
      exact hc.2
    · rcases (mem_candidates_of_axial hd ha c).1 hc with ⟨-, hp, -⟩ | ⟨-, h1, h2, -⟩
      · rw [hp]; exact ⟨hlo, hhi⟩
      · exact ⟨h1, h2⟩
  · simp [candidates_of_degenerate hd] at hc

/-! ### The order of choice -/

/-- `c` comes before `d` or equals it in the order of choice (R68, R69). -/
def Scored.notAfter (c d : Scored) : Prop :=
  c.clamp < d.clamp ∨ (c.clamp = d.clamp ∧
    (c.cost < d.cost ∨ (c.cost = d.cost ∧
      ((c.branchB = false ∧ d.branchB = true) ∨ (c.branchB = d.branchB ∧ c.pan ≤ d.pan)))))

theorem Scored.before_eq_false_iff (c d : Scored) : d.before c = false ↔ c.notAfter d := by
  unfold Scored.before Scored.notAfter
  split
  · simp only [decide_eq_false_iff_not]; omega
  · split
    · simp only [decide_eq_false_iff_not]; omega
    · cases c.branchB <;> cases d.branchB <;> simp <;> omega

theorem Scored.notAfter_of_before {c d : Scored} (h : c.before d = true) : c.notAfter d := by
  unfold Scored.before at h; unfold Scored.notAfter
  split at h
  · simp only [decide_eq_true_eq] at h; omega
  · split at h
    · simp only [decide_eq_true_eq] at h; omega
    · revert h; cases c.branchB <;> cases d.branchB <;> simp <;> omega

theorem Scored.notAfter_refl (c : Scored) : c.notAfter c := by simp [Scored.notAfter]

theorem Scored.notAfter_trans {a b c : Scored} (h : a.notAfter b) (h' : b.notAfter c) : a.notAfter c := by
  unfold Scored.notAfter at *
  revert h h'
  cases a.branchB <;> cases b.branchB <;> cases c.branchB <;> simp <;> omega

theorem bestScored_isSome {l : List Scored} (h : l ≠ []) : ∃ c, bestScored l = some c := by
  cases l with
  | nil => exact absurd rfl h
  | cons x l =>
    unfold bestScored
    split
    · exact ⟨x, rfl⟩
    · split <;> exact ⟨_, rfl⟩

/-- The first of a list in the order of choice is one of the list, and none comes before it. -/
theorem bestScored_spec : ∀ {l : List Scored} {c : Scored}, bestScored l = some c → c ∈ l ∧ ∀ d ∈ l, c.notAfter d
  | [], _, h => by cases h
  | x :: l, c, h => by
    unfold bestScored at h
    cases hb : bestScored l with
    | none =>
      have hl : l = [] := by
        by_contra hne
        obtain ⟨b, hb'⟩ := bestScored_isSome hne
        rw [hb] at hb'; cases hb'
      rw [hb] at h
      cases h
      subst hl
      simp [Scored.notAfter_refl]
    | some b =>
      obtain ⟨hmem, hall⟩ := bestScored_spec hb
      rw [hb] at h
      simp only at h
      split at h
      · next hbx =>
        cases h
        exact ⟨List.mem_cons_of_mem _ hmem, List.forall_mem_cons.2 ⟨Scored.notAfter_of_before hbx, hall⟩⟩
      · next hbx =>
        cases h
        have hxb : x.notAfter b := (Scored.before_eq_false_iff x b).1 (by simpa using hbx)
        exact ⟨List.mem_cons_self, List.forall_mem_cons.2 ⟨x.notAfter_refl, fun d hd => Scored.notAfter_trans hxb (hall d hd)⟩⟩

/-! ### The selected aim -/

/-- The ranges of a selected aim (R66 to R68). -/
theorem selectAim_le {k : Profile} {pan tilt : Int} {r : SolveResult} {c : Scored} (hk : k.rangesOk)
    (hpos : k.holds pan tilt) (h : selectAim k pan tilt r = some c) :
    k.panMin ≤ c.pan ∧ c.pan ≤ k.panMax ∧ k.tiltMin ≤ c.tilt ∧ c.tilt ≤ k.tiltMax := by
  obtain ⟨hmem, -⟩ := bestScored_spec h
  obtain ⟨d, hd, rfl⟩ := List.mem_map.1 hmem
  obtain ⟨hlo, hhi, -⟩ := hpos
  have hpres := toCd_le hlo hhi
  obtain ⟨h1, h2⟩ := pan_of_mem_candidates hpres.1 hpres.2 hd
  obtain ⟨-, -, -, ht1, ht2⟩ := hk
  obtain ⟨h3, h4⟩ := clampInt_le (ht1.trans ht2) d.tilt
  exact ⟨h1, h2, h3, h4⟩

/-- Settles O37: the candidates, their scores, and the aim selected from them. -/
theorem selectedAimsLieInRange : Obligations.SelectedAimsLieInRange := by
  unfold Obligations.SelectedAimsLieInRange
  refine ⟨toCd_eq, fun k present r hk hphi => ⟨candidates_of_degenerate, fun hd ha => mem_candidates_of_plain hk hphi hd ha,
    fun hd ha => mem_candidates_of_axial hd ha⟩, ?_, ?_⟩
  · rintro k pan tilt c ⟨-, -, -, hmin, hmax⟩ t rfl
    unfold scoreCandidate
    rw [clampInt_eq (hmin.trans hmax)]
  · intro k pan tilt r hk hpos hphi
    refine ⟨fun hd => by simp [selectAim, candidates_of_degenerate hd, bestScored], fun hd => ?_⟩
    obtain ⟨c, hc⟩ := bestScored_isSome (l := (candidates k (toCd pan) r).map (scoreCandidate k (toCd pan) (toCd tilt)))
      (by simpa using candidates_ne_nil hk hphi hd)
    obtain ⟨h1, h2, h3, h4⟩ := selectAim_le hk hpos hc
    obtain ⟨hmem, hbest⟩ := bestScored_spec hc
    exact ⟨c, hc, h1, h2, h3, h4, hmem, hbest⟩

end Sys2Proof.Machine
end

