-- ==== Sys2Proof/Proofs/Positions.lean ====
section
/-! PROOFS. Every operation on a motion record keeps its position and its target in the kind's ranges (R108). -/

namespace Sys2Proof.Machine

/-- Position and target of a record lie in a kind's ranges (R108). -/
def Motion.inRange (k : Profile) (m : Motion) : Prop := k.holds m.pan m.tilt ∧ k.holds m.tgtPan m.tgtTilt

variable {k : Profile} {m : Motion}

/-- A target replaced by one in range. -/
theorem Motion.inRange_target {m' : Motion} (h : m.inRange k) (hp : m'.pan = m.pan) (ht : m'.tilt = m.tilt)
    (htgt : k.holds m'.tgtPan m'.tgtTilt) : m'.inRange k := by
  obtain ⟨hpos, -⟩ := h
  exact ⟨by rw [hp, ht]; exact hpos, htgt⟩

@[simp] theorem Motion.settle_inRange (force : Bool) : (m.settle force).after.inRange k ↔ m.inRange k := by
  unfold Motion.settle; split <;> exact Iff.rfl

theorem clampAngles_holds (hk : k.rangesOk) (pan tilt : Int) :
    k.holds (clampAngles k pan tilt).1 (clampAngles k pan tilt).2.1 := by
  obtain ⟨-, -, hpan, hmin, hmax⟩ := hk
  have h1 := clampInt_le (show k.panMin ≤ k.panMax by omega) pan
  have h2 := clampInt_le (hmin.trans hmax) tilt
  simp only [clampAngles, Profile.holds]
  omega

theorem rangeClamp_le {lo hi : Int} (h : lo ≤ hi) (pos vel : Int) :
    lo * 16 ≤ (rangeClamp lo hi pos vel).1 ∧ (rangeClamp lo hi pos vel).1 ≤ hi * 16 := by
  unfold rangeClamp
  split
  · dsimp only; omega
  · split <;> dsimp only <;> omega

theorem chaseAxis_le {lo hi : Int} (h : lo ≤ hi) (vmax amax gain : Nat) {target : Int} (pos vel : Int)
    (h1 : lo * 16 ≤ target) (h2 : target ≤ hi * 16) :
    lo * 16 ≤ (chaseAxis lo hi vmax amax gain target pos vel).1 ∧
      (chaseAxis lo hi vmax amax gain target pos vel).1 ≤ hi * 16 := by
  unfold chaseAxis
  dsimp only
  split
  · exact ⟨h1, h2⟩
  · exact rangeClamp_le h _ _

theorem Profile.pan_le (hk : k.rangesOk) : k.panMin ≤ k.panMax := by
  obtain ⟨-, -, hspan, -⟩ := hk; omega

theorem Profile.tilt_le (hk : k.rangesOk) : k.tiltMin ≤ k.tiltMax := by
  obtain ⟨-, -, -, hmin, hmax⟩ := hk; omega

/-! ### Steps -/

theorem Motion.planStep_inRange (hk : k.rangesOk) (h : m.inRange k) (p : Plan) : (m.planStep k p).inRange k := by
  obtain ⟨-, htgt⟩ := h
  obtain ⟨h1, h2⟩ := rangeClamp_le (Profile.pan_le hk) (planPosition p.startPan p.dPan (planFraction p.n (p.k + 1)))
    (planPosition p.startPan p.dPan (planFraction p.n (p.k + 1)) - m.pan)
  obtain ⟨h3, h4⟩ := rangeClamp_le (Profile.tilt_le hk) (planPosition p.startTilt p.dTilt (planFraction p.n (p.k + 1)))
    (planPosition p.startTilt p.dTilt (planFraction p.n (p.k + 1)) - m.tilt)
  exact ⟨⟨h1, h2, h3, h4⟩, htgt⟩

theorem Motion.timedStep_inRange (hk : k.rangesOk) (h : m.inRange k) : (m.timedStep k).after.inRange k := by
  unfold Motion.timedStep
  split
  · exact h
  · next p _ =>
    dsimp only
    split
    · exact Motion.planStep_inRange hk h p
    · exact (Motion.settle_inRange _).2 (Motion.planStep_inRange hk h p)

theorem Motion.startLeg_inRange (h : m.inRange k) (w : Sweep) : (m.startLeg k w).inRange k := by
  unfold Motion.startLeg; dsimp only; split <;> exact h

theorem Motion.endPhase_inRange (h : m.inRange k) (w : Sweep) : (m.endPhase k w).after.inRange k := by
  unfold Motion.endPhase
  split
  · dsimp only
    split
    · exact (Motion.settle_inRange _).2 (Motion.startLeg_inRange h w)
    · exact Motion.startLeg_inRange h w
  · split
    · exact Motion.startLeg_inRange h w
    · split
      · exact h
      · exact Motion.startLeg_inRange h _
  · split
    · exact (Motion.settle_inRange _).2 h
    · exact h
  · exact h

theorem Motion.sweepStep_inRange (hk : k.rangesOk) (h : m.inRange k) : (m.sweepStep k).after.inRange k := by
  unfold Motion.sweepStep
  split
  · next p w _ _ =>
    dsimp only
    split
    · exact Motion.planStep_inRange hk h p
    · exact Motion.endPhase_inRange (m := { m.planStep k p with vPan := 0, vTilt := 0 })
        (Motion.planStep_inRange hk h p) w
  · exact h

theorem Motion.chaseStep_inRange (hk : k.rangesOk) (h : m.inRange k) : (m.chaseStep k).after.inRange k := by
  obtain ⟨-, ht1, ht2, ht3, ht4⟩ := h
  obtain ⟨h1, h2⟩ := chaseAxis_le (Profile.pan_le hk) k.vmaxPan k.amaxPan k.gain m.pan m.vPan ht1 ht2
  obtain ⟨h3, h4⟩ := chaseAxis_le (Profile.tilt_le hk) k.vmaxTilt k.amaxTilt k.gain m.tilt m.vTilt ht3 ht4
  unfold Motion.chaseStep
  dsimp only
  split
  · exact (Motion.settle_inRange _).2 ⟨⟨h1, h2, h3, h4⟩, ht1, ht2, ht3, ht4⟩
  · exact ⟨⟨h1, h2, h3, h4⟩, ht1, ht2, ht3, ht4⟩

theorem Motion.brakeStep_inRange (hk : k.rangesOk) (h : m.inRange k) : (m.brakeStep k).after.inRange k := by
  obtain ⟨-, htgt⟩ := h
  have hpos : k.holds (brakeAxis k.panMin k.panMax k.amaxPan m.pan m.vPan).1
      (brakeAxis k.tiltMin k.tiltMax k.amaxTilt m.tilt m.vTilt).1 := by
    obtain ⟨h1, h2⟩ := rangeClamp_le (Profile.pan_le hk) (m.pan + (m.vPan - clampInt (-(k.amaxPan : Int)) k.amaxPan m.vPan))
      (m.vPan - clampInt (-(k.amaxPan : Int)) k.amaxPan m.vPan)
    obtain ⟨h3, h4⟩ := rangeClamp_le (Profile.tilt_le hk)
      (m.tilt + (m.vTilt - clampInt (-(k.amaxTilt : Int)) k.amaxTilt m.vTilt))
      (m.vTilt - clampInt (-(k.amaxTilt : Int)) k.amaxTilt m.vTilt)
    exact ⟨h1, h2, h3, h4⟩
  unfold Motion.brakeStep
  dsimp only
  split
  · split
    · exact (Motion.settle_inRange _).2 ⟨hpos, htgt⟩
    · exact ⟨hpos, htgt⟩
  · exact ⟨hpos, htgt⟩

theorem Motion.step_inRange (hk : k.rangesOk) (h : m.inRange k) : (m.step k).after.inRange k := by
  unfold Motion.step
  split
  · exact h
  · exact Motion.timedStep_inRange hk h
  · exact Motion.chaseStep_inRange hk h
  · exact Motion.sweepStep_inRange hk h
  · exact Motion.brakeStep_inRange hk h

/-! ### Moves and sweeps begun -/

theorem Motion.storeTarget_inRange (h : m.inRange k) {pan tilt : Int} (ht : k.holds pan tilt) :
    (m.storeTarget pan tilt).after.inRange k := Motion.inRange_target h rfl rfl ht

theorem Motion.startTimed_inRange (h : m.inRange k) {pan tilt : Int} (ht : k.holds pan tilt) (ms : Nat) :
    (m.startTimed k pan tilt ms).after.inRange k := by
  unfold Motion.startTimed
  dsimp only
  split
  · exact (Motion.settle_inRange _).2 (Motion.inRange_target h rfl rfl ht)
  · exact Motion.inRange_target h rfl rfl ht

theorem Motion.startChase_inRange (h : m.inRange k) {pan tilt : Int} (ht : k.holds pan tilt) :
    (m.startChase pan tilt).after.inRange k := by
  unfold Motion.startChase
  dsimp only
  split
  · exact (Motion.settle_inRange _).2 (Motion.inRange_target h rfl rfl ht)
  · exact Motion.inRange_target h rfl rfl ht

theorem Motion.startMove_inRange (h : m.inRange k) {pan tilt : Int} (ht : k.holds pan tilt) (law : Law) (ms : Nat) :
    (m.startMove k law ms pan tilt).after.inRange k := by
  cases law
  · exact Motion.startTimed_inRange h ht ms
  · exact Motion.startChase_inRange h ht

theorem Motion.beginSweep_inRange (h : m.inRange k) {pan tilt : Int} (ht : k.holds pan tilt) (pa ta leg legs ms : Nat) :
    (m.beginSweep k pa ta leg legs pan tilt ms).after.inRange k := Motion.inRange_target h rfl rfl ht

theorem Motion.takeCentre_inRange (h : m.inRange k) {pan tilt : Int} (ht : k.holds pan tilt) (pa ta leg legs ms : Nat) :
    (m.takeCentre k pa ta leg legs ms pan tilt).after.inRange k := by
  unfold Motion.takeCentre
  split
  · split
    · split
      · exact Motion.inRange_target h rfl rfl ht
      · exact Motion.inRange_target h rfl rfl ht
    · exact Motion.beginSweep_inRange h ht ..
  · exact Motion.beginSweep_inRange h ht ..

theorem Motion.resumeSweep_inRange (h : m.inRange k) (pa ta leg legs : Nat) :
    (m.resumeSweep k pa ta leg legs).after.inRange k := by
  obtain ⟨hpos, htgt⟩ := h
  unfold Motion.resumeSweep
  split
  · split
    · exact ⟨hpos, htgt⟩
    · exact Motion.beginSweep_inRange ⟨hpos, htgt⟩ htgt ..
  · exact Motion.beginSweep_inRange ⟨hpos, htgt⟩ htgt ..

theorem Motion.startBrake_inRange (h : m.inRange k) (cause : BrakeCause) : (m.startBrake cause).after.inRange k := by
  unfold Motion.startBrake
  dsimp only
  split
  · split
    · exact (Motion.settle_inRange _).2 h
    · exact h
  · exact h

/-! ### Aims taken, delivered and given up -/

theorem Motion.takeAim_inRange (hk : k.rangesOk) (h : m.inRange k) (stepping : Bool) (t : AimTarget) (law : Law) (ms : Nat)
    (tag : Option LaunchTag) : (m.takeAim k stepping t law ms tag).after.inRange k := by
  unfold Motion.takeAim
  split
  · exact h
  · exact h
  · next pan tilt =>
    have hc := clampAngles_holds hk pan tilt
    dsimp only
    split
    · exact Motion.startMove_inRange (by exact h) hc law ms
    · exact Motion.storeTarget_inRange (by exact h) hc
  · next pan tilt _ _ _ _ =>
    have hc := clampAngles_holds hk pan tilt
    dsimp only
    split
    · exact Motion.beginSweep_inRange (by exact h) hc ..
    · exact Motion.storeTarget_inRange (by exact h) hc

theorem Motion.noAim_inRange (h : m.inRange k) : m.noAim.after.inRange k := by
  obtain ⟨hpos, htgt⟩ := h
  unfold Motion.noAim
  dsimp only
  split
  · exact ⟨hpos, hpos⟩
  · exact Motion.startBrake_inRange (m := { m with aim := none, awaiting := false, tag := none }) ⟨hpos, htgt⟩ _
  · exact Motion.startBrake_inRange (m := { m with aim := none, awaiting := false, tag := none }) ⟨hpos, htgt⟩ _
  · exact Motion.startBrake_inRange (m := { m with aim := none, awaiting := false, tag := none }) ⟨hpos, htgt⟩ _
  · exact ⟨hpos, htgt⟩

theorem Motion.reaim_inRange (h : m.inRange k) (law : Law) : (m.reaim law).inRange k := by
  unfold Motion.reaim; split <;> exact h

theorem Motion.takeDelivery_inRange (h : m.inRange k) {pan tilt : Int} (ht : k.holds pan tilt) (stepping : Bool) :
    (m.takeDelivery k stepping pan tilt).after.inRange k := by
  have h' : ({ m with awaiting := false } : Motion).inRange k := h
  unfold Motion.takeDelivery
  dsimp only
  split
  · split
    · exact Motion.takeCentre_inRange h' ht ..
    · split
      · exact Motion.startMove_inRange h' ht ..
      · exact Motion.startChase_inRange h' ht
  · exact Motion.storeTarget_inRange h' ht

theorem Motion.takeDegenerate_inRange (h : m.inRange k) (stepping : Bool) :
    (m.takeDegenerate stepping).after.inRange k := by
  obtain ⟨hpos, htgt⟩ := h
  unfold Motion.takeDegenerate
  split
  · exact (Motion.settle_inRange _).2 ⟨hpos, htgt⟩
  · exact ⟨hpos, hpos⟩

theorem Motion.deliver_inRange (hk : k.rangesOk) (h : m.inRange k) (stepping : Bool) (r : SolveResult) :
    (m.deliver k stepping r).after.inRange k := by
  unfold Motion.deliver
  split
  · exact Motion.takeDegenerate_inRange h stepping
  · next c hc =>
    have hle := selectAim_le hk h.1 hc
    exact Motion.takeDelivery_inRange (m := { m with clamped := decide (c.clamp ≠ 0) }) h
      (by unfold Profile.holds; omega) stepping

/-! ### STOP, STANDBY and START -/

theorem Motion.resume_inRange (h : m.inRange k) : (m.resume k).after.inRange k := by
  unfold Motion.resume
  split
  · exact h
  · exact Motion.startTimed_inRange h h.2 0
  · exact Motion.startTimed_inRange h h.2 0
  · exact Motion.resumeSweep_inRange h ..

theorem Motion.startLive_inRange (h : m.inRange k) : (m.startLive k).after.inRange k := by
  unfold Motion.startLive
  split
  · exact Motion.startTimed_inRange h h.2 0
  · exact Motion.resumeSweep_inRange h ..
  · exact h

theorem Motion.stopHigh_inRange (h : m.inRange k) : m.stopHigh.after.inRange k := by
  unfold Motion.stopHigh
  split
  · exact Motion.startBrake_inRange h _
  · exact h

theorem Motion.halt_inRange (h : m.inRange k) : m.halt.after.inRange k := by
  unfold Motion.halt
  split
  · exact h
  · exact h
  · exact Motion.startBrake_inRange h _

theorem Motion.standby_inRange (h : m.inRange k) : m.standby.after.inRange k := (Motion.settle_inRange _).2 h

end Sys2Proof.Machine
end

