-- ==== Sys2Proof/Proofs/BeatRange.lean ====
section
/-! PROOFS. Every operation of the Beat Clock keeps its ranges (R174 to R177, R182, R183). -/

namespace Sys2Proof.Machine

theorem within_iff {lo hi n : Nat} : within lo hi n = true ↔ lo ≤ n ∧ n ≤ hi := by simp [within]

theorem roundHalfUpNat_within {a b lo hi : Nat} (hb : 0 < b) (h1 : lo * b ≤ a) (h2 : a ≤ hi * b) :
    within lo hi (roundHalfUpNat a b) = true := by
  rw [within_iff, roundHalfUpNat]
  refine ⟨(Nat.le_div_iff_mul_le hb).2 (by omega), Nat.le_of_lt_succ ((Nat.div_lt_iff_lt_mul hb).2 ?_)⟩
  rw [Nat.succ_mul]
  have := Nat.div_le_self b 2
  omega

theorem tempoPeriod_within {tempo : Nat} (h1 : 300 ≤ tempo) (h2 : tempo ≤ 3000) :
    within 2000 20000 (tempoPeriod tempo) = true := roundHalfUpNat_within (by omega) (by omega) (by omega)

theorem sum_within {l : List Nat} {lo hi : Nat} (h : ∀ i ∈ l, lo ≤ i ∧ i ≤ hi) :
    lo * l.length ≤ l.sum ∧ l.sum ≤ hi * l.length := by
  induction l with
  | nil => simp
  | cons i l ih =>
    obtain ⟨hi1, hl⟩ := List.forall_mem_cons.1 h
    have := ih hl
    simp only [List.length_cons, List.sum_cons, Nat.mul_succ]
    omega

/-- The mean of intervals in range is in range (R175). -/
theorem meanPeriod_within {ring : List Nat} {period : Nat} (hr : ∀ i ∈ ring, 2000 ≤ i ∧ i ≤ 20000)
    (hp : within 2000 20000 period = true) : within 2000 20000 (meanPeriod ring period) = true := by
  unfold meanPeriod
  split
  · exact hp
  · next hne =>
    obtain ⟨h1, h2⟩ := sum_within hr
    exact roundHalfUpNat_within (List.length_pos_iff.2 (by simpa using hne)) h1 h2

theorem Beat.ok_iff (b : Beat) :
    b.ok = true ↔ within 2000 20000 b.period = true ∧ (∀ i ∈ b.ring, 2000 ≤ i ∧ i ≤ 20000) ∧ b.ring.length ≤ 4 ∧
      within 300 3000 b.tempo = true ∧ b.lone ≤ 3 ∧ within 1 16 b.beatsPerBar = true ∧
      within 1 b.beatsPerBar b.beatsToBar = true ∧ b.bar < 65536 := by
  simp [Beat.ok, within, and_assoc]

variable {b : Beat}

theorem Beat.countBeat_ok (h : b.ok = true) : b.countBeat.ok = true := by
  rw [Beat.ok_iff] at h
  obtain ⟨h1, h2, h3, h4, h5, h6, h7, h8⟩ := h
  rw [within_iff] at h6 h7
  unfold Beat.countBeat
  split
  · exact (Beat.ok_iff _).2 ⟨h1, h2, h3, h4, h5, within_iff.2 h6, within_iff.2 ⟨h6.1, Nat.le_refl _⟩,
      Nat.mod_lt _ (by decide)⟩
  · next hs =>
    simp only [Beat.startsBar, decide_eq_true_eq] at hs
    exact (Beat.ok_iff _).2 ⟨h1, h2, h3, h4, h5, within_iff.2 h6, within_iff.2 (by dsimp only; omega), h8⟩

theorem Beat.ringAfter_within (h : ∀ i ∈ b.ring, 2000 ≤ i ∧ i ≤ 20000) (t : Nat) :
    ∀ i ∈ b.ringAfter t, 2000 ≤ i ∧ i ≤ 20000 := by
  intro i hi
  unfold Beat.ringAfter at hi
  split at hi
  · split at hi
    · next hr =>
      unfold ringAdd at hi
      split at hi <;> rw [List.mem_append, List.mem_singleton] at hi
      · exact hi.elim (h i) fun e => e ▸ hr
      · exact hi.elim (fun hi => h i (List.mem_of_mem_drop hi)) fun e => e ▸ hr
    · exact h i hi
  · exact h i hi

theorem Beat.ringAfter_length (h : b.ring.length ≤ 4) (t : Nat) : (b.ringAfter t).length ≤ 4 := by
  unfold Beat.ringAfter
  split
  · split
    · unfold ringAdd; split <;> simp <;> omega
    · exact h
  · exact h

theorem Beat.takeEdge_ok (h : b.ok = true) (t : Nat) : (b.takeEdge t).ok = true := by
  rw [Beat.ok_iff] at h
  obtain ⟨h1, h2, h3, h4, -, h6, h7, h8⟩ := h
  have hr := Beat.ringAfter_within h2 t
  exact (Beat.ok_iff _).2 ⟨meanPeriod_within hr h1, hr, Beat.ringAfter_length h3 t, h4, Nat.zero_le _, h6, h7, h8⟩

theorem Beat.takeExpiry_ok (h : b.ok = true) (t : Nat) : (b.takeExpiry t).ok = true := by
  rw [Beat.ok_iff] at h
  obtain ⟨h1, h2, h3, h4, h5, h6, h7, h8⟩ := h
  refine (Beat.ok_iff _).2 ⟨h1, h2, h3, h4, ?_, h6, h7, h8⟩
  unfold Beat.takeExpiry
  dsimp only
  split
  · exact Nat.min_le_left ..
  · exact h5

theorem Beat.changeSource_ok (h : b.ok = true) (src : BeatSource) (now : Nat) : (b.changeSource src now).ok = true := by
  rw [Beat.ok_iff] at h
  obtain ⟨h1, -, -, h4, h5, h6, h7, h8⟩ := h
  have h4' := within_iff.1 h4
  cases src
  · exact (Beat.ok_iff _).2 ⟨h1, by simp [Beat.changeSource], by simp [Beat.changeSource], h4, Nat.le_refl _, h6, h7, h8⟩
  · exact (Beat.ok_iff _).2 ⟨tempoPeriod_within h4'.1 h4'.2, by simp [Beat.changeSource], by simp [Beat.changeSource], h4,
      h5, h6, h7, h8⟩

theorem Beat.setTempo_ok (h : b.ok = true) (tempo : Nat) : (b.setTempo tempo).ok = true := by
  rw [Beat.ok_iff] at h
  obtain ⟨h1, h2, h3, -, h5, h6, h7, h8⟩ := h
  have ht : 300 ≤ (b.setTempo tempo).tempo ∧ (b.setTempo tempo).tempo ≤ 3000 := by
    rw [Beat.setTempo_tempo]; omega
  refine (Beat.ok_iff _).2 ⟨?_, h2, h3, within_iff.2 ht, h5, h6, h7, h8⟩
  rw [Beat.setTempo_eq]
  dsimp only
  split
  · exact tempoPeriod_within ht.1 ht.2
  · exact h1

theorem Beat.setBar_ok (h : b.ok = true) {beats : Nat} (hb : ¬(beats < 1 ∨ 16 < beats)) :
    ({ b with beatsPerBar := beats, beatsToBar := 1 } : Beat).ok = true := by
  rw [Beat.ok_iff] at h
  obtain ⟨h1, h2, h3, h4, h5, -, -, h8⟩ := h
  exact (Beat.ok_iff _).2 ⟨h1, h2, h3, h4, h5, within_iff.2 (by dsimp only; omega), within_iff.2 (by dsimp only; omega), h8⟩

end Sys2Proof.Machine
end

