-- ==== Sys2Proof/Proofs/Directories.lean ====
section
/-! PROOFS. The directories of Cue Memory: what finding, removing, inserting and moving an entry do, the fill mark and the
palette floor, and that storing, deleting and packing keep the runs apart (R144, R145, R147 to R152). -/

namespace Sys2Proof.Machine

/-! ### Finding, removing and inserting -/

theorem dirFind_eq_some {n : Nat} {d : List DirEntry} {e : DirEntry} (h : dirFind n d = some e) : e ∈ d ∧ e.number = n :=
  ⟨List.mem_of_find?_eq_some h, by simpa using List.find?_some h⟩

theorem dirFind_isSome (n : Nat) (d : List DirEntry) : (dirFind n d).isSome = d.any fun e => decide (e.number = n) := by
  rw [Bool.eq_iff_iff]; simp [dirFind]

theorem mem_dirRemove {n : Nat} {d : List DirEntry} {e : DirEntry} : e ∈ dirRemove n d ↔ e ∈ d ∧ e.number ≠ n := by
  simp [dirRemove]

theorem dirRemove_eq (n : Nat) (d : List DirEntry) : dirRemove n d = d.filter fun e => decide (e.number ≠ n) := by
  simp [dirRemove]

theorem dirFind_dirRemove_same (n : Nat) (d : List DirEntry) : dirFind n (dirRemove n d) = none := by
  rw [dirFind, List.find?_eq_none]
  intro e he
  simpa using (mem_dirRemove.1 he).2

theorem dirFind_dirRemove_other {n j : Nat} (h : j ≠ n) (d : List DirEntry) :
    dirFind j (dirRemove n d) = dirFind j d := by
  unfold dirFind dirRemove
  rw [List.find?_filter]
  refine List.find?_congr fun e _ => ?_
  by_cases he : e.number = j
  · simp [he, h]
  · simp [he]

theorem dirInsert_perm (e : DirEntry) (d : List DirEntry) : (dirInsert e d).Perm (e :: d) := by
  induction d with
  | nil => exact .refl _
  | cons x xs ih =>
    unfold dirInsert
    split
    · exact .refl _
    · exact (ih.cons x).trans (List.Perm.swap e x xs)

theorem dirFind_dirInsert_other {e : DirEntry} {j : Nat} (h : j ≠ e.number) (d : List DirEntry) :
    dirFind j (dirInsert e d) = dirFind j d := by
  induction d with
  | nil => simp [dirInsert, dirFind, h.symm]
  | cons x xs ih =>
    unfold dirFind at *
    rw [dirInsert]
    split
    · rw [List.find?_cons_of_neg (by simpa using h.symm)]
    · by_cases hx : x.number = j
      · rw [List.find?_cons_of_pos (by simpa using hx), List.find?_cons_of_pos (by simpa using hx)]
      · rw [List.find?_cons_of_neg (by simpa using hx), List.find?_cons_of_neg (by simpa using hx), ih]

theorem dirFind_dirInsert_same {e : DirEntry} {d : List DirEntry} (h : ∀ x ∈ d, x.number ≠ e.number) :
    dirFind e.number (dirInsert e d) = some e := by
  induction d with
  | nil => simp [dirInsert, dirFind]
  | cons x xs ih =>
    obtain ⟨hx, hxs⟩ := List.forall_mem_cons.1 h
    unfold dirFind at *
    rw [dirInsert]
    split
    · simp
    · rw [List.find?_cons_of_neg (by simpa using hx), ih hxs]

theorem dirInsert_rising {e : DirEntry} {d : List DirEntry} (hd : d.Pairwise fun a b => a.number < b.number)
    (h : ∀ x ∈ d, x.number ≠ e.number) : (dirInsert e d).Pairwise fun a b => a.number < b.number := by
  induction d with
  | nil => simp [dirInsert]
  | cons x xs ih =>
    rw [List.pairwise_cons] at hd
    obtain ⟨hx, hxs⟩ := List.forall_mem_cons.1 h
    unfold dirInsert
    split
    · next hlt =>
      refine List.pairwise_cons.2 ⟨List.forall_mem_cons.2 ⟨hlt, fun y hy => hlt.trans (hd.1 y hy)⟩, ?_⟩
      exact List.pairwise_cons.2 hd
    · next hlt =>
      refine List.pairwise_cons.2 ⟨fun y hy => ?_, ih hd.2 hxs⟩
      rcases List.mem_cons.1 ((dirInsert_perm e xs).mem_iff.1 hy) with rfl | hy
      · omega
      · exact hd.1 y hy

/-! ### The marks -/

theorem le_fillOf {d : List DirEntry} {e : DirEntry} (h : e ∈ d) : e.start + e.length ≤ fillOf d := by
  induction d with
  | nil => cases h
  | cons x xs ih =>
    rcases List.mem_cons.1 h with rfl | h
    · exact Nat.le_max_left ..
    · exact (ih h).trans (Nat.le_max_right ..)

theorem fillOf_cases (d : List DirEntry) : fillOf d = 0 ∨ ∃ e ∈ d, fillOf d = e.start + e.length := by
  induction d with
  | nil => exact .inl rfl
  | cons x xs ih =>
    right
    rcases Nat.le_total (fillOf xs) (x.start + x.length) with h | h
    · exact ⟨x, by simp, Nat.max_eq_left h⟩
    · rcases ih with h0 | ⟨e, he, hf⟩
      · exact ⟨x, by simp, by rw [fillOf, h0]; exact Nat.max_eq_left (Nat.zero_le _)⟩
      · exact ⟨e, by simp [he], by rw [fillOf, ← hf]; exact Nat.max_eq_right h⟩

theorem fillOf_le {d : List DirEntry} {n : Nat} (h : ∀ e ∈ d, e.start + e.length ≤ n) : fillOf d ≤ n := by
  rcases fillOf_cases d with h0 | ⟨e, he, hf⟩
  · omega
  · rw [hf]; exact h e he

theorem floorOf_le {d : List DirEntry} {e : DirEntry} (h : e ∈ d) : floorOf d ≤ e.start := by
  induction d with
  | nil => cases h
  | cons x xs ih =>
    rcases List.mem_cons.1 h with rfl | h
    · exact Nat.min_le_left ..
    · exact (Nat.min_le_right ..).trans (ih h)

theorem floorOf_cases (d : List DirEntry) : floorOf d = 8192 ∨ ∃ e ∈ d, floorOf d = e.start := by
  induction d with
  | nil => exact .inl rfl
  | cons x xs ih =>
    rcases Nat.le_total x.start (floorOf xs) with h | h
    · exact .inr ⟨x, by simp, Nat.min_eq_left h⟩
    · rcases ih with h0 | ⟨e, he, hf⟩
      · exact .inl (by rw [floorOf, ← h0]; exact Nat.min_eq_right h)
      · exact .inr ⟨e, by simp [he], by rw [floorOf, ← hf]; exact Nat.min_eq_right h⟩

theorem floorOf_le_end (d : List DirEntry) : floorOf d ≤ 8192 := by
  induction d with
  | nil => exact Nat.le_refl _
  | cons x xs ih => exact (Nat.min_le_right ..).trans ih

theorem le_floorOf {d : List DirEntry} {n : Nat} (hn : n ≤ 8192) (h : ∀ e ∈ d, n ≤ e.start) : n ≤ floorOf d := by
  rcases floorOf_cases d with h0 | ⟨e, he, hf⟩
  · omega
  · rw [hf]; exact h e he

theorem fillOf_sublist {d d' : List DirEntry} (h : d'.Sublist d) : fillOf d' ≤ fillOf d :=
  fillOf_le fun _ he => le_fillOf (h.subset he)

theorem floorOf_sublist {d d' : List DirEntry} (h : d'.Sublist d) : floorOf d ≤ floorOf d' :=
  le_floorOf (floorOf_le_end d) fun _ he => floorOf_le (h.subset he)

theorem runSlots_eq (d : List DirEntry) : runSlots d = (d.map fun e => e.length).sum := by
  induction d with
  | nil => rfl
  | cons x xs ih => simp [runSlots, ih]

/-! ### Directories in order -/

theorem DirEntry.apart_comm {a b : DirEntry} (h : a.apart b) : b.apart a := Or.symm h

theorem dirOk_sublist {d d' : List DirEntry} (hs : d'.Sublist d) (h : dirOk d) : dirOk d' := by
  obtain ⟨hn, ha, hl⟩ := h
  exact ⟨hn.sublist hs, ha.sublist hs, fun e he => hl e (hs.subset he)⟩

theorem dirOk_dirRemove (n : Nat) {d : List DirEntry} (h : dirOk d) : dirOk (dirRemove n d) :=
  dirOk_sublist List.filter_sublist h

theorem dirOk_dirInsert {d : List DirEntry} {e : DirEntry} (h : dirOk d) (hn : ∀ x ∈ d, x.number ≠ e.number)
    (ha : ∀ x ∈ d, e.apart x) (hl : 1 ≤ e.length) : dirOk (dirInsert e d) := by
  obtain ⟨hrise, hapart, hlen⟩ := h
  refine ⟨dirInsert_rising hrise hn, ?_, ?_⟩
  · rw [(dirInsert_perm e d).pairwise_iff (fun h => DirEntry.apart_comm h)]
    exact List.pairwise_cons.2 ⟨ha, hapart⟩
  · intro x hx
    rcases List.mem_cons.1 ((dirInsert_perm e d).mem_iff.1 hx) with rfl | hx
    · exact hl
    · exact hlen x hx

/-- In a directory in order a number names one entry. -/
theorem dirOk_unique {d : List DirEntry} (h : dirOk d) {a b : DirEntry} (ha : a ∈ d) (hb : b ∈ d)
    (hn : a.number = b.number) : a = b := by
  have hnd : (d.map fun x => x.number).Nodup := List.pairwise_map.2 (h.1.imp fun hlt => hlt.ne)
  exact List.inj_on_of_nodup_map hnd ha hb hn

/-- Two runs of a directory in order are apart. -/
theorem dirOk_apart {d : List DirEntry} (h : dirOk d) {a b : DirEntry} (ha : a ∈ d) (hb : b ∈ d) (hne : a ≠ b) :
    a.apart b := by
  have : Std.Symm DirEntry.apart := ⟨fun _ _ => DirEntry.apart_comm⟩
  exact h.2.1.forall ha hb hne

theorem mem_moveEntry {n start : Nat} {d : List DirEntry} {x : DirEntry} (hx : x ∈ moveEntry n start d) :
    (∃ y ∈ d, y.number = n ∧ x = { y with start := start }) ∨ x ∈ d := by
  obtain ⟨y, hy, rfl⟩ := List.mem_map.1 hx
  split
  · next hn => exact .inl ⟨y, hy, hn, rfl⟩
  · exact .inr hy

theorem moveEntry_number (n start : Nat) (d : List DirEntry) :
    (moveEntry n start d).map (fun x => x.number) = d.map fun x => x.number := by
  rw [moveEntry, List.map_map]
  exact List.map_congr_left fun x _ => by simp only [Function.comp]; split <;> rfl

/-- A run moved to a place apart from the other runs leaves a directory in order. -/
theorem dirOk_moveEntry {d : List DirEntry} {e : DirEntry} (h : dirOk d) (he : e ∈ d) (start : Nat)
    (ha : ∀ x ∈ d, x ≠ e → ({ e with start := start } : DirEntry).apart x) : dirOk (moveEntry e.number start d) := by
  refine ⟨?_, ?_, ?_⟩
  · have := h.1
    rw [← List.pairwise_map (f := fun x : DirEntry => x.number) (R := (· < ·))] at this ⊢
    rwa [moveEntry_number]
  · rw [moveEntry_eq h he, List.pairwise_map]
    refine (h.2.1.and (h.1.imp fun hlt => hlt.ne)).imp_of_mem fun {a b} hma hmb hab => ?_
    obtain ⟨hab, hne⟩ := hab
    by_cases hae : a = e
    · have hbe : b ≠ e := fun hbe => hne (by rw [hae, hbe])
      simpa [hae, hbe] using ha b hmb hbe
    · by_cases hbe : b = e
      · simpa [hae, hbe] using DirEntry.apart_comm (ha a hma hae)
      · simpa [hae, hbe] using hab
  · intro x hx
    rcases mem_moveEntry hx with ⟨y, hy, -, rfl⟩ | hx
    · exact h.2.2 y hy
    · exact h.2.2 x hx

/-! ### The judgements (R147, R149) -/

theorem CueMemory.judgeCue_stored {m : CueMemory} {cue n start : Nat} {replaced : Bool}
    (h : m.judgeCue cue n = .stored start replaced) :
    start = fillOf (dirRemove cue m.cues) ∧ replaced = (dirFind cue m.cues).isSome ∧ start + n ≤ m.floor ∧
      (replaced = true ∨ m.cues.length < 512) := by
  unfold CueMemory.judgeCue at h
  dsimp only at h
  split at h
  · cases h
  · next hfull =>
    split at h
    · next hfit =>
      cases h
      refine ⟨rfl, rfl, hfit, ?_⟩
      cases hr : (dirFind cue m.cues).isSome
      · right; simpa [hr] using hfull
      · exact .inl rfl
    · unfold refusalFor at h; split at h <;> cases h

theorem CueMemory.judgePalette_stored {m : CueMemory} {q n start : Nat} {replaced : Bool}
    (h : m.judgePalette q n = .stored start replaced) :
    start = floorOf (dirRemove q m.palettes) - n ∧ m.fill + n ≤ floorOf (dirRemove q m.palettes) := by
  unfold CueMemory.judgePalette at h
  dsimp only at h
  split at h
  · next hfit => cases h; exact ⟨rfl, hfit⟩
  · unfold refusalFor at h; split at h <;> cases h

/-! ### Storing and deleting keep the order -/

variable {m : CueMemory}

theorem CueMemory.freeNumber_pack (d : List DirEntry) (n : Nat) :
    (m.freeNumber d n).cues = m.cues ∧ (m.freeNumber d n).palettes = m.palettes ∧ (m.freeNumber d n).pack = m.pack ∧
      (m.freeNumber d n).staging = m.staging := by
  unfold CueMemory.freeNumber; split <;> exact ⟨rfl, rfl, rfl, rfl⟩

/-- The order of Cue Memory is a matter of the two directories. -/
theorem CueMemory.ok_congr {m m' : CueMemory} (hc : m'.cues = m.cues) (hp : m'.palettes = m.palettes) (h : m.ok) :
    m'.ok := by
  unfold CueMemory.ok CueMemory.fill CueMemory.floor at *
  rwa [hc, hp]

theorem CueMemory.storeCue_ok {start cue : Nat} {replaced : Bool} {link : LinkKind} {ms : Nat} {es : List RawEntry}
    (hj : m.judgeCue cue (es.length + 1) = .stored start replaced) (h : m.ok) : (m.storeCue start cue link ms es).ok := by
  obtain ⟨hc, hp, hlen, h63, hend, hmark⟩ := h
  obtain ⟨hs, hr, hfit, hroom⟩ := CueMemory.judgeCue_stored hj
  have hpal := (CueMemory.freeNumber_pack (m := m) m.cues cue).2.1
  have hrest : (dirRemove cue m.cues).length < 512 := by
    rcases hroom with rfl | hlt
    · obtain ⟨e, he⟩ := Option.isSome_iff_exists.1 hr.symm
      have : (dirRemove cue m.cues).length < m.cues.length :=
        List.length_filter_lt_length_iff_exists.2
          ⟨e, (dirFind_eq_some he).1, by simp [(dirFind_eq_some he).2]⟩
      omega
    · exact (List.length_filter_le ..).trans_lt hlt
  unfold CueMemory.storeCue CueMemory.ok CueMemory.fill CueMemory.floor CueMemory.writeRun
  dsimp only
  rw [hpal]
  refine ⟨dirOk_dirInsert (dirOk_dirRemove cue hc) (fun x hx => (mem_dirRemove.1 hx).2) (fun x hx => .inr ?_) (by simp), hp,
    ?_, h63, hend, fillOf_le fun x hx => ?_⟩
  · rw [hs]; exact le_fillOf hx
  · rw [(dirInsert_perm _ _).length_eq, List.length_cons]; omega
  · rcases List.mem_cons.1 ((dirInsert_perm _ _).mem_iff.1 hx) with rfl | hx
    · exact hfit
    · exact (le_fillOf (mem_dirRemove.1 hx).1).trans hmark

theorem CueMemory.storePalette_ok {start q sat fade : Nat} {hue : Int} {replaced : Bool} {os : List (Nat × OverrideValue)}
    (hq : q ≤ 63) (hj : m.judgePalette q (os.length + 1) = .stored start replaced) (h : m.ok) :
    (m.storePalette start q hue sat fade os).ok := by
  obtain ⟨hc, hp, hlen, h63, hend, hmark⟩ := h
  obtain ⟨hs, hfit⟩ := CueMemory.judgePalette_stored hj
  have hcues := (CueMemory.freeNumber_pack (m := m) m.palettes q).1
  have hfloor := floorOf_le_end (dirRemove q m.palettes)
  have hfill := floorOf_sublist (d := m.palettes) (d' := dirRemove q m.palettes) List.filter_sublist
  unfold CueMemory.fill CueMemory.floor at *
  unfold CueMemory.storePalette CueMemory.ok CueMemory.fill CueMemory.floor CueMemory.writeRun
  dsimp only
  rw [hcues]
  refine ⟨hc, dirOk_dirInsert (dirOk_dirRemove q hp) (fun x hx => (mem_dirRemove.1 hx).2) (fun x hx => .inl ?_) (by simp),
    hlen, fun x hx => ?_, fun x hx => ?_, le_floorOf (by omega) fun x hx => ?_⟩
  · have := floorOf_le hx
    dsimp only; omega
  all_goals rcases List.mem_cons.1 ((dirInsert_perm _ _).mem_iff.1 hx) with rfl | hx
  · exact hq
  · exact h63 x (mem_dirRemove.1 hx).1
  · dsimp only; omega
  · exact hend x (mem_dirRemove.1 hx).1
  · dsimp only; omega
  · have := floorOf_le hx
    omega

theorem CueMemory.deleteCue_ok (cue : Nat) (h : m.ok) : (m.deleteCue cue).ok := by
  obtain ⟨hc, hp, hlen, h63, hend, hmark⟩ := h
  have hpal := (CueMemory.freeNumber_pack (m := m) m.cues cue).2.1
  unfold CueMemory.deleteCue CueMemory.ok CueMemory.fill CueMemory.floor
  dsimp only
  rw [hpal]
  exact ⟨dirOk_dirRemove cue hc, hp, (List.length_filter_le ..).trans hlen, h63, hend,
    (fillOf_sublist List.filter_sublist).trans hmark⟩

theorem CueMemory.deletePalette_ok (q : Nat) (h : m.ok) : (m.deletePalette q).ok := by
  obtain ⟨hc, hp, hlen, h63, hend, hmark⟩ := h
  have hcues := (CueMemory.freeNumber_pack (m := m) m.palettes q).1
  unfold CueMemory.deletePalette CueMemory.ok CueMemory.fill CueMemory.floor
  dsimp only
  rw [hcues]
  exact ⟨hc, dirOk_dirRemove q hp, hlen, fun x hx => h63 x (mem_dirRemove.1 hx).1,
    fun x hx => hend x (mem_dirRemove.1 hx).1, hmark.trans (floorOf_sublist List.filter_sublist)⟩

/-! ### A pack step keeps the order (R152) -/

/-- A place that a run moves to: it stays apart from every other run of the directory. -/
def fitsAmong (d : List DirEntry) (e : DirEntry) (start : Nat) : Prop :=
  ∀ x ∈ d, x ≠ e → ({ e with start := start } : DirEntry).apart x

/-- Of two runs of a directory in order the one that starts lower ends at or below the other's start. -/
theorem dirOk_end_le {d : List DirEntry} (h : dirOk d) {a b : DirEntry} (ha : a ∈ d) (hb : b ∈ d) (hlt : a.start < b.start) :
    a.start + a.length ≤ b.start := by
  have hlen := h.2.2 b hb
  rcases dirOk_apart h ha hb (fun e => by rw [e] at hlt; omega) with h | h <;> omega

theorem byStart_getElem_lt {d : List DirEntry} (h : dirOk d) {i j : Nat} {a b : DirEntry} (hi : (byStart d)[i]? = some a)
    (hj : (byStart d)[j]? = some b) (hij : i < j) : a.start < b.start := by
  obtain ⟨hi', rfl⟩ := List.getElem?_eq_some_iff.1 hi
  obtain ⟨hj', rfl⟩ := List.getElem?_eq_some_iff.1 hj
  exact List.pairwise_iff_getElem.1 (byStart_sorted h) i j hi' hj' hij

theorem mem_byStart {d : List DirEntry} {e : DirEntry} : e ∈ byStart d ↔ e ∈ d := (byStart_perm d).mem_iff

/-- The destination of a cue run: at or below its start, apart from the other runs. -/
theorem CueMemory.cueMove_spec {i : Nat} {e : DirEntry} {start : Nat} (h : dirOk m.cues)
    (hm : m.cueMove i = some (e, start)) : e ∈ m.cues ∧ start ≤ e.start ∧ fitsAmong m.cues e start := by
  unfold CueMemory.cueMove at hm
  split at hm
  · cases hm
  next e' hi =>
  have he' : e' ∈ m.cues := mem_byStart.1 (List.mem_of_getElem? hi)
  have above : ∀ x ∈ m.cues, e'.start < x.start → ∀ t, t ≤ e'.start → ({ e' with start := t } : DirEntry).apart x :=
    fun x hx hlt t ht => .inl (by have := dirOk_end_le h he' hx hlt; dsimp only; omega)
  have place : ∀ x ∈ m.cues, ∃ j, (byStart m.cues)[j]? = some x :=
    fun x hx => List.getElem?_of_mem (mem_byStart.2 hx)
  split at hm
  · next h0 =>
    cases hm
    refine ⟨he', Nat.zero_le _, fun x hx hne => above x hx ?_ 0 (Nat.zero_le _)⟩
    obtain ⟨j, hj⟩ := place x hx
    rcases Nat.eq_zero_or_pos j with rfl | hpos
    · rw [← h0, hi] at hj; exact absurd (Option.some.inj hj).symm hne
    · exact byStart_getElem_lt h hi hj (by omega)
  · next h0 =>
    obtain ⟨b, hb, hm⟩ := Option.map_eq_some_iff.1 hm
    cases hm
    have hbm : b ∈ m.cues := mem_byStart.1 (List.mem_of_getElem? hb)
    have hbe := dirOk_end_le h hbm he' (byStart_getElem_lt h hb hi (by omega))
    refine ⟨he', hbe, fun x hx hne => ?_⟩
    obtain ⟨j, hj⟩ := place x hx
    rcases Nat.lt_trichotomy j i with hlt | rfl | hgt
    · right
      rcases Nat.lt_or_ge j (i - 1) with hlt' | hge
      · have := dirOk_end_le h hx hbm (byStart_getElem_lt h hj hb hlt')
        dsimp only; omega
      · rw [show j = i - 1 by omega, hb] at hj
        cases hj; dsimp only; omega
    · rw [hi] at hj; exact absurd (Option.some.inj hj).symm hne
    · exact above x hx (byStart_getElem_lt h hi hj hgt) _ hbe

theorem byStart_reverse_lt {d : List DirEntry} (h : dirOk d) {i j : Nat} {a b : DirEntry}
    (hi : (byStart d).reverse[i]? = some a) (hj : (byStart d).reverse[j]? = some b) (hij : i < j) : b.start < a.start := by
  obtain ⟨hi', rfl⟩ := List.getElem?_eq_some_iff.1 hi
  obtain ⟨hj', rfl⟩ := List.getElem?_eq_some_iff.1 hj
  exact List.pairwise_iff_getElem.1 (List.pairwise_reverse.2 (byStart_sorted h)) i j hi' hj' hij

/-- The destination of a palette run: at or above its start, apart from the other runs and within the memory. -/
theorem CueMemory.paletteMove_spec {i : Nat} {e : DirEntry} {start : Nat} (h : dirOk m.palettes)
    (hend : ∀ e ∈ m.palettes, e.start + e.length ≤ 8192) (hm : m.paletteMove i = some (e, start)) :
    e ∈ m.palettes ∧ e.start ≤ start ∧ start + e.length ≤ 8192 ∧ fitsAmong m.palettes e start := by
  unfold CueMemory.paletteMove at hm
  split at hm
  · cases hm
  next e' hi =>
  have mem : ∀ {j : Nat} {x : DirEntry}, (byStart m.palettes).reverse[j]? = some x → x ∈ m.palettes :=
    fun hj => mem_byStart.1 (List.mem_reverse.1 (List.mem_of_getElem? hj))
  have he' : e' ∈ m.palettes := mem hi
  have hle := hend e' he'
  have below : ∀ x ∈ m.palettes, x.start < e'.start → ∀ t, e'.start ≤ t → ({ e' with start := t } : DirEntry).apart x :=
    fun x hx hlt t ht => .inr (by have := dirOk_end_le h hx he' hlt; dsimp only; omega)
  have place : ∀ x ∈ m.palettes, ∃ j, (byStart m.palettes).reverse[j]? = some x :=
    fun x hx => List.getElem?_of_mem (List.mem_reverse.2 (mem_byStart.2 hx))
  split at hm
  · next h0 =>
    cases hm
    refine ⟨he', by omega, by omega, fun x hx hne => below x hx ?_ _ (by omega)⟩
    obtain ⟨j, hj⟩ := place x hx
    rcases Nat.eq_zero_or_pos j with rfl | hpos
    · rw [← h0, hi] at hj; exact absurd (Option.some.inj hj).symm hne
    · exact byStart_reverse_lt h hi hj (by omega)
  · next h0 =>
    obtain ⟨b, hb, hm⟩ := Option.map_eq_some_iff.1 hm
    cases hm
    have hbm := mem hb
    have hbe := dirOk_end_le h he' hbm (byStart_reverse_lt h hb hi (by omega))
    have hb8 := hend b hbm
    refine ⟨he', by omega, by omega, fun x hx hne => ?_⟩
    obtain ⟨j, hj⟩ := place x hx
    rcases Nat.lt_trichotomy j i with hlt | rfl | hgt
    · left
      rcases Nat.lt_or_ge j (i - 1) with hlt' | hge
      · have := byStart_reverse_lt h hj hb hlt'
        dsimp only; omega
      · rw [show j = i - 1 by omega, hb] at hj
        cases hj; dsimp only; omega
    · rw [hi] at hj; exact absurd (Option.some.inj hj).symm hne
    · exact below x hx (byStart_reverse_lt h hi hj hgt) _ (by omega)

theorem CueMemory.packStep_ok (h : m.ok) : m.packStep.ok := by
  obtain ⟨hc, hp, hlen, h63, hend, hmark⟩ := h
  have hkeep : ∀ (e : DirEntry) (start : Nat), (if start = e.start then m else m.copyRun e start).palettes = m.palettes ∧
      (if start = e.start then m else m.copyRun e start).cues = m.cues := by
    intro e start; split <;> exact ⟨rfl, rfl⟩
  unfold CueMemory.packStep
  split
  · split
    · next e start hm =>
      obtain ⟨he, hle, hfit⟩ := CueMemory.cueMove_spec hc hm
      unfold CueMemory.ok CueMemory.fill CueMemory.floor
      dsimp only
      rw [(hkeep e start).1]
      refine ⟨dirOk_moveEntry hc he start hfit, hp, by simpa [moveEntry] using hlen, h63, hend, fillOf_le fun x hx => ?_⟩
      rcases mem_moveEntry hx with ⟨y, hy, hn, rfl⟩ | hx
      · rw [dirOk_unique hc hy he hn]
        have := (le_fillOf he).trans hmark
        unfold CueMemory.floor at this
        dsimp only; omega
      · exact (le_fillOf hx).trans hmark
    · exact ⟨hc, hp, hlen, h63, hend, hmark⟩
  · split
    · next e start hm =>
      obtain ⟨he, hle, h8, hfit⟩ := CueMemory.paletteMove_spec hp hend hm
      unfold CueMemory.fill CueMemory.floor at hmark
      unfold CueMemory.ok CueMemory.fill CueMemory.floor
      dsimp only
      rw [(hkeep e start).2]
      refine ⟨hc, dirOk_moveEntry hp he start hfit, hlen, fun x hx => ?_, fun x hx => ?_,
        le_floorOf (hmark.trans (floorOf_le_end _)) fun x hx => ?_⟩
      all_goals rcases mem_moveEntry hx with ⟨y, hy, hn, rfl⟩ | hx
      · exact h63 y hy
      · exact h63 x hx
      · rw [dirOk_unique hp hy he hn]; exact h8
      · exact hend x hx
      · have := floorOf_le he
        dsimp only; omega
      · exact hmark.trans (floorOf_le hx)
    · exact ⟨hc, hp, hlen, h63, hend, hmark⟩

end Sys2Proof.Machine
end

