-- ==== Sys2Proof/Proofs/Keeps.lean ====
section
/-! PROOFS. One relation for every invariant of the part: `s.Keeps t` says that each of them passes from `s` to `t`. Every
operation on the state is shown to keep them, once, in the order of the model. -/

namespace Sys2Proof.Machine

/-- A line's storage is in canonical form. -/
def Line.stored (r : Line) : Bool := Store.wf 0 r.buffer && r.frame.all fun f => Store.wf (0 : Byte) f.snapshot

/-- What keeps the motion positions in range, the copies under way apart (R108). -/
def State.recordsOk (s : State) : Prop :=
  (∀ f p, s.patchOf f = some p → s.patchOk f p) ∧ (∀ f m, s.motionOf f = some m → s.recordOk f m) ∧
    ∀ j k, s.kind j = some k → k.rangesOk

theorem State.motionOk_iff (s : State) : s.motionOk ↔ s.recordsOk ∧ s.copyOk := by
  simp [State.motionOk, State.recordsOk, and_assoc]

/-- Each invariant passes from `s` to `t`. -/
structure State.Keeps (s t : State) : Prop where
  claims : s.stacksOk = true → t.stacksOk = true
  pools : s.poolsOk = true → t.poolsOk = true
  beat : s.beat.ok = true → t.beat.ok = true
  memory : s.memory.ok → t.memory.ok
  storage : s.storageOk = true → t.storageOk = true
  work : t.work = s.work
  records : s.copyOk → s.recordsOk → t.recordsOk

variable (s : State)

theorem State.Keeps.copies {s t : State} (h : s.Keeps t) : s.copyOk → t.copyOk := State.copyOk_of_work (.inl h.work)

theorem State.Keeps.refl : s.Keeps s := ⟨id, id, id, id, id, rfl, fun _ => id⟩

theorem State.Keeps.trans {s t u : State} (h : s.Keeps t) (h' : t.Keeps u) : s.Keeps u :=
  ⟨h'.claims ∘ h.claims, h'.pools ∘ h.pools, h'.beat ∘ h.beat, h'.memory ∘ h.memory, h'.storage ∘ h.storage,
    h'.work.trans h.work, fun hc hr => h'.records (h.copies hc) (h.records hc hr)⟩

/-- The same, with the last change first. -/
theorem State.Keeps.after {s t u : State} (h' : t.Keeps u) (h : s.Keeps t) : s.Keeps u := h.trans h'

theorem State.Keeps.ite {s t u : State} (p : Prop) [Decidable p] (ht : s.Keeps t) (hu : s.Keeps u) :
    s.Keeps (if p then t else u) := by split <;> assumption

/-! ### Updates that no invariant sees -/

theorem State.keeps_withNow (v : Nat) : s.Keeps (s.withNow v) := ⟨id, id, id, id, id, rfl, fun _ => id⟩
theorem State.keeps_withFreeUses (v : Nat) : s.Keeps (s.withFreeUses v) := ⟨id, id, id, id, id, rfl, fun _ => id⟩
theorem State.keeps_withResetting (v : Option ResetCause) : s.Keeps (s.withResetting v) :=
  ⟨id, id, id, id, id, rfl, fun _ => id⟩
theorem State.keeps_withPart (v : PartState) : s.Keeps (s.withPart v) := ⟨id, id, id, id, id, rfl, fun _ => id⟩
theorem State.keeps_withStop (v : Bool) : s.Keeps (s.withStop v) := ⟨id, id, id, id, id, rfl, fun _ => id⟩
theorem State.keeps_withPoints (v : Points) : s.Keeps (s.withPoints v) := ⟨id, id, id, id, id, rfl, fun _ => id⟩
theorem State.keeps_withCache (v : Cache) : s.Keeps (s.withCache v) := ⟨id, id, id, id, id, rfl, fun _ => id⟩
theorem State.keeps_withColour (v : ColourEngine) : s.Keeps (s.withColour v) := ⟨id, id, id, id, id, rfl, fun _ => id⟩
theorem State.keeps_withStopToMotion (v : List Bool) : s.Keeps (s.withStopToMotion v) :=
  ⟨id, id, id, id, id, rfl, fun _ => id⟩
theorem State.keeps_withStopToColour (v : List Bool) : s.Keeps (s.withStopToColour v) :=
  ⟨id, id, id, id, id, rfl, fun _ => id⟩
theorem State.keeps_withPlayback (v : Playback) : s.Keeps (s.withPlayback v) := ⟨id, id, id, id, id, rfl, fun _ => id⟩
theorem State.keeps_withPending (v : List Instr) : s.Keeps (s.withPending v) := ⟨id, id, id, id, id, rfl, fun _ => id⟩

theorem State.keeps_withLink (l : Link) (h : l.held = s.link.held) : s.Keeps (s.withLink l) :=
  ⟨id, id, id, id, id, State.work_of_held h, fun _ => id⟩

theorem State.keeps_raise (e : Activity) (c : Option Cls) (n : Nat) : s.Keeps (s.raise e c n) := s.keeps_withLink _ (by rfl)
theorem State.keeps_withNotices (n : Notices) : s.Keeps (s.withNotices n) := s.keeps_withLink _ (by rfl)

/-- The SYNC output is no part of the lines' storage. -/
theorem State.keeps_sync (on : Bool) : s.Keeps (s.withLines { s.lines with sync := on }) :=
  ⟨id, id, id, id, id, rfl, fun _ => id⟩

/-- The timer, the level of STOP and the steps due of the Motion Engine. -/
theorem State.keeps_withMotion (m : MotionEngine) (h : m.records = s.motion.records) :
    s.Keeps (s.withMotion m) := by
  refine ⟨id, id, id, id, id, rfl, fun _ hr => ?_⟩
  have hm : ∀ f, (s.withMotion m).motionOf f = s.motionOf f := fun f => by
    simp only [State.motionOf, State.withMotion_motion, h]
  unfold State.recordsOk
  simp only [hm]
  exact hr

theorem State.keeps_reportAllSuperseded (ts : List LaunchTag) : s.Keeps (s.reportAllSuperseded ts) := by
  rw [State.reportAllSuperseded_eq]; exact s.keeps_withPlayback _

theorem State.keeps_invalidateFrom (q : CacheEntry → Bool) (l : List Nat) : s.Keeps (s.invalidateFrom q l) := by
  rw [State.invalidateFrom_frame]; exact s.keeps_withCache _

theorem State.keeps_invalidate (q : CacheEntry → Bool) : s.Keeps (s.invalidate q) := s.keeps_invalidateFrom q _

/-! ### Claim stacks -/

theorem State.stacksOk_iff : s.stacksOk = true ↔
    (∀ e ∈ s.claims.aim, stackOk e.2 = true) ∧ ∀ e ∈ s.claims.colour, stackOk e.2 = true := by
  simp [State.stacksOk]

theorem State.aimStack_ok {s : State} (h : s.stacksOk = true) (f : Nat) : stackOk (s.aimStack f) = true :=
  Store.get_of_all (p := fun l => stackOk l = true) rfl ((s.stacksOk_iff).1 h).1 f

theorem State.colourStack_ok {s : State} (h : s.stacksOk = true) (f : Nat) : stackOk (s.colourStack f) = true :=
  Store.get_of_all (p := fun l => stackOk l = true) rfl ((s.stacksOk_iff).1 h).2 f

theorem State.keeps_setAimStack (f : Nat) {l : List (Entry AimClaim)}
    (h : stackOk (s.aimStack f) = true → stackOk l = true) : s.Keeps (s.setAimStack f l) := by
  refine ⟨fun hs => ?_, id, id, id, id, rfl, fun _ => id⟩
  have hl := h (State.aimStack_ok hs f)
  rw [State.stacksOk_iff] at hs ⊢
  exact ⟨Store.all_set (p := fun l => stackOk l = true) hs.1 hl, hs.2⟩

theorem State.keeps_setColourStack (f : Nat) {l : List (Entry ColourClaim)}
    (h : stackOk (s.colourStack f) = true → stackOk l = true) : s.Keeps (s.setColourStack f l) := by
  refine ⟨fun hs => ?_, id, id, id, id, rfl, fun _ => id⟩
  have hl := h (State.colourStack_ok hs f)
  rw [State.stacksOk_iff] at hs ⊢
  exact ⟨hs.1, Store.all_set (p := fun l => stackOk l = true) hs.2 hl⟩

theorem State.keeps_prio (l : List Nat) : s.Keeps (s.withClaims { s.claims with prio := l }) :=
  ⟨id, id, id, id, id, rfl, fun _ => id⟩

theorem State.keeps_settleAim (f : Nat) (t : LaunchTag) : s.Keeps (s.settleAim f t) :=
  .after (State.keeps_withPlayback ..) (s.keeps_setAimStack f fun h => (stackOk_clearOwed ..).trans h)

theorem State.keeps_settleColour (f : Nat) (t : LaunchTag) : s.Keeps (s.settleColour f t) :=
  .after (State.keeps_withPlayback ..) (s.keeps_setColourStack f fun h => (stackOk_clearOwed ..).trans h)

/-! ### Lines -/

theorem State.storageOk_iff : s.storageOk = true ↔ Store.wf none s.memory.slots = true ∧
    (∀ e ∈ s.lines.lines, e.2.stored = true) ∧ Store.wf Line.fresh s.lines.lines = true := by
  simp [State.storageOk, Line.stored, and_assoc]

theorem State.line_stored {s : State} (h : s.storageOk = true) (l : Nat) : (s.line l).stored = true :=
  Store.get_of_all (p := fun r : Line => r.stored = true) rfl ((s.storageOk_iff).1 h).2.1 l

theorem State.keeps_setLine (l : Nat) {r : Line} (h : (s.line l).stored = true → r.stored = true) :
    s.Keeps (s.setLine l r) := by
  refine ⟨id, id, id, id, fun hs => ?_, rfl, fun _ => id⟩
  have hr := h (State.line_stored hs l)
  rw [State.storageOk_iff] at hs ⊢
  obtain ⟨hm, hl, hw⟩ := hs
  exact ⟨hm, Store.all_set (p := fun r : Line => r.stored = true) hl hr, Store.wf_set _ _ _ _ hw⟩

/-- A line's other fields are no part of its storage. -/
theorem State.keeps_lineFields (l : Nat) {r : Line} (hb : r.buffer = (s.line l).buffer)
    (hf : r.frame = (s.line l).frame) : s.Keeps (s.setLine l r) :=
  s.keeps_setLine l fun h => by rw [Line.stored, hb, hf]; exact h

theorem State.keeps_writeSlots (line base : Nat) (ws : List (Nat × Nat)) : s.Keeps (s.writeSlots line base ws) := by
  refine s.keeps_setLine line fun h => ?_
  simp only [Line.stored, Bool.and_eq_true] at h ⊢
  exact ⟨Store.wf_setAll _ _ _ h.1, h.2⟩

theorem State.keeps_writeAim (f : Nat) (pan tilt : Int) : s.Keeps (s.writeAim f pan tilt) := by
  unfold State.writeAim; split
  · exact s.keeps_writeSlots ..
  · exact .refl s

theorem State.keeps_writeColour (f : Nat) (outs : List Nat) : s.Keeps (s.writeColour f outs) := by
  unfold State.writeColour; split
  · exact s.keeps_writeSlots ..
  · exact .refl s

theorem State.keeps_refreshHighest (line : Nat) : s.Keeps (s.refreshHighest line) :=
  s.keeps_lineFields line (by rfl) (by rfl)

theorem State.keeps_refreshSome (line : Option Nat) :
    s.Keeps (match line with | some l => s.refreshHighest l | none => s) := by
  cases line
  · exact .refl s
  · exact s.keeps_refreshHighest _

theorem State.keeps_zeroOwn (f : Nat) : s.Keeps (s.zeroOwn f) := by
  unfold State.zeroOwn; split
  · exact s.keeps_writeSlots ..
  · exact .refl s

theorem Line.stored_startFrame {r : Line} (h : r.stored = true) (now : Nat) : (r.startFrame now).stored = true := by
  simp only [Line.stored, Bool.and_eq_true] at h
  simp only [Line.stored, Line.startFrame, Option.all_some, Bool.and_self]
  exact h.1

theorem State.keeps_frameStart (l : Nat) : s.Keeps (s.frameStart l) := by
  unfold State.frameStart
  dsimp only
  refine .after (State.keeps_raise ..) (.trans (s.keeps_setLine l fun h => Line.stored_startFrame h s.now) ?_)
  split
  · exact State.keeps_sync ..
  · exact .refl _

theorem State.keeps_startLines (ls : List Nat) : s.Keeps (s.startLines ls) := by
  induction ls generalizing s with
  | nil => exact .refl s
  | cons l ls ih =>
    refine .trans ?_ (ih _)
    unfold State.startLine
    dsimp only
    split
    · exact .after (State.keeps_frameStart ..) (s.keeps_lineFields l (by rfl) (by rfl))
    · exact s.keeps_lineFields l (by rfl) (by rfl)

theorem State.keeps_idleLines (ls : List Nat) : s.Keeps (s.idleLines ls) := by
  induction ls generalizing s with
  | nil => exact .refl s
  | cons l ls ih => exact .after (ih _) (s.keeps_lineFields l (by rfl) (by rfl))

theorem State.keeps_clearSync (ls : List Nat) : s.Keeps (s.clearSync ls) := by
  induction ls generalizing s with
  | nil => exact .refl s
  | cons l ls ih => exact .after (ih _) (s.keeps_lineFields l (by rfl) (by rfl))

theorem State.keeps_setSync (l : Nat) (on : Bool) : s.Keeps (s.setSync l on) := by
  unfold State.setSync
  split
  · dsimp only
    have h := s.keeps_clearSync (List.range 8)
    generalize s.clearSync (List.range 8) = u at h ⊢
    exact .after (u.keeps_lineFields l (by rfl) (by rfl)) h
  · dsimp only
    split
    · exact .after (State.keeps_sync ..) (s.keeps_lineFields l (by rfl) (by rfl))
    · exact s.keeps_lineFields l (by rfl) (by rfl)

theorem State.keeps_refreshExpiry (l t : Nat) : s.Keeps (s.refreshExpiry l t) := by
  unfold State.refreshExpiry
  dsimp only
  split
  · exact .after (State.keeps_frameStart ..) (s.keeps_lineFields l (by rfl) (by rfl))
  · exact s.keeps_lineFields l (by rfl) (by rfl)

theorem State.keeps_frameEnd (l : Nat) : s.Keeps (s.frameEnd l) := by
  have h : s.Keeps (s.setLine l { s.line l with frame := none }) := s.keeps_setLine l fun h => by
    simp only [Line.stored, Bool.and_eq_true] at h ⊢
    exact ⟨h.1, rfl⟩
  unfold State.frameEnd
  dsimp only
  split
  · exact .after (State.keeps_frameStart ..) h
  · exact h

/-! ### Cue Memory and the Beat Clock -/

theorem State.keeps_withMemory {m : CueMemory} (h : s.memory.ok → m.ok)
    (hw : Store.wf none s.memory.slots = true → Store.wf none m.slots = true) : s.Keeps (s.withMemory m) := by
  refine ⟨id, id, id, h, fun hs => ?_, rfl, fun _ => id⟩
  rw [State.storageOk_iff] at hs ⊢
  exact ⟨hw hs.1, hs.2⟩

theorem State.keeps_withBeat {b : Beat} (h : s.beat.ok = true → b.ok = true) : s.Keeps (s.withBeat b) :=
  ⟨id, id, h, id, id, rfl, fun _ => id⟩

theorem State.keeps_handBar (ns : List Nat) : s.Keeps (s.handBar ns) := by
  induction ns generalizing s with
  | nil => exact .refl s
  | cons n ns ih => exact .after (ih _) (s.keeps_withPlayback _)

theorem State.keeps_beatNow : s.Keeps s.beatNow := by
  unfold State.beatNow
  dsimp only
  split
  · exact .after (State.keeps_handBar ..) (s.keeps_withBeat Beat.countBeat_ok)
  · exact s.keeps_withBeat Beat.countBeat_ok

theorem State.keeps_takeEdge : s.Keeps s.takeEdge := by
  have h0 : s.Keeps (s.withBeat { s.beat with pulse := none }) := s.keeps_withBeat id
  refine h0.trans ?_
  unfold State.takeEdge State.acceptEdge
  dsimp only
  split
  · exact .refl _
  · have h1 := State.keeps_withBeat (s.withBeat { s.beat with pulse := none })
      (b := ({ s.beat with pulse := none } : Beat).takeEdge s.now) fun h => Beat.takeEdge_ok h _
    split
    · refine .after (State.keeps_beatNow _) (.after (State.keeps_withBeat _ fun h => h) ?_)
      split
      · exact .after (State.keeps_withNotices ..) h1
      · exact h1
    · split
      · exact .after (State.keeps_withNotices ..) h1
      · exact h1

theorem State.keeps_flywheelBeat (t : Nat) : s.Keeps (s.flywheelBeat t) := by
  refine .after (State.keeps_beatNow _) (.trans (s.keeps_withBeat fun h => Beat.takeExpiry_ok h t) ?_)
  split
  · exact State.keeps_withNotices ..
  · exact .refl _

theorem State.keeps_setBeatSource (src : BeatSource) (filter : Bool) : s.Keeps (s.setBeatSource src filter) := by
  unfold State.setBeatSource
  dsimp only
  split
  · exact s.keeps_withBeat id
  · exact .after (State.keeps_withNotices ..)
      (s.keeps_withBeat fun h => Beat.changeSource_ok (b := { s.beat with filter := filter }) h src _)

/-! ### Job slots (R81, R82) -/

theorem State.poolsOk_iff : s.poolsOk = true ↔ s.solver.used .shared ≤ 24 ∧ (∀ c, s.solver.used (.reserve c) ≤ 2) ∧
    (s.solver.queued.map fun j => j.fixture).Nodup := by
  have hall : (∀ c : Cls, s.solver.used (.reserve c) ≤ 2) ↔
      s.solver.used (.reserve .cue) ≤ 2 ∧ s.solver.used (.reserve .direct) ≤ 2 ∧ s.solver.used (.reserve .track) ≤ 2 ∧
        s.solver.used (.reserve .rig) ≤ 2 :=
    ⟨fun h => ⟨h _, h _, h _, h _⟩, fun ⟨h1, h2, h3, h4⟩ c => by cases c <;> assumption⟩
  simp [State.poolsOk, allDistinct_iff, hall, and_assoc]

theorem State.keeps_withSolver {q : Solver} (h : s.poolsOk = true → (s.withSolver q).poolsOk = true) :
    s.Keeps (s.withSolver q) := ⟨id, h, id, id, id, rfl, fun _ => id⟩

theorem State.keeps_setOwed (f : Nat) (c : Option Cls) : s.Keeps (s.setOwed f c) := s.keeps_withSolver id

/-- Jobs taken away: fewer slots in use in every pool, and still at most one job QUEUED for a fixture. -/
theorem State.keeps_fewerJobs {q : Solver} (hj : q.jobs.Sublist s.solver.jobs) (hq : q.queued.Sublist s.solver.queued) :
    s.Keeps (s.withSolver q) := by
  refine s.keeps_withSolver fun h => ?_
  rw [State.poolsOk_iff] at h ⊢
  obtain ⟨hs, hr, hn⟩ := h
  have hle : ∀ p, q.used p ≤ s.solver.used p := fun p => (hj.filter _).length_le
  exact ⟨(hle _).trans hs, fun c => (hle _).trans (hr c), hn.sublist (hq.map _)⟩

/-- Jobs of a solver whose fixtures, in the queue, and whose pools stay. -/
theorem State.keeps_sameSlots {q : Solver} (hp : (q.jobs.map fun j => j.pool).Perm (s.solver.jobs.map fun j => j.pool))
    (hf : (q.queued.map fun j => j.fixture).Sublist (s.solver.queued.map fun j => j.fixture)) :
    s.Keeps (s.withSolver q) := by
  refine s.keeps_withSolver fun h => ?_
  rw [State.poolsOk_iff] at h ⊢
  obtain ⟨hs, hr, hn⟩ := h
  have used_eq : ∀ (r : Solver) p, r.used p = ((r.jobs.map fun j => j.pool).filter fun x => decide (x = p)).length := by
    intro r p; simp [Solver.used, List.filter_map, Function.comp_def]
  have hle : ∀ p, q.used p = s.solver.used p := fun p => by rw [used_eq, used_eq, (hp.filter _).length_eq]
  exact ⟨by rw [← hle] at hs; exact hs, fun c => by have := hr c; rwa [← hle] at this, hn.sublist hf⟩

theorem Solver.jobs_queued (q : Solver) (l : List Job) :
    ({ q with queued := l } : Solver).jobs = (match q.solving with | some j => [j.1] | none => []) ++ l := by
  unfold Solver.jobs
  cases q.solving <;> rfl

theorem Solver.jobs_eq (q : Solver) : q.jobs = (match q.solving with | some j => [j.1] | none => []) ++ q.queued :=
  q.jobs_queued q.queued

theorem State.keeps_coalesce (f p : Nat) (c : Cls) :
    s.Keeps (s.withSolver { s.solver with queued := coalesce f p c s.solver.queued }) := by
  have hsame : ∀ {β : Type} (g : Job → β), (∀ j, g { j with point := p, cls := c } = g j) →
      (coalesce f p c s.solver.queued).map g = s.solver.queued.map g := by
    intro β g hg
    rw [coalesce, List.map_map]
    refine List.map_congr_left fun j _ => ?_
    simp only [Function.comp]; split
    · exact hg j
    · rfl
  refine s.keeps_sameSlots ?_ (by rw [hsame _ fun _ => rfl])
  rw [Solver.jobs_queued, Solver.jobs_eq, List.map_append, List.map_append, hsame _ fun _ => rfl]

/-- A slot taken for a fixture without a QUEUED job, from a pool that has one free (R82, R83). -/
theorem State.keeps_newJob (f p : Nat) (c : Cls) {pool : Pool} (hf : s.solver.hasQueued f = false)
    (hp : s.solver.freePool c = some pool) :
    s.Keeps (s.withSolver { s.solver with queued := s.solver.queued ++ [⟨f, p, c, pool⟩] }) := by
  refine s.keeps_withSolver fun h => ?_
  rw [State.poolsOk_iff] at h ⊢
  obtain ⟨hs, hr, hn⟩ := h
  have hused : ∀ x, ({ s.solver with queued := s.solver.queued ++ [⟨f, p, c, pool⟩] } : Solver).used x =
      s.solver.used x + if pool = x then 1 else 0 := by
    intro x
    rw [Solver.used, Solver.used, Solver.jobs_queued, Solver.jobs_eq, ← List.append_assoc, List.filter_append,
      List.length_append]
    congr 1
    by_cases hx : pool = x <;> simp [hx]
  have hfree : (pool = .shared ∧ s.solver.used .shared < 24) ∨ (pool = .reserve c ∧ s.solver.used (.reserve c) < 2) := by
    unfold Solver.freePool at hp
    split at hp
    · cases hp; exact .inl ⟨rfl, ‹_›⟩
    · split at hp
      · cases hp; exact .inr ⟨rfl, ‹_›⟩
      · cases hp
  refine ⟨?_, fun d => ?_, ?_⟩
  · rw [State.withSolver_solver, hused]
    rcases hfree with ⟨rfl, h⟩ | ⟨rfl, -⟩
    · simp only [if_true]; omega
    · simpa using hs
  · rw [State.withSolver_solver, hused]
    have := hr d
    rcases hfree with ⟨rfl, -⟩ | ⟨rfl, h⟩
    · simpa using this
    · by_cases hcd : c = d
      · subst hcd; simp only [if_true]; omega
      · have hne : Pool.reserve c ≠ .reserve d := fun e => hcd (by injection e)
        simpa [hne] using this
  · rw [State.withSolver_solver, List.map_append, List.map_cons, List.map_nil, List.nodup_append]
    refine ⟨hn, List.nodup_singleton _, fun a ha b hb => ?_⟩
    rw [List.mem_singleton.1 hb]
    obtain ⟨j, hj, rfl⟩ := List.mem_map.1 ha
    have hall : ∀ j ∈ s.solver.queued, j.fixture ≠ f := by simpa [Solver.hasQueued] using hf
    exact hall j hj

end Sys2Proof.Machine
end

