-- ==== Sys2Proof/Proofs/KeepsOps.lean ====
section
/-! PROOFS. The invariants under the operations on records: motion, colour, the solver, claims and the rig. -/

namespace Sys2Proof.Machine

variable (s : State)

/-! ### Motion records -/

theorem State.profileOf_eq_some {s : State} {f : Nat} {k : Profile} :
    s.profileOf f = some k ↔ ∃ p, s.patchOf f = some p ∧ s.kind p.kind = some k := by
  unfold State.profileOf; split <;> simp_all

theorem State.profileOf_rangesOk {s : State} (h : s.recordsOk) {f : Nat} {k : Profile} (hk : s.profileOf f = some k) :
    k.rangesOk := by
  obtain ⟨p, -, hkind⟩ := State.profileOf_eq_some.1 hk
  exact h.2.2 p.kind k hkind

/-- A fixture without a record of the rig has no motion record. -/
theorem State.motionOf_of_unpatched {s : State} (h : s.recordsOk) {f : Nat} (hp : s.patchOf f = none) :
    s.motionOf f = none := by
  by_contra hm
  obtain ⟨m, hm⟩ := Option.ne_none_iff_exists'.1 hm
  obtain ⟨k, hk, -⟩ := h.2.1 f m hm
  obtain ⟨p, hp', -⟩ := State.profileOf_eq_some.1 hk
  rw [hp] at hp'; cases hp'

theorem State.keeps_setMotionOf (f : Nat) (r : Option Motion)
    (h : s.recordsOk → ∀ m, r = some m → s.recordOk f m) : s.Keeps (s.setMotionOf f r) := by
  refine ⟨id, id, id, id, id, rfl, fun _ hr => ⟨hr.1, fun g m hm => ?_, hr.2.2⟩⟩
  rw [State.setMotionOf_motionOf] at hm
  split at hm
  · next hg => subst hg; exact h hr m hm
  · exact hr.2.1 g m hm

/-- An outcome carried out whose record stays in range. -/
theorem State.keeps_applyMotion (f : Nat) (o : MotionOut) (h : s.recordsOk → s.recordOk f o.after) :
    s.Keeps (s.applyMotion f o) := by
  have h1 : s.Keeps (s.setMotionOf f (some o.after)) :=
    s.keeps_setMotionOf f _ fun hr m hm => by cases hm; exact h hr
  unfold State.applyMotion
  dsimp only
  have h2 : ∀ (u : State) (b : Bool) (e : Activity), s.Keeps u → s.Keeps (if b = true then u.raiseOnce e else u) :=
    fun u b e hu => .ite _ (.after (State.keeps_raise ..) hu) hu
  split
  · exact .after (State.keeps_settleAim ..) (h2 _ _ _ (h2 _ _ _ h1))
  · exact h2 _ _ _ (h2 _ _ _ h1)

theorem State.keeps_onMotion (f : Nat) {g : Profile → Motion → MotionOut}
    (h : ∀ k m, k.rangesOk → m.inRange k → (g k m).after.inRange k) : s.Keeps (s.onMotion f g) := by
  unfold State.onMotion
  split
  · next m k hm hk =>
    refine s.keeps_applyMotion f _ fun hr => ?_
    obtain ⟨k', hk', hin⟩ := hr.2.1 f m hm
    cases hk.symm.trans hk'
    exact ⟨k, hk, h k m (State.profileOf_rangesOk hr hk) hin⟩
  · exact .refl s

theorem State.keeps_onMotions (fs : List Nat) {g : Profile → Motion → MotionOut}
    (h : ∀ k m, k.rangesOk → m.inRange k → (g k m).after.inRange k) : s.Keeps (s.onMotions g fs) := by
  induction fs generalizing s with
  | nil => exact .refl s
  | cons f fs ih => exact .after (ih _) (s.keeps_onMotion f h)

theorem State.keeps_syncStepTimer : s.Keeps s.syncStepTimer := by
  unfold State.syncStepTimer
  split
  · split
    · exact .refl s
    · exact s.keeps_withMotion _ (by rfl)
  · exact s.keeps_withMotion _ (by rfl)

theorem State.keeps_deliver (f : Nat) (r : SolveResult) : s.Keeps (s.deliver f r) :=
  s.keeps_onMotion f fun _ _ hk hm => Motion.deliver_inRange hk hm _ r

theorem State.keeps_motionStep (f : Nat) : s.Keeps (State.motionStep f s) := by
  have h1 : s.Keeps ((s.motionTaken f).onMotion f fun k m => m.step k) :=
    .after (State.keeps_onMotion _ f fun _ _ hk hm => Motion.step_inRange hk hm) (s.keeps_withMotion _ (by rfl))
  unfold State.motionStep
  dsimp only
  refine .after (State.keeps_syncStepTimer _) (.ite _ (.after ?_ h1) h1)
  unfold State.writePosition
  split
  · exact State.keeps_writeAim ..
  · exact .refl _

/-! ### Colour records -/

theorem State.keeps_setColourOf (f : Nat) (r : Option Colour) : s.Keeps (s.setColourOf f r) := s.keeps_withColour _

theorem State.keeps_applyColour (f : Nat) (o : ColourOut) : s.Keeps (s.applyColour f o) := by
  have h1 : s.Keeps (s.setColourOf f (some o.after)) := s.keeps_setColourOf ..
  have hw : ∀ u : State, s.Keeps u → s.Keeps (if o.write then u.writeColour f o.after.outputs else u) :=
    fun u hu => .ite _ (.after (State.keeps_writeColour ..) hu) hu
  have hn : ∀ u : State, s.Keeps u → s.Keeps (match o.clamp with
      | some (h, sat, es) => (u.raiseOnce .gamutClamp).notifyGamutClamp ⟨f, h, sat, es⟩
      | none => u) := by
    intro u hu
    split
    · exact .after (State.keeps_withNotices ..) (.after (State.keeps_raise ..) hu)
    · exact hu
  unfold State.applyColour
  dsimp only
  split
  · exact .after (State.keeps_settleColour ..) (hw _ (hn _ h1))
  · exact hw _ (hn _ h1)

theorem State.keeps_onColour (f : Nat) (g : Profile → Patch → Colour → ColourOut) : s.Keeps (s.onColour f g) := by
  unfold State.onColour
  split
  · exact s.keeps_applyColour ..
  · exact .refl s

theorem State.keeps_onColours (g : State → Profile → Patch → Colour → ColourOut) (fs : List Nat) :
    s.Keeps (s.onColours g fs) := by
  induction fs generalizing s with
  | nil => exact .refl s
  | cons f fs ih => exact .after (ih _) (s.keeps_onColour f _)

theorem State.keeps_clearOrigins (q : Nat) (fs : List Nat) : s.Keeps (s.clearOrigins q fs) := by
  induction fs generalizing s with
  | nil => exact .refl s
  | cons f fs ih =>
    refine .after (ih _) ?_
    unfold State.clearOrigin
    split
    · exact .ite _ (s.keeps_setColourOf ..) (.refl s)
    · exact .refl s

/-! ### Solve requests -/

theorem State.keeps_requestHit (f i : Nat) (c : Cls) : s.Keeps (s.requestHit f i c) := by
  unfold State.requestHit
  dsimp only
  have h1 : s.Keeps ((s.raiseJob .cacheHit c).setOwed f none) := .after (State.keeps_setOwed ..) (s.keeps_raise ..)
  exact .after (State.keeps_deliver ..) (.ite _ (.after (State.keeps_withCache ..) h1) h1)

theorem State.keeps_requestMiss (f p : Nat) (c : Cls) : s.Keeps (s.requestMiss f p c).1 := by
  have h1 : s.Keeps (s.raiseJob .cacheMiss c) := s.keeps_raise ..
  unfold State.requestMiss
  dsimp only
  split
  · exact .after (State.keeps_raise ..) (.after (State.keeps_setOwed ..) (.after (State.keeps_coalesce ..) h1))
  · next hq =>
    split
    · next pool hp =>
      refine .after (State.keeps_raise ..) (.after (State.keeps_raise ..) (.after (State.keeps_setOwed ..) ?_))
      exact .after (State.keeps_newJob _ f p c (by simpa using hq) hp) h1
    · exact .after (State.keeps_raise ..) (.after (State.keeps_withNotices ..) (.after (State.keeps_setOwed ..)
        (.after (State.keeps_raise ..) h1)))

theorem State.keeps_request (f p : Nat) (c : Cls) : s.Keeps (s.request f p c).1 := by
  unfold State.request; split
  · exact s.keeps_requestHit ..
  · exact s.keeps_requestMiss ..

theorem State.keeps_reaim (f p : Nat) (law : Law) (c : Cls) : s.Keeps (s.reaim f p law c).1 := by
  unfold State.reaim; split
  · exact .after (State.keeps_request ..) (s.keeps_onMotion f fun _ _ _ hm => Motion.reaim_inRange hm law)
  · exact .refl s

theorem State.keeps_rigReaim (f : Nat) : s.Keeps (s.rigReaim f) := by
  unfold State.rigReaim; split
  · exact s.keeps_reaim ..
  · exact .refl s

theorem State.keeps_rigReaims (fs : List Nat) : s.Keeps (s.rigReaims fs) := by
  induction fs generalizing s with
  | nil => exact .refl s
  | cons f fs ih => exact .after (ih _) (s.keeps_rigReaim f)

theorem State.keeps_trackReaims (p : Nat) (fs : List Nat) : s.Keeps (s.trackReaims p fs).1 := by
  induction fs generalizing s with
  | nil => exact .refl s
  | cons f fs ih => exact .after (ih _) (s.keeps_reaim ..)

theorem State.keeps_serveMarks (fs : List Nat) : s.Keeps (s.serveMarks fs).1 := by
  induction fs generalizing s with
  | nil => exact .refl s
  | cons f fs ih =>
    unfold State.serveMarks
    split
    · exact ih s
    · next c _ =>
      split
      · next p _ =>
        split
        · have hreq := s.keeps_request f p c
          split
          · next h => rw [h] at hreq; exact .after (ih _) hreq
          · next h => rw [h] at hreq; exact hreq
        · exact .after (ih _) (s.keeps_setOwed ..)
      · exact .after (ih _) (s.keeps_setOwed ..)

theorem State.keeps_owedService (p : Pool) : s.Keeps (s.owedService p) := by
  cases p
  · exact s.keeps_serveMarks _
  · exact s.keeps_serveMarks _

theorem State.keeps_dropJobs (f : Nat) : s.Keeps (s.dropJobs f) := by
  have h1 : s.Keeps ((s.withSolver
      { s.solver with queued := s.solver.queued.filter fun j => !decide (j.fixture = f) }).setOwed f none) := by
    refine .after (State.keeps_setOwed ..) (s.keeps_fewerJobs ?_ List.filter_sublist)
    rw [Solver.jobs_queued, Solver.jobs_eq]
    exact List.filter_sublist.append_left _
  unfold State.dropJobs
  dsimp only
  split
  · exact .after (State.keeps_owedService ..) h1
  · exact h1

theorem State.keeps_startJob : s.Keeps s.startJob := by
  unfold State.startJob
  split
  · next j js hs hq =>
    refine s.keeps_sameSlots ?_ ?_
    · simp [Solver.jobs_eq, hs, hq]
    · rw [hq]; exact List.sublist_cons_self ..
  · exact .refl s

theorem State.keeps_cacheFill (f p : Nat) (r : SolveResult) : s.Keeps (s.cacheFill f p r) := by
  unfold State.cacheFill; split
  · exact s.keeps_withCache _
  · exact .after (State.keeps_withCache ..) (s.keeps_withCache _)

theorem State.keeps_completeJob : s.Keeps s.completeJob := by
  unfold State.completeJob
  split
  · exact .refl s
  · next j g _ =>
    refine .after (State.keeps_owedService ..) (.after (State.keeps_fewerJobs _ ?_ (List.Sublist.refl _)) (.ite _ ?_ ?_))
    · rw [Solver.jobs_eq, Solver.jobs_eq]
      exact List.sublist_append_right ..
    · unfold State.keepResult
      exact .ite _ (.after (State.keeps_deliver ..) (s.keeps_cacheFill ..)) (s.keeps_cacheFill ..)
    · exact s.keeps_raise ..

/-! ### Claims -/

theorem State.keeps_handAim (f : Nat) (e : Entry AimClaim) (ms : Nat) : s.Keeps (s.handAim f e ms).1 := by
  unfold State.handAim
  dsimp only
  have h1 : s.Keeps (s.onMotion f fun k m => m.takeAim k s.motionStepping e.body.target e.body.law ms e.handedTag) :=
    s.keeps_onMotion f fun _ _ hk hm => Motion.takeAim_inRange hk hm ..
  split
  · split
    · exact .after (State.keeps_request ..) h1
    · exact h1
  · exact .after (State.keeps_setOwed ..) h1

theorem State.keeps_handNoAim (f : Nat) : s.Keeps (s.handNoAim f) :=
  .after (State.keeps_setOwed ..) (s.keeps_onMotion f fun _ _ _ hm => Motion.noAim_inRange hm)

theorem State.keeps_placeAim (f src : Nat) (c : AimClaim) (tag : Option LaunchTag) :
    s.Keeps (s.placeAim f src c tag).1 :=
  .after (State.keeps_reportAllSuperseded ..) (s.keeps_setAimStack f (stackOk_placeClaim _ _ _ _))

theorem State.keeps_finishAim (f : Nat) (p : Placed) : s.Keeps (s.finishAim f p).1 := by
  unfold State.finishAim State.handTopAim
  split
  · split
    · exact s.keeps_handAim ..
    · exact .refl s
  · exact .refl s

theorem State.keeps_claimAim (f src : Nat) (c : AimClaim) : s.Keeps (s.claimAim f src c).1 :=
  .after (State.keeps_finishAim ..) (s.keeps_placeAim ..)

theorem State.keeps_placeColour (f src : Nat) (c : ColourClaim) (tag : Option LaunchTag) :
    s.Keeps (s.placeColour f src c tag).1 :=
  .after (State.keeps_reportAllSuperseded ..) (s.keeps_setColourStack f (stackOk_placeClaim _ _ _ _))

theorem State.keeps_finishColour (f : Nat) (p : Placed) : s.Keeps (s.finishColour f p) := by
  unfold State.finishColour State.handTopColour
  split
  · split
    · exact s.keeps_onColour ..
    · exact .refl s
  · exact .refl s

theorem State.keeps_claimColour (f src : Nat) (c : ColourClaim) : s.Keeps (s.claimColour f src c).1 :=
  .after (State.keeps_finishColour ..) (s.keeps_placeColour ..)

theorem State.keeps_releaseAim (f src ms : Nat) : s.Keeps (s.releaseAim f src ms).1 := by
  unfold State.releaseAim
  dsimp only
  split
  · have h1 : s.Keeps ((s.setAimStack f (withoutSource src (s.aimStack f))).reportAllSuperseded
        (releaseReports src (s.aimStack f))) :=
      .after (State.keeps_reportAllSuperseded ..) (s.keeps_setAimStack f (stackOk_withoutSource src))
    split
    · split
      · exact .after (State.keeps_handAim ..) h1
      · exact .after (State.keeps_handNoAim ..) h1
    · exact h1
  · exact .refl s

theorem State.keeps_releaseColour (f src ms : Nat) : s.Keeps (s.releaseColour f src ms).1 := by
  unfold State.releaseColour
  dsimp only
  split
  · have h1 : s.Keeps ((s.setColourStack f (withoutSource src (s.colourStack f))).reportAllSuperseded
        (releaseReports src (s.colourStack f))) :=
      .after (State.keeps_reportAllSuperseded ..) (s.keeps_setColourStack f (stackOk_withoutSource src))
    split
    · split
      · exact .after (State.keeps_onColour ..) h1
      · exact .after (State.keeps_onColour ..) h1
    · exact h1
  · exact .refl s

theorem State.keeps_releaseBoth (f src : Nat) (aim colour : Bool) (ms : Nat) :
    s.Keeps (s.releaseBoth f src aim colour ms).1 := by
  have h1 : s.Keeps (if aim then s.releaseAim f src ms else (s, false)).1 := by
    cases aim
    · exact .refl s
    · exact s.keeps_releaseAim ..
  unfold State.releaseBoth
  cases colour
  · exact h1
  · exact .after (State.keeps_releaseColour ..) h1

theorem State.keeps_emptyStacks (f : Nat) : s.Keeps (s.emptyStacks f) :=
  .after (State.keeps_reportAllSuperseded ..) (.after (State.keeps_reportAllSuperseded ..)
    (.after (State.keeps_setColourStack _ f fun _ => rfl) (s.keeps_setAimStack f fun _ => rfl)))

/-! ### Playback -/

theorem State.keeps_setCueList (n : Nat) (l : CueList) : s.Keeps (s.setCueList n l) := s.keeps_withPlayback _

theorem State.keeps_launch (n : Nat) (want : Option Nat) (cause : LaunchCause) : s.Keeps (s.launch n want cause) := by
  unfold State.launch; split
  · exact s.keeps_setCueList ..
  · exact .after (State.keeps_withFreeUses ..) (.after (State.keeps_withNotices ..) (s.keeps_setCueList ..))

theorem State.keeps_autoGo (n : Nat) (cause : LaunchCause) : s.Keeps (s.autoGo n cause) := by
  unfold State.autoGo; split <;> exact s.keeps_setCueList ..

theorem State.keeps_walkClaim (n : Nat) (r : Launch) (pos : Nat) (w : WalkItem) : s.Keeps (s.walkClaim n r pos w) := by
  unfold State.walkClaim
  split
  · split
    · exact .after (State.keeps_finishAim ..) (.after (State.keeps_setCueList ..) (s.keeps_placeAim ..))
    · exact s.keeps_setCueList ..
  · split
    · exact .after (State.keeps_finishColour ..) (.after (State.keeps_setCueList ..) (s.keeps_placeColour ..))
    · exact s.keeps_setCueList ..
  · exact s.keeps_setCueList ..

theorem State.keeps_linkAtSettling (n : Nat) : s.Keeps (s.linkAtSettling n) :=
  .ite _ (s.keeps_setCueList ..) (s.keeps_autoGo ..)

theorem State.keeps_linkOnReport (n : Nat) (r : Launch) : s.Keeps (s.linkOnReport n r) := by
  refine .ite _ (.refl s) ?_
  cases r.link with
  | manual | after => exact .refl s
  | onDone | doneOrAfter => exact s.keeps_linkAtSettling n
  | nextBar => exact s.keeps_setCueList ..

theorem State.keeps_linkAtWalkEnd (n : Nat) (r : Launch) : s.Keeps (s.linkAtWalkEnd n r) := by
  refine .ite _ (.refl s) ?_
  cases r.link with
  | manual => exact .refl s
  | onDone => exact .ite _ (s.keeps_linkAtSettling n) (.refl s)
  | after => exact s.keeps_setCueList ..
  | doneOrAfter => exact .ite _ (s.keeps_linkAtSettling n) (s.keeps_setCueList ..)
  | nextBar => exact .ite _ (s.keeps_setCueList ..) (.refl s)

theorem State.keeps_walkEnd (n : Nat) (r : Launch) : s.Keeps (s.walkEnd n r) := by
  have h1 : ∀ u : State, s.Keeps u →
      s.Keeps ((if r.count = 0 then u.settleNotice n r else u).notifyCueStep
        ⟨n, .launched, r.cue, r.serial, r.count, r.cause⟩) :=
    fun u hu => .after (State.keeps_withNotices ..) (.ite _ (.after (State.keeps_withNotices ..) hu) hu)
  unfold State.walkEnd
  dsimp only
  split
  · split
    · exact .after (State.keeps_setCueList ..) (h1 _ (s.keeps_setCueList ..))
    · exact .after (State.keeps_launch ..) (h1 _ (s.keeps_setCueList ..))
  · exact .after (State.keeps_linkAtWalkEnd ..) (h1 _ (s.keeps_setCueList ..))

theorem State.keeps_reportTaken (r : Report) : s.Keeps (State.reportTaken r s) := by
  refine .trans (s.keeps_withPlayback { s.playback with reports := s.playback.reports.erase r }) ?_
  unfold State.reportTaken State.takeReport
  dsimp only
  split
  · exact .refl _
  · split
    · split
      · split
        · exact .after (State.keeps_linkOnReport ..) (.after (State.keeps_withNotices ..) (State.keeps_setCueList ..))
        · exact .after (State.keeps_withNotices ..) (State.keeps_setCueList ..)
        · exact State.keeps_setCueList ..
      · exact State.keeps_setCueList ..
    · exact .refl _

theorem State.keeps_linkExpiry (n : Nat) : s.Keeps (s.linkExpiry n) :=
  .ite _ (s.keeps_setCueList ..) (.after (State.keeps_autoGo ..) (s.keeps_setCueList ..))

theorem State.keeps_takeBar (n : Nat) : s.Keeps (s.takeBar n) := by
  have h1 : s.Keeps (s.setCueList n { s.cueList n with barsDue := (s.cueList n).barsDue - 1 }) := s.keeps_setCueList ..
  unfold State.takeBar
  dsimp only
  split
  · exact h1
  · split
    · exact .after (State.keeps_launch ..) h1
    · split
      · split
        · exact .after (State.keeps_autoGo ..) (.after (State.keeps_setCueList ..) h1)
        · exact h1
      · exact h1

theorem State.keeps_pauseLists (ns : List Nat) : s.Keeps (s.pauseLists ns) := by
  induction ns generalizing s with
  | nil => exact .refl s
  | cons n ns ih => exact .after (ih _) (s.keeps_setCueList ..)

theorem State.keeps_giveLow (ns : List Nat) : s.Keeps (s.giveLow ns) := by
  induction ns generalizing s with
  | nil => exact .refl s
  | cons n ns ih => exact .after (ih _) (s.keeps_setCueList ..)

theorem State.keeps_resumeList (n : Nat) : s.Keeps (s.resumeList n) := by
  have h1 : s.Keeps (s.setCueList n ((s.cueList n).resume s.now)) := s.keeps_setCueList ..
  have h2 : s.Keeps (if ((s.cueList n).liveLaunch.any fun r => r.due) ∧ s.part = .live then
      (s.setCueList n ((s.cueList n).resume s.now)).autoGo n .done else s.setCueList n ((s.cueList n).resume s.now)) :=
    .ite _ (.after (State.keeps_autoGo ..) h1) h1
  exact .ite _ (.after (State.keeps_setCueList ..) h2) h2

theorem State.keeps_stopChange (high : Bool) : s.Keeps (State.stopChange high s) := by
  have h1 : s.Keeps ((((s.withStop high).notifyStopState high s.part).withStopToMotion (s.stopToMotion ++ [high])).withStopToColour
      (s.stopToColour ++ [high])) :=
    .after (State.keeps_withStopToColour ..) (.after (State.keeps_withStopToMotion ..) (.after (State.keeps_withNotices ..)
      (s.keeps_withStop high)))
  exact .ite _ (.after (State.keeps_pauseLists ..) h1) (.after (State.keeps_giveLow ..) h1)

theorem State.keeps_motionSees (high : Bool) : s.Keeps (s.motionSees high) :=
  .after (State.keeps_withMotion _ _ (by rfl)) (s.keeps_withStopToMotion _)

theorem State.keeps_motionStopHigh : s.Keeps s.motionStopHigh :=
  .after (State.keeps_syncStepTimer _) (.ite _
    (.after (State.keeps_onMotions _ _ fun _ _ _ hm => Motion.stopHigh_inRange hm) (s.keeps_motionSees true))
    (s.keeps_motionSees true))

theorem State.keeps_motionStopLow : s.Keeps s.motionStopLow :=
  .after (State.keeps_syncStepTimer _) (.ite _
    (.after (State.keeps_onMotions _ _ fun _ _ _ hm => Motion.resume_inRange hm) (s.keeps_motionSees false))
    (s.keeps_motionSees false))

theorem State.keeps_colourSees (high : Bool) : s.Keeps (s.colourSees high) :=
  .after (State.keeps_withColour ..) (s.keeps_withStopToColour _)

theorem State.keeps_colourStopHigh : s.Keeps s.colourStopHigh :=
  .ite _ (.after (State.keeps_onColours ..) (.after (State.keeps_withColour ..) (s.keeps_colourSees true)))
    (s.keeps_colourSees true)

theorem State.keeps_resumeColours : s.Keeps s.resumeColours :=
  .after (State.keeps_onColours ..) (s.keeps_withColour _)

end Sys2Proof.Machine
end

