-- ==== Sys2Proof/Proofs/KeepsRig.lean ====
section
/-! PROOFS. The invariants under the operations on the rig, and the four step invariants: by one case analysis over what a
row can do. -/

namespace Sys2Proof.Machine

variable (s : State)

/-! ### What the aims leave of the rig -/

/-- An operation that changes only what an aim passes through leaves the Rig Table. -/
theorem State.rig_of_exceptAim {s t : State} (h : t.exceptAim = s.exceptAim) : t.rig = s.rig := by
  show t.exceptAim.rig = s.exceptAim.rig
  rw [h]

theorem State.invalidate_rig (q : CacheEntry → Bool) : (s.invalidate q).rig = s.rig := by
  rw [State.invalidate, State.invalidateFrom_frame, State.withCache_rig]

theorem State.rigReaim_rig (f : Nat) : (s.rigReaim f).rig = s.rig := State.rig_of_exceptAim (s.rigReaim_exceptAim f)

theorem State.patchOf_of_rig {s t : State} (h : t.rig = s.rig) (f : Nat) : t.patchOf f = s.patchOf f := by
  unfold State.patchOf State.fixture; rw [h]

theorem State.kind_of_rig {s t : State} (h : t.rig = s.rig) (k : Nat) : t.kind k = s.kind k := by
  unfold State.kind; rw [h]

theorem State.advancePose_patchOf (f g : Nat) : (s.advancePose f).patchOf g = s.patchOf g := by
  unfold State.patchOf State.advancePose
  rw [State.setFixture_fixture]
  split
  · next h => rw [h]
  · rfl

theorem State.poseChange_patchOf (f g : Nat) : (s.poseChange f).patchOf g = s.patchOf g := by
  have h : ((s.advancePose f).invalidate fun e => decide (e.fixture = f)).patchOf g = s.patchOf g := by
    rw [State.patchOf_of_rig (State.invalidate_rig ..), State.advancePose_patchOf]
  unfold State.poseChange
  dsimp only
  split
  · rw [State.patchOf_of_rig (State.rigReaim_rig ..), h]
  · exact h

theorem State.poseChange_kind (f k : Nat) : (s.poseChange f).kind k = s.kind k := by
  have h : ((s.advancePose f).invalidate fun e => decide (e.fixture = f)).kind k = s.kind k :=
    State.kind_of_rig (s := s.advancePose f) (State.invalidate_rig ..) k
  unfold State.poseChange
  dsimp only
  split
  · rw [State.kind_of_rig (State.rigReaim_rig ..), h]
  · exact h

theorem State.emptyStacks_rig (f : Nat) : (s.emptyStacks f).rig = s.rig := by
  simp [State.emptyStacks, State.reportAllSuperseded_eq]

theorem State.dropJobs_rig (f : Nat) : (s.dropJobs f).rig = s.rig := State.rig_of_exceptAim (s.dropJobs_exceptAim f)

theorem State.zeroOwn_rig (f : Nat) : (s.zeroOwn f).rig = s.rig := by
  unfold State.zeroOwn; split <;> rfl

theorem State.syncStepTimer_rig : s.syncStepTimer.rig = s.rig := by
  unfold State.syncStepTimer
  split
  · split <;> rfl
  · rfl

/-! ### The rig's own updates -/

/-- A fixture record replaced by one in order; one that has a motion record keeps its kind. -/
theorem State.keeps_setFixture (f : Nat) (r : Fixture)
    (h : s.copyOk → s.recordsOk → (∀ p, r.patch = some p → s.patchOk f p) ∧
      ∀ m, s.motionOf f = some m → ∃ p, r.patch = some p ∧ s.kind p.kind = s.profileOf f) :
    s.Keeps (s.setFixture f r) := by
  refine ⟨id, id, id, id, id, rfl, fun hc hr => ?_⟩
  obtain ⟨hpatch, hmotion⟩ := h hc hr
  have hpat : ∀ g, (s.setFixture f r).patchOf g = if g = f then r.patch else s.patchOf g := fun g => by
    unfold State.patchOf; rw [State.setFixture_fixture]; split <;> rfl
  refine ⟨fun g p hp => ?_, fun g m hm => ?_, hr.2.2⟩
  · rw [hpat] at hp
    split at hp
    · next hg => subst hg; exact hpatch p hp
    · exact hr.1 g p hp
  · obtain ⟨k, hk, hin⟩ := hr.2.1 g m hm
    refine ⟨k, ?_, hin⟩
    by_cases hg : g = f
    · subst hg
      obtain ⟨p, hp, hkind⟩ := hmotion m hm
      exact State.profileOf_eq_some.2 ⟨p, by rw [hpat, if_pos rfl, hp], hkind.trans hk⟩
    · obtain ⟨p, hp, hkind⟩ := State.profileOf_eq_some.1 hk
      exact State.profileOf_eq_some.2 ⟨p, by rw [hpat, if_neg hg, hp], hkind⟩

/-- A fixture record whose fields stay in order, its kind kept. -/
theorem State.keeps_editFixture (f : Nat) (r : Fixture)
    (h : s.recordsOk → ∀ p, s.patchOf f = some p → ∃ q, r.patch = some q ∧ q.kind = p.kind ∧
      (s.patchOk f p → s.patchOk f q)) (hn : s.patchOf f = none → r.patch = none) : s.Keeps (s.setFixture f r) := by
  refine s.keeps_setFixture f r fun _ hr => ⟨fun q hq => ?_, fun m hm => ?_⟩
  · cases hp : s.patchOf f with
    | none => rw [hn hp] at hq; cases hq
    | some p =>
      obtain ⟨q', hq', -, hok⟩ := h hr p hp
      cases hq.symm.trans hq'
      exact hok (hr.1 f p hp)
  · obtain ⟨k, hk, -⟩ := hr.2.1 f m hm
    obtain ⟨p, hp, hkind⟩ := State.profileOf_eq_some.1 hk
    obtain ⟨q, hq, hqk, -⟩ := h hr p hp
    exact ⟨q, hq, by rw [hqk, hkind, hk]⟩

theorem State.keeps_setGen (f g : Nat) : s.Keeps (s.setFixture f { s.fixture f with gen := g }) :=
  s.keeps_editFixture f _ (fun _ p hp => ⟨p, hp, rfl, id⟩) id

/-- A kind replaced while no fixture names it (R2, R3). -/
theorem State.keeps_setKind (j : Nat) (v : Option Profile) (hu : s.kindInUse j = false)
    (hv : ∀ k, v = some k → k.rangesOk) : s.Keeps (s.setKind j v) := by
  refine ⟨id, id, id, id, id, rfl, fun _ hr => ?_⟩
  have hunused : ∀ f p, s.patchOf f = some p → p.kind ≠ j := by
    intro f p hp hj
    have hf := (hr.1 f p hp).1
    have hnone : (List.range 256).filter (fun f => decide ((s.patchOf f).map (fun p => p.kind) = some j)) = [] := by
      rw [← List.length_eq_zero_iff]; simpa [State.kindInUse, State.kindUses] using hu
    exact (List.filter_eq_nil_iff.1 hnone) f (List.mem_range.2 (by omega)) (by simp [hp, hj])
  have hkind : ∀ f p, s.patchOf f = some p → (s.setKind j v).kind p.kind = s.kind p.kind :=
    fun f p hp => State.setKind_kind_other _ _ _ (hunused f p hp)
  refine ⟨fun f p hp => ?_, fun f m hm => ?_, fun i k hk => ?_⟩
  · obtain ⟨hf, k, hk, hok⟩ := hr.1 f p hp
    exact ⟨hf, k, (hkind f p hp).trans hk, hok⟩
  · obtain ⟨k, hk, hin⟩ := hr.2.1 f m hm
    obtain ⟨p, hp, hpk⟩ := State.profileOf_eq_some.1 hk
    exact ⟨k, State.profileOf_eq_some.2 ⟨p, hp, (hkind f p hp).trans hpk⟩, hin⟩
  · rw [State.setKind_kind] at hk
    split at hk
    · exact hv k hk
    · exact hr.2.2 i k hk

theorem RawKind.profile_rangesOk {k : RawKind} (h : k.ok = true) : k.profile.rangesOk := by
  simp only [RawKind.ok, RawKind.rangesOk, Bool.and_eq_true, withinInt, decide_eq_true_eq] at h
  simp only [Profile.rangesOk, RawKind.profile]
  omega

theorem State.keeps_poseChange (f : Nat) : s.Keeps (s.poseChange f) := by
  have h1 : s.Keeps ((s.advancePose f).invalidate fun e => decide (e.fixture = f)) :=
    .after (State.keeps_invalidate ..) (s.keeps_setGen ..)
  unfold State.poseChange
  dsimp only
  split
  · exact .after (State.keeps_rigReaim ..) h1
  · exact h1

theorem State.keeps_moveTruss (t : Nat) (o : Pos) : s.Keeps (s.moveTruss t o) := by
  have h1 : s.Keeps (s.setTrussOffset t o) := ⟨id, id, id, id, id, rfl, fun _ => id⟩
  have h2 : ∀ (fs : List Nat) (u : State), u.Keeps (u.advancePoses fs) := by
    intro fs
    induction fs with
    | nil => exact fun u => .refl u
    | cons f fs ih => exact fun u => .after (ih _) (u.keeps_setGen ..)
  exact .after (State.keeps_rigReaims ..) (.after (State.keeps_invalidate ..) (.after (h2 _ _) h1))

theorem State.keeps_movePoint (p : Nat) (pos : Pos) : s.Keeps (s.movePoint p pos).1 := by
  have h1 : s.Keeps ((s.setPoint p ((s.point p).moved pos s.now s.points.staleLimit)).invalidate
      fun e => decide (e.point = p)) := .after (State.keeps_invalidate ..) (s.keeps_withPoints _)
  unfold State.movePoint
  exact .after (State.keeps_trackReaims ..) (.ite _ (.after (State.keeps_withNotices ..) h1) h1)

/-! ### Creating, moving, unpatching and copying fixtures -/

theorem State.keeps_createRecords {f : Nat} {p : Patch} (k : Profile) (hp : s.patchOf f = some p) :
    s.Keeps (s.createRecords f p k) := by
  have h1 : s.Keeps ((s.setAimStack f []).setColourStack f []) :=
    .after (State.keeps_setColourStack _ f fun _ => rfl) (s.keeps_setAimStack f fun _ => rfl)
  have h2 : s.Keeps (((s.setAimStack f []).setColourStack f []).setMotionOf f
      (some (Motion.fresh p.homePan p.homeTilt))) := by
    refine .after (State.keeps_setMotionOf _ f _ fun hr m hm => ?_) h1
    cases hm
    obtain ⟨-, k', hk, -, hhome⟩ := hr.1 f p hp
    exact ⟨k', State.profileOf_eq_some.2 ⟨p, hp, hk⟩, hhome, hhome⟩
  exact .after (State.keeps_refreshHighest ..) (.after (State.keeps_writeSlots ..) (.after (State.keeps_setColourOf ..) h2))

theorem Profile.homeOk_holds {k : Profile} {pan tilt : Int} (h : k.homeOk pan tilt = true) :
    k.holds (pan * 16) (tilt * 16) := by
  simp only [Profile.homeOk, withinInt, Bool.and_eq_true, decide_eq_true_eq] at h
  unfold Profile.holds; omega

theorem State.keeps_createFixture {f : Nat} {p : Patch} {k : Profile} (hf : f ≤ 255) (hk : s.kind p.kind = some k)
    (hhome : k.homeOk p.homePan p.homeTilt = true) (hn : s.patchOf f = none) : s.Keeps (s.createFixture f p k) := by
  have hpat : ((s.setFixture f { s.fixture f with patch := some p }).poseChange f).patchOf f = some p := by
    rw [State.poseChange_patchOf]; simp [State.patchOf]
  refine .after (State.keeps_createRecords _ k hpat) (.after (State.keeps_poseChange ..) ?_)
  refine s.keeps_setFixture f _ fun _ hr => ⟨fun q hq => ?_, fun m hm => ?_⟩
  · cases hq
    exact ⟨hf, k, hk, hr.2.2 _ k hk, Profile.homeOk_holds hhome⟩
  · rw [State.motionOf_of_unpatched hr hn] at hm; cases hm

theorem State.keeps_discardRecords (f : Nat) : s.Keeps (s.discardRecords f) :=
  .after (State.keeps_setColourOf ..) (s.keeps_setMotionOf f none fun _ _ h => by cases h)

theorem State.discardRecords_motionOf (f : Nat) : (s.discardRecords f).motionOf f = none :=
  State.setMotionOf_motionOf_same ..

/-- A record put in after a fixture's records have been discarded. -/
theorem State.keeps_setDiscarded (f : Nat) (r : Fixture) (hd : s.motionOf f = none)
    (h : s.copyOk → s.recordsOk → ∀ p, r.patch = some p → s.patchOk f p) : s.Keeps (s.setFixture f r) :=
  s.keeps_setFixture f r fun hc hr => ⟨h hc hr, fun m hm => by rw [hd] at hm; cases hm⟩

theorem State.keeps_unpatchOne (f : Nat) : s.Keeps (s.unpatchOne f) := by
  have h1 : s.Keeps (((s.emptyStacks f).dropJobs f).poseChange f) :=
    .after (State.keeps_poseChange ..) (.after (State.keeps_dropJobs ..) (s.keeps_emptyStacks f))
  unfold State.unpatchOne
  dsimp only
  generalize ((s.emptyStacks f).dropJobs f).poseChange f = u at h1 ⊢
  refine .after (State.keeps_syncStepTimer _) (.after (State.keeps_refreshSome _ _) (.after
    (State.keeps_setDiscarded _ f _ (State.discardRecords_motionOf ..) fun _ _ p hp => by cases hp) ?_))
  exact .after (State.keeps_discardRecords ..) (.after (State.keeps_zeroOwn ..) h1)

theorem State.keeps_moveFixture {f : Nat} {old p : Patch} {k : Profile} (hold : s.patchOf f = some old)
    (hkind : p.kind = old.kind) (hk : s.kind p.kind = some k) (hhome : k.homeOk p.homePan p.homeTilt = true) :
    s.Keeps (s.moveFixture f old p k) := by
  have h1 : s.Keeps ((s.setFixture f { s.fixture f with patch := some p }).poseChange f) := by
    refine .after (State.keeps_poseChange ..) (s.keeps_editFixture f _ (fun hr q hq => ⟨p, rfl, ?_, fun hok => ?_⟩) ?_)
    · rw [hold] at hq; cases hq; exact hkind
    · exact ⟨hok.1, k, hk, hr.2.2 _ k hk, Profile.homeOk_holds hhome⟩
    · rw [hold]; nofun
  unfold State.moveFixture
  dsimp only at h1 ⊢
  generalize (s.setFixture f { patch := some p, gen := (s.fixture f).gen }).poseChange f = u at h1 ⊢
  refine .after (State.keeps_refreshHighest ..) (.after (State.keeps_refreshHighest ..) ?_)
  have h2 : s.Keeps (u.zeroFootprint old k.footprint) := .after (State.keeps_writeSlots ..) h1
  split
  · exact .after (State.keeps_writeSlots ..) h2
  · exact h2

theorem State.unpatchOne_kind (f j : Nat) : (s.unpatchOne f).kind j = s.kind j := by
  have h1 : (((s.emptyStacks f).dropJobs f).poseChange f).kind j = s.kind j := by
    rw [State.poseChange_kind, State.kind_of_rig (State.dropJobs_rig ..), State.kind_of_rig (s.emptyStacks_rig f)]
  unfold State.unpatchOne
  dsimp only
  rw [State.kind_of_rig (State.syncStepTimer_rig _)]
  generalize ((s.emptyStacks f).dropJobs f).poseChange f = u at h1 ⊢
  rw [← h1, ← State.kind_of_rig (u.zeroOwn_rig f)]
  cases s.patchOf f <;> rfl

theorem State.unpatchOne_patchOf (f : Nat) : (s.unpatchOne f).patchOf f = none := by
  unfold State.unpatchOne
  dsimp only
  rw [State.patchOf_of_rig (State.syncStepTimer_rig _)]
  cases s.patchOf f <;> simp [State.patchOf, State.refreshHighest]

theorem State.keeps_carryPatch {a : PatchArgs} {m : Mounting} {k : Profile} (ha : a.rangesOk = true)
    (hk : s.kind a.kind = some k) (hf : a.fitsKind k = true) : s.Keeps (s.carryPatch a m k) := by
  have hfix : a.fixture ≤ 255 := by
    simp only [PatchArgs.rangesOk, Bool.and_eq_true, decide_eq_true_eq] at ha; omega
  have hhome : k.homeOk a.homePan a.homeTilt = true := by
    simp only [PatchArgs.fitsKind, Bool.and_eq_true] at hf; exact hf.2
  unfold State.carryPatch
  dsimp only
  split
  · next hn => exact s.keeps_createFixture hfix hk hhome hn
  · next old hold =>
    split
    · next hkind => exact s.keeps_moveFixture hold hkind.symm hk hhome
    · exact .trans (s.keeps_unpatchOne a.fixture) (State.keeps_createFixture _ hfix
        ((s.unpatchOne_kind ..).trans hk) hhome (s.unpatchOne_patchOf _))

/-- A record copied to a place of the table is in order when its source is. -/
theorem State.patchOk_copied {s : State} {src dst : Nat} {p : Patch} (hd : dst ≤ 255) (delta : Pos) (sd : Int)
    (h : s.patchOk src p) : s.patchOk dst (copiedRecord delta sd p) := ⟨hd, h.2⟩

theorem State.keeps_copyRecord (src : Nat) {dst : Nat} (hd : s.copyOk → dst ≤ 255) (delta : Pos) (sd : Int) :
    s.Keeps (s.copyRecord src dst delta sd) := by
  have h1 : s.Keeps ((((s.emptyStacks dst).dropJobs dst).zeroOwn dst).discardRecords dst) :=
    .after (State.keeps_discardRecords ..) (.after (State.keeps_zeroOwn ..) (.after (State.keeps_dropJobs ..)
      (s.keeps_emptyStacks dst)))
  have hrig : ((((s.emptyStacks dst).dropJobs dst).zeroOwn dst).discardRecords dst).rig = s.rig := by
    have h2 : ∀ u : State, (u.discardRecords dst).rig = u.rig := fun _ => rfl
    rw [h2, State.zeroOwn_rig, State.dropJobs_rig, State.emptyStacks_rig]
  have hm := State.discardRecords_motionOf (((s.emptyStacks dst).dropJobs dst).zeroOwn dst) dst
  unfold State.copyRecord
  dsimp only
  generalize (((s.emptyStacks dst).dropJobs dst).zeroOwn dst).discardRecords dst = u at h1 hrig hm ⊢
  rw [← State.patchOf_of_rig hrig src, ← State.patchOf_of_rig hrig dst]
  have h2 : s.Keeps (u.setFixture dst
      { u.fixture dst with patch := (u.patchOf src).map (copiedRecord delta sd) }) := by
    refine .after (State.keeps_setDiscarded _ dst _ hm fun hc hr p hp => ?_) h1
    obtain ⟨q, hq, rfl⟩ := Option.map_eq_some_iff.1 hp
    exact State.patchOk_copied (hd (State.copyOk_of_work (.inl h1.work.symm) hc)) delta sd (hr.1 src q hq)
  refine .after (State.keeps_syncStepTimer _) (.after (State.keeps_refreshSome _ _) (.trans
    (.after (State.keeps_poseChange _ dst) h2) ?_))
  split
  · next p k hp _ =>
    refine State.keeps_createRecords _ k ?_
    rw [State.poseChange_patchOf]
    exact (congrArg Fixture.patch (State.setFixture_fixture_same ..)).trans hp
  · exact .refl _

/-! ### Every row keeps every invariant -/

theorem State.keeps_setPose {a : PoseArgs} (m : Mounting) {p : Patch} {k : Profile} (hp : s.patchOf a.fixture = some p)
    (hk : s.profileOf a.fixture = some k) (hh : k.homeOk a.homePan a.homeTilt = true) :
    s.Keeps ((s.setFixture a.fixture { s.fixture a.fixture with patch := some (PoseOf a m p) }).poseChange a.fixture) := by
  obtain ⟨p', hp', hkind⟩ := State.profileOf_eq_some.1 hk
  cases hp.symm.trans hp'
  refine .after (State.keeps_poseChange ..) (s.keeps_editFixture a.fixture _ (fun hr q hq => ⟨_, rfl, ?_, fun hok => ?_⟩) ?_)
  · cases hp.symm.trans hq; rfl
  · exact ⟨hok.1, k, hkind, hr.2.2 _ k hkind, Profile.homeOk_holds hh⟩
  · rw [hp]; nofun

/-- The fields of a record that no invariant names. -/
theorem State.keeps_samePlace {f : Nat} {p q : Patch} (hp : s.patchOf f = some p) (hk : q.kind = p.kind)
    (hpan : q.homePan = p.homePan) (htilt : q.homeTilt = p.homeTilt) :
    s.Keeps (s.setFixture f { s.fixture f with patch := some q }) := by
  refine s.keeps_editFixture f _ (fun _ r hr => ?_) (by rw [hp]; nofun)
  cases hp.symm.trans hr
  exact ⟨q, rfl, hk, fun hok => by unfold State.patchOk at *; rwa [hk, hpan, htilt]⟩

/-- Everything that a row does outside the link, a reset apart, keeps every invariant. -/
theorem RowCore.keeps {s u : State} (h : RowCore s u) : (∃ cause, u = s.beginReset cause) ∨ s.Keeps u := by
  cases h with
  | reset cause => exact .inl ⟨cause, rfl⟩
  | nothing => exact .inr (.refl s)
  | part p => exact .inr (s.keeps_withPart p)
  | stopChange high => exact .inr (s.keeps_stopChange high)
  | motionStopHigh => exact .inr s.keeps_motionStopHigh
  | motionStopLow => exact .inr s.keeps_motionStopLow
  | colourStopHigh => exact .inr s.keeps_colourStopHigh
  | colourSees high => exact .inr (s.keeps_colourSees high)
  | colourStopLow => exact .inr (.after (State.keeps_resumeColours _) (s.keeps_colourSees false))
  | resumeColours => exact .inr s.keeps_resumeColours
  | resumeList n => exact .inr (s.keeps_resumeList n)
  | rigReaims fs => exact .inr (s.keeps_rigReaims fs)
  | syncStepTimer => exact .inr s.keeps_syncStepTimer
  | startMotion =>
    exact .inr (.after (State.keeps_syncStepTimer _) (s.keeps_onMotions _ fun _ _ _ hm => Motion.startLive_inRange hm))
  | startLines => exact .inr (s.keeps_startLines _)
  | standbyMotion =>
    exact .inr (.after (State.keeps_syncStepTimer _) (s.keeps_onMotions _ fun _ _ _ hm => Motion.standby_inRange hm))
  | standbyColour => exact .inr (.after (State.keeps_onColours ..) (s.keeps_withColour _))
  | setCueList n l => exact .inr (s.keeps_setCueList n l)
  | standbyLines => exact .inr (.after (State.keeps_sync ..) (s.keeps_idleLines _))
  | defineKind k hk hu => exact .inr (s.keeps_setKind _ _ hu fun _ e => by cases e; exact RawKind.profile_rangesOk hk)
  | dropKind k hu => exact .inr (s.keeps_setKind _ _ hu nofun)
  | carryPatch a m k ha hk hf => exact .inr (s.keeps_carryPatch ha hk hf)
  | unpatchOne f => exact .inr (s.keeps_unpatchOne f)
  | setPose a m p k hp hk hh => exact .inr (s.keeps_setPose m hp hk hh)
  | setTrim f p trims hp => exact .inr (s.keeps_samePlace hp rfl rfl rfl)
  | setPassthrough f p k values hp => exact .inr (.after (State.keeps_writeSlots ..) (s.keeps_samePlace hp rfl rfl rfl))
  | moveTruss t o => exact .inr (s.keeps_moveTruss t o)
  | copyRecord src dst prs d sd n hw =>
    exact .inr (s.keeps_copyRecord src (fun hc => hc _ _ _ _ hw _ List.mem_cons_self) d sd)
  | movePoint p pos => exact .inr (s.keeps_movePoint p pos)
  | setPoint p r => exact .inr (s.keeps_withPoints _)
  | staleLimit n => exact .inr (s.keeps_withPoints _)
  | priority l => exact .inr (s.keeps_prio l)
  | claimAim f src c => exact .inr (s.keeps_claimAim f src c)
  | claimColour f src c => exact .inr (s.keeps_claimColour f src c)
  | releaseAim f src ms => exact .inr (s.keeps_releaseAim f src ms)
  | releaseBoth f src aim colour ms => exact .inr (s.keeps_releaseBoth f src aim colour ms)
  | flushCache => exact .inr (.after (State.keeps_withCache ..) (s.keeps_invalidate _))
  | startJob => exact .inr s.keeps_startJob
  | completeJob => exact .inr s.keeps_completeJob
  | motionStep f => exact .inr (s.keeps_motionStep f)
  | halt f =>
    exact .inr (.after (State.keeps_syncStepTimer _) (s.keeps_onMotion f fun _ _ _ hm => Motion.halt_inRange hm))
  | fadeStep f => exact .inr (.after (State.keeps_onColour ..) (s.keeps_withColour _))
  | storeCue cue start replaced link ms es g hj =>
    exact .inr (s.keeps_withMemory (fun h => CueMemory.ok_congr rfl rfl (CueMemory.storeCue_ok (link := link) (ms := ms) hj h))
      (s.memory.storeCue_wf start cue ms link es))
  | stage g => exact .inr (s.keeps_withMemory (CueMemory.ok_congr rfl rfl) id)
  | deleteCue cue => exact .inr (s.keeps_withMemory (CueMemory.deleteCue_ok cue) (s.memory.deleteCue_wf cue))
  | storePalette a start replaced ha hj =>
    have hq : a.palette ≤ 63 := by
      simp only [paletteOk, Bool.and_eq_true, decide_eq_true_eq] at ha; exact ha.1.1
    exact .inr (s.keeps_withMemory (CueMemory.storePalette_ok hq (by rwa [List.length_map]))
      (s.memory.storePalette_wf _ _ _ _ _ _))
  | updatePalette f q ms => exact .inr (s.keeps_onColour ..)
  | deletePalette q =>
    exact .inr (.after (State.keeps_clearOrigins ..)
      (s.keeps_withMemory (CueMemory.deletePalette_ok q) (s.memory.deletePalette_wf q)))
  | pack p => exact .inr (s.keeps_withMemory (CueMemory.ok_congr rfl rfl) id)
  | packStep => exact .inr (s.keeps_withMemory CueMemory.packStep_ok s.memory.packStep_wf)
  | launch n want cause => exact .inr (s.keeps_launch n want cause)
  | walkClaim n r pos w => exact .inr (s.keeps_walkClaim n r pos w)
  | walkEnd n r => exact .inr (s.keeps_walkEnd n r)
  | report r => exact .inr (s.keeps_reportTaken r)
  | linkExpiry n => exact .inr (s.keeps_linkExpiry n)
  | takeBar n => exact .inr (s.keeps_takeBar n)
  | pulse p => exact .inr (s.keeps_withBeat id)
  | takeEdge => exact .inr s.keeps_takeEdge
  | flywheelBeat t => exact .inr (s.keeps_flywheelBeat t)
  | setBeatSource src filter => exact .inr (s.keeps_setBeatSource src filter)
  | setTempo tempo => exact .inr (s.keeps_withBeat fun h => Beat.setTempo_ok h tempo)
  | setBar beats hb => exact .inr (s.keeps_withBeat fun h => Beat.setBar_ok h hb)
  | refreshExpiry l t => exact .inr (s.keeps_refreshExpiry l t)
  | frameEnd l => exact .inr (s.keeps_frameEnd l)
  | setLine l g on => exact .inr (.after (State.keeps_setSync ..) (s.keeps_lineFields l (by rfl) (by rfl)))

/-! ### Every step keeps every invariant -/

theorem State.keeps_endReset : s.Keeps s.endReset :=
  .after (State.keeps_withLink _ _ (by rfl)) (.after (State.keeps_withBeat _ fun h => h) (.after (State.keeps_withColour ..)
    (.after (State.keeps_withMotion _ _ (by rfl)) (s.keeps_withResetting none))))

theorem State.keeps_takeLevel (high : Bool) : s.Keeps (s.takeLevel high) :=
  .after (State.keeps_withColour ..) (.after (State.keeps_withMotion _ _ (by rfl)) (s.keeps_withStop high))

theorem State.keeps_tick : s.Keeps s.tick := by
  refine .after (t := (s.withNow (s.now + 1)).stepTimerTick) ?_ (.trans (s.keeps_withNow (s.now + 1)) ?_)
  · rw [State.tick, State.fadeTimerTick_frame]
    exact State.keeps_withColour ..
  · unfold State.stepTimerTick
    split
    · exact .ite _ (State.keeps_withMotion _ _ (by rfl)) (.refl _)
    · exact .refl _

theorem State.beginReset_work (cause : ResetCause) : (s.beginReset cause).work = none := rfl

theorem copyOk_kept : KeptByRows State.copyOk where
  pending s q := (s.keeps_withPending q).copies
  hold _ _ _ _ _ := State.copyOk_of_work (s := State.reset) (.inr rfl) nofun
  pump s := s.sameOutside_pump.copies
  reset s cause _ := State.copyOk_of_work (s := s) (.inr (s.beginReset_work cause)) ‹_›
  ends s := s.keeps_endReset.copies
  level s high := (s.keeps_takeLevel high).copies
  tick s := s.keeps_tick.copies
  effect c s h := by
    obtain ⟨u, hu, -, hcopy⟩ := rowEffect_core s c
    refine hcopy h ?_
    rcases hu.keeps with ⟨cause, rfl⟩ | hu
    · exact State.copyOk_of_work (.inr (s.beginReset_work cause)) h
    · exact hu.copies h

/-- A predicate of the blocks outside the link that holds after every reset and that `Keeps` passes on, where `Q` does. -/
theorem KeptByRows.of_keeps {Q P : State → Prop} (hQ : KeptByRows Q) (hk : ∀ {s t : State}, s.Keeps t → Q s → P s → P t)
    (hl : ∀ (s : State) (l : Link), P s → P (s.withLink l)) (hr : ∀ (s : State) cause, P (s.beginReset cause)) :
    KeptByRows fun s => Q s ∧ P s where
  pending s q h := ⟨hQ.pending s q h.1, hk (s.keeps_withPending q) h.1 h.2⟩
  hold s c kind hn h := ⟨hQ.hold s c kind hn h.1, hl s _ h.2⟩
  pump s h := ⟨hQ.pump s h.1, by rw [s.pump_frame]; exact hl s _ h.2⟩
  reset s cause h := ⟨hQ.reset s cause h.1, hr s cause⟩
  ends s h := ⟨hQ.ends s h.1, hk s.keeps_endReset h.1 h.2⟩
  level s high h := ⟨hQ.level s high h.1, hk (s.keeps_takeLevel high) h.1 h.2⟩
  tick s h := ⟨hQ.tick s h.1, hk s.keeps_tick h.1 h.2⟩
  effect c s h := by
    refine ⟨hQ.effect c s h.1, ?_⟩
    obtain ⟨u, hu, hf, -⟩ := rowEffect_core s c
    rw [hf]
    rcases hu.keeps with ⟨cause, rfl⟩ | hu
    · exact hl _ _ (hr s cause)
    · exact hl _ _ (hk hu h.1 h.2)

/-- One that needs no other. -/
theorem KeptByRows.of_keeps_alone {P : State → Prop} (hk : ∀ {s t : State}, s.Keeps t → P s → P t)
    (hl : ∀ (s : State) (l : Link), P s → P (s.withLink l)) (hr : ∀ (s : State) cause, P (s.beginReset cause))
    {s t : State} (h : P s) (ht : Machine.step s = .next t) : P t := by
  have hQ : KeptByRows fun _ => True := ⟨by simp, by simp, by simp, by simp, by simp, by simp, by simp, by simp⟩
  exact ((hQ.of_keeps (fun h _ => hk h) hl hr).step s ⟨trivial, h⟩ ht).2

/-! ### The reset values meet the invariants -/

theorem resetValues_recordsOk (now uses : Nat) (stop : Bool) (cause : ResetCause) (q : List Instr) :
    (State.resetValues now uses stop cause q).recordsOk :=
  ⟨fun _ p h => absurd (h : none = some p) nofun, fun _ m h => absurd (h : none = some m) nofun,
    fun _ k h => absurd (h : none = some k) nofun⟩

theorem resetValues_memory_ok : (⟨[], [], [], ⟨.idle, 0, 0, 0⟩, none⟩ : CueMemory).ok := by
  refine ⟨⟨.nil, .nil, nofun⟩, ⟨.nil, .nil, nofun⟩, Nat.zero_le _, nofun, nofun, Nat.zero_le _⟩

/-- Settles O55: the values of a reset, block by block. -/
theorem invariantsHoldAtReset : Obligations.InvariantsHoldAtReset :=
  ⟨rfl, rfl, rfl, resetValues_memory_ok,
    (State.motionOk_iff _).2 ⟨resetValues_recordsOk .., State.copyOk_of_work (s := State.reset) (.inr rfl) nofun⟩, rfl, rfl⟩

/-- Settles O56: every row keeps the stacks and the pools, by the one case analysis of `RowCore.keeps`. -/
theorem stacksAndPoolsStayInOrder : Obligations.StacksAndPoolsStayInOrder :=
  ⟨fun _ _ => KeptByRows.of_keeps_alone (P := fun s => s.stacksOk = true) State.Keeps.claims (fun _ _ => id) fun _ _ => rfl,
    fun _ _ => KeptByRows.of_keeps_alone (P := fun s => s.poolsOk = true) State.Keeps.pools (fun _ _ => id) fun _ _ => rfl⟩

/-- Settles O57: every row keeps the ranges of the Beat Clock. -/
theorem beatStaysInRange : Obligations.BeatStaysInRange := fun _ _ =>
  KeptByRows.of_keeps_alone (P := fun s => s.beat.ok = true) State.Keeps.beat (fun _ _ => id) fun _ _ => rfl

/-- Settles O58: every row keeps the runs apart, and the storage canonical. -/
theorem cueMemoryStaysInOrder : Obligations.CueMemoryStaysInOrder :=
  ⟨fun _ _ => KeptByRows.of_keeps_alone (P := fun s => s.memory.ok) State.Keeps.memory (fun _ _ => id)
      fun _ _ => resetValues_memory_ok,
    fun _ _ => KeptByRows.of_keeps_alone (P := fun s => s.storageOk = true) State.Keeps.storage (fun _ _ => id)
      fun _ _ => rfl⟩

/-- Settles O59: every row keeps the records in range while the copies under way keep to the table, and every row keeps
those. -/
theorem positionsStayInRange : Obligations.PositionsStayInRange := by
  intro s t h ht
  rw [State.motionOk_iff] at h ⊢
  exact ((copyOk_kept.of_keeps (P := State.recordsOk) State.Keeps.records (fun _ _ => id)
    fun _ _ => resetValues_recordsOk ..).step s h.symm ht).symm

end Sys2Proof.Machine
end

