-- ==== Sys2Proof/Proofs/LinkRows.lean ====
section
/-! PROOFS. The Host Link's own statements: the step, the dispatcher, the transmitter, replies, resets and the end of a
reset (chapter 11). -/

namespace Sys2Proof.Machine

variable (s : State)

/-! ### The step (log entry 2) -/

/-- Settles O1: the step by its two cases. -/
theorem stepTakesFrontCommand : Obligations.StepTakesFrontCommand := by
  refine fun s => ⟨fun c cs h => by rw [step, h], fun h => ⟨fun c hc => ?_, fun hc => ?_⟩⟩
  · rw [step, h]; simp only [State.idle, hc]
  · rw [step, h]; simp only [State.idle, hc]

/-! ### When a command's row runs (log entries 11 and 12) -/

theorem State.free_iff : s.free = true ↔ s.resetting = none ∧ s.link.readySent = true ∧ s.link.held = none := by
  simp [State.free, State.linkOpen, and_assoc]

theorem State.hold_handed (hr : s.resetting = none) (c : Instr) (kind : Nat) : (s.hold c kind).handed c = true := by
  simp [State.handed, State.hold, hr]

/-- A free dispatcher with an empty queue takes a well-formed command directly. -/
theorem State.takeCommand_of_free {c : Instr} {kind : Nat} {payload : List Byte} (run : State → State)
    (hc : encodeCommand c = some (kind, payload)) (hf : s.free = true) :
    s.takeCommand c run =
      if s.link.queue = [] ∧ c.wellFormed = true then (run (s.hold c kind)).pump else s := by
  obtain ⟨-, -, hheld⟩ := (s.free_iff).1 hf
  simp [State.takeCommand, hheld, hc, hf]

theorem State.takeCommand_of_other {c : Instr} (run : State → State) {h : Held} (hh : s.link.held = some h)
    (hp : h.phase ≠ .handed c) : s.takeCommand c run = s := by
  simp [State.takeCommand, hh, hp]

theorem State.takeCommand_of_notFree {c : Instr} (run : State → State) (hn : s.link.held = none) (hf : s.free = false) :
    s.takeCommand c run = s := by
  unfold State.takeCommand
  rw [hn]
  dsimp only
  split <;> simp [hf]

/-- While a reset is under way no command's row does anything (R207). -/
theorem State.takeCommand_of_resetting {c : Instr} (run : State → State) (hr : s.resetting.isSome = true) :
    s.takeCommand c run = s := by
  rcases s.takeCommand_cases c run with h | ⟨l, hl, -⟩
  · exact h
  · obtain ⟨hn, -⟩ := (State.handed_iff ..).1 hl
    rw [State.withLink_resetting] at hn
    rw [hn] at hr; cases hr

theorem State.event_of_resetting {en : Bool} (run : State → State) (hr : s.resetting.isSome = true) :
    s.event en run = s := by
  rcases s.event_cases en run with h | ⟨hn, -, -⟩
  · exact h
  · rw [hn] at hr; cases hr

/-- Settles O2: what taking a command's row comes to, by the dispatcher's state. -/
theorem commandRowsWaitForTheDispatcher : Obligations.CommandRowsWaitForTheDispatcher := by
  refine ⟨fun s c kind payload hc => ?_, fun s c hr h1 h2 h3 h4 => ?_⟩
  · have hsome : (encodeCommand c).isSome = true := by rw [hc]; rfl
    simp only [exec_of_carried _ hsome]
    refine ⟨fun hf hq hw => ?_, fun h hh hp => by rw [s.takeCommand_of_other _ hh hp],
      fun hn hf => by rw [s.takeCommand_of_notFree _ hn hf], fun hf hq => ?_⟩
    · have hh := s.hold_handed ((s.free_iff).1 hf).1 c kind
      rw [s.takeCommand_of_free _ hc hf, if_pos ⟨hq, hw⟩, State.takeCommand_of_handed _ _ hh]
      exact ⟨rfl, hh⟩
    · rw [s.takeCommand_of_free _ hc hf, if_neg]
      rintro ⟨hq', hw⟩
      rcases hq with hq | hw'
      · exact hq hq'
      · rw [hw] at hw'; cases hw'
  · by_cases hc : (encodeCommand c).isSome = true
    · rw [exec_of_carried s hc, s.takeCommand_of_resetting _ hr]
    · have hu : unguarded c = false := by
        cases c <;> first | rfl | exact absurd rfl h1 | exact absurd rfl h2 | exact absurd rfl h3 | exact absurd rfl (h4 _)
      rw [exec_of_event s (by simpa using hc) hu, s.event_of_resetting _ hr]

/-! ### The transmitter (R203) -/

theorem State.pump_of_sending (h : s.link.sending.isSome = true) : s.pump = s := by
  unfold State.pump; rw [if_pos (by simp [h])]

theorem State.pump_of_resetting (h : s.resetting.isSome = true) : s.pump = s := by
  unfold State.pump; rw [if_pos (by simp [h])]

section Idle
variable (hr : s.resetting = none) (hs : s.link.sending = none)
include hr hs

theorem State.pump_of_ready (h : s.link.readyWaiting = true) :
    s.pump = (s.withLink { s.link with readyWaiting := false }).beginSend readyFrame .ready := by
  unfold State.pump; simp [hr, hs, h]

theorem State.pump_of_waiting (h : s.link.readyWaiting = false) {x : Held} {f : LinkFrame} (hx : s.link.held = some x)
    (hp : x.phase = .replyWaiting f) : s.pump = s.withLink
      { s.link with
        held := some { x with phase := .replySending }
        sending := some ⟨f, .reply, s.now + 5 * (5 + f.payload.length)⟩ } := by
  have hw : s.link.waitingReply = some f := by simp [Link.waitingReply, hx, hp]
  unfold State.pump
  simp [hr, hs, h, hw, State.sendReply, State.beginSend, Link.setPhase, hx, LinkFrame.micros]

theorem State.pump_of_notice (h : s.link.readyWaiting = false) (hf : s.link.waitingReply = none) {i : Nat}
    (hi : s.link.notices.best = some i) : s.pump = s.sendNotice i := by
  unfold State.pump; simp [hr, hs, h, hf, hi]

theorem State.pump_of_nothing (h : s.link.readyWaiting = false) (hf : s.link.waitingReply = none)
    (hi : s.link.notices.best = none) : s.pump = s := by
  unfold State.pump; simp [hr, hs, h, hf, hi]

end Idle

/-- `j` is the notice to send among those of a list: the highest level, and the first among equals. -/
def bestOf (n : Notices) (l : List Nat) (j : Nat) : Prop :=
  j ∈ l ∧ ∀ i ∈ l, n.level i < n.level j ∨ (n.level i = n.level j ∧ j ≤ i)

/-- One place taken into the choice: it wins over those before it with a higher level alone. -/
def betterNotice (n : Notices) (b : Option Nat) (i : Nat) : Option Nat :=
  match b with
  | none => some i
  | some j => if n.level j < n.level i then some i else some j

theorem Notices.best_eq (n : Notices) : n.best = n.ready.foldl (betterNotice n) none := rfl

/-- The choice over a rising list of places, from a first one below them all. -/
theorem bestOf_foldl (n : Notices) (l : List Nat) : ∀ j, (j :: l).Pairwise (· < ·) →
    ∃ i, l.foldl (betterNotice n) (some j) = some i ∧ bestOf n (j :: l) i := by
  induction l with
  | nil => exact fun j _ => ⟨j, rfl, by simp [bestOf]⟩
  | cons k l ih =>
    intro j hp
    rw [List.pairwise_cons] at hp
    obtain ⟨hj, hp⟩ := hp
    have hjk : j < k := hj k List.mem_cons_self
    rw [List.foldl_cons, betterNotice]
    split
    · next hlt =>
      obtain ⟨i, hi, hmem, hbest⟩ := ih k hp
      refine ⟨i, hi, List.mem_cons_of_mem _ hmem, List.forall_mem_cons.2 ⟨?_, hbest⟩⟩
      have := hbest k List.mem_cons_self
      omega
    · next hge =>
      obtain ⟨i, hi, hmem, hbest⟩ := ih j (hp.of_cons.cons fun x hx => hj x (List.mem_cons_of_mem _ hx))
      have hij := hbest j List.mem_cons_self
      refine ⟨i, hi, ?_, List.forall_mem_cons.2 ⟨hij, List.forall_mem_cons.2 ⟨by omega, fun x hx =>
        hbest x (List.mem_cons_of_mem _ hx)⟩⟩⟩
      rcases List.mem_cons.1 hmem with rfl | hm
      · exact List.mem_cons_self
      · exact List.mem_cons_of_mem _ (List.mem_cons_of_mem _ hm)

theorem Notices.ready_rising (n : Notices) : n.ready.Pairwise (· < ·) := List.pairwise_lt_range.filter _

theorem Notices.best_spec (n : Notices) :
    (∀ i, n.best = some i → bestOf n n.ready i) ∧ (n.best = none → n.ready = []) := by
  have hp := n.ready_rising
  rw [n.best_eq]
  generalize n.ready = r at hp ⊢
  cases r with
  | nil => exact ⟨nofun, fun _ => rfl⟩
  | cons j l =>
    obtain ⟨i, hi, hbest⟩ := bestOf_foldl n l j hp
    rw [List.foldl_cons, betterNotice, hi]
    exact ⟨fun k hk => by cases hk; exact hbest, nofun⟩

/-- Settles O7: the order of the transmitter's choice, and the best of the pending notices. -/
theorem transmitterChoosesInOrder : Obligations.TransmitterChoosesInOrder := by
  refine ⟨Notices.best_spec, fun s => ⟨s.pump_of_sending, fun hr hs => ⟨s.pump_of_ready hr hs, fun hw => ⟨?_, ?_⟩⟩⟩⟩
  · exact fun h f hh hp => s.pump_of_waiting hr hs hw hh hp
  · intro hn
    exact ⟨fun i hi => s.pump_of_notice hr hs hw hn hi, s.pump_of_nothing hr hs hw hn⟩

/-! ### Replies (R201) -/

theorem State.answer_of_held {h : Held} (hh : s.link.held = some h) (st : Status) (data : List Byte) :
    s.answer st data = s.withLink
      { s.link with
        held := some
          { h with
            phase := .replyWaiting
              ⟨(h.kind + 128) % 256, h.tag, BitVec.ofNat 8 st.code :: BitVec.ofNat 8 h.room :: data⟩ } } := by
  unfold State.answer
  rw [hh]
  rfl

/-- Settles O8: the reply's frame, and the transmitter that begins it when it is idle. -/
theorem repliesAreFormed : Obligations.RepliesAreFormed := by
  intro s h st data hh hr hw
  unfold State.answered
  rw [s.answer_of_held hh]
  refine ⟨fun hs => State.pump_of_sending _ hs, fun hs => ?_⟩
  refine Eq.trans (State.pump_of_waiting _ (by exact hr) (by exact hs) (by exact hw) rfl rfl) ?_
  rw [show 7 + data.length = 5 + (data.length + 1 + 1) by omega]
  rfl

/-! ### The end of a transmission and the dispatcher (R200, R207, R208) -/

theorem State.sentOver_of_ended {x : Sending} (hx : s.link.sending = some x) (he : x.ends ≤ s.now) :
    s.sentOver = true := by simp [State.sentOver, hx, he]

theorem exec_transmitEnd_of_over {x : Sending} (hr : s.resetting = none) (hx : s.link.sending = some x)
    (he : x.ends ≤ s.now) : exec .transmitEnd s = .next (s.transmitted x).pump := by
  rw [exec_of_enabled s (c := .transmitEnd) rfl rfl hr (s.sentOver_of_ended hx he)]
  simp [rowEffect, State.endSending, hx]

/-- The free dispatcher takes the oldest frame, with the room it leaves, to its checks. -/
theorem State.dispatch_of_free {f : LinkFrame} {fs : List LinkFrame} (hf : s.free = true) (hq : s.link.queue = f :: fs) :
    s.dispatch = (s.withLink
      { s.link with queue := fs, held := some ⟨f.kind, f.tag, 8 - fs.length, .replyWaiting ⟨f.kind, f.tag, []⟩⟩ }).check
        f := by
  unfold State.dispatch
  rw [if_pos hf, hq]

/-- Settles O6: each frame sent by its kind, and the dispatcher's checks by what the parser finds. -/
theorem transmitEndsAndDispatch : Obligations.TransmitEndsAndDispatch := by
  refine ⟨fun s x hr hx he => ?_, fun s f fs hf hq => ?_⟩
  · simp only [exec_transmitEnd_of_over s hr hx he, State.transmitted]
    refine ⟨fun h => by rw [h], fun h => by rw [h]; rfl, fun h hx => by rw [h, hx]; rfl, fun h hx => ?_⟩
    simp only [h, hx, if_true]
    rw [State.pump_of_resetting _ rfl]
    rfl
  · simp only [s.dispatch_of_free hf hq, State.check]
    refine ⟨fun c hc => by rw [hc]; rfl, fun hc => ?_, fun hc => ?_⟩
    · rw [hc]; exact State.answer_of_held (s.withLink { s.link with queue := fs, held := some _ }) rfl ..
    · rw [hc]; exact State.answer_of_held (s.withLink { s.link with queue := fs, held := some _ }) rfl ..

/-! ### Resets (R207, R208) -/

/-- With no run stored every slot is free. -/
theorem CueMemory.hole_of_empty {m : CueMemory} (hc : m.cues = []) (hp : m.palettes = []) : m.hole = 0 := by
  simp [CueMemory.hole, CueMemory.free, CueMemory.floor, CueMemory.fill, hc, hp, runSlots, floorOf, fillOf]

/-- Settles O9: the reset values, field by field. -/
theorem resetsLeaveTheResetValues : Obligations.ResetsLeaveTheResetValues := by
  intro s
  refine ⟨s.beginReset .powerOn, s.beginReset .pin, rfl, rfl, rfl, rfl, rfl, rfl, rfl, rfl, rfl, ?_⟩
  refine ⟨fun _ => rfl, fun _ => rfl, fun _ => rfl, fun _ => rfl, rfl, rfl, fun _ => ⟨rfl, rfl⟩, ?_⟩
  refine ⟨rfl, fun _ => rfl, rfl, fun _ => ⟨rfl, rfl⟩, rfl, rfl, ?_⟩
  refine ⟨rfl, rfl, rfl, rfl, CueMemory.hole_of_empty rfl rfl, rfl, rfl, fun _ => rfl, rfl, ?_⟩
  refine ⟨rfl, rfl, rfl, rfl, rfl, rfl, rfl, rfl, rfl, rfl, rfl, ?_⟩
  refine ⟨fun _ => rfl, rfl, rfl, rfl, rfl, rfl, rfl, (by decide : ∀ b ∈ Notices.reset.flags, b = false), rfl, rfl, ?_⟩
  exact ⟨rfl, rfl, fun _ => ⟨rfl, rfl⟩⟩

/-- Settles O10: the flywheel, the engines' level of STOP, and READY. -/
theorem resetEnds : Obligations.ResetEnds := by
  intro s
  refine ⟨fun hr hs => ?_, fun hr => ?_⟩
  · show Host.Outcome.next _ = _
    rw [if_pos hr, State.pump_of_ready s.endReset rfl hs rfl]
    rw [Nat.mul_comm 100]
    rfl
  · show Host.Outcome.next _ = _
    rw [hr]; rfl

end Sys2Proof.Machine
end

