-- ==== Sys2Proof/Proofs/HostRows.lean ====
section
/-! PROOFS. The commands of the Host Link: queries, refusals, notices and counters, the part states (chapter 11). -/

namespace Sys2Proof.Machine

variable (s : State)

/-! ### The row of a command with its owner -/

/-- A command with its owner whose row comes to `t`. -/
theorem exec_of_effect {c : Instr} {t : State} (hc : (encodeCommand c).isSome = true) (h : s.handed c = true)
    (he : rowEffect c s = t) : exec c s = .next t.pump := by
  rw [exec_of_handed s hc h, he]

/-- A command with its owner that is answered at once. -/
theorem exec_of_answer {c : Instr} {st : Status} {data : List Byte} (hc : (encodeCommand c).isSome = true)
    (h : s.handed c = true) (he : rowEffect c s = s.answer st data) : exec c s = .next (s.answered st data) :=
  exec_of_effect s hc h he

/-! ### Queries -/

theorem State.profileOf_of_unpatched {f : Nat} (h : s.patchOf f = none) : s.profileOf f = none := by
  simp [State.profileOf, h]

theorem State.isPatched_of_unpatched {f : Nat} (h : s.patchOf f = none) : s.isPatched f = false := by
  simp [State.isPatched, h]

/-- Settles O11: each query's answer, from its own range check. -/
theorem queriesAnswerAndChangeNothing : Obligations.QueriesAnswerAndChangeNothing := by
  intro s
  refine ⟨fun h => exec_of_answer s rfl h rfl, fun h => exec_of_answer s rfl h rfl, fun k p h hk hp => ?_,
    fun k h hk hp => ?_, fun f hf hp => ⟨fun h => ?_, fun h => ?_, fun h => ?_⟩, fun f h hf => ?_, fun p h hp => ?_,
    fun f h hf hp => ?_, fun h => exec_of_answer s rfl h rfl, fun f p k m h hf hp hk hm => ?_,
    fun f k c h hf hk hc => ?_, fun n h hn => ?_, fun h => exec_of_answer s rfl h rfl,
    fun h => exec_of_answer s rfl h rfl, fun l first count h hl h1 h2 h3 => ?_⟩ <;> refine exec_of_answer s rfl h ?_
  · simp [rowEffect, State.queryKind, show ¬ 31 < k by omega, hp]
  · simp [rowEffect, State.queryKind, show ¬ 31 < k by omega, hp, State.refuse]
  · simp [rowEffect, State.queryClaims, show ¬ 255 < f by omega, s.isPatched_of_unpatched hp, State.refuse]
  · simp [rowEffect, State.queryMotion, show ¬ 255 < f by omega, hp, State.refuse]
  · simp [rowEffect, State.queryColour, show ¬ 255 < f by omega, s.profileOf_of_unpatched hp, State.refuse]
  · simp [rowEffect, State.queryFixture, show ¬ 255 < f by omega]
  · simp [rowEffect, State.queryPoint, show ¬ 127 < p by omega]
  · simp [rowEffect, State.queryClaims, show ¬ 255 < f by omega, hp]
  · simp [rowEffect, State.queryMotion, show ¬ 255 < f by omega, hp, hk, hm]
  · simp [rowEffect, State.queryColour, show ¬ 255 < f by omega, hk, hc]
  · simp [rowEffect, State.queryList, show ¬ 7 < n by omega]
  · have : ¬ (7 < l ∨ first < 1 ∨ 512 < first ∨ 513 < first + count) := by omega
    simp only [rowEffect, State.queryLine, if_neg this]

/-! ### Refusals -/

theorem Activity.ofCode_eq_some {n : Nat} {e : Activity} (h : Activity.ofCode n = some e) : e.code = n := by
  simpa using List.find?_some h

theorem Activity.code_range (e : Activity) : 1 ≤ e.code ∧ e.code ≤ 13 := by cases e <;> decide

theorem Activity.ofCode_code (e : Activity) : Activity.ofCode e.code = some e := by cases e <;> decide

theorem linkOfCode_of_high {n : Nat} (h : 4 < n) : linkOfCode n = none := by
  unfold linkOfCode; split <;> first | omega | rfl

theorem mountingOf_of_high {n : Nat} (h : 1 < n) : mountingOf n = none := by
  unfold mountingOf; split <;> first | omega | rfl

/-- Settles O12: each command's own range check, on what is out of range. -/
theorem outOfRangeCommandsAreRefused : Obligations.OutOfRangeCommandsAreRefused := by
  intro s c h hbad
  cases c <;> first | exact False.elim hbad | refine exec_of_answer s rfl h ?_
  case setNotice levels => simp [rowEffect, State.setNotice, hbad, State.refuse]
  case setCounter n e mask =>
    cases he : Activity.ofCode e with
    | none => simp [rowEffect, State.setCounter, he, State.refuse]
    | some a =>
      have hr := a.code_range
      rw [Activity.ofCode_eq_some he] at hr
      simp [rowEffect, State.setCounter, he, show ¬ n ≤ 3 by omega, State.refuse]
  case defineKind k => simp [rowEffect, State.defineKind, hbad, State.refuse]
  case dropKind k => simp [rowEffect, State.dropKind, hbad, State.refuse]
  case queryKind k => simp [rowEffect, State.queryKind, hbad, State.refuse]
  case patch a => simp [rowEffect, State.patch, hbad, State.refuse]
  case setPose a =>
    have hp : poseRangesOk a = false ∨ mountingOf a.mounting = none := by
      rcases hbad with h | h | h | h
      · exact .inl (by simp [poseRangesOk, show ¬ a.fixture ≤ 255 by omega])
      · exact .inl (by simp [poseRangesOk, h])
      · exact .inl (by simp [poseRangesOk, show ¬ a.yaw ≤ 35999 by omega])
      · exact .inr (mountingOf_of_high h)
    rcases hp with hp | hp
    · simp [rowEffect, State.setPose, hp, State.refuse]
    · simp [rowEffect, State.setPose, hp, State.refuse]
  case setTrim f trims => simp [rowEffect, State.setTrim, hbad, State.refuse]
  case setPassthrough f values => simp [rowEffect, State.setPassthrough, hbad, State.refuse]
  case setTruss t o => exact if_pos hbad
  case copyRig a => exact if_pos (.inl hbad)
  case queryFixture f => exact if_pos hbad
  case setPoint p pos => exact if_pos hbad
  case bindTag p t o => exact if_pos hbad
  case unbindTag p => exact if_pos hbad
  case queryPoint p => exact if_pos hbad
  case track rs => exact if_pos hbad
  case setPriority src prio => exact if_pos hbad
  case directAim e => simp [rowEffect, State.directAim, hbad, State.refuse]
  case directColour e => simp [rowEffect, State.directColour, hbad, State.refuse]
  case releaseDirect a => exact if_pos (hbad.imp id Or.symm)
  case bindFollow first count p => exact if_pos hbad
  case unbindFollow first count => simp [rowEffect, State.unbindFollow, hbad, State.refuse]
  case halt first count => simp [rowEffect, State.halt, hbad, State.refuse]
  case queryClaims f => exact if_pos hbad
  case queryMotion f => exact if_pos hbad
  case queryColour f => exact if_pos hbad
  case storeCue mark a =>
    rcases hl : linkOfCode a.link with _ | link
    · simp [rowEffect, State.storeCue, hl, State.refuse]
    · have : mark ≠ 0 ∨ cueFieldsOk a = false := by
        rcases hbad with h | h | h
        · exact .inl h
        · rw [linkOfCode_of_high h] at hl; cases hl
        · exact .inr h
      simp only [rowEffect, State.storeCue, hl, if_pos this, State.refuse]
  case storeCueFirst a =>
    rcases hl : linkOfCode a.link with _ | link
    · simp [rowEffect, State.storeCueFirst, hl, State.refuse]
    · rcases hbad with h | h
      · rw [linkOfCode_of_high h] at hl; cases hl
      · simp [rowEffect, State.storeCueFirst, hl, h, State.refuse]
  case storeCueMore a =>
    rcases hbad with h | h
    · simp [rowEffect, State.storeCueMore, h, State.refuse]
    · simp [rowEffect, State.storeCueMore, h, State.refuse]
  case storeCueLast a =>
    rcases hbad with h | h
    · simp [rowEffect, State.storeCueLast, h, State.refuse]
    · simp [rowEffect, State.storeCueLast, h, State.refuse]
  case deleteCue n => exact if_pos hbad
  case storePalette a => simp [rowEffect, State.storePalette, hbad, State.refuse]
  case deletePalette q => exact if_pos hbad
  case defineList a => simp [rowEffect, State.defineList, hbad, State.refuse]
  case go n cue bar => exact if_pos hbad
  case releaseList n => exact if_pos hbad
  case queryList n => exact if_pos hbad
  case setBeatSource src filter =>
    rcases hs : sourceOfCode src with _ | x
    · simp [rowEffect, State.setBeatSourceCmd, hs, State.refuse]
    · have hf : ¬ filter ≤ 1 := by
        rcases hbad with h | h
        · rw [sourceOfCode_of_out_of_range h] at hs; cases hs
        · omega
      simp [rowEffect, State.setBeatSourceCmd, hs, hf, State.refuse]
  case setBar b => exact if_pos hbad
  case setLine a => exact if_pos hbad
  case queryLine l first count => exact if_pos hbad

/-! ### Notices and counters (R202, R204) -/

theorem Notices.mem_ready {n : Notices} {i : Nat} :
    i ∈ n.ready ↔ ∃ l, n.flags[i]? = some true ∧ n.levels[i]? = some l ∧ 0 < l := by
  have hlen : n.flags.length = 9 := rfl
  simp only [Notices.ready, List.mem_filter, List.mem_range, Bool.and_eq_true, decide_eq_true_eq, Notices.level,
    List.getD_eq_getElem?_getD]
  constructor
  · rintro ⟨hi, hf, hl⟩
    cases hfi : n.flags[i]? with
    | none => simp [hfi] at hf
    | some b =>
      cases hli : n.levels[i]? with
      | none => simp [hli] at hl
      | some l => exact ⟨l, by simpa [hfi] using hf, rfl, by simpa [hli] using hl⟩
  · rintro ⟨l, hf, hli, hl⟩
    refine ⟨?_, by simp [hf], by simpa [hli] using hl⟩
    have := (List.getElem?_eq_some_iff.1 hf).1
    omega

theorem State.noticePin_iff :
    s.noticePin = true ↔ s.resetting = none ∧ ∃ i l : Nat, s.link.notices.flags[i]? = some true ∧
      s.link.notices.levels[i]? = some l ∧ 0 < l := by
  have : s.link.notices.ready.isEmpty = false ↔ ∃ i, i ∈ s.link.notices.ready := by
    cases h : s.link.notices.ready with
    | nil => simp
    | cons i l => simp
  simp only [State.noticePin, Bool.and_eq_true, Bool.not_eq_true', Option.isNone_iff_eq_none, this, Notices.mem_ready]

theorem flagsData_eq (n : Notices) : flagsData n = n.flags.map fun b => if b then 1 else 0 := by
  have h : ∀ b : Bool, flagByte b = [if b then 1 else 0] := by decide
  simp only [flagsData, funext h]
  exact List.flatMap_pure_eq_map ..

/-- Settles O13: the pin by the notices that are ready, and the counters one by one. -/
theorem noticeLevelsAndCounters : Obligations.NoticeLevelsAndCounters := by
  refine ⟨State.noticePin_iff, fun _ => rfl, fun s levels h hl => ?_, fun s n mask e h hn => ?_, fun s h => ?_, ?_⟩
  · refine exec_of_effect s rfl h ?_
    have hl' : levels.any (fun l => decide (3 < l)) = false := by simpa using hl
    simp only [rowEffect, State.setNotice, hl', Bool.false_eq_true, if_false, State.withNotices]
    exact congrArg _ (flagsData_eq _)
  · refine exec_of_effect s rfl h ?_
    simp only [rowEffect, State.setCounter, e.ofCode_code, if_pos hn, setCounterAt]
  · exact exec_of_effect s rfl h rfl
  · intro s e cls n i c hc
    simp only [State.raise, State.withLink_link, List.getElem?_map, hc, Option.map_some, Counter.after]
    congr 1
    cases cls with
    | none => simp [Counter.counts, counterMax]
    | some k => simp [Counter.counts, counterMax]

/-! ### Part states (R205) -/

/-- Settles O14: each command in each part state. -/
theorem partStateCommands : Obligations.PartStateCommands := by
  intro s
  refine ⟨fun h hp => ?_, fun h hp => ?_, fun h hp => ?_, fun h hp => ?_, fun h => exec_of_answer s rfl h rfl⟩
  · exact exec_of_answer s rfl h (if_pos hp)
  · exact exec_of_effect s rfl h (if_neg (by rw [hp]; nofun))
  · exact exec_of_answer s rfl h (if_pos hp)
  · exact exec_of_effect s rfl h (if_neg (by rw [hp]; nofun))

end Sys2Proof.Machine
end

