-- ==== Sys2Proof/Proofs/EngineEvents.lean ====
section
/-! PROOFS. What an event on the records of the Motion Engine and of the Colour Engine leaves, fixture by fixture: the
record, the stack, the reports and everything else. -/

namespace Sys2Proof.Machine

variable (s : State)

/-! ### Settled reports on a stack (R41) -/

/-- `report owed` cleared on the entries that carry the tag of a settled item, if one settled. -/
def clearReported {α : Type} (r : Option LaunchTag) (l : List (Entry α)) : List (Entry α) :=
  match r with
  | some t => clearOwed t l
  | none => l

theorem clearOwed_eq {α : Type} (t : LaunchTag) (l : List (Entry α)) :
    clearOwed t l = l.map fun e => { e with owed := e.owed && !decide (e.tag = some t) } := by
  induction l with
  | nil => rfl
  | cons e l ih =>
    rw [clearOwed, List.map_cons, ih]
    split <;> rename_i h <;> simp [h]

theorem clearReported_eq {α : Type} (r : Option LaunchTag) (l : List (Entry α)) :
    clearReported r l = l.map fun e => { e with owed := e.owed && !(r.isSome && decide (e.tag = r)) } := by
  cases r with
  | none => simp [clearReported]
  | some t => simp [clearReported, clearOwed_eq]

/-! ### Motion records -/

/-- An event on a motion record that raises no activity event. -/
def MotionOut.silent (o : MotionOut) : Prop := o.retarget = false ∧ o.clampEvent = false

/-- What `exceptAim` keeps is the state but for the blocks an aim passes through. -/
theorem State.eq_of_exceptAim {s t : State} (h : t.exceptAim = s.exceptAim) :
    t = { s with
      link := t.link, claims := t.claims, solver := t.solver, cache := t.cache, motion := t.motion
      playback := t.playback } := by
  cases s; cases t
  simp only [State.exceptAim, State.mk.injEq] at h ⊢
  obtain ⟨h1, h2, h3, h4, h5, -, h6, h7, -, -, -, -, h8, h9, h10, h11, -, h12, h13, h14⟩ := h
  exact ⟨h1, h2, h3, h4, h5, trivial, h6, h7, trivial, trivial, trivial, trivial, h8, h9, h10, h11, trivial, h12, h13, h14⟩

/-- `t` is `s` but for the motion records, the AIM stacks, the reports sent and the link. -/
structure State.MotionFrame (s t : State) : Prop where
  others : t.exceptAim = s.exceptAim
  solver : t.solver = s.solver
  cache : t.cache = s.cache
  motion : t.motion = { s.motion with records := t.motion.records }
  prio : t.claims.prio = s.claims.prio
  colours : t.claims.colour = s.claims.colour
  lists : t.playback.lists = s.playback.lists

theorem State.MotionFrame.refl : s.MotionFrame s := ⟨rfl, rfl, rfl, rfl, rfl, rfl, rfl⟩

theorem State.motionFrame_withLink (l : Link) : s.MotionFrame (s.withLink l) := ⟨rfl, rfl, rfl, rfl, rfl, rfl, rfl⟩

theorem State.motionFrame_setMotionOf (f : Nat) (r : Option Motion) : s.MotionFrame (s.setMotionOf f r) :=
  ⟨rfl, rfl, rfl, rfl, rfl, rfl, rfl⟩

theorem State.motionFrame_settleAim (f : Nat) (t : LaunchTag) : s.MotionFrame (s.settleAim f t) :=
  ⟨rfl, rfl, rfl, rfl, rfl, rfl, rfl⟩

theorem State.MotionFrame.trans {s t u : State} (h : s.MotionFrame t) (h' : t.MotionFrame u) : s.MotionFrame u where
  others := h'.others.trans h.others
  solver := h'.solver.trans h.solver
  cache := h'.cache.trans h.cache
  motion := by rw [h'.motion, h.motion]
  prio := h'.prio.trans h.prio
  colours := h'.colours.trans h.colours
  lists := h'.lists.trans h.lists

theorem State.MotionFrame.eq {s t : State} (h : s.MotionFrame t) :
    t = (((s.withMotion t.motion).withClaims t.claims).withPlayback t.playback).withLink t.link := by
  have he := State.eq_of_exceptAim h.others
  rw [h.solver, h.cache] at he
  exact he

section Motion
variable (f : Nat) (o : MotionOut)

theorem State.applyMotion_aimStack (g : Nat) :
    (s.applyMotion f o).aimStack g = if g = f then clearReported o.report (s.aimStack g) else s.aimStack g := by
  have h (t : State) (ht : t.claims = s.claims) (tag : LaunchTag) : (t.settleAim f tag).aimStack g =
      if g = f then clearOwed tag (s.aimStack g) else s.aimStack g := by
    have hst (i : Nat) : t.aimStack i = s.aimStack i := by simp only [State.aimStack, ht]
    simp only [State.settleAim, State.sendReport, State.withPlayback_aimStack, State.setAimStack_aimStack, hst]
    split
    · next he => rw [he]
    · rfl
  unfold State.applyMotion
  cases o.retarget <;> cases o.clampEvent <;> cases o.report <;>
    first | exact h _ rfl _ | exact (ite_self _).symm

theorem State.applyMotion_playback :
    (s.applyMotion f o).playback =
      { s.playback with reports := s.playback.reports ++ o.report.toList.map fun t => ⟨true, t⟩ } := by
  unfold State.applyMotion
  cases o.retarget <;> cases o.clampEvent <;> cases o.report <;>
    simp [State.settleAim, State.sendReport, State.raiseOnce, State.raise]

theorem State.applyMotion_frame : s.MotionFrame (s.applyMotion f o) := by
  have hite (p : Prop) [Decidable p] {t : State} (e : Activity) (h : s.MotionFrame t) :
      s.MotionFrame (if p then t.raiseOnce e else t) := by
    split
    · exact h.trans (t.motionFrame_withLink _)
    · exact h
  unfold State.applyMotion
  dsimp only
  split
  · exact (hite _ _ (hite _ _ (s.motionFrame_setMotionOf f _))).trans (State.motionFrame_settleAim _ f _)
  · exact hite _ _ (hite _ _ (s.motionFrame_setMotionOf f _))

theorem State.applyMotion_link (ho : o.silent) : (s.applyMotion f o).link = s.link := by
  obtain ⟨hr, hc⟩ := ho
  unfold State.applyMotion
  rw [hr, hc]
  cases o.report <;> rfl

variable (g : Profile → Motion → MotionOut)

theorem State.onMotion_of_record {q : Motion} {k : Profile} (hq : s.motionOf f = some q) (hk : s.profileOf f = some k) :
    s.onMotion f g = s.applyMotion f (g k q) := by simp [State.onMotion, hq, hk]

theorem State.onMotion_of_none (h : s.motionOf f = none ∨ s.profileOf f = none) : s.onMotion f g = s := by
  unfold State.onMotion
  split
  · next hq hk => rcases h with h | h <;> [rw [hq] at h; rw [hk] at h] <;> cases h
  · rfl

theorem State.onMotion_cases :
    s.onMotion f g = s ∧ (s.motionOf f = none ∨ s.profileOf f = none) ∨
      ∃ q k, s.motionOf f = some q ∧ s.profileOf f = some k ∧ s.onMotion f g = s.applyMotion f (g k q) := by
  cases hq : s.motionOf f with
  | none => exact .inl ⟨s.onMotion_of_none f g (.inl hq), .inl rfl⟩
  | some q =>
    cases hk : s.profileOf f with
    | none => exact .inl ⟨s.onMotion_of_none f g (.inr hk), .inr rfl⟩
    | some k => exact .inr ⟨q, k, rfl, rfl, s.onMotion_of_record f g hq hk⟩

theorem State.profileOf_of_exceptAim {t : State} (h : t.exceptAim = s.exceptAim) (i : Nat) :
    t.profileOf i = s.profileOf i := by
  have hr := State.rig_of_exceptAim h
  simp only [State.profileOf, State.patchOf, State.fixture, State.kind, hr]

/-- What one event on a record leaves alone: the other records and stacks, and the blocks an aim does not pass. -/
theorem State.onMotion_other {i : Nat} (hi : i ≠ f) :
    (s.onMotion f g).motionOf i = s.motionOf i ∧ (s.onMotion f g).aimStack i = s.aimStack i := by
  refine ⟨s.onMotion_motionOf_other g hi, ?_⟩
  rcases s.onMotion_cases f g with ⟨h, -⟩ | ⟨q, k, -, -, h⟩ <;> rw [h]
  rw [State.applyMotion_aimStack, if_neg hi]

end Motion

section Motions
variable (g : Profile → Motion → MotionOut) (fs : List Nat)

/-- A fixture that the events do not reach, or that has no record or kind, keeps its record and its stack. -/
theorem State.onMotions_other {i : Nat} (h : i ∉ fs ∨ s.motionOf i = none ∨ s.profileOf i = none) :
    (s.onMotions g fs).motionOf i = s.motionOf i ∧ (s.onMotions g fs).aimStack i = s.aimStack i := by
  induction fs generalizing s with
  | nil => exact ⟨rfl, rfl⟩
  | cons f fs ih =>
    have hone : (s.onMotion f g).motionOf i = s.motionOf i ∧ (s.onMotion f g).aimStack i = s.aimStack i := by
      by_cases hi : i = f
      · subst hi
        rw [s.onMotion_of_none i g (h.resolve_left (by simp))]
        exact ⟨rfl, rfl⟩
      · exact s.onMotion_other f g hi
    have hp := State.profileOf_of_exceptAim s (s.onMotion_exceptAim f g) i
    obtain ⟨hm, ha⟩ := ih (s.onMotion f g) (by
      rw [hone.1, hp]
      exact h.imp_left fun hn hi => hn (List.mem_cons_of_mem _ hi))
    exact ⟨hm.trans hone.1, ha.trans hone.2⟩

/-- A fixture that the events reach has the event's record, and its settled report cleared on its stack. -/
theorem State.onMotions_of_mem (hn : fs.Nodup) {i : Nat} (hi : i ∈ fs) {q : Motion} {k : Profile}
    (hq : s.motionOf i = some q) (hk : s.profileOf i = some k) :
    (s.onMotions g fs).motionOf i = some (g k q).after ∧
      (s.onMotions g fs).aimStack i = clearReported (g k q).report (s.aimStack i) := by
  induction fs generalizing s with
  | nil => cases hi
  | cons f fs ih =>
    obtain ⟨hf, hn⟩ := List.nodup_cons.1 hn
    by_cases h : i = f
    · subst h
      obtain ⟨hm, ha⟩ := (s.onMotion i g).onMotions_other g fs (.inl hf)
      rw [State.onMotions, hm, ha, s.onMotion_of_record i g hq hk, State.applyMotion_motionOf,
        State.applyMotion_aimStack, if_pos rfl, if_pos rfl]
      exact ⟨rfl, rfl⟩
    · obtain ⟨hm, ha⟩ := s.onMotion_other f g h
      rw [← ha]
      exact ih _ hn ((List.mem_cons.1 hi).resolve_left h) (hm.trans hq)
        ((State.profileOf_of_exceptAim s (s.onMotion_exceptAim f g) i).trans hk)

/-- The settled reports that the events send, in the order of the fixtures. -/
def State.motionReports (s : State) (g : Profile → Motion → MotionOut) (fs : List Nat) : List LaunchTag :=
  fs.filterMap fun f => (s.profileOf f).bind fun k => (s.motionOf f).bind fun q => (g k q).report

theorem State.onMotion_playback (f : Nat) :
    (s.onMotion f g).playback =
      { s.playback with reports := s.playback.reports ++ (s.motionReports g [f]).map fun t => ⟨true, t⟩ } := by
  rcases s.onMotion_cases f g with ⟨h, hn⟩ | ⟨q, k, hq, hk, h⟩
  · have : s.motionReports g [f] = [] := by
      rcases hn with hn | hn <;> simp [State.motionReports, hn]
    rw [h, this]; simp
  · have : s.motionReports g [f] = (g k q).report.toList := by
      simp only [State.motionReports, List.filterMap_cons, List.filterMap_nil, hq, hk, Option.bind_some]
      cases (g k q).report <;> rfl
    rw [h, this, State.applyMotion_playback]

theorem State.onMotions_playback (hn : fs.Nodup) :
    (s.onMotions g fs).playback =
      { s.playback with reports := s.playback.reports ++ (s.motionReports g fs).map fun t => ⟨true, t⟩ } := by
  induction fs generalizing s with
  | nil => simp [State.onMotions, State.motionReports]
  | cons f fs ih =>
    obtain ⟨hf, hn⟩ := List.nodup_cons.1 hn
    have hsame : (s.onMotion f g).motionReports g fs = s.motionReports g fs := by
      refine List.filterMap_congr fun i hi => ?_
      have hne : i ≠ f := fun h => hf (h ▸ hi)
      rw [(s.onMotion_other f g hne).1, State.profileOf_of_exceptAim s (s.onMotion_exceptAim f g) i]
    have happ : s.motionReports g (f :: fs) = s.motionReports g [f] ++ s.motionReports g fs :=
      List.filterMap_append (l := [f]) ..
    rw [State.onMotions, ih _ hn, State.onMotion_playback, hsame, happ]
    simp [List.append_assoc]

theorem State.onMotion_frame (f : Nat) : s.MotionFrame (s.onMotion f g) := by
  rcases s.onMotion_cases f g with ⟨h, -⟩ | ⟨q, k, -, -, h⟩ <;> rw [h]
  · exact .refl s
  · exact s.applyMotion_frame f _

theorem State.onMotions_frame : s.MotionFrame (s.onMotions g fs) := by
  induction fs generalizing s with
  | nil => exact .refl s
  | cons f fs ih => exact (s.onMotion_frame g f).trans (ih _)

theorem State.onMotions_link (hg : ∀ k q, (g k q).silent) : (s.onMotions g fs).link = s.link := by
  induction fs generalizing s with
  | nil => rfl
  | cons f fs ih =>
    rw [State.onMotions, ih]
    rcases s.onMotion_cases f g with ⟨h, -⟩ | ⟨q, k, -, -, h⟩ <;> rw [h]
    exact s.applyMotion_link f _ (hg k q)

end Motions

/-! ### Colour records -/

/-- An event on a colour record that clamps nothing and writes no slot. -/
def ColourOut.silent (o : ColourOut) : Prop := o.clamp = none ∧ o.write = false

/-- `t` is `s` but for the colour records, the COLOUR stacks, the reports sent, the link and the lines. -/
structure State.ColourFrame (s t : State) : Prop where
  others : t.exceptColour = s.exceptColour
  colour : t.colour = { s.colour with records := t.colour.records }
  prio : t.claims.prio = s.claims.prio
  aims : t.claims.aim = s.claims.aim
  lists : t.playback.lists = s.playback.lists
  sync : t.lines.sync = s.lines.sync

/-- What `exceptColour` keeps is the state but for the blocks a colour passes through. -/
theorem State.eq_of_exceptColour {s t : State} (h : t.exceptColour = s.exceptColour) :
    t = { s with
      link := t.link, claims := t.claims, colour := t.colour, playback := t.playback, lines := t.lines } := by
  cases s; cases t
  simp only [State.exceptColour, State.mk.injEq] at h ⊢
  obtain ⟨h1, h2, h3, h4, h5, -, h6, h7, -, h8, h9, h10, -, h11, h12, h13, -, h14, -, h15⟩ := h
  exact ⟨h1, h2, h3, h4, h5, trivial, h6, h7, trivial, h8, h9, h10, trivial, h11, h12, h13, trivial, h14, trivial, h15⟩

theorem State.rig_of_exceptColour {t : State} (h : t.exceptColour = s.exceptColour) : t.rig = s.rig := by
  show t.exceptColour.rig = s.exceptColour.rig
  rw [h]

theorem State.ColourFrame.refl : s.ColourFrame s := ⟨rfl, rfl, rfl, rfl, rfl, rfl⟩

theorem State.ColourFrame.trans {s t u : State} (h : s.ColourFrame t) (h' : t.ColourFrame u) : s.ColourFrame u where
  others := h'.others.trans h.others
  colour := by rw [h'.colour, h.colour]
  prio := h'.prio.trans h.prio
  aims := h'.aims.trans h.aims
  lists := h'.lists.trans h.lists
  sync := h'.sync.trans h.sync

theorem State.ColourFrame.eq {s t : State} (h : s.ColourFrame t) :
    t = ((((s.withColour t.colour).withClaims t.claims).withPlayback t.playback).withLink t.link).withLines t.lines :=
  State.eq_of_exceptColour h.others

theorem State.colourFrame_withLink (l : Link) : s.ColourFrame (s.withLink l) := ⟨rfl, rfl, rfl, rfl, rfl, rfl⟩

theorem State.colourFrame_setLine (l : Nat) (r : Line) : s.ColourFrame (s.setLine l r) := ⟨rfl, rfl, rfl, rfl, rfl, rfl⟩

theorem State.colourFrame_setColourOf (f : Nat) (r : Option Colour) : s.ColourFrame (s.setColourOf f r) :=
  ⟨rfl, rfl, rfl, rfl, rfl, rfl⟩

theorem State.colourFrame_settleColour (f : Nat) (t : LaunchTag) : s.ColourFrame (s.settleColour f t) :=
  ⟨rfl, rfl, rfl, rfl, rfl, rfl⟩

section Colour
variable (f : Nat) (o : ColourOut)

/-- The state once a colour event has clamped and written: its report is still to be sent. -/
def State.colourWritten (s : State) (f : Nat) (o : ColourOut) : State :=
  let s := s.setColourOf f (some o.after)
  let s :=
    match o.clamp with
    | some (h, sat, es) => (s.raiseOnce .gamutClamp).notifyGamutClamp ⟨f, h, sat, es⟩
    | none => s
  if o.write then s.writeColour f o.after.outputs else s

theorem State.applyColour_eq : s.applyColour f o =
    match o.report with
    | some t => (s.colourWritten f o).settleColour f t
    | none => s.colourWritten f o := rfl

theorem State.colourFrame_writeColour (outs : List Nat) : s.ColourFrame (s.writeColour f outs) := by
  unfold State.writeColour
  split
  · exact s.colourFrame_setLine _ _
  · exact .refl s

theorem State.colourFrame_written : s.ColourFrame (s.colourWritten f o) := by
  have hset := s.colourFrame_setColourOf f (some o.after)
  unfold State.colourWritten
  dsimp only
  split <;> split
  · exact (hset.trans (State.colourFrame_withLink _ _)).trans (State.colourFrame_writeColour _ f _)
  · exact hset.trans (State.colourFrame_writeColour _ f _)
  · exact hset.trans (State.colourFrame_withLink _ _)
  · exact hset

theorem State.applyColour_frame : s.ColourFrame (s.applyColour f o) := by
  rw [s.applyColour_eq f o]
  split
  · exact (s.colourFrame_written f o).trans (State.colourFrame_settleColour _ f _)
  · exact s.colourFrame_written f o

theorem State.writeColour_eq (outs : List Nat) :
    s.writeColour f outs = s.withLines (s.writeColour f outs).lines := by
  unfold State.writeColour; split <;> rfl

/-- What the first part of a colour event leaves: the record, the stacks and the reports. -/
theorem State.colourWritten_spec :
    (∀ g, (s.colourWritten f o).colourOf g = if g = f then some o.after else s.colourOf g) ∧
      (s.colourWritten f o).claims = s.claims ∧ (s.colourWritten f o).playback = s.playback := by
  unfold State.colourWritten
  dsimp only
  split <;> split
  · rw [State.writeColour_eq]; exact ⟨fun g => State.setColourOf_colourOf .., rfl, rfl⟩
  · rw [State.writeColour_eq]; exact ⟨fun g => State.setColourOf_colourOf .., rfl, rfl⟩
  · exact ⟨fun g => State.setColourOf_colourOf .., rfl, rfl⟩
  · exact ⟨fun g => State.setColourOf_colourOf .., rfl, rfl⟩

theorem State.applyColour_colourOf (g : Nat) :
    (s.applyColour f o).colourOf g = if g = f then some o.after else s.colourOf g := by
  rw [s.applyColour_eq f o]
  split <;> exact (s.colourWritten_spec f o).1 g

theorem State.applyColour_colourStack (g : Nat) :
    (s.applyColour f o).colourStack g =
      if g = f then clearReported o.report (s.colourStack g) else s.colourStack g := by
  obtain ⟨-, hc, -⟩ := s.colourWritten_spec f o
  have hst (i : Nat) : (s.colourWritten f o).colourStack i = s.colourStack i := by simp only [State.colourStack, hc]
  rw [s.applyColour_eq f o]
  split
  · next t ht =>
    simp only [State.settleColour, State.sendReport, State.withPlayback_colourStack, State.setColourStack_colourStack,
      hst, ht]
    split
    · next he => rw [he]; rfl
    · rfl
  · next ht =>
    rw [ht, hst]; exact (ite_self _).symm

theorem State.applyColour_playback :
    (s.applyColour f o).playback =
      { s.playback with reports := s.playback.reports ++ o.report.toList.map fun t => ⟨true, t⟩ } := by
  obtain ⟨-, -, hp⟩ := s.colourWritten_spec f o
  rw [s.applyColour_eq f o]
  split
  · next t ht => simp [State.settleColour, State.sendReport, hp, ht]
  · next ht => simp [hp, ht]

theorem State.applyColour_link (ho : o.silent) :
    (s.applyColour f o).link = s.link ∧ (s.applyColour f o).lines = s.lines := by
  obtain ⟨hc, hw⟩ := ho
  have h : s.colourWritten f o = s.setColourOf f (some o.after) := by
    unfold State.colourWritten; rw [hc, hw]; rfl
  rw [s.applyColour_eq f o, h]
  split <;> exact ⟨rfl, rfl⟩

variable (g : Profile → Patch → Colour → ColourOut)

theorem State.onColour_of_record {q : Colour} {k : Profile} {p : Patch} (hq : s.colourOf f = some q)
    (hk : s.profileOf f = some k) (hp : s.patchOf f = some p) : s.onColour f g = s.applyColour f (g k p q) := by
  simp [State.onColour, hq, hk, hp]

theorem State.patchOf_of_profileOf {k : Profile} (h : s.profileOf f = some k) : ∃ p, s.patchOf f = some p := by
  cases hp : s.patchOf f with
  | none => rw [s.profileOf_of_unpatched hp] at h; cases h
  | some p => exact ⟨p, rfl⟩

theorem State.onColour_of_none (h : s.colourOf f = none ∨ s.profileOf f = none) : s.onColour f g = s := by
  unfold State.onColour
  split
  · next hq hk _ => rcases h with h | h <;> [rw [hq] at h; rw [hk] at h] <;> cases h
  · rfl

theorem State.onColour_cases :
    s.onColour f g = s ∧ (s.colourOf f = none ∨ s.profileOf f = none) ∨
      ∃ q k p, s.colourOf f = some q ∧ s.profileOf f = some k ∧ s.patchOf f = some p ∧
        s.onColour f g = s.applyColour f (g k p q) := by
  cases hq : s.colourOf f with
  | none => exact .inl ⟨s.onColour_of_none f g (.inl hq), .inl rfl⟩
  | some q =>
    cases hk : s.profileOf f with
    | none => exact .inl ⟨s.onColour_of_none f g (.inr hk), .inr rfl⟩
    | some k =>
      obtain ⟨p, hp⟩ := s.patchOf_of_profileOf f hk
      exact .inr ⟨q, k, p, rfl, rfl, hp, s.onColour_of_record f g hq hk hp⟩

theorem State.onColour_frame : s.ColourFrame (s.onColour f g) := by
  rcases s.onColour_cases f g with ⟨h, -⟩ | ⟨q, k, p, -, -, -, h⟩ <;> rw [h]
  · exact .refl s
  · exact s.applyColour_frame f _

theorem State.onColour_profileOf (i : Nat) : (s.onColour f g).profileOf i = s.profileOf i := by
  have hr := s.rig_of_exceptColour (s.onColour_frame f g).others
  simp only [State.profileOf, State.patchOf, State.fixture, State.kind, hr]

theorem State.onColour_other {i : Nat} (hi : i ≠ f) :
    (s.onColour f g).colourOf i = s.colourOf i ∧ (s.onColour f g).colourStack i = s.colourStack i := by
  rcases s.onColour_cases f g with ⟨h, -⟩ | ⟨q, k, p, -, -, -, h⟩ <;> rw [h]
  · exact ⟨rfl, rfl⟩
  · rw [State.applyColour_colourOf, State.applyColour_colourStack, if_neg hi, if_neg hi]
    exact ⟨rfl, rfl⟩

end Colour

section Colours
variable (g : Profile → Patch → Colour → ColourOut) (fs : List Nat)

/-- A fixture that the events do not reach, or that has no record or kind, keeps its record and its stack. -/
theorem State.onColours_other {i : Nat} (h : i ∉ fs ∨ s.colourOf i = none ∨ s.profileOf i = none) :
    (s.onColours (fun _ => g) fs).colourOf i = s.colourOf i ∧
      (s.onColours (fun _ => g) fs).colourStack i = s.colourStack i := by
  induction fs generalizing s with
  | nil => exact ⟨rfl, rfl⟩
  | cons f fs ih =>
    have hone : (s.onColour f g).colourOf i = s.colourOf i ∧ (s.onColour f g).colourStack i = s.colourStack i := by
      by_cases hi : i = f
      · subst hi
        rw [s.onColour_of_none i g (h.resolve_left (by simp))]
        exact ⟨rfl, rfl⟩
      · exact s.onColour_other f g hi
    obtain ⟨hm, ha⟩ := ih (s.onColour f g) (by
      rw [hone.1, s.onColour_profileOf f g]
      exact h.imp_left fun hn hi => hn (List.mem_cons_of_mem _ hi))
    exact ⟨hm.trans hone.1, ha.trans hone.2⟩

/-- A fixture that the events reach has the event's record, and its settled report cleared on its stack. -/
theorem State.onColours_of_mem (hn : fs.Nodup) {i : Nat} (hi : i ∈ fs) {q : Colour} {k : Profile} {p : Patch}
    (hq : s.colourOf i = some q) (hk : s.profileOf i = some k) (hp : s.patchOf i = some p) :
    (s.onColours (fun _ => g) fs).colourOf i = some (g k p q).after ∧
      (s.onColours (fun _ => g) fs).colourStack i = clearReported (g k p q).report (s.colourStack i) := by
  induction fs generalizing s with
  | nil => cases hi
  | cons f fs ih =>
    obtain ⟨hf, hn⟩ := List.nodup_cons.1 hn
    by_cases h : i = f
    · subst h
      obtain ⟨hm, ha⟩ := (s.onColour i g).onColours_other g fs (.inl hf)
      rw [State.onColours, hm, ha, s.onColour_of_record i g hq hk hp, State.applyColour_colourOf,
        State.applyColour_colourStack, if_pos rfl, if_pos rfl]
      exact ⟨rfl, rfl⟩
    · obtain ⟨hm, ha⟩ := s.onColour_other f g h
      rw [← ha]
      refine ih _ hn ((List.mem_cons.1 hi).resolve_left h) (hm.trans hq) ((s.onColour_profileOf f g i).trans hk) ?_
      exact (State.patchOf_of_rig (s.rig_of_exceptColour (s.onColour_frame f g).others) i).trans hp

/-- The settled reports that the events send, in the order of the fixtures. -/
def State.colourReports (s : State) (g : Profile → Patch → Colour → ColourOut) (fs : List Nat) : List LaunchTag :=
  fs.filterMap fun f => (s.profileOf f).bind fun k => (s.patchOf f).bind fun p => (s.colourOf f).bind fun q =>
    (g k p q).report

theorem State.onColour_playback (f : Nat) :
    (s.onColour f g).playback =
      { s.playback with reports := s.playback.reports ++ (s.colourReports g [f]).map fun t => ⟨true, t⟩ } := by
  rcases s.onColour_cases f g with ⟨h, hn⟩ | ⟨q, k, p, hq, hk, hp, h⟩
  · have : s.colourReports g [f] = [] := by
      rcases hn with hn | hn
      · cases hp : s.patchOf f <;> simp [State.colourReports, hn, hp]
      · simp [State.colourReports, hn]
    rw [h, this]; simp
  · have : s.colourReports g [f] = (g k p q).report.toList := by
      simp only [State.colourReports, List.filterMap_cons, List.filterMap_nil, hq, hk, hp, Option.bind_some]
      cases (g k p q).report <;> rfl
    rw [h, this, State.applyColour_playback]

theorem State.onColours_playback (hn : fs.Nodup) :
    (s.onColours (fun _ => g) fs).playback =
      { s.playback with reports := s.playback.reports ++ (s.colourReports g fs).map fun t => ⟨true, t⟩ } := by
  induction fs generalizing s with
  | nil => simp [State.onColours, State.colourReports]
  | cons f fs ih =>
    obtain ⟨hf, hn⟩ := List.nodup_cons.1 hn
    have hsame : (s.onColour f g).colourReports g fs = s.colourReports g fs := by
      refine List.filterMap_congr fun i hi => ?_
      have hne : i ≠ f := fun h => hf (h ▸ hi)
      rw [(s.onColour_other f g hne).1, s.onColour_profileOf f g i,
        State.patchOf_of_rig (s.rig_of_exceptColour (s.onColour_frame f g).others) i]
    have happ : s.colourReports g (f :: fs) = s.colourReports g [f] ++ s.colourReports g fs :=
      List.filterMap_append (l := [f]) ..
    rw [State.onColours, ih _ hn, State.onColour_playback, hsame, happ]
    simp [List.append_assoc]

theorem State.onColours_frame (g : State → Profile → Patch → Colour → ColourOut) :
    s.ColourFrame (s.onColours g fs) := by
  induction fs generalizing s with
  | nil => exact .refl s
  | cons f fs ih => exact (s.onColour_frame f (g s)).trans (ih _)

theorem State.onColours_link (hg : ∀ k p q, (g k p q).silent) :
    (s.onColours (fun _ => g) fs).link = s.link ∧ (s.onColours (fun _ => g) fs).lines = s.lines := by
  induction fs generalizing s with
  | nil => exact ⟨rfl, rfl⟩
  | cons f fs ih =>
    obtain ⟨hl, hn⟩ := ih (s.onColour f g)
    rw [State.onColours, hl, hn]
    rcases s.onColour_cases f g with ⟨h, -⟩ | ⟨q, k, p, -, -, -, h⟩ <;> rw [h]
    · exact ⟨rfl, rfl⟩
    · exact s.applyColour_link f _ (hg k p q)

end Colours

end Sys2Proof.Machine
end

