-- ==== Sys2Proof/Proofs/PartRows.lean ====
section
/-! PROOFS. START's and STANDBY's parts, and a change of STOP as the engines and the lists take it (11.5). -/

namespace Sys2Proof.Machine

variable (s : State)

/-! ### Lines at START and STANDBY (R195) -/

/-- `t` is `s` but for the lines and the link. -/
def State.LineFrame (s t : State) : Prop := t = (s.withLines t.lines).withLink t.link

theorem State.LineFrame.trans {s t u : State} (h : s.LineFrame t) (h' : t.LineFrame u) : s.LineFrame u := by
  rw [State.LineFrame] at h h' ⊢
  rw [h] at h'
  exact h'

theorem State.lineFrame_of_link {s t : State} (h : t = s.withLink t.link) : s.LineFrame t := by
  have hl : t.lines = s.lines := by rw [h]; rfl
  rw [State.LineFrame, hl]
  exact h

theorem State.frameStart_line (l n : Nat) :
    (s.frameStart l).line n = if n = l then (s.line l).startFrame s.now else s.line n := by
  unfold State.frameStart
  dsimp only
  split <;> exact State.setLine_line ..

theorem State.frameStart_lineFrame (l : Nat) : s.LineFrame (s.frameStart l) := by
  unfold State.frameStart
  dsimp only
  split <;> exact rfl

theorem State.startLine_lineFrame (l : Nat) : s.LineFrame (s.startLine l) := by
  unfold State.startLine
  dsimp only
  split
  · exact State.LineFrame.trans (t := s.setLine l _) rfl (State.frameStart_lineFrame _ l)
  · exact rfl

theorem State.startLine_line_other {l n : Nat} (h : n ≠ l) : (s.startLine l).line n = s.line n := by
  unfold State.startLine
  dsimp only
  split
  · rw [State.frameStart_line, if_neg h, State.setLine_line_other _ _ _ h]
  · rw [State.setLine_line_other _ _ _ h]

theorem State.startLine_line_same (l : Nat) :
    ((s.startLine l).line l).run = true ∧ ((s.startLine l).line l).frame.isSome = true := by
  unfold State.startLine
  dsimp only
  split
  · rw [State.frameStart_line, if_pos rfl, State.setLine_line_same]; exact ⟨rfl, rfl⟩
  · next f hf => rw [State.setLine_line_same]; exact ⟨rfl, by simp [hf]⟩

theorem State.startLines_lineFrame (ls : List Nat) : s.LineFrame (s.startLines ls) := by
  induction ls generalizing s with
  | nil => exact rfl
  | cons l ls ih => exact (s.startLine_lineFrame l).trans (ih _)

theorem State.startLines_other (ls : List Nat) {n : Nat} (h : n ∉ ls) : (s.startLines ls).line n = s.line n := by
  induction ls generalizing s with
  | nil => rfl
  | cons l ls ih =>
    rw [List.mem_cons, not_or] at h
    rw [State.startLines, ih _ h.2, s.startLine_line_other h.1]

theorem State.startLines_of_mem {ls : List Nat} (hn : ls.Nodup) {n : Nat} (h : n ∈ ls) :
    ((s.startLines ls).line n).run = true ∧ ((s.startLines ls).line n).frame.isSome = true := by
  induction ls generalizing s with
  | nil => cases h
  | cons l ls ih =>
    obtain ⟨hl, hn⟩ := List.nodup_cons.1 hn
    by_cases he : n = l
    · subst he
      rw [State.startLines, State.startLines_other _ ls hl]
      exact s.startLine_line_same n
    · exact ih _ hn ((List.mem_cons.1 h).resolve_left he)

theorem State.idleLines_spec {ls : List Nat} (hn : ls.Nodup) :
    s.idleLines ls = s.withLines (s.idleLines ls).lines ∧ (s.idleLines ls).lines.sync = s.lines.sync ∧
      ∀ n, (s.idleLines ls).line n = if n ∈ ls then (s.line n).idle else s.line n := by
  induction ls generalizing s with
  | nil => exact ⟨rfl, rfl, fun _ => rfl⟩
  | cons l ls ih =>
    obtain ⟨hl, hn⟩ := List.nodup_cons.1 hn
    obtain ⟨h1, h2, h3⟩ := ih (s.setLine l (s.line l).idle) hn
    refine ⟨h1, h2, fun n => ?_⟩
    rw [State.idleLines, h3, State.setLine_line]
    by_cases he : n = l
    · subst he; simp [hl]
    · simp [he]

/-! ### Positions that an event leaves (R116, R118) -/

theorem Motion.settle_pan (m : Motion) (force : Bool) : (m.settle force).after.pan = m.pan ∧
    (m.settle force).after.tilt = m.tilt := by
  unfold Motion.settle; split <;> exact ⟨rfl, rfl⟩

theorem Motion.startTimed_pan (m : Motion) (k : Profile) (pan tilt : Int) (ms : Nat) :
    (m.startTimed k pan tilt ms).after.pan = m.pan ∧ (m.startTimed k pan tilt ms).after.tilt = m.tilt := by
  unfold Motion.startTimed
  dsimp only
  split
  · exact Motion.settle_pan _ false
  · exact ⟨rfl, rfl⟩

theorem Motion.resumeSweep_pan (m : Motion) (k : Profile) (panAmp tiltAmp legMs legs : Nat) :
    (m.resumeSweep k panAmp tiltAmp legMs legs).after.pan = m.pan ∧
      (m.resumeSweep k panAmp tiltAmp legMs legs).after.tilt = m.tilt := by
  unfold Motion.resumeSweep
  split
  · split <;> exact ⟨rfl, rfl⟩
  · exact ⟨rfl, rfl⟩

theorem Motion.resume_pan (m : Motion) (k : Profile) :
    (m.resume k).after.pan = m.pan ∧ (m.resume k).after.tilt = m.tilt := by
  unfold Motion.resume
  split
  · exact ⟨rfl, rfl⟩
  · exact m.startTimed_pan ..
  · exact m.startTimed_pan ..
  · exact m.resumeSweep_pan ..

theorem Motion.startLive_pan (m : Motion) (k : Profile) :
    (m.startLive k).after.pan = m.pan ∧ (m.startLive k).after.tilt = m.tilt := by
  unfold Motion.startLive
  split
  · exact m.startTimed_pan ..
  · exact m.resumeSweep_pan ..
  · exact ⟨rfl, rfl⟩

/-! ### What the ends of a row leave of the records -/

theorem State.pump_motionOf (f : Nat) : s.pump.motionOf f = s.motionOf f := by rw [s.pump_frame]; rfl

theorem State.syncStepTimer_motionOf (f : Nat) : s.syncStepTimer.motionOf f = s.motionOf f := by
  unfold State.syncStepTimer
  split
  · split <;> rfl
  · rfl

theorem State.finishStart_motionOf (r m c l : Bool) (f : Nat) : (s.finishStart r m c l).motionOf f = s.motionOf f := by
  rw [(s.sameOutside_finishStart r m c l).frame]; rfl

theorem State.patchedFixtures_nodup : s.patchedFixtures.Nodup := List.nodup_range.filter _

/-- An event that leaves every position where it stands, on all records. -/
theorem State.onMotions_positions {g : Profile → Motion → MotionOut}
    (hg : ∀ k q, (g k q).after.pan = q.pan ∧ (g k q).after.tilt = q.tilt) {fs : List Nat} (hn : fs.Nodup) (f : Nat) :
    ((s.onMotions g fs).motionOf f).map (fun q => (q.pan, q.tilt)) = (s.motionOf f).map fun q => (q.pan, q.tilt) := by
  by_cases h : f ∉ fs ∨ s.motionOf f = none ∨ s.profileOf f = none
  · rw [(s.onMotions_other g fs h).1]
  · simp only [not_or, not_not] at h
    obtain ⟨hf, hq, hk⟩ := h
    obtain ⟨q, hq⟩ := Option.ne_none_iff_exists'.1 hq
    obtain ⟨k, hk⟩ := Option.ne_none_iff_exists'.1 hk
    rw [(s.onMotions_of_mem g fs hn hf hq hk).1, hq]
    simp [hg]

/-! ### START's parts -/

theorem State.starting_of_work {r m c l : Bool} (h : s.work = some (.start r m c l)) : s.starting = some (r, m, c, l) := by
  simp [State.starting, h]

/-- Settles O15: each part from the parts still to be taken. -/
theorem startPartsTaken : Obligations.StartPartsTaken := by
  intro s r m c l hr hw
  have hst := s.starting_of_work hw
  refine ⟨?_, ?_, ?_, ?_, ?_, ?_⟩
  · rintro rfl
    rw [exec_of_enabled s (c := .startReaim) rfl rfl hr (by simp [rowEnabled, hst])]
    simp [rowEffect, State.startReaim, hst]
  · rintro rfl hs
    refine ⟨_, exec_of_enabled s (c := .startMotion) rfl rfl hr (by simp [rowEnabled, hst]), ?_, fun f => ?_⟩
    · simp [rowEffect, State.startMotion, hst, hs]
    · simp only [rowEffect, State.startMotion, hst, hs, Bool.false_eq_true, if_false, State.pump_motionOf,
        State.finishStart_motionOf, State.syncStepTimer_motionOf]
      exact s.onMotions_positions (fun k q => q.startLive_pan k) s.patchedFixtures_nodup f
  · rintro rfl hs
    rw [exec_of_enabled s (c := .startMotion) rfl rfl hr (by simp [rowEnabled, hst])]
    simp [rowEffect, State.startMotion, hst, hs]
  · rintro rfl hh hs
    rw [exec_of_enabled s (c := .colourResume) rfl rfl hr (by simp [rowEnabled, State.startingColour, hst])]
    simp only [rowEffect, State.colourResume, if_neg hh, hst, hs, Bool.false_eq_true, if_false]
  · rintro rfl hh hs
    rw [exec_of_enabled s (c := .colourResume) rfl rfl hr (by simp [rowEnabled, State.startingColour, hst])]
    simp only [rowEffect, State.colourResume, if_neg hh, hst, hs, if_true]
  · rintro rfl
    have he : rowEffect .startLines s = (s.startLines [0, 1, 2, 3, 4, 5, 6, 7]).finishStart r m c false := by
      simp only [rowEffect, State.startAllLines, hst]; rfl
    refine ⟨_, exec_of_enabled s (c := .startLines) rfl rfl hr (by simp [rowEnabled, hst]), by rw [he], ?_, ?_⟩
    all_goals rw [he]; clear he
    · have h1 := s.startLines_lineFrame [0, 1, 2, 3, 4, 5, 6, 7]
      generalize s.startLines [0, 1, 2, 3, 4, 5, 6, 7] = u at h1
      have h2 := State.lineFrame_of_link (u.sameOutside_finishStart r m c false).frame
      exact h1.trans (h2.trans (State.lineFrame_of_link (State.pump_frame _)))
    · intro n hn
      have h := s.startLines_of_mem (ls := [0, 1, 2, 3, 4, 5, 6, 7]) (by decide) (n := n)
        (by simp only [List.mem_cons, List.not_mem_nil, or_false]; omega)
      generalize s.startLines [0, 1, 2, 3, 4, 5, 6, 7] = u at h
      rw [State.pump_frame, (u.sameOutside_finishStart r m c false).frame]
      exact h

/-! ### STANDBY's parts -/

theorem State.standingBy_of_work {m c l : Bool} {ls : List Nat} (h : s.work = some (.standby m c l ls)) :
    s.standingBy = some (m, c, l, ls) := by simp [State.standingBy, h]

theorem Motion.standby_silent (m : Motion) : m.standby.silent := by
  unfold Motion.standby Motion.settle
  split <;> exact ⟨rfl, rfl⟩

theorem Motion.standby_eq (m : Motion) : m.standby =
    ⟨{ m with
        mode := .held, vPan := 0, vTilt := 0, plan := none, brake := none, tag := none
        sweep := m.sweep.filter fun w => decide (w.phase = .done) }, m.tag, false, false⟩ := by
  unfold Motion.standby Motion.settle
  rw [if_neg (by simp)]

theorem State.syncStepTimer_frame : s.syncStepTimer = s.withMotion s.syncStepTimer.motion := by
  unfold State.syncStepTimer
  split
  · split <;> rfl
  · rfl

theorem State.syncStepTimer_of_standby (h : s.part = .standby) :
    s.syncStepTimer = s.withMotion { s.motion with timer := none, due := [] } := by
  unfold State.syncStepTimer
  rw [if_neg (by simp [h])]

/-- STANDBY's motion part: the records, the stacks, the reports and the step timer (R117). -/
theorem State.standbyMotions_spec (g : Profile → Motion → MotionOut) (hg : ∀ k q, (g k q).silent) :
    ∃ t : State, t = (s.onMotions g s.patchedFixtures).syncStepTimer ∧
      t = ((s.withMotion t.motion).withClaims t.claims).withPlayback t.playback ∧
      t.playback =
        { s.playback with
          reports := s.playback.reports ++ (s.motionReports g s.patchedFixtures).map fun t => ⟨true, t⟩ } ∧
      (s.part = .standby → t.motion.timer = none ∧ t.motion.due = []) ∧ t.claims.prio = s.claims.prio ∧
      t.claims.colour = s.claims.colour ∧
      (∀ f, t.motionOf f = (s.onMotions g s.patchedFixtures).motionOf f) ∧
      ∀ f, t.aimStack f = (s.onMotions g s.patchedFixtures).aimStack f := by
  have hfr := s.onMotions_frame g s.patchedFixtures
  have hlk := s.onMotions_link g s.patchedFixtures hg
  have hpb := s.onMotions_playback g s.patchedFixtures s.patchedFixtures_nodup
  generalize s.onMotions g s.patchedFixtures = u at hfr hlk hpb
  have hpart : u.part = s.part := by rw [hfr.eq]; rfl
  have hu := hfr.eq
  rw [hlk] at hu
  refine ⟨u.syncStepTimer, rfl, ?_, ?_, fun hp => ?_, ?_, ?_, u.syncStepTimer_motionOf, fun f => ?_⟩
  · have hs := u.syncStepTimer_frame
    generalize u.syncStepTimer.motion = m at hs
    rw [hs]
    show u.withMotion m = ((s.withMotion m).withClaims u.claims).withPlayback u.playback
    rw [hu]; rfl
  · rw [u.syncStepTimer_frame]; exact hpb
  · rw [u.syncStepTimer_of_standby (hpart.trans hp)]; exact ⟨rfl, rfl⟩
  · rw [u.syncStepTimer_frame]; exact hfr.prio
  · rw [u.syncStepTimer_frame]; exact hfr.colours
  · rw [u.syncStepTimer_frame]; rfl

/-- STANDBY's colour part: the records, the stacks, the reports and the fade timer (R139). -/
theorem State.standbyColours_spec (g : Profile → Patch → Colour → ColourOut) (hg : ∀ k p q, (g k p q).silent)
    (fs : List Nat) (hn : fs.Nodup) :
    ∃ t : State, t = s.stopFadeTimer.onColours (fun _ => g) fs ∧
      t = ((s.withColour t.colour).withClaims t.claims).withPlayback t.playback ∧
      t.playback =
        { s.playback with
          reports := s.playback.reports ++ (s.stopFadeTimer.colourReports g fs).map fun t => ⟨true, t⟩ } ∧
      t.colour.timer = none ∧ t.colour.due = [] ∧ t.claims.prio = s.claims.prio ∧ t.claims.aim = s.claims.aim := by
  have hfr := s.stopFadeTimer.onColours_frame fs (fun _ => g)
  obtain ⟨hlk, hln⟩ := s.stopFadeTimer.onColours_link g fs hg
  have hpb := s.stopFadeTimer.onColours_playback g fs hn
  generalize s.stopFadeTimer.onColours (fun _ => g) fs = u at hfr hlk hln hpb
  have hu := hfr.eq
  rw [hlk, hln] at hu
  refine ⟨u, rfl, hu, hpb, ?_, ?_, hfr.prio, hfr.aims⟩
  · rw [hfr.colour]; rfl
  · rw [hfr.colour]; rfl

/-- Settles O16: each part from the parts still to be taken. -/
theorem standbyPartsTaken : Obligations.StandbyPartsTaken := by
  intro s m c l ls hr hw
  have hst := s.standingBy_of_work hw
  refine ⟨?_, ?_, fun n hn => ?_, ?_⟩
  · rintro rfl
    obtain ⟨t, ht, h1, h2, h3, h4, h5, h6, h7⟩ := s.standbyMotions_spec (fun _ m => m.standby) fun _ m => m.standby_silent
    refine ⟨t, ?_, h1, ?_, h3, h4, h5, fun f hf => ?_, fun f hf q k hq hk => ?_⟩
    · rw [exec_of_enabled s (c := .standbyMotion) rfl rfl hr (by simp [rowEnabled, hst]), ht]
      simp only [rowEffect, State.standbyMotion, hst]
    · rw [h2]; simp only [State.motionReports, Motion.standby_eq]
    · obtain ⟨hm, ha⟩ := s.onMotions_other (fun _ m => m.standby) s.patchedFixtures hf
      exact ⟨(h7 f).trans ha, (h6 f).trans hm⟩
    · obtain ⟨hm, ha⟩ := s.onMotions_of_mem (fun _ m => m.standby) _ s.patchedFixtures_nodup hf hq hk
      rw [h6, h7, hm, ha, clearReported_eq, q.standby_eq]
      exact ⟨rfl, rfl⟩
  · rintro rfl
    have hn := s.patchedFixtures_nodup
    obtain ⟨t, ht, h1, h2, h3, h4, h5, h6⟩ :=
      s.standbyColours_spec (fun _ _ c => c.standby) (fun _ _ c => ⟨rfl, rfl⟩) _ hn
    refine ⟨t, ?_, h1, ?_, h3, h4, h5, h6, fun f hf => ?_, fun f hf q k hq hk => ?_⟩
    · rw [exec_of_enabled s (c := .standbyColour) rfl rfl hr (by simp [rowEnabled, hst]), ht]
      simp only [rowEffect, State.standbyColour, hst]
    · rw [h2]
      have : s.stopFadeTimer.colourReports (fun _ _ c => c.standby) s.patchedFixtures = s.patchedFixtures.filterMap
          fun f => (s.profileOf f).bind fun _ => (s.colourOf f).bind fun q => q.tag := by
        refine List.filterMap_congr fun f _ => ?_
        cases hk : s.profileOf f with
        | none => simp [State.stopFadeTimer, hk]
        | some k =>
          obtain ⟨p, hp⟩ := s.patchOf_of_profileOf f hk
          have hc : s.stopFadeTimer.colourOf f = s.colourOf f := rfl
          rw [hc]
          simp [State.stopFadeTimer, hk, hp, Colour.standby, Colour.settle]
      rw [this]
    · rw [ht]
      obtain ⟨hm, ha⟩ := s.stopFadeTimer.onColours_other (fun _ _ c => c.standby) s.patchedFixtures hf
      exact ⟨ha, hm⟩
    · obtain ⟨p, hp⟩ := s.patchOf_of_profileOf f hk
      obtain ⟨hm, ha⟩ := s.stopFadeTimer.onColours_of_mem (fun _ _ c => c.standby) _ hn hf hq hk hp
      rw [ht, hm, ha, clearReported_eq]
      exact ⟨rfl, rfl⟩
  · rw [exec_of_enabled s (c := .standbyList n) rfl rfl hr (by simp [rowEnabled, hst, hn])]
    simp only [rowEffect, State.standbyList, hst]
    rfl
  · rintro rfl
    obtain ⟨h1, -, h3⟩ := s.idleLines_spec (ls := List.range 8) List.nodup_range
    have he : rowEffect .standbyLines s = ((s.idleLines (List.range 8)).withLines
        { (s.idleLines (List.range 8)).lines with sync := false }).finishStandby m c false ls := by
      simp only [rowEffect, State.standbyLines, hst]
    have hrow := exec_of_enabled s (c := .standbyLines) rfl rfl hr (by simp [rowEnabled, hst])
    rw [he] at hrow
    generalize s.idleLines (List.range 8) = u at h1 h3 hrow
    refine ⟨_, hrow, ?_, rfl, fun n hn => ?_⟩
    · generalize u.lines = v at h1 ⊢
      rw [h1]; rfl
    · exact (h3 n).trans (if_pos (List.mem_range.2 hn))

/-! ### A change of STOP (R206) -/

/-- The state in which STOP has a new level and each engine the change in its queue. -/
def State.stopGiven (s : State) (high : Bool) : State :=
  let s := (s.withStop high).notifyStopState high s.part
  (s.withStopToMotion (s.stopToMotion ++ [high])).withStopToColour (s.stopToColour ++ [high])

/-- What STOP's change does to one list: at a high it waits and its timer holds, a low it has still to take (R166). -/
def CueList.stopGiven (now : Nat) (high : Bool) (l : CueList) : CueList :=
  if high then l.pause now else { l with lowsDue := l.lowsDue + 1 }

theorem State.stopChange_spec (high : Bool) :
    State.stopChange high s = (s.stopGiven high).withPlayback (State.stopChange high s).playback ∧
      (State.stopChange high s).playback.reports = s.playback.reports ∧
      ∀ n, (State.stopChange high s).cueList n =
        if n < 8 then (s.cueList n).stopGiven s.now high else s.cueList n := by
  have hr : State.stopChange high s =
      if high then (s.stopGiven high).pauseLists (List.range 8) else (s.stopGiven high).giveLow (List.range 8) := rfl
  rw [hr]
  cases high with
  | true =>
    obtain ⟨h1, h2, h3⟩ := (s.stopGiven true).pauseLists_spec (ns := List.range 8) List.nodup_range
    exact ⟨h1, h2, fun n => (h3 n).trans (if_congr List.mem_range rfl rfl)⟩
  | false =>
    obtain ⟨h1, h2, h3⟩ := (s.stopGiven false).giveLow_spec (ns := List.range 8) List.nodup_range
    exact ⟨h1, h2, fun n => (h3 n).trans (if_congr List.mem_range rfl rfl)⟩

/-- Settles O17: what STOP's change leaves in the queues and in each list. -/
theorem stopChangeIsGivenOn : Obligations.StopChangeIsGivenOn := by
  refine fun s high => ⟨fun hr hs => ?_, fun hr hs => ?_, fun hr => ?_⟩
  · obtain ⟨h1, h2, h3⟩ := s.stopChange_spec high
    have hrow : exec (.stopChange high) s = .next (State.stopChange high s).pump := by
      rw [exec_stopChange_of_running s high hr, s.event_of_enabled _ hr (by simpa using hs)]
    generalize State.stopChange high s = t at h1 h2 h3 hrow
    refine ⟨t, hrow, h1, h2, fun n => ?_⟩
    rw [h3]
    by_cases hn : n < 8
    · rw [if_pos hn, if_neg (by omega)]; rfl
    · rw [if_neg hn, if_pos (by omega)]
  · rw [exec_stopChange_of_running s high hr, State.event, hr, decide_eq_false (by simpa using hs)]
    rfl
  · simp only [exec, execStopChange, if_pos hr]; rfl

/-! ### The engines take a change of STOP (R115, R116, R138, R140) -/

/-- STOP high on one motion record: under way it brakes or, at rest, is HELD at once (R115). -/
theorem Motion.stopHigh_after (q : Motion) : q.stopHigh.after =
    if q.mode = .held ∨ q.mode = .braking then q
    else if q.vPan = 0 ∧ q.vTilt = 0 then { q with plan := none, sweep := none, mode := .held, brake := none }
    else { q with plan := none, sweep := none, mode := .braking, brake := some .stop } := by
  unfold Motion.stopHigh Motion.underWay Motion.startBrake
  cases q.mode <;> simp [MotionOut.quiet] <;> split <;> rfl

theorem Motion.resume_of_noAim {q : Motion} (k : Profile) (h : q.aim = none) : (q.resume k).after = q := by
  simp [Motion.resume, h, MotionOut.quiet]

theorem State.onMotions_afterSees {high : Bool} (g : Profile → Motion → MotionOut) {f : Nat} (hf : f ∈ s.patchedFixtures)
    {q : Motion} {k : Profile} (hq : s.motionOf f = some q) (hk : s.profileOf f = some k) :
    ((s.motionSees high).onMotions g (s.motionSees high).patchedFixtures).motionOf f = some (g k q).after :=
  ((s.motionSees high).onMotions_of_mem g _ s.patchedFixtures_nodup hf hq hk).1

/-- The engine that takes a change of STOP has its new level, and its queue without it. -/
theorem State.motionSees_taken {high : Bool} (g : Profile → Motion → MotionOut) (fs : List Nat) {t : State}
    (ht : t = ((s.motionSees high).onMotions g fs).syncStepTimer.pump) :
    t.motion.stopSeen = high ∧ t.stopToMotion = s.stopToMotion.tail ∧
      ∀ f, t.motionOf f = ((s.motionSees high).onMotions g fs).motionOf f := by
  have hfr := (s.motionSees high).onMotions_frame g fs
  generalize (s.motionSees high).onMotions g fs = u at hfr ht
  have hm : u.syncStepTimer.motion.stopSeen = u.motion.stopSeen := by
    unfold State.syncStepTimer
    split
    · split <;> rfl
    · rfl
  refine ⟨?_, ?_, fun f => ?_⟩
  · rw [ht, State.pump_frame]
    exact hm.trans (by rw [hfr.motion]; rfl)
  · rw [ht, State.pump_frame, State.syncStepTimer_frame, hfr.eq]; rfl
  · rw [ht, State.pump_motionOf, State.syncStepTimer_motionOf]

/-- STOP's change to the Motion Engine in STANDBY: its level alone (log entry 45). -/
theorem exec_motionStop_of_standby {high : Bool} {rest : List Bool} (hr : s.resetting = none)
    (hq : s.stopToMotion = high :: rest) (hp : s.part = .standby) :
    exec (if high = true then .motionStopHigh else .motionStopLow) s = .next
      ((s.withStopToMotion rest).withMotion { s.motion with stopSeen := high, timer := none, due := [] }).pump := by
  have hsee : (s.motionSees high).syncStepTimer =
      (s.withStopToMotion rest).withMotion { s.motion with stopSeen := high, timer := none, due := [] } := by
    rw [(s.motionSees high).syncStepTimer_of_standby hp, State.motionSees, hq]; rfl
  have hl : ¬ s.part = .live := by rw [hp]; nofun
  rw [← hsee]
  cases high with
  | true =>
    rw [if_pos rfl, exec_of_enabled s (c := .motionStopHigh) rfl rfl hr (by simp [rowEnabled, hq])]
    exact congrArg (fun t : State => Host.Outcome.next t.syncStepTimer.pump) (if_neg hl)
  | false =>
    rw [if_neg (by decide), exec_of_enabled s (c := .motionStopLow) rfl rfl hr (by simp [rowEnabled, hq])]
    exact congrArg (fun t : State => Host.Outcome.next t.syncStepTimer.pump) (if_neg hl)

/-- STOP's change to the Colour Engine in STANDBY: its level alone (log entry 45). -/
theorem exec_colourStop_of_standby {high : Bool} {rest : List Bool} (hr : s.resetting = none)
    (hq : s.stopToColour = high :: rest) (hp : s.part = .standby) :
    exec (if high = true then .colourStopHigh else .colourResume) s = .next
      ((s.withStopToColour rest).withColour { s.colour with stopSeen := high }).pump := by
  have hsee : s.colourSees high = (s.withStopToColour rest).withColour { s.colour with stopSeen := high } := by
    rw [State.colourSees, hq]; rfl
  have hl : ¬ s.part = .live := by rw [hp]; nofun
  rw [← hsee]
  cases high with
  | true =>
    rw [if_pos rfl, exec_of_enabled s (c := .colourStopHigh) rfl rfl hr (by simp [rowEnabled, hq])]
    exact congrArg (fun t : State => Host.Outcome.next t.pump) (if_neg hl)
  | false =>
    rw [if_neg (by decide), exec_of_enabled s (c := .colourResume) rfl rfl hr (by simp [rowEnabled, hq])]
    simp only [rowEffect, State.colourResume]
    rw [if_pos (by simp [hq])]
    exact congrArg (fun t : State => Host.Outcome.next t.pump) (if_neg hl)

/-- STOP high in the Colour Engine: every fade is dropped and the fade timer stops (R138). -/
theorem State.colourStopHigh_live {rest : List Bool} (hq : s.stopToColour = true :: rest) (hp : s.part = .live) {t : State}
    (ht : t = (s.colourStopHigh).pump) : t.colour.stopSeen = true ∧ t.stopToColour = rest ∧ t.colour.timer = none ∧
      ∀ f ∈ s.patchedFixtures, ∀ q k, s.colourOf f = some q → s.profileOf f = some k →
        t.colourOf f = some { q with fade := none } := by
  have he : s.colourStopHigh =
      (s.colourSees true).stopFadeTimer.onColours (fun _ _ _ c => c.stopHigh) s.patchedFixtures := if_pos hp
  have hfr := (s.colourSees true).stopFadeTimer.onColours_frame s.patchedFixtures fun _ _ _ c => c.stopHigh
  have hof := fun f hf q k p hq hk hp => ((s.colourSees true).stopFadeTimer.onColours_of_mem (fun _ _ c => c.stopHigh)
    s.patchedFixtures s.patchedFixtures_nodup (i := f) hf (q := q) (k := k) (p := p) hq hk hp).1
  rw [State.pump_frame, he] at ht
  generalize (s.colourSees true).stopFadeTimer.onColours (fun _ _ _ c => c.stopHigh) s.patchedFixtures = u at hfr hof ht
  rw [ht]
  refine ⟨?_, ?_, ?_, fun f hf q k hc hk => ?_⟩
  · exact (congrArg (·.stopSeen) hfr.colour).trans rfl
  · rw [State.withLink_stopToColour, hfr.eq]
    exact congrArg List.tail hq
  · exact (congrArg (·.timer) hfr.colour).trans rfl
  · obtain ⟨p, hpf⟩ := s.patchOf_of_profileOf f hk
    exact hof f hf q k p hc hk hpf

/-- A list takes a change of STOP to low (R166). -/
theorem State.resumeList_spec (n : Nat) :
    ∃ u v : State, u = s.setCueList n ((s.cueList n).resume s.now) ∧
      (s.part = .standby ∨ ((s.cueList n).liveLaunch.any fun q => q.due) = false → v = u) ∧
      (s.part = .live → ((s.cueList n).liveLaunch.any fun q => q.due) = true → u.automaticGo n .done v) ∧
      s.resumeList n =
        if 1 < (s.cueList n).lowsDue ∨ s.stop = true then v.setCueList n ((v.cueList n).pause s.now) else v := by
  refine ⟨_, _, rfl, fun h => if_neg ?_, fun hp hd => ?_, rfl⟩
  · rintro ⟨hd, hp⟩
    rcases h with h | h
    · rw [hp] at h; cases h
    · rw [hd] at h; cases h
  · rw [if_pos ⟨hd, hp⟩]
    exact State.automaticGo_autoGo _ n .done

/-- Settles O18: each engine's event in each part state, and each list's. -/
theorem stopReachesTheBlocks : Obligations.StopReachesTheBlocks := by
  intro s hr
  refine ⟨fun rest hq hp => ?_, fun rest hq hp => ?_, fun high rest hq hp => exec_motionStop_of_standby s hr hq hp,
    fun high rest hq hp => exec_colourStop_of_standby s hr hq hp, fun rest hq hp => ?_, fun rest hq hp => ?_,
    fun n left => ⟨rfl, rfl, rfl, rfl⟩, fun n hn => ?_⟩
  · have he : s.motionStopHigh = ((s.motionSees true).onMotions (fun _ m => m.stopHigh)
        (s.motionSees true).patchedFixtures).syncStepTimer := congrArg State.syncStepTimer (if_pos hp)
    have hrow := exec_of_enabled s (c := .motionStopHigh) rfl rfl hr (by simp [rowEnabled, hq])
    simp only [rowEffect, he] at hrow
    obtain ⟨h1, h2, h3⟩ := s.motionSees_taken _ _ rfl
    refine ⟨_, hrow, h1, h2.trans (by rw [hq]; rfl), fun f hf q k hm hk => ?_⟩
    rw [h3, s.onMotions_afterSees _ hf hm hk, q.stopHigh_after]
  · have he : s.motionStopLow = ((s.motionSees false).onMotions (fun k m => m.resume k)
        (s.motionSees false).patchedFixtures).syncStepTimer := congrArg State.syncStepTimer (if_pos hp)
    have hrow := exec_of_enabled s (c := .motionStopLow) rfl rfl hr (by simp [rowEnabled, hq])
    simp only [rowEffect, he] at hrow
    obtain ⟨h1, h2, h3⟩ := s.motionSees_taken _ _ rfl
    refine ⟨_, hrow, h1, h2.trans (by rw [hq]; rfl), fun f hf q k hm hk => ?_⟩
    rw [h3, s.onMotions_afterSees _ hf hm hk]
    exact ⟨rfl, (q.resume_pan k).1, (q.resume_pan k).2, q.resume_of_noAim k⟩
  · have hrow := exec_of_enabled s (c := .colourStopHigh) rfl rfl hr (by simp [rowEnabled, hq])
    exact ⟨_, hrow, s.colourStopHigh_live hq hp rfl⟩
  · rw [exec_of_enabled s (c := .colourResume) rfl rfl hr (by simp [rowEnabled, hq])]
    simp only [rowEffect, State.colourResume]
    rw [if_pos (by simp [hq])]
    have hsee : s.colourSees false = (s.withStopToColour rest).withColour { s.colour with stopSeen := false } := by
      rw [State.colourSees, hq]; rfl
    rw [← hsee]
    exact congrArg (fun t : State => Host.Outcome.next t.pump) (if_pos hp)
  · obtain ⟨u, v, hu, hsame, hgo, he⟩ := s.resumeList_spec n
    have hrow := exec_of_enabled s (c := .playbackStopLow n) rfl rfl hr (by simpa [rowEnabled] using hn)
    refine ⟨u, v, hu, hsame, fun r hp hl hd => hgo hp (by simp [hl, hd]), fun h1 hs => ?_, fun h => ?_⟩
    · rw [hrow]
      simp only [rowEffect, he]
      rw [if_neg (by rw [h1, hs]; decide)]
    · rw [hrow]
      simp only [rowEffect, he]
      rw [if_pos h]
      rfl

end Sys2Proof.Machine
end

