-- ==== Sys2Proof/Proofs/AimFrames.lean ====
section
/-! PROOFS. What aiming fixtures leaves alone: re-aims, solve requests, deliveries, owed service and hand-overs move no
fixture, order no stack anew and touch only the blocks an aim passes through. -/

namespace Sys2Proof.Machine

/-! ### Events that leave a record where it stands -/

/-- An event leaves the record's position. -/
def MotionOut.inPlace (m : Motion) (o : MotionOut) : Prop := o.after.pan = m.pan ∧ o.after.tilt = m.tilt

namespace Motion
variable (m : Motion) (k : Profile)

theorem startChase_inPlace (pan tilt : Int) : (m.startChase pan tilt).inPlace m := by
  unfold startChase
  dsimp only
  split
  · exact settle_pan _ false
  · exact ⟨rfl, rfl⟩

theorem startMove_inPlace (law : Law) (ms : Nat) (pan tilt : Int) : (m.startMove k law ms pan tilt).inPlace m := by
  cases law with
  | timed => exact m.startTimed_pan ..
  | chase => exact m.startChase_inPlace ..

theorem takeCentre_inPlace (panAmp tiltAmp legMs legs ms : Nat) (pan tilt : Int) :
    (m.takeCentre k panAmp tiltAmp legMs legs ms pan tilt).inPlace m := by
  unfold takeCentre
  split
  · split
    · split <;> exact ⟨rfl, rfl⟩
    · exact ⟨rfl, rfl⟩
  · exact ⟨rfl, rfl⟩

theorem takeDelivery_inPlace (stepping : Bool) (pan tilt : Int) : (m.takeDelivery k stepping pan tilt).inPlace m := by
  unfold takeDelivery
  dsimp only
  split
  · split
    · exact takeCentre_inPlace { m with awaiting := false } ..
    · split
      · exact startMove_inPlace { m with awaiting := false } ..
      · exact startChase_inPlace { m with awaiting := false } ..
  · exact ⟨rfl, rfl⟩

theorem takeDegenerate_inPlace (stepping : Bool) : (m.takeDegenerate stepping).inPlace m := by
  unfold takeDegenerate
  split
  · exact settle_pan _ false
  · exact ⟨rfl, rfl⟩

theorem deliver_inPlace (stepping : Bool) (r : SolveResult) : (m.deliver k stepping r).inPlace m := by
  unfold deliver
  split
  · exact m.takeDegenerate_inPlace stepping
  · next c _ => exact takeDelivery_inPlace { m with clamped := decide (c.clamp ≠ 0) } ..

theorem startBrake_inPlace (cause : BrakeCause) : (m.startBrake cause).inPlace m := by
  unfold startBrake
  dsimp only
  split
  · split
    · exact settle_pan _ true
    · exact ⟨rfl, rfl⟩
  · exact ⟨rfl, rfl⟩

theorem noAim_inPlace : m.noAim.inPlace m := by
  unfold noAim
  dsimp only
  split
  · exact ⟨rfl, rfl⟩
  · exact startBrake_inPlace { m with aim := none, awaiting := false, tag := none } .release
  · exact startBrake_inPlace { m with aim := none, awaiting := false, tag := none } .release
  · exact startBrake_inPlace { m with aim := none, awaiting := false, tag := none } .release
  · exact ⟨rfl, rfl⟩

theorem takeAim_inPlace (stepping : Bool) (t : AimTarget) (law : Law) (ms : Nat) (tag : Option LaunchTag) :
    (m.takeAim k stepping t law ms tag).inPlace m := by
  unfold takeAim
  dsimp only
  split
  · exact ⟨rfl, rfl⟩
  · exact ⟨rfl, rfl⟩
  · split
    · exact startMove_inPlace
        { m.oldSweep with aim := _, tag := tag, awaiting := false, clamped := _ } ..
    · exact ⟨rfl, rfl⟩
  · split <;> exact ⟨rfl, rfl⟩

theorem reaim_inPlace (law : Law) : (MotionOut.quiet (m.reaim law)).inPlace m := by
  unfold reaim; split <;> exact ⟨rfl, rfl⟩

end Motion

/-! ### What aiming leaves alone -/

/-- `t` is `s` after fixtures were aimed: nothing moved, no stack was ordered anew, reports were only added, and the
blocks an aim does not pass through are as they were. -/
structure State.Aims (s t : State) : Prop where
  others : t.exceptAim = s.exceptAim
  entries : t.cache.entries = s.cache.entries
  engine : t.motion = { s.motion with records := t.motion.records }
  positions : ∀ g, (t.motionOf g).map (fun q => (q.pan, q.tilt)) = (s.motionOf g).map fun q => (q.pan, q.tilt)
  stacked : ∀ g, (t.aimStack g).map (fun e => (e.source, e.prio, e.body, e.tag)) =
    (s.aimStack g).map fun e => (e.source, e.prio, e.body, e.tag)
  colours : t.claims.colour = s.claims.colour
  prio : t.claims.prio = s.claims.prio
  reports : s.playback.reports <+: t.playback.reports
  lists : t.playback.lists = s.playback.lists

variable (s : State)

theorem State.Aims.refl : s.Aims s :=
  ⟨rfl, rfl, rfl, fun _ => rfl, fun _ => rfl, rfl, rfl, List.prefix_rfl, rfl⟩

theorem State.Aims.trans {s t u : State} (h : s.Aims t) (h' : t.Aims u) : s.Aims u where
  others := h'.others.trans h.others
  entries := h'.entries.trans h.entries
  engine := by rw [h'.engine, h.engine]
  positions g := (h'.positions g).trans (h.positions g)
  stacked g := (h'.stacked g).trans (h.stacked g)
  colours := h'.colours.trans h.colours
  prio := h'.prio.trans h.prio
  reports := h.reports.trans h'.reports
  lists := h'.lists.trans h.lists

section
variable {s} {t : State} (h : s.Aims t)
include h

theorem State.Aims.rig : t.rig = s.rig := State.rig_of_exceptAim h.others

theorem State.Aims.points : t.points = s.points := by
  show t.exceptAim.points = s.exceptAim.points
  rw [h.others]

theorem State.Aims.memory : t.memory = s.memory := by
  show t.exceptAim.memory = s.exceptAim.memory
  rw [h.others]

theorem State.Aims.colour : t.colour = s.colour := by
  show t.exceptAim.colour = s.exceptAim.colour
  rw [h.others]

theorem State.Aims.lines : t.lines = s.lines := by
  show t.exceptAim.lines = s.exceptAim.lines
  rw [h.others]

theorem State.Aims.beat : t.beat = s.beat := by
  show t.exceptAim.beat = s.exceptAim.beat
  rw [h.others]

theorem State.Aims.now : t.now = s.now := by
  show t.exceptAim.now = s.exceptAim.now
  rw [h.others]

theorem State.Aims.part : t.part = s.part := by
  show t.exceptAim.part = s.exceptAim.part
  rw [h.others]

theorem State.Aims.fixture (g : Nat) : t.fixture g = s.fixture g := by rw [State.fixture, h.rig]; rfl

theorem State.Aims.point (p : Nat) : t.point p = s.point p := by rw [State.point, h.points]; rfl

theorem State.Aims.cacheEntry (i : Nat) : t.cacheEntry i = s.cacheEntry i := by rw [State.cacheEntry, h.entries]; rfl

theorem State.Aims.patchOf (g : Nat) : t.patchOf g = s.patchOf g := State.patchOf_of_rig h.rig g

theorem State.Aims.profileOf (g : Nat) : t.profileOf g = s.profileOf g := State.profileOf_of_exceptAim s h.others g

theorem State.Aims.colourStack (g : Nat) : t.colourStack g = s.colourStack g := by
  rw [State.colourStack, h.colours]; rfl

theorem State.Aims.colourOf (g : Nat) : t.colourOf g = s.colourOf g := by rw [State.colourOf, h.colour]; rfl

theorem State.Aims.activeAim (g : Nat) : t.activeAim g = s.activeAim g := by
  have hs := congrArg (fun l => (l.head?).map fun x : Nat × Nat × AimClaim × Option LaunchTag => x.2.2.1.target)
    (h.stacked g)
  simpa [State.activeAim, List.head?_map, Function.comp_def] using hs

theorem State.Aims.aimedAt (g : Nat) : t.aimedAt g = s.aimedAt g := by
  rw [State.aimedAt, h.activeAim]; rfl

theorem State.Aims.reaimLaw (g : Nat) : t.reaimLaw g = s.reaimLaw g := by
  have hs := congrArg (fun l => (l.head?).map fun x : Nat × Nat × AimClaim × Option LaunchTag => x.2.2.1) (h.stacked g)
  unfold State.reaimLaw
  cases ht : (t.aimStack g).head? <;> cases hh : (s.aimStack g).head? <;>
    simp_all [List.head?_map]

theorem State.Aims.aimStack_of_nil {g : Nat} (hs : s.aimStack g = []) : t.aimStack g = [] := by
  simpa [hs] using h.stacked g

end

theorem State.aims_withLink (l : Link) : s.Aims (s.withLink l) :=
  ⟨rfl, rfl, rfl, fun _ => rfl, fun _ => rfl, rfl, rfl, List.prefix_rfl, rfl⟩

theorem State.aims_withSolver (q : Solver) : s.Aims (s.withSolver q) :=
  ⟨rfl, rfl, rfl, fun _ => rfl, fun _ => rfl, rfl, rfl, List.prefix_rfl, rfl⟩

theorem State.aims_setPointer (i : Nat) : s.Aims (s.setPointer i) :=
  ⟨rfl, rfl, rfl, fun _ => rfl, fun _ => rfl, rfl, rfl, List.prefix_rfl, rfl⟩

theorem clearReported_key {α : Type} (r : Option LaunchTag) (l : List (Entry α)) :
    (clearReported r l).map (fun e => (e.source, e.prio, e.body, e.tag)) =
      l.map fun e => (e.source, e.prio, e.body, e.tag) := by
  rw [clearReported_eq, List.map_map]; rfl

theorem State.aims_onMotion (f : Nat) {g : Profile → Motion → MotionOut} (hg : ∀ k q, (g k q).inPlace q) :
    s.Aims (s.onMotion f g) := by
  have hfr := s.onMotion_frame g f
  have hpb := s.onMotion_playback g f
  refine ⟨hfr.others, by rw [hfr.cache], hfr.motion, fun i => ?_, fun i => ?_, hfr.colours, hfr.prio, ?_, hfr.lists⟩
  · exact State.onMotions_positions s (fs := [f]) hg (by simp) i
  · rcases s.onMotion_cases f g with ⟨h, -⟩ | ⟨q, k, -, -, h⟩ <;> rw [h]
    rw [State.applyMotion_aimStack]
    split
    · exact clearReported_key ..
    · rfl
  · rw [hpb]; exact List.prefix_append ..

theorem State.aims_deliver (f : Nat) (r : SolveResult) : s.Aims (s.deliver f r) :=
  s.aims_onMotion f fun k m => m.deliver_inPlace k _ r

theorem State.aims_requestHit (f i : Nat) (c : Cls) : s.Aims (s.requestHit f i c) := by
  unfold State.requestHit
  dsimp only
  have h := (s.aims_withLink _).trans (State.aims_withSolver _ _) (s := s) (u := (s.raiseJob .cacheHit c).setOwed f none)
  split
  · exact (h.trans (State.aims_setPointer ..)).trans (State.aims_deliver ..)
  · exact h.trans (State.aims_deliver ..)

theorem State.aims_requestMiss (f p : Nat) (c : Cls) : s.Aims (s.requestMiss f p c).1 := by
  have hraise (u : State) (e : Activity) : u.Aims (u.raiseJob e c) := u.aims_withLink _
  have hocc (u : State) : u.Aims (u.raiseOccupancy c) := u.aims_withLink _
  have howed (u : State) (x : Option Cls) : u.Aims (u.setOwed f x) := u.aims_withSolver _
  unfold State.requestMiss
  dsimp only
  split
  · exact ((hraise s _).trans ((State.aims_withSolver ..).trans (howed _ _))).trans (hocc _)
  · split
    · exact (((hraise s _).trans ((State.aims_withSolver ..).trans (howed _ _))).trans (hraise _ _)).trans (hocc _)
    · exact ((((hraise s _).trans (hraise _ _)).trans (howed _ _)).trans (State.aims_withLink ..)).trans (hocc _)

theorem State.aims_request (f p : Nat) (c : Cls) : s.Aims (s.request f p c).1 := by
  unfold State.request
  split
  · exact s.aims_requestHit ..
  · exact s.aims_requestMiss ..

theorem State.aims_reaim (f p : Nat) (law : Law) (c : Cls) : s.Aims (s.reaim f p law c).1 := by
  unfold State.reaim
  split
  · exact (s.aims_onMotion f fun _ m => m.reaim_inPlace law).trans (State.aims_request ..)
  · exact .refl s

theorem State.aims_rigReaim (f : Nat) : s.Aims (s.rigReaim f) := by
  unfold State.rigReaim
  split
  · exact s.aims_reaim ..
  · exact .refl s

theorem State.aims_rigReaims (fs : List Nat) : s.Aims (s.rigReaims fs) := by
  induction fs generalizing s with
  | nil => exact .refl s
  | cons f fs ih => exact (s.aims_rigReaim f).trans (ih _)

theorem State.aims_trackReaims (p : Nat) (fs : List Nat) : s.Aims (s.trackReaims p fs).1 := by
  induction fs generalizing s with
  | nil => exact .refl s
  | cons f fs ih => exact (s.aims_reaim f p .chase .track).trans (ih _)

theorem State.aims_serveMarks (fs : List Nat) : s.Aims (s.serveMarks fs).1 := by
  induction fs generalizing s with
  | nil => exact .refl s
  | cons f fs ih =>
    have howed : s.Aims ((s.setOwed f none).serveMarks fs).1 := (s.aims_withSolver _).trans (ih _)
    unfold State.serveMarks
    split
    · exact ih s
    · next c _ =>
      split
      · next p _ =>
        have hreq := s.aims_request f p c
        split
        · split
          · next h => rw [h] at hreq; exact hreq.trans (ih _)
          · next h => rw [h] at hreq; exact hreq
        · exact howed
      · exact howed

theorem State.aims_owedService (p : Pool) : s.Aims (s.owedService p) := by
  cases p <;> exact s.aims_serveMarks _

theorem State.aims_dropJobs (f : Nat) : s.Aims (s.dropJobs f) := by
  unfold State.dropJobs
  dsimp only
  have h := (s.aims_withSolver { s.solver with queued := s.solver.queued.filter fun j => !decide (j.fixture = f) }).trans
    (State.aims_withSolver _ _) (u := (s.withSolver
      { s.solver with queued := s.solver.queued.filter fun j => !decide (j.fixture = f) }).setOwed f none)
  split
  · exact h.trans (State.aims_owedService ..)
  · exact h

theorem State.aims_handAim (f : Nat) (e : Entry AimClaim) (ms : Nat) : s.Aims (s.handAim f e ms).1 := by
  unfold State.handAim
  dsimp only
  have h := s.aims_onMotion f fun k m => m.takeAim_inPlace k s.motionStepping e.body.target e.body.law ms e.handedTag
  split
  · split
    · exact h.trans (State.aims_request ..)
    · exact h
  · exact h.trans (State.aims_withSolver ..)

theorem State.aims_handNoAim (f : Nat) : s.Aims (s.handNoAim f) :=
  (s.aims_onMotion f fun _ m => m.noAim_inPlace).trans (State.aims_withSolver ..)

end Sys2Proof.Machine
end

