-- ==== Sys2Proof/Proofs/RigRules.lean ====
section
/-! PROOFS. One rule for each operation on the rig: the cache's invalidations, a pose change, the slots and the highest
patched slot of a line, an emptied fixture. -/

namespace Sys2Proof.Machine

variable (s : State)

/-! ### Invalidations (R79) -/

/-- A cache entry after an invalidation. -/
def CacheEntry.invalidated (q : CacheEntry → Bool) (e : CacheEntry) : CacheEntry := { e with valid := e.valid && !q e }

theorem State.invalidateFrom_cacheEntry (q : CacheEntry → Bool) {l : List Nat} (hl : l.Nodup) (i : Nat) :
    (s.invalidateFrom q l).cacheEntry i = if i ∈ l then (s.cacheEntry i).invalidated q else s.cacheEntry i := by
  induction l generalizing s with
  | nil => rfl
  | cons j l ih =>
    obtain ⟨hj, hl⟩ := List.nodup_cons.1 hl
    have hone (i : Nat) : (if (s.cacheEntry j).valid && q (s.cacheEntry j) then
        s.setCacheEntry j { s.cacheEntry j with valid := false } else s).cacheEntry i =
        if i = j then (s.cacheEntry j).invalidated q else s.cacheEntry i := by
      split
      · next h =>
        simp only [Bool.and_eq_true] at h
        rw [State.setCacheEntry_cacheEntry]
        simp [CacheEntry.invalidated, h]
      · next h =>
        have : (s.cacheEntry j).invalidated q = s.cacheEntry j := by
          unfold CacheEntry.invalidated
          generalize s.cacheEntry j = e at h
          obtain ⟨v, x, y, r⟩ := e
          cases v <;> simp_all
        split
        · next he => rw [this, he]
        · rfl
    rw [State.invalidateFrom, ih _ hl, hone]
    by_cases he : i = j
    · subst he; simp [hj]
    · simp [he]

theorem State.invalidateFrom_pointer (q : CacheEntry → Bool) (l : List Nat) :
    (s.invalidateFrom q l).cache.pointer = s.cache.pointer := by
  induction l generalizing s with
  | nil => rfl
  | cons j l ih =>
    rw [State.invalidateFrom, ih]
    split <;> rfl

theorem State.invalidate_cacheEntry (q : CacheEntry → Bool) {i : Nat} (hi : i < 32) :
    (s.invalidate q).cacheEntry i = (s.cacheEntry i).invalidated q := by
  rw [State.invalidate, s.invalidateFrom_cacheEntry q List.nodup_range, if_pos (List.mem_range.2 hi)]

theorem State.invalidate_frame (q : CacheEntry → Bool) : s.invalidate q = s.withCache (s.invalidate q).cache := by
  unfold State.invalidate
  exact s.invalidateFrom_frame q _

theorem State.invalidate_pointer (q : CacheEntry → Bool) : (s.invalidate q).cache.pointer = s.cache.pointer := by
  unfold State.invalidate
  exact s.invalidateFrom_pointer q _

/-! ### Pose changes (R5) -/

/-- Fixture `f` with the fields `x`, its next pose generation and its cache entries invalid: a pose change up to its
request. -/
def State.posed (s : State) (f : Nat) (x : Option Patch) : State :=
  (s.setFixture f ⟨x, nextGen (s.fixture f).gen⟩).invalidate fun e => decide (e.fixture = f)

theorem State.setFixture_setFixture (f : Nat) (x y : Fixture) : (s.setFixture f x).setFixture f y = s.setFixture f y := by
  simp only [State.setFixture, State.withRig_rig, State.withRig_withRig, Store.set_set]

theorem State.poseChange_setFixture (f : Nat) (x : Option Patch) :
    (s.setFixture f { s.fixture f with patch := x }).poseChange f =
      if x.isSome then (s.posed f x).rigReaim f else s.posed f x := by
  have he : ((s.setFixture f { s.fixture f with patch := x }).advancePose f).invalidate
      (fun e => decide (e.fixture = f)) = s.posed f x := by
    rw [State.advancePose, State.setFixture_setFixture, State.setFixture_fixture_same]; rfl
  have hp : (s.posed f x).isPatched f = x.isSome := by
    rw [State.posed, State.invalidate_frame]
    simp [State.isPatched, State.patchOf]
  unfold State.poseChange
  dsimp only
  rw [he, hp]

theorem State.poseChange_eq (f : Nat) :
    s.poseChange f = if s.isPatched f then (s.posed f (s.patchOf f)).rigReaim f else s.posed f (s.patchOf f) := by
  have hp : (s.posed f (s.patchOf f)).isPatched f = s.isPatched f := by
    rw [State.posed, State.invalidate_frame]
    simp [State.isPatched, State.patchOf]
  have he : (s.advancePose f).invalidate (fun e => decide (e.fixture = f)) = s.posed f (s.patchOf f) := rfl
  unfold State.poseChange
  dsimp only
  rw [he, hp]

section Posed
variable (f : Nat) (x : Option Patch)

theorem State.posed_frame : s.posed f x =
    (s.setFixture f ⟨x, ((s.fixture f).gen + 1) % 4294967296⟩).withCache (s.posed f x).cache := by
  unfold State.posed
  exact State.invalidate_frame _ _

theorem State.posed_pointer : (s.posed f x).cache.pointer = s.cache.pointer := by
  unfold State.posed
  exact State.invalidate_pointer _ _

theorem State.posed_cacheEntry {i : Nat} (hi : i < 32) : (s.posed f x).cacheEntry i =
    { s.cacheEntry i with valid := (s.cacheEntry i).valid && decide ((s.cacheEntry i).fixture ≠ f) } := by
  rw [State.posed, State.invalidate_cacheEntry _ _ hi]
  simp only [CacheEntry.invalidated, ne_eq, decide_not]
  rfl

theorem State.posed_fixture (g : Nat) : (s.posed f x).fixture g =
    if g = f then ⟨x, ((s.fixture f).gen + 1) % 4294967296⟩ else s.fixture g := by
  rw [s.posed_frame f x, State.withCache_fixture, State.setFixture_fixture]

theorem State.posed_kind (k : Nat) : (s.posed f x).kind k = s.kind k := by
  rw [s.posed_frame f x]; rfl

theorem State.posed_aimedAt (g : Nat) : (s.posed f x).aimedAt g = s.aimedAt g := by
  rw [s.posed_frame f x]; rfl

theorem State.posed_reaimLaw (g : Nat) : (s.posed f x).reaimLaw g = s.reaimLaw g := by
  rw [s.posed_frame f x]; rfl

end Posed

theorem State.rigReaim_of_notAimed {f : Nat} (h : s.aimedAt f = none) : s.rigReaim f = s := by
  unfold State.rigReaim; rw [h]

theorem State.rigReaim_of_aimed {f q : Nat} (h : s.aimedAt f = some q) :
    s.rigReaim f = (s.reaim f q (s.reaimLaw f) .rig).1 := by
  unfold State.rigReaim; rw [h]

theorem State.aimedAt_of_nil {f : Nat} (h : s.aimStack f = []) : s.aimedAt f = none := by
  simp [State.aimedAt, State.activeAim, h]

/-- A pose change of a fixture that is not aimed makes no request. -/
theorem State.poseChange_of_notAimed {f : Nat} (h : s.aimStack f = []) : s.poseChange f = s.posed f (s.patchOf f) := by
  have hn : (s.posed f (s.patchOf f)).aimedAt f = none := (s.posed_aimedAt f _ f).trans (s.aimedAt_of_nil h)
  rw [s.poseChange_eq, State.rigReaim_of_notAimed _ hn, ite_self]

theorem State.poseChange_setFixture_of_notAimed {f : Nat} (x : Option Patch) (h : s.aimStack f = []) :
    (s.setFixture f { s.fixture f with patch := x }).poseChange f = s.posed f x := by
  have hn : (s.posed f x).aimedAt f = none := (s.posed_aimedAt f _ f).trans (s.aimedAt_of_nil h)
  rw [s.poseChange_setFixture, State.rigReaim_of_notAimed _ hn, ite_self]

/-! ### Lines: slots and the highest patched slot (R187, R188) -/

/-- A line with slot values written over its buffer, at offsets from a base slot. -/
def Line.written (r : Line) (base : Nat) (ws : List (Nat × Nat)) : Line :=
  { r with buffer := Store.setAll 0 r.buffer (ws.map fun w => (base + w.1, BitVec.ofNat 8 w.2)) }

theorem State.writeSlots_line (line base : Nat) (ws : List (Nat × Nat)) (l : Nat) :
    (s.writeSlots line base ws).line l = if l = line then (s.line l).written base ws else s.line l := by
  rw [State.writeSlots, State.setLine_line]
  split
  · next h => rw [h]; rfl
  · rfl

theorem State.writeSlots_frame (line base : Nat) (ws : List (Nat × Nat)) :
    s.writeSlots line base ws = s.withLines (s.writeSlots line base ws).lines := rfl

theorem State.refreshHighest_line (line l : Nat) : (s.refreshHighest line).line l =
    if l = line then { s.line l with highest := s.highestPatched l } else s.line l := by
  rw [State.refreshHighest, State.setLine_line]
  split
  · next h => rw [h]
  · rfl

theorem State.refreshHighest_frame (line : Nat) : s.refreshHighest line = s.withLines (s.refreshHighest line).lines := rfl

theorem State.highestPatched_of_rig {s t : State} (h : t.rig = s.rig) (l : Nat) :
    t.highestPatched l = s.highestPatched l := by
  have hl (f : Nat) : t.lastSlotOn l f = s.lastSlotOn l f := by
    simp only [State.lastSlotOn, State.profileOf, State.patchOf, State.fixture, State.kind, h]
  simp only [State.highestPatched, hl]

theorem zeroSlots_written (r : Line) (base n : Nat) : r.written base (zeroSlots n) =
    { r with buffer := Store.setAll 0 r.buffer ((List.range n).map fun o => (base + o, 0)) } := by
  simp [Line.written, zeroSlots, Function.comp_def]

theorem Line.written_get_other (r : Line) (base n : Nat) {ws : List (Nat × Nat)} (hw : ∀ w ∈ ws, w.1 < n) {i : Nat}
    (hi : i < base ∨ base + n ≤ i) : Store.get 0 (r.written base ws).buffer i = Store.get 0 r.buffer i := by
  refine Store.get_setAll_other _ _ _ ?_
  simp only [List.mem_map]
  rintro w ⟨x, hx, rfl⟩
  have := hw x hx
  dsimp only
  omega

theorem Line.zeroed_get (r : Line) (base n : Nat) {o : Nat} (ho : o < n) :
    Store.get 0 (r.written base (zeroSlots n)).buffer (base + o) = 0 := by
  rw [zeroSlots_written]
  refine Store.get_setAll_of_mem _ _ _ ⟨(base + o, 0), ?_, rfl⟩ ?_
  · exact List.mem_map.2 ⟨o, List.mem_range.2 ho, rfl⟩
  · simp only [List.mem_map]
    rintro w ⟨x, -, rfl⟩ -
    rfl

theorem zeroSlots_lt (n : Nat) : ∀ w ∈ zeroSlots n, w.1 < n := by
  simp [zeroSlots]

/-- Line `l` with the footprint of fixture `f` zeroed, when it is PATCHED there. -/
def State.zeroedLine (s : State) (f l : Nat) : Line :=
  match s.patchOf f, s.profileOf f with
  | some p, some k => if l = p.line then (s.line l).written p.base (zeroSlots k.footprint) else s.line l
  | _, _ => s.line l

theorem State.zeroOwn_line (f l : Nat) : (s.zeroOwn f).line l = s.zeroedLine f l := by
  unfold State.zeroOwn State.zeroedLine
  cases s.patchOf f with
  | none => rfl
  | some p =>
    cases s.profileOf f with
    | none => rfl
    | some k => exact s.writeSlots_line ..

theorem State.zeroOwn_frame (f : Nat) : s.zeroOwn f = s.withLines (s.zeroOwn f).lines := by
  unfold State.zeroOwn; split <;> rfl

/-! ### A fixture emptied (R10, R53, R85) -/

theorem owedTags_eq {α : Type} (l : List (Entry α)) :
    owedTags l = l.filterMap fun e => if e.owed = true then e.tag else none := by
  induction l with
  | nil => rfl
  | cons e l ih =>
    rw [owedTags, List.filterMap_cons]
    cases e.owed <;> cases e.tag <;> simp [ih]

theorem State.emptyStacks_frame (f : Nat) : s.emptyStacks f =
    ((s.setAimStack f []).setColourStack f []).withPlayback
      { s.playback with
        reports := s.playback.reports ++ (owedTags (s.aimStack f) ++ owedTags (s.colourStack f)).map fun g => ⟨false, g⟩ } := by
  simp [State.emptyStacks, State.reportAllSuperseded_eq]

section Jobs
variable (f : Nat)

theorem State.setOwed_owedMark (c : Option Cls) (g : Nat) :
    (s.setOwed f c).owedMark g = if g = f then c else s.owedMark g := by
  simp only [State.owedMark, State.setOwed, State.withSolver_solver, Store.get_set]

/-- Fixture `g` has no mark and no QUEUED job. -/
def State.jobless (s : State) (g : Nat) : Prop := s.owedMark g = none ∧ s.solver.hasQueued g = false

theorem coalesce_hasQueued (p : Nat) (c : Cls) (jobs : List Job) (g : Nat) :
    ((coalesce f p c jobs).any fun j => decide (j.fixture = g)) = jobs.any fun j => decide (j.fixture = g) := by
  simp only [coalesce, List.any_map, Function.comp_def]
  congr 1
  funext j
  split <;> rfl

theorem State.deliver_solver (r : SolveResult) : (s.deliver f r).solver = s.solver := (s.onMotion_frame _ f).solver

/-- A request for another fixture gives this one no mark and no job. -/
theorem State.request_jobless {g : Nat} (hg : g ≠ f) (p : Nat) (c : Cls) (h : s.jobless g) :
    (s.request f p c).1.jobless g := by
  obtain ⟨hm, hq⟩ := h
  have hset {q : List Job} (x : Option Cls) (hq : (q.any fun j => decide (j.fixture = g)) = false) {t : State}
      (ht : t.solver = { s.solver with queued := q, owed := Store.set none s.solver.owed f x }) : t.jobless g := by
    refine ⟨?_, ?_⟩
    · rw [State.owedMark, ht, Store.get_set, if_neg hg]; exact hm
    · rw [Solver.hasQueued, ht]; exact hq
  unfold State.request
  split
  · unfold State.requestHit
    dsimp only
    split
    · exact hset none hq (State.deliver_solver ..)
    · exact hset none hq (State.deliver_solver ..)
  · unfold State.requestMiss
    dsimp only
    split
    · exact hset none ((coalesce_hasQueued ..).trans hq) rfl
    · split
      · refine hset (q := s.solver.queued ++ [⟨f, p, c, _⟩]) none ?_ rfl
        simp only [List.any_append, List.any_cons, List.any_nil, Bool.or_false, Bool.or_eq_false_iff]
        exact ⟨hq, decide_eq_false (Ne.symm hg)⟩
      · exact hset (some c) hq rfl

theorem State.serveMarks_jobless {fs : List Nat} (hf : f ∉ fs) (h : s.jobless f) : (s.serveMarks fs).1.jobless f := by
  induction fs generalizing s with
  | nil => exact h
  | cons g fs ih =>
    rw [List.mem_cons, not_or] at hf
    obtain ⟨hg, hf⟩ := hf
    have howed : ((s.setOwed g none).serveMarks fs).1.jobless f :=
      ih _ hf ⟨by rw [State.setOwed_owedMark, if_neg hg]; exact h.1, h.2⟩
    unfold State.serveMarks
    split
    · exact ih s hf h
    · next c _ =>
      split
      · next p _ =>
        have hreq := s.request_jobless g hg p c h
        split
        · split
          · next he => rw [he] at hreq; exact ih _ hf hreq
          · next he => rw [he] at hreq; exact hreq
        · exact howed
      · exact howed

theorem State.not_mem_owedOf {c : Cls} (h : s.owedMark f = none) : f ∉ s.owedOf c := by
  simp [State.owedOf, h]

theorem State.owedService_jobless (p : Pool) (h : s.jobless f) : (s.owedService p).jobless f := by
  have hn {c : Cls} := s.not_mem_owedOf f (c := c) h.1
  cases p with
  | reserve c => exact s.serveMarks_jobless f hn h
  | shared => exact s.serveMarks_jobless f (by simp [hn]) h

/-- A fixture whose job is dropped keeps no mark and no QUEUED job (R85). -/
theorem State.dropJobs_jobless : (s.dropJobs f).jobless f := by
  have h : ((s.withSolver { s.solver with queued := s.solver.queued.filter fun j => !decide (j.fixture = f) }).setOwed f
      none).jobless f := by
    refine ⟨by rw [State.setOwed_owedMark, if_pos rfl], ?_⟩
    simp only [Solver.hasQueued, State.setOwed, State.withSolver_solver, List.any_filter, List.any_eq_false]
    intro j _
    simp
  unfold State.dropJobs
  dsimp only
  split
  · exact State.owedService_jobless _ f _ h
  · exact h

end Jobs

end Sys2Proof.Machine
end

