-- ==== Sys2Proof/Proofs/RigRows.lean ====
section
/-! PROOFS. The rig commands: kinds, PATCH and its forms, UNPATCH, poses, trusses and COPY_RIG (chapter 1). -/

namespace Sys2Proof.Machine

variable (s : State)

/-! ### Kinds (R1, R2) -/

/-- Settles O19: the kind stored, or in use. -/
theorem kindsAreDefined : Obligations.KindsAreDefined := by
  intro s k h hk
  refine ⟨fun hi => exec_of_answer s rfl h ?_, fun hi => ⟨s.setKind k.kind (some k.profile), ?_, rfl, rfl, rfl,
    fun j => State.setKind_kind ..⟩⟩
  · simp [rowEffect, State.defineKind, hk, hi, State.refuse]
  · refine exec_of_effect s rfl h ?_
    simp [rowEffect, State.defineKind, hk, hi]

/-! ### A fixture created (R7) -/

/-- The outputs that a new record has, at its home. -/
def createdSlots (k : Profile) (p : Patch) : List (Nat × Nat) :=
  footprintSlots k p (p.homePan * 16) (p.homeTilt * 16) (Colour.fresh k.model).outputs

section Create
variable (f : Nat) (p : Patch) (k : Profile)

/-- The stacks and records of a fixture just made PATCHED. -/
def State.freshRecords (s : State) (f : Nat) (p : Patch) (k : Profile) : State :=
  (((s.setAimStack f []).setColourStack f []).setMotionOf f (some (Motion.fresh p.homePan p.homeTilt))).setColourOf f
    (some (Colour.fresh k.model))

theorem State.createRecords_eq : s.createRecords f p k =
    ((s.freshRecords f p k).writeSlots p.line p.base (createdSlots k p)).refreshHighest p.line := rfl

theorem State.createRecords_frame :
    s.createRecords f p k = (s.freshRecords f p k).withLines (s.createRecords f p k).lines := rfl

/-- Slots written and the highest patched slot of their line formed anew. -/
theorem State.writtenRefreshed_line (line base : Nat) (ws : List (Nat × Nat)) (l : Nat) :
    ((s.writeSlots line base ws).refreshHighest line).line l =
      if l = line then { (s.line l).written base ws with highest := s.highestPatched l } else s.line l := by
  have hrig : (s.writeSlots line base ws).highestPatched l = s.highestPatched l := State.highestPatched_of_rig rfl l
  rw [State.refreshHighest_line, State.writeSlots_line, hrig]
  split <;> rfl

theorem State.createRecords_line (l : Nat) : (s.createRecords f p k).line l =
    if l = p.line then { (s.line l).written p.base (createdSlots k p) with highest := s.highestPatched l }
    else s.line l := by
  have hrig : (s.freshRecords f p k).highestPatched l = s.highestPatched l := State.highestPatched_of_rig rfl l
  rw [s.createRecords_eq, State.writtenRefreshed_line, hrig]
  rfl

/-- A new fixture's creation with no claim standing: a pose change without a request, then its records and slots. -/
theorem State.createFixture_of_noAim (h : s.aimStack f = []) :
    s.createFixture f p k = (s.posed f (some p)).createRecords f p k := by
  unfold State.createFixture
  dsimp only
  rw [s.poseChange_setFixture_of_notAimed (some p) h]

end Create

/-- Settles O22: the pose change, the records and the line of a fixture created. -/
theorem fixtureIsCreated : Obligations.FixtureIsCreated := by
  intro s f p k hs hw
  have hc := s.createFixture_of_noAim f p k hs
  have hfr := (s.posed f (some p)).createRecords_frame f p k
  have hln := (s.posed f (some p)).createRecords_line f p k
  have hpf := s.posed_frame f (some p)
  have hpfix := s.posed_fixture f (some p)
  have hpc := fun i (hi : i < 32) => s.posed_cacheEntry f (some p) hi
  generalize s.posed f (some p) = u at hc hfr hln hpf hpfix hpc
  rw [← hc] at hfr hln
  generalize s.createFixture f p k = t at hfr hln
  have hu (l : Nat) : u.line l = s.line l := by rw [hpf]; rfl
  have hfix (g : Nat) : t.fixture g = u.fixture g := by rw [hfr]; rfl
  refine ⟨t, rfl, ?_, ?_, ?_, ?_, ?_, ?_, fun g hg => ⟨?_, ?_, ?_, ?_, ?_⟩, fun i hi => ?_, ?_, fun i hi => ?_, fun l hl => ?_⟩
  · rw [hfr, hpf]; rfl
  · rw [hfix, hpfix, if_pos rfl]
  · rw [hfr]; simp [State.freshRecords]
  · rw [hfr]; simp [State.freshRecords]
  · rw [hfr]; simp [State.freshRecords]
  · rw [hfr]; simp [State.freshRecords]
  · rw [hfix, hpfix, if_neg hg]
  · rw [hfr, hpf]; simp [State.freshRecords, State.setAimStack_aimStack_other, hg]
  · rw [hfr, hpf]; simp [State.freshRecords, State.setColourStack_colourStack_other, hg]
  · rw [hfr, hpf]; simp [State.freshRecords, State.setMotionOf_motionOf_other, hg]
  · rw [hfr, hpf]; simp [State.freshRecords, State.setColourOf_colourOf_other, hg]
  · rw [← hpc i hi, hfr]; rfl
  · rw [hln, if_pos rfl, hu]; rfl
  · rw [hln, if_pos rfl, hu]; exact Line.written_get_other _ _ _ hw hi
  · rw [hln, if_neg hl, hu]

/-! ### A fixture moved, and PATCH (R6 to R9) -/

/-- The lines of a fixture moved: its old footprint zeroed and the new one written (R8). -/
def State.movedLine (s : State) (old p : Patch) (k : Profile) (ws : List (Nat × Nat)) (l : Nat) : Line :=
  let r := if l = old.line then (s.line l).written old.base (zeroSlots k.footprint) else s.line l
  if l = p.line then r.written p.base ws else r

/-- The lines after a move, with the highest patched slots of the old and the new line formed anew. -/
theorem State.moved_line (u : State) (old p : Patch) (k : Profile) (ws : List (Nat × Nat)) (l : Nat) :
    ((((u.zeroFootprint old k.footprint).writeSlots p.line p.base ws).refreshHighest old.line).refreshHighest
      p.line).line l =
      { u.movedLine old p k ws l with
        highest := if l = old.line ∨ l = p.line then u.highestPatched l else (u.line l).highest } := by
  have h1 : (((u.zeroFootprint old k.footprint).writeSlots p.line p.base ws).refreshHighest old.line).highestPatched l =
      u.highestPatched l := State.highestPatched_of_rig rfl l
  have h2 : ((u.zeroFootprint old k.footprint).writeSlots p.line p.base ws).highestPatched l = u.highestPatched l :=
    State.highestPatched_of_rig rfl l
  have h3 : (((u.zeroFootprint old k.footprint).writeSlots p.line p.base ws).line l) = u.movedLine old p k ws l := by
    rw [State.writeSlots_line, State.zeroFootprint, State.writeSlots_line]; rfl
  have h4 : (u.movedLine old p k ws l).highest = (u.line l).highest := by
    unfold State.movedLine
    dsimp only
    split <;> split <;> rfl
  rw [State.refreshHighest_line, State.refreshHighest_line, h1, h2, h3]
  by_cases hp : l = p.line
  · have hop : l = old.line ∨ l = p.line := .inr hp
    simp only [if_pos hp, if_pos hop]
    by_cases ho : l = old.line
    · simp only [if_pos ho]
    · simp only [if_neg ho]
  · by_cases ho : l = old.line
    · have hop : l = old.line ∨ l = p.line := .inl ho
      simp only [if_neg hp, if_pos ho, if_pos hop]
    · simp only [if_neg hp, if_neg ho, if_neg (not_or.2 ⟨ho, hp⟩), ← h4]

theorem State.withLines_trans {s t u : State} (h : t = s.withLines t.lines) (h' : u = t.withLines u.lines) :
    u = s.withLines u.lines := by
  rw [h] at h'
  exact h'

/-- Two footprints written and two lines formed anew touch the lines alone. -/
theorem State.moved_frame (v : State) (old p : Patch) (n : Nat) (ws : List (Nat × Nat)) {t : State}
    (ht : t = (((v.zeroFootprint old n).writeSlots p.line p.base ws).refreshHighest old.line).refreshHighest p.line) :
    t = v.withLines t.lines := by
  have h1 := State.withLines_trans (v.writeSlots_frame old.line old.base (zeroSlots n))
    (State.writeSlots_frame _ p.line p.base ws)
  have h2 := State.withLines_trans h1 (State.refreshHighest_frame _ old.line)
  rw [ht]
  exact State.withLines_trans h2 (State.refreshHighest_frame _ p.line)

/-- A move: the pose change with its request, and then the lines. -/
theorem State.moveFixture_eq (f : Nat) (old p : Patch) (k : Profile) {v : State} {m : Motion} {c : Colour}
    (hv : v = (s.posed f (some p)).rigReaim f) (hm : v.motionOf f = some m) (hc : v.colourOf f = some c) :
    s.moveFixture f old p k =
      (((v.zeroFootprint old k.footprint).writeSlots p.line p.base (footprintSlots k p m.pan m.tilt c.outputs)).refreshHighest
        old.line).refreshHighest p.line := by
  have hpc := s.poseChange_setFixture f (some p)
  rw [Option.isSome_some, if_pos rfl, ← hv] at hpc
  unfold State.moveFixture
  dsimp only
  rw [hpc]
  have hm' : (v.zeroFootprint old k.footprint).motionOf f = some m := hm
  have hc' : (v.zeroFootprint old k.footprint).colourOf f = some c := hc
  rw [hm', hc']

/-- PATCH past its ranges, with a kind that is DEFINED. -/
theorem exec_patch_of_kind {a : PatchArgs} {m : Mounting} {k : Profile} (h : s.handed (.patch a) = true)
    (ha : a.rangesOk = true) (hk : s.kind a.kind = some k) (hm : mountingOf (a.body % 4) = some m) :
    exec (.patch a) s = .next (if !a.fitsKind k then s.refuse .badArg else s.patchWith a m k).pump := by
  refine exec_of_effect s rfl h ?_
  simp [rowEffect, State.patch, ha, hk, hm]

section
variable {a : PatchArgs} {m : Mounting} {k : Profile}

theorem State.carryPatch_of_unpatched (h : s.patchOf a.fixture = none) : s.carryPatch a m k =
    s.createFixture a.fixture (a.record m (List.replicate k.emitterCount 4096) (List.replicate k.pass.length 0)) k := by
  simp only [State.carryPatch, h]

theorem State.carryPatch_of_same {old : Patch} (h : s.patchOf a.fixture = some old) (he : old.kind = a.kind) :
    s.carryPatch a m k = s.moveFixture a.fixture old (a.record m old.trims old.pass) k := by
  simp only [State.carryPatch, h, if_pos he]

theorem State.carryPatch_of_other {old : Patch} (h : s.patchOf a.fixture = some old) (he : old.kind ≠ a.kind) :
    s.carryPatch a m k = (s.unpatchOne a.fixture).createFixture a.fixture
      (a.record m (List.replicate k.emitterCount 4096) (List.replicate k.pass.length 0)) k := by
  simp only [State.carryPatch, h, if_neg he]

end

/-- Settles O21: PATCH's later stages, and the move. -/
theorem patchForms : Obligations.PatchForms := by
  refine ⟨fun s a m k h ha hk hm => ?_, fun s f old p k m c hp hm hc => ?_⟩
  · rw [exec_patch_of_kind s h ha hk hm]
    refine ⟨fun hf => by rw [hf]; rfl, fun hf ho hh => ?_, fun hf hoh => ?_⟩
    · simp only [hf, Bool.not_true, Bool.false_eq_true, if_false, State.patchWith, ho, hh, Bool.and_self, if_true]
      rfl
    · have hno : (s.patchedOther a.fixture a.kind && s.holdsClaims a.fixture) = false := by
        cases ho : s.patchedOther a.fixture a.kind with
        | false => rfl
        | true => exact hoh ho
      simp only [hf, Bool.not_true, Bool.false_eq_true, if_false, State.patchWith, hno]
      refine ⟨fun hv => by rw [hv]; rfl, fun hv => ?_⟩
      rw [hv]
      simp only [Bool.false_eq_true, if_false]
      exact ⟨fun hp => by rw [s.carryPatch_of_unpatched hp]; rfl, fun old hp he => by rw [s.carryPatch_of_same hp he]; rfl,
        fun old hp he => by rw [s.carryPatch_of_other hp he]; rfl⟩
  · have hpf := s.posed_frame f (some p)
    have hptr := s.posed_pointer f (some p)
    have hpfix := s.posed_fixture f (some p)
    have hpc := fun i (hi : i < 32) => s.posed_cacheEntry f (some p) hi
    have hat := s.posed_aimedAt f (some p) f
    have hlaw := s.posed_reaimLaw f (some p) f
    have haims := (s.posed f (some p)).aims_rigReaim f
    have hmove := fun m c => s.moveFixture_eq f old p k (v := (s.posed f (some p)).rigReaim f) (m := m) (c := c) rfl
    have hre0 (h : s.aimedAt f = none) := (s.posed f (some p)).rigReaim_of_notAimed (hat.trans h)
    have hre1 {q : Nat} (h : s.aimedAt f = some q) := (s.posed f (some p)).rigReaim_of_aimed (hat.trans h)
    rw [hlaw] at hre1
    generalize s.posed f (some p) = u at hpf hptr hpfix hpc haims hmove hre0 hre1
    generalize u.rigReaim f = v at haims hmove hre0 hre1
    have hum (g : Nat) : u.motionOf g = s.motionOf g := by rw [hpf]; rfl
    have huc (g : Nat) : u.colourOf g = s.colourOf g := by rw [hpf]; rfl
    have hul (l : Nat) : u.line l = s.line l := by rw [hpf]; rfl
    have hpos := haims.positions f
    rw [hum, hm] at hpos
    obtain ⟨m', hm', hpos⟩ := Option.map_eq_some_iff.1 hpos
    obtain ⟨hpan, htilt⟩ := Prod.mk.inj hpos
    have hmv := hmove m' c hm' ((haims.colourOf f).trans ((huc f).trans hc))
    rw [hpan, htilt] at hmv
    have hlines := v.moved_line old p k (footprintSlots k p m.pan m.tilt c.outputs)
    have hfr : s.moveFixture f old p k = v.withLines (s.moveFixture f old p k).lines := v.moved_frame _ _ _ _ hmv
    rw [← hmv] at hlines
    generalize s.moveFixture f old p k = t at hlines hfr
    have hvl (l : Nat) : v.line l = s.line l := by
      rw [State.line, haims.lines]; exact hul l
    have hrig (l : Nat) : v.highestPatched l = t.highestPatched l := State.highestPatched_of_rig (by rw [hfr]; rfl) l
    refine ⟨t, u, rfl, hpf, hptr, hpc, ?_, ?_, fun g hg => ?_, fun g => ?_, fun g => ⟨?_, ?_⟩, fun g => ?_, fun l => ?_,
      fun l b hb => ?_, fun l => ?_⟩
    · cases hs : s.aimedAt f with
      | none => rw [← hre0 hs]; exact hfr
      | some q => dsimp only; rw [← hre1 hs]; exact hfr
    · rw [hfr, State.withLines_fixture, haims.fixture, hpfix, if_pos rfl]
    · rw [hfr, State.withLines_fixture, haims.fixture, hpfix, if_neg hg]
    · rw [hfr, State.withLines_aimStack, haims.stacked, hpf]; rfl
    · rw [hfr, State.withLines_colourStack, haims.colourStack, hpf]; rfl
    · rw [hfr, State.withLines_colourOf, haims.colourOf, huc]
    · rw [hfr, State.withLines_motionOf, haims.positions, hum]
    · rw [hlines]
      unfold State.movedLine
      rw [← hvl]
      dsimp only
      split <;> split <;> rfl
    · have hz (r : Line) : (if l = old.line then r.written old.base (zeroSlots k.footprint) else r).buffer =
          if l = old.line then Store.setAll 0 r.buffer ((List.range k.footprint).map fun o => (old.base + o, 0))
          else r.buffer := by
        split
        · rw [zeroSlots_written]
        · rfl
      rw [hlines, hb, ← hvl, ← hz]
      unfold State.movedLine
      dsimp only
      by_cases hl : l = p.line
      · rw [if_pos hl, if_pos hl]; rfl
      · rw [if_neg hl, if_neg hl]
    · rw [hlines, hvl, hrig]

/-! ### A fixture emptied and unpatched (R10, R53) -/

/-- Fixture `f` without claims, mark and QUEUED job. -/
def State.emptied (s : State) (f : Nat) : State := (s.emptyStacks f).dropJobs f

section Emptied
variable (f : Nat)

theorem State.emptied_aims : (s.emptyStacks f).Aims (s.emptied f) := State.aims_dropJobs _ f

theorem State.emptied_aimStack : (s.emptied f).aimStack f = [] :=
  (s.emptied_aims f).aimStack_of_nil (by rw [State.emptyStacks_frame]; simp)

theorem State.emptied_colourStack (g : Nat) : (s.emptied f).colourStack g = if g = f then [] else s.colourStack g := by
  rw [(s.emptied_aims f).colourStack, State.emptyStacks_frame, State.withPlayback_colourStack,
    State.setColourStack_colourStack]
  rfl

theorem State.emptied_reports : (s.playback.reports ++
    (((s.aimStack f).filterMap fun e => if e.owed = true then e.tag else none) ++
      (s.colourStack f).filterMap fun e => if e.owed = true then e.tag else none).map fun g => ⟨false, g⟩) <+:
    (s.emptied f).playback.reports := by
  have h := (s.emptied_aims f).reports
  rw [State.emptyStacks_frame, owedTags_eq, owedTags_eq] at h
  exact h

theorem State.emptied_rig : (s.emptied f).rig = s.rig :=
  (s.emptied_aims f).rig.trans (by rw [State.emptyStacks_frame]; rfl)

theorem State.emptied_points : (s.emptied f).points = s.points :=
  (s.emptied_aims f).points.trans (by rw [State.emptyStacks_frame]; rfl)

theorem State.emptied_memory : (s.emptied f).memory = s.memory :=
  (s.emptied_aims f).memory.trans (by rw [State.emptyStacks_frame]; rfl)

theorem State.emptied_beat : (s.emptied f).beat = s.beat :=
  (s.emptied_aims f).beat.trans (by rw [State.emptyStacks_frame]; rfl)

theorem State.emptied_lines : (s.emptied f).lines = s.lines :=
  (s.emptied_aims f).lines.trans (by rw [State.emptyStacks_frame]; rfl)

theorem State.emptied_colour : (s.emptied f).colour = s.colour :=
  (s.emptied_aims f).colour.trans (by rw [State.emptyStacks_frame]; rfl)

theorem State.emptied_cacheEntry (i : Nat) : (s.emptied f).cacheEntry i = s.cacheEntry i :=
  ((s.emptied_aims f).cacheEntry i).trans (by rw [State.emptyStacks_frame]; rfl)

theorem State.emptied_line (l : Nat) : (s.emptied f).line l = s.line l := by
  rw [State.line, s.emptied_lines f]; rfl

end Emptied

/-- The unpatch, part by part. -/
theorem State.unpatchOne_eq {f : Nat} {p : Patch} (hp : s.patchOf f = some p) : s.unpatchOne f =
    (((((((s.emptied f).posed f (some p)).zeroOwn f).discardRecords f)).setFixture f
      ⟨none, ((s.fixture f).gen + 1) % 4294967296⟩).refreshHighest p.line).syncStepTimer := by
  have hpose := (s.emptied f).poseChange_of_notAimed (s.emptied_aimStack f)
  have hpe : (s.emptied f).patchOf f = some p := (State.patchOf_of_rig (s.emptied_rig f) f).trans hp
  rw [hpe] at hpose
  have hgen : ((((s.emptied f).posed f (some p)).zeroOwn f).discardRecords f).fixture f =
      ⟨some p, ((s.fixture f).gen + 1) % 4294967296⟩ := by
    rw [State.discardRecords, State.setColourOf_fixture, State.setMotionOf_fixture, State.zeroOwn_frame,
      State.withLines_fixture, State.posed_fixture, if_pos rfl, State.fixture, s.emptied_rig f]
    rfl
  unfold State.unpatchOne
  dsimp only
  rw [hp, show (s.emptyStacks f).dropJobs f = s.emptied f from rfl, hpose, hgen]
  rfl

theorem exec_unpatchFixture_of_work {f done skipped : Nat} {fs : List Nat} (hr : s.resetting = none)
    (hw : s.work = some (.unpatch (f :: fs) done skipped)) :
    exec .unpatchFixture s = .next ((s.unpatchOne f).goUnpatch fs (done + 1) skipped).pump := by
  have hu : s.unpatching = some (f, fs, done, skipped) := by simp [State.unpatching, hw]
  rw [exec_of_enabled s (c := .unpatchFixture) rfl rfl hr (by simp [rowEnabled, hu])]
  simp only [rowEffect, State.unpatchNext, hu]

/-- `t` is `s` with only fixture records, cache flags, motion and colour records and lines changed. -/
structure State.Rerigs (s t : State) : Prop where
  points : t.points = s.points
  memory : t.memory = s.memory
  beat : t.beat = s.beat
  kinds : t.rig.kinds = s.rig.kinds
  playback : t.playback = s.playback
  solver : t.solver = s.solver
  aimStack : ∀ g, t.aimStack g = s.aimStack g
  colourStack : ∀ g, t.colourStack g = s.colourStack g

theorem State.Rerigs.trans {s t u : State} (h : s.Rerigs t) (h' : t.Rerigs u) : s.Rerigs u where
  points := h'.points.trans h.points
  memory := h'.memory.trans h.memory
  beat := h'.beat.trans h.beat
  kinds := h'.kinds.trans h.kinds
  playback := h'.playback.trans h.playback
  solver := h'.solver.trans h.solver
  aimStack g := (h'.aimStack g).trans (h.aimStack g)
  colourStack g := (h'.colourStack g).trans (h.colourStack g)

theorem State.Rerigs.refl : s.Rerigs s := ⟨rfl, rfl, rfl, rfl, rfl, rfl, fun _ => rfl, fun _ => rfl⟩

theorem State.rerigs_setFixture (f : Nat) (r : Fixture) : s.Rerigs (s.setFixture f r) :=
  ⟨rfl, rfl, rfl, rfl, rfl, rfl, fun _ => rfl, fun _ => rfl⟩

theorem State.rerigs_withCache (c : Cache) : s.Rerigs (s.withCache c) :=
  ⟨rfl, rfl, rfl, rfl, rfl, rfl, fun _ => rfl, fun _ => rfl⟩

theorem State.rerigs_withLines (l : Lines) : s.Rerigs (s.withLines l) :=
  ⟨rfl, rfl, rfl, rfl, rfl, rfl, fun _ => rfl, fun _ => rfl⟩

theorem State.rerigs_withMotion (m : MotionEngine) : s.Rerigs (s.withMotion m) :=
  ⟨rfl, rfl, rfl, rfl, rfl, rfl, fun _ => rfl, fun _ => rfl⟩

theorem State.rerigs_discardRecords (f : Nat) : s.Rerigs (s.discardRecords f) :=
  ⟨rfl, rfl, rfl, rfl, rfl, rfl, fun _ => rfl, fun _ => rfl⟩

theorem State.rerigs_posed (f : Nat) (x : Option Patch) : s.Rerigs (s.posed f x) := by
  rw [s.posed_frame f x]
  exact (s.rerigs_setFixture f _).trans (State.rerigs_withCache _ _)

theorem State.rerigs_zeroOwn (f : Nat) : s.Rerigs (s.zeroOwn f) := by
  rw [s.zeroOwn_frame f]; exact s.rerigs_withLines _

theorem State.rerigs_syncStepTimer : s.Rerigs s.syncStepTimer := by
  rw [s.syncStepTimer_frame]; exact s.rerigs_withMotion _

section Unpatch
variable {f : Nat} {p : Patch} (hp : s.patchOf f = some p)
include hp

theorem State.unpatchOne_rerigs : (s.emptied f).Rerigs (s.unpatchOne f) := by
  rw [s.unpatchOne_eq hp]
  have h1 := ((s.emptied f).rerigs_posed f (some p)).trans (State.rerigs_zeroOwn _ f)
  have h2 := (h1.trans (State.rerigs_discardRecords _ f)).trans
    (State.rerigs_setFixture _ f ⟨none, ((s.fixture f).gen + 1) % 4294967296⟩)
  exact (h2.trans (State.rerigs_withLines _ _)).trans (State.rerigs_syncStepTimer _)

theorem State.unpatchOne_fixture (g : Nat) : (s.unpatchOne f).fixture g =
    if g = f then ⟨none, ((s.fixture f).gen + 1) % 4294967296⟩ else s.fixture g := by
  rw [s.unpatchOne_eq hp, State.syncStepTimer_frame, State.withMotion_fixture, State.refreshHighest_frame,
    State.withLines_fixture, State.setFixture_fixture]
  split
  · rfl
  · next h =>
    rw [State.discardRecords, State.setColourOf_fixture, State.setMotionOf_fixture, State.zeroOwn_frame,
      State.withLines_fixture, State.posed_fixture, if_neg h, State.fixture, s.emptied_rig f]
    rfl

theorem State.unpatchOne_motionOf : (s.unpatchOne f).motionOf f = none := by
  rw [s.unpatchOne_eq hp, State.syncStepTimer_motionOf, State.refreshHighest_frame]
  simp [State.discardRecords]

theorem State.unpatchOne_colourOf (g : Nat) : (s.unpatchOne f).colourOf g = if g = f then none else s.colourOf g := by
  rw [s.unpatchOne_eq hp, State.syncStepTimer_frame, State.withMotion_colourOf, State.refreshHighest_frame,
    State.withLines_colourOf, State.setFixture_colourOf, State.discardRecords, State.setColourOf_colourOf,
    State.setMotionOf_colourOf, State.zeroOwn_frame, State.withLines_colourOf, State.posed_frame, State.withCache_colourOf,
    State.setFixture_colourOf, State.colourOf, s.emptied_colour f]
  rfl

theorem State.unpatchOne_cacheEntry {i : Nat} (hi : i < 32) : (s.unpatchOne f).cacheEntry i =
    { s.cacheEntry i with valid := (s.cacheEntry i).valid && decide ((s.cacheEntry i).fixture ≠ f) } := by
  rw [← s.emptied_cacheEntry f, ← State.posed_cacheEntry _ f (some p) hi, s.unpatchOne_eq hp, State.syncStepTimer_frame,
    State.withMotion_cacheEntry, State.refreshHighest_frame, State.withLines_cacheEntry, State.setFixture_cacheEntry,
    State.discardRecords, State.setColourOf_cacheEntry, State.setMotionOf_cacheEntry, State.zeroOwn_frame,
    State.withLines_cacheEntry]

theorem State.unpatchOne_line {k : Profile} (hk : s.profileOf f = some k) (l : Nat) : (s.unpatchOne f).line l =
    if l = p.line then
      { (s.line l).written p.base (zeroSlots k.footprint) with highest := (s.unpatchOne f).highestPatched l }
    else s.line l := by
  have hu : ((s.emptied f).posed f (some p)).patchOf f = some p := by rw [State.patchOf, State.posed_fixture, if_pos rfl]
  have huk : ((s.emptied f).posed f (some p)).profileOf f = some k := by
    rw [State.profileOf, hp] at hk
    rw [State.profileOf, hu]
    exact (State.posed_kind _ f _ p.kind).trans ((State.kind_of_rig (s.emptied_rig f) p.kind).trans hk)
  have hul (l : Nat) : ((s.emptied f).posed f (some p)).line l = s.line l := by
    rw [State.posed_frame, State.withCache_line, State.setFixture_line, s.emptied_line]
  have hz (l : Nat) : (((s.emptied f).posed f (some p)).zeroOwn f).line l =
      if l = p.line then (s.line l).written p.base (zeroSlots k.footprint) else s.line l := by
    rw [State.zeroOwn_line, State.zeroedLine, hu, huk, hul]
  rw [s.unpatchOne_eq hp, State.syncStepTimer_frame, State.withMotion_line, State.refreshHighest_line]
  generalize (((s.emptied f).posed f (some p)).zeroOwn f) = w at hz
  have hh : (((((w.discardRecords f).setFixture f ⟨none, ((s.fixture f).gen + 1) % 4294967296⟩).refreshHighest
      p.line).withMotion (((w.discardRecords f).setFixture f ⟨none, ((s.fixture f).gen + 1) % 4294967296⟩).refreshHighest
      p.line).syncStepTimer.motion)).highestPatched l =
      ((w.discardRecords f).setFixture f ⟨none, ((s.fixture f).gen + 1) % 4294967296⟩).highestPatched l :=
    State.highestPatched_of_rig rfl l
  rw [hh, State.setFixture_line, State.discardRecords, State.setColourOf_line, State.setMotionOf_line, hz]
  split <;> rfl

end Unpatch

/-- Settles O23: the unpatch's parts, block by block. -/
theorem fixtureIsUnpatched : Obligations.FixtureIsUnpatched := by
  intro s f fs done skipped p k hr hw hp hk
  have hre := s.unpatchOne_rerigs hp
  have hjob : (s.emptied f).jobless f := State.dropJobs_jobless _ f
  have hline := s.unpatchOne_line hp hk
  refine ⟨exec_unpatchFixture_of_work s hr hw, s.unpatchOne f, rfl, ?_, ?_, ?_, s.unpatchOne_motionOf hp, ?_, ?_, ?_,
    fun g hg => ⟨?_, ?_, ?_⟩, ?_, fun i hi => s.unpatchOne_cacheEntry hp hi, fun o ho => ?_, fun i hi => ?_,
    fun l hl => ?_, ?_, ?_, ?_, ?_⟩
  · rw [s.unpatchOne_fixture hp, if_pos rfl]
  · rw [hre.aimStack, s.emptied_aimStack]
  · rw [hre.colourStack, s.emptied_colourStack, if_pos rfl]
  · rw [s.unpatchOne_colourOf hp, if_pos rfl]
  · rw [State.owedMark, hre.solver]; exact hjob.1
  · rw [hre.solver]; exact hjob.2
  · rw [s.unpatchOne_fixture hp, if_neg hg]
  · rw [hre.colourStack, s.emptied_colourStack, if_neg hg]
  · rw [s.unpatchOne_colourOf hp, if_neg hg]
  · rw [hre.playback]; exact s.emptied_reports f
  · rw [hline, if_pos rfl]; exact Line.zeroed_get _ _ _ ho
  · rw [hline, if_pos rfl]; exact Line.written_get_other _ _ _ (zeroSlots_lt _) hi
  · rw [hline, if_neg hl]
  · rw [hre.points, s.emptied_points]
  · rw [hre.memory, s.emptied_memory]
  · rw [hre.beat, s.emptied_beat]
  · rw [hre.kinds, s.emptied_rig]

/-! ### Poses, trims and passthrough values (R11 to R13) -/

/-- SET_POSE past its ranges, for a PATCHED fixture. -/
theorem exec_setPose_of_patched {a : PoseArgs} {m : Mounting} {p : Patch} {k : Profile} (h : s.handed (.setPose a) = true)
    (hf : a.fixture ≤ 255) (ho : posOk a.pos = true) (hy : a.yaw ≤ 35999) (hm : mountingOf a.mounting = some m)
    (hp : s.patchOf a.fixture = some p) (hk : s.profileOf a.fixture = some k) :
    exec (.setPose a) s = .next (if k.homeOk a.homePan a.homeTilt then
      ((s.posed a.fixture (some (PoseOf a m p))).rigReaim a.fixture).answer .ok [] else s.refuse .badArg).pump := by
  have hr : poseRangesOk a = true := by simp [poseRangesOk, hf, ho, hy]
  have hpose := s.poseChange_setFixture a.fixture (some (PoseOf a m p))
  rw [Option.isSome_some, if_pos rfl] at hpose
  refine exec_of_effect s rfl h ?_
  rw [← hpose]
  simp only [rowEffect, State.setPose, hr, hm, hp, hk]
  cases k.homeOk a.homePan a.homeTilt <;> rfl

theorem Profile.emitterCount_of_other {k : Profile} (h : ∀ es, k.model ≠ .emitter es) : k.emitterCount = 0 := by
  unfold Profile.emitterCount
  split
  · next es he => exact absurd he (h es)
  · rfl

/-- Settles O24: the three commands, on a PATCHED and on an UNPATCHED fixture. -/
theorem poseTrimsAndPassthrough : Obligations.PoseTrimsAndPassthrough := by
  intro s
  refine ⟨fun a m p k h hf ho hy hm hp hk => ?_, fun f trims p k h hf hp hk hn hl => ?_,
    fun f trims p k h hf hp hk hbad => ?_, fun f values p k h hf hp hk hl => ?_, fun f values p k h hf hp hk hl => ?_,
    fun f hf hp => ⟨fun a m he h ho hy hm => ?_, fun trims h => ?_, fun values h => ?_⟩⟩
  · rw [exec_setPose_of_patched s h hf ho hy hm hp hk]
    refine ⟨fun hh => by rw [hh]; rfl, fun hh => ?_⟩
    rw [hh]
    have haims := (s.posed a.fixture (some (PoseOf a m p))).aims_rigReaim a.fixture
    have hpf := s.posed_frame a.fixture (some (PoseOf a m p))
    have hpfix := s.posed_fixture a.fixture (some (PoseOf a m p))
    have hptr := s.posed_pointer a.fixture (some (PoseOf a m p))
    have hpc := fun i (hi : i < 32) => s.posed_cacheEntry a.fixture (some (PoseOf a m p)) hi
    have hlaw := s.posed_reaimLaw a.fixture (some (PoseOf a m p)) a.fixture
    have hat := s.posed_aimedAt a.fixture (some (PoseOf a m p)) a.fixture
    generalize s.posed a.fixture (some (PoseOf a m p)) = u at haims hpf hpfix hptr hpc hlaw hat
    refine ⟨u.rigReaim a.fixture, u, rfl, hpf, hptr, hpc, ?_, ?_, fun g hg => ?_, fun i hi => ?_, ?_, ?_, ?_, ?_, ?_,
      fun g => ?_⟩
    · cases hs : s.aimedAt a.fixture with
      | none => exact u.rigReaim_of_notAimed (hat.trans hs)
      | some q => exact (u.rigReaim_of_aimed (hat.trans hs)).trans (by rw [hlaw])
    · rw [haims.fixture, hpfix, if_pos rfl]; rfl
    · rw [haims.fixture, hpfix, if_neg hg]
    · rw [haims.cacheEntry, hpc i hi]
    · rw [haims.lines, hpf]; rfl
    · rw [haims.points, hpf]; rfl
    · rw [haims.memory, hpf]; rfl
    · rw [haims.colour, hpf]; rfl
    · rw [haims.rig, hpf]; rfl
    · rw [haims.positions, hpf]; rfl
  · have hno : ¬ (k.emitterCount = 0 ∨ trims.length ≠ k.emitterCount) := by omega
    refine exec_of_effect s rfl h ?_
    simp only [rowEffect, State.setTrim, if_neg (show ¬ 255 < f by omega), hp, hk, if_neg hno]
  · have hyes : k.emitterCount = 0 ∨ trims.length ≠ k.emitterCount := hbad.imp_left Profile.emitterCount_of_other
    refine exec_of_answer s rfl h ?_
    simp only [rowEffect, State.setTrim, if_neg (show ¬ 255 < f by omega), hp, hk, if_pos hyes, State.refuse]
  · refine exec_of_answer s rfl h ?_
    simp only [rowEffect, State.setPassthrough, if_neg (show ¬ 255 < f by omega), hp, hk, if_pos hl, State.refuse]
  · refine exec_of_effect s rfl h ?_
    simp only [rowEffect, State.setPassthrough, if_neg (show ¬ 255 < f by omega), hp, hk, if_neg (not_not.2 hl)]
    rfl
  · subst he
    have hr : poseRangesOk a = true := by simp [poseRangesOk, hf, ho, hy]
    refine exec_of_answer s rfl h ?_
    simp only [rowEffect, State.setPose, hr, hm, hp, State.refuse]
  · refine exec_of_answer s rfl h ?_
    simp only [rowEffect, State.setTrim, if_neg (show ¬ 255 < f by omega), hp, State.refuse]
  · refine exec_of_answer s rfl h ?_
    simp only [rowEffect, State.setPassthrough, if_neg (show ¬ 255 < f by omega), hp, State.refuse]

/-! ### Trusses (R15) -/

theorem State.advancePoses_spec {fs : List Nat} (hn : fs.Nodup) :
    s.advancePoses fs = s.withRig (s.advancePoses fs).rig ∧ (s.advancePoses fs).rig.kinds = s.rig.kinds ∧
      (s.advancePoses fs).rig.trusses = s.rig.trusses ∧
      ∀ g, (s.advancePoses fs).fixture g =
        if g ∈ fs then { s.fixture g with gen := ((s.fixture g).gen + 1) % 4294967296 } else s.fixture g := by
  induction fs generalizing s with
  | nil => exact ⟨rfl, rfl, rfl, fun _ => rfl⟩
  | cons f fs ih =>
    obtain ⟨hf, hn⟩ := List.nodup_cons.1 hn
    obtain ⟨h1, h2, h3, h4⟩ := ih (s.advancePose f) hn
    refine ⟨h1, h2, h3, fun g => ?_⟩
    rw [State.advancePoses, h4, State.advancePose, State.setFixture_fixture]
    by_cases hg : g = f
    · subst hg; simp [hf, nextGen]
    · simp [hg]

theorem State.rigReaims_eq_foldl (fs : List Nat) : s.rigReaims fs = fs.foldl (fun v f => v.rigReaim f) s := by
  induction fs generalizing s with
  | nil => rfl
  | cons f fs ih => exact ih _

theorem State.mem_onTruss (r f : Nat) :
    f ∈ s.onTruss r ↔ f < 256 ∧ (s.patchOf f).map (fun p => p.truss) = some r := by
  simp [State.onTruss]

/-- SET_TRUSS up to its requests: the offset, the generations and the cache (R15, parts 1 to 3). -/
def State.trussed (s : State) (r : Nat) (o : Pos) : State :=
  ((s.setTrussOffset r o).advancePoses (s.onTruss r)).invalidate fun e => (s.onTruss r).contains e.fixture

section Truss
variable (r : Nat) (o : Pos)

theorem State.onTruss_nodup : (s.onTruss r).Nodup := List.nodup_range.filter _

theorem State.trussed_frame : s.trussed r o = (s.withRig (s.trussed r o).rig).withCache (s.trussed r o).cache := by
  have h := ((s.setTrussOffset r o).advancePoses_spec (s.onTruss_nodup r)).1
  unfold State.trussed
  generalize (s.setTrussOffset r o).advancePoses (s.onTruss r) = v at h
  rw [State.invalidate_frame]
  generalize (v.invalidate _).cache = c
  generalize v.rig = g at h
  rw [h]
  rfl

theorem State.trussed_cacheEntry {i : Nat} (hi : i < 32) : (s.trussed r o).cacheEntry i =
    { s.cacheEntry i with
      valid := (s.cacheEntry i).valid &&
        !(decide ((s.cacheEntry i).fixture < 256) &&
          decide ((s.patchOf (s.cacheEntry i).fixture).map (fun p => p.truss) = some r)) } := by
  have h := ((s.setTrussOffset r o).advancePoses_spec (s.onTruss_nodup r)).1
  have hc (f : Nat) : (s.onTruss r).contains f =
      (decide (f < 256) && decide ((s.patchOf f).map (fun p => p.truss) = some r)) := by
    rw [Bool.eq_iff_iff, List.contains_iff_mem, s.mem_onTruss]; simp
  have he : ((s.setTrussOffset r o).advancePoses (s.onTruss r)).cacheEntry i = s.cacheEntry i := by rw [h]; rfl
  rw [State.trussed, State.invalidate_cacheEntry _ _ hi, he, CacheEntry.invalidated, hc]

theorem State.trussed_pointer : (s.trussed r o).cache.pointer = s.cache.pointer := by
  have h := ((s.setTrussOffset r o).advancePoses_spec (s.onTruss_nodup r)).1
  rw [State.trussed, State.invalidate_pointer, h]; rfl

theorem State.trussed_fixture (f : Nat) : (s.trussed r o).fixture f =
    if f < 256 ∧ (s.patchOf f).map (fun p => p.truss) = some r then
      { s.fixture f with gen := ((s.fixture f).gen + 1) % 4294967296 } else s.fixture f := by
  have h := ((s.setTrussOffset r o).advancePoses_spec (s.onTruss_nodup r)).2.2.2 f
  rw [State.trussed, State.invalidate_frame, State.withCache_fixture, h]
  exact if_congr (s.mem_onTruss r f) rfl rfl

theorem State.trussed_trussOffset (j : Nat) :
    (s.trussed r o).trussOffset j = if j = r then o else s.trussOffset j := by
  have h := ((s.setTrussOffset r o).advancePoses_spec (s.onTruss_nodup r)).2.2.1
  rw [State.trussed, State.invalidate_frame, State.withCache_trussOffset, State.trussOffset, h]
  exact State.setTrussOffset_trussOffset ..

theorem State.trussed_kinds : (s.trussed r o).rig.kinds = s.rig.kinds := by
  have h := ((s.setTrussOffset r o).advancePoses_spec (s.onTruss_nodup r)).2.1
  rw [State.trussed, State.invalidate_frame, State.withCache_rig, h]; rfl

end Truss

/-- Settles O25: the truss, the generations and the cache, and then the requests. -/
theorem trussMoves : Obligations.TrussMoves := by
  intro s r o h hr ho
  have hno : ¬ (15 < r ∨ posOk o = false) := by
    rintro (hr' | ho')
    · omega
    · rw [ho] at ho'; cases ho'
  have hrow : exec (.setTruss r o) s = .next (((s.trussed r o).rigReaims (s.onTruss r)).answered .ok []) :=
    exec_of_effect s rfl h (if_neg hno)
  have haims := (s.trussed r o).aims_rigReaims (s.onTruss r)
  have hfold := (s.trussed r o).rigReaims_eq_foldl (s.onTruss r)
  have hfr := s.trussed_frame r o
  have hce := fun i (hi : i < 32) => s.trussed_cacheEntry r o hi
  have hfix := s.trussed_fixture r o
  have hoff := s.trussed_trussOffset r o
  have hkinds := s.trussed_kinds r o
  have hptr := s.trussed_pointer r o
  generalize s.trussed r o = u at hrow haims hfold hfr hce hfix hoff hkinds hptr
  refine ⟨_, u, hrow, hfr, haims.rig.symm, hptr, hce, ?_, fun j => ?_, fun f => ?_, fun i hi => ?_, ?_, ?_, ?_, ?_, fun g => ?_⟩
  · refine hfold.trans (congrArg (fun g => List.foldl g u (s.onTruss r)) (funext fun v => funext fun f => ?_))
    cases hs : v.aimedAt f with
    | none => exact v.rigReaim_of_notAimed hs
    | some q => exact v.rigReaim_of_aimed hs
  · rw [← hoff, State.trussOffset, haims.rig]; rfl
  · rw [haims.fixture, hfix]
  · rw [haims.cacheEntry, hce i hi]
  · rw [haims.rig, hkinds]
  · rw [haims.points, hfr]; rfl
  · rw [haims.lines, hfr]; rfl
  · rw [haims.memory, hfr]; rfl
  · rw [haims.positions, hfr]; rfl

/-! ### COPY_RIG (R16, R17) -/

/-- The state after one record copy, up to the destination's new records: its claims gone, its footprint zeroed, its
record replaced. -/
def State.overwritten (s : State) (dst : Nat) (x : Option Patch) : State :=
  (((s.emptied dst).zeroOwn dst).discardRecords dst).posed dst x

/-- New records for a fixture, when it is PATCHED. -/
def State.recreated (s : State) (f : Nat) (x : Option Patch) (k : Option Profile) : State :=
  match x, k with
  | some p, some k => s.createRecords f p k
  | _, _ => s

/-- The highest patched slot of a line formed anew, when there is a line. -/
def State.refreshAny (s : State) : Option Nat → State
  | some l => s.refreshHighest l
  | none => s

section Copy
variable (src dst : Nat) (d : Pos) (sd : Int)

/-- The record that the destination takes. -/
def State.copiedPatch (s : State) (src : Nat) (d : Pos) (sd : Int) : Option Patch := (s.patchOf src).map (copiedRecord d sd)

theorem State.copyRecord_eq : s.copyRecord src dst d sd =
    (((s.overwritten dst (s.copiedPatch src d sd)).recreated dst (s.copiedPatch src d sd) (s.profileOf src)).refreshAny
      ((s.patchOf dst).map fun p => p.line)).syncStepTimer := by
  have haim : (((s.emptied dst).zeroOwn dst).discardRecords dst).aimStack dst = [] := by
    have h := ((s.emptied dst).rerigs_zeroOwn dst).trans (State.rerigs_discardRecords _ dst)
    rw [h.aimStack, s.emptied_aimStack]
  have hpose := State.poseChange_setFixture_of_notAimed _ (s.copiedPatch src d sd) haim
  unfold State.copyRecord
  dsimp only
  rw [show (s.emptyStacks dst).dropJobs dst = s.emptied dst from rfl,
    show (s.patchOf src).map (copiedRecord d sd) = s.copiedPatch src d sd from rfl, hpose]
  rfl

theorem State.overwritten_rerigs (x : Option Patch) : (s.emptied dst).Rerigs (s.overwritten dst x) :=
  (((s.emptied dst).rerigs_zeroOwn dst).trans (State.rerigs_discardRecords _ dst)).trans (State.rerigs_posed _ dst x)

theorem State.overwritten_aimStack (x : Option Patch) : (s.overwritten dst x).aimStack dst = [] := by
  rw [(s.overwritten_rerigs dst x).aimStack, s.emptied_aimStack]

theorem State.overwritten_colourStack (x : Option Patch) : (s.overwritten dst x).colourStack dst = [] := by
  rw [(s.overwritten_rerigs dst x).colourStack, s.emptied_colourStack, if_pos rfl]

theorem State.overwritten_fixture (x : Option Patch) (g : Nat) : (s.overwritten dst x).fixture g =
    if g = dst then ⟨x, ((s.fixture dst).gen + 1) % 4294967296⟩ else s.fixture g := by
  have h (i : Nat) : (((s.emptied dst).zeroOwn dst).discardRecords dst).fixture i = s.fixture i := by
    rw [State.discardRecords, State.setColourOf_fixture, State.setMotionOf_fixture, State.zeroOwn_frame,
      State.withLines_fixture, State.fixture, s.emptied_rig dst]
    rfl
  rw [State.overwritten, State.posed_fixture, h, h]

theorem State.overwritten_records (x : Option Patch) :
    (s.overwritten dst x).motionOf dst = none ∧ (s.overwritten dst x).colourOf dst = none := by
  constructor
  · rw [State.overwritten, State.posed_frame]; simp [State.discardRecords]
  · rw [State.overwritten, State.posed_frame]; simp [State.discardRecords]

theorem State.overwritten_line (x : Option Patch) (l : Nat) : (s.overwritten dst x).line l = s.zeroedLine dst l := by
  have h : (s.emptied dst).zeroedLine dst l = s.zeroedLine dst l := by
    have hp := State.patchOf_of_rig (s.emptied_rig dst) dst
    have hk : (s.emptied dst).profileOf dst = s.profileOf dst := by
      unfold State.profileOf
      rw [hp]
      cases s.patchOf dst with
      | none => rfl
      | some p => exact State.kind_of_rig (s.emptied_rig dst) p.kind
    unfold State.zeroedLine
    rw [hp, hk, s.emptied_line]
  rw [State.overwritten, State.posed_frame, State.withCache_line, State.setFixture_line, State.discardRecords,
    State.setColourOf_line, State.setMotionOf_line, State.zeroOwn_line, h]

end Copy

section Recreated
variable (u : State) (f : Nat) (x : Option Patch) (k : Option Profile)

theorem State.createRecords_rerigs (p : Patch) (k : Profile) (ha : u.aimStack f = []) (hc : u.colourStack f = []) :
    u.Rerigs (u.createRecords f p k) := by
  rw [State.createRecords_frame, State.freshRecords]
  generalize (u.createRecords f p k).lines = l
  refine ⟨by simp, by simp, by simp, by simp, by simp, by simp, fun g => ?_, fun g => ?_⟩
  · refine (State.setAimStack_aimStack u f [] g).trans ?_
    split
    · next h => rw [h, ha]
    · rfl
  · refine (State.setColourStack_colourStack (u.setAimStack f []) f [] g).trans ?_
    split
    · next h => rw [h, hc]
    · rfl

theorem State.createRecords_rig (p : Patch) (k : Profile) : (u.createRecords f p k).rig = u.rig := by
  rw [State.createRecords_frame]
  generalize (u.createRecords f p k).lines = l
  rfl

theorem State.createRecords_motionOf (p : Patch) (k : Profile) :
    (u.createRecords f p k).motionOf f = some (Motion.fresh p.homePan p.homeTilt) := by
  rw [State.createRecords_frame]
  simp [State.freshRecords]

theorem State.createRecords_colourOf (p : Patch) (k : Profile) :
    (u.createRecords f p k).colourOf f = some (Colour.fresh k.model) := by
  rw [State.createRecords_frame]
  simp [State.freshRecords]

theorem State.recreated_of_patched (p : Patch) (k : Profile) :
    u.recreated f (some p) (some k) = u.createRecords f p k := rfl

theorem State.recreated_rerigs (ha : u.aimStack f = []) (hc : u.colourStack f = []) :
    u.Rerigs (u.recreated f x k) := by
  unfold State.recreated
  split
  · exact u.createRecords_rerigs f _ _ ha hc
  · exact .refl u

theorem State.recreated_rig : (u.recreated f x k).rig = u.rig := by
  unfold State.recreated
  split
  · exact u.createRecords_rig f _ _
  · rfl

theorem State.refreshAny_frame (l : Option Nat) : u.refreshAny l = u.withLines (u.refreshAny l).lines := by
  cases l <;> rfl

theorem State.refreshAny_line (o : Option Nat) (l : Nat) : (u.refreshAny o).line l =
    if o = some l then { u.line l with highest := u.highestPatched l } else u.line l := by
  cases o with
  | none => rfl
  | some j =>
    refine (State.refreshHighest_line u j l).trans (if_congr ?_ rfl rfl)
    rw [Option.some_inj]; exact eq_comm

end Recreated

section Copy
variable (src dst : Nat) (d : Pos) (sd : Int)

theorem State.copyRecord_rerigs : (s.emptied dst).Rerigs (s.copyRecord src dst d sd) := by
  have h := (s.overwritten_rerigs dst (s.copiedPatch src d sd)).trans (State.recreated_rerigs _ dst
    (s.copiedPatch src d sd) (s.profileOf src) (s.overwritten_aimStack dst _) (s.overwritten_colourStack dst _))
  rw [s.copyRecord_eq, State.refreshAny_frame]
  exact (h.trans (State.rerigs_withLines _ _)).trans (State.rerigs_syncStepTimer _)

theorem State.copyRecord_rig :
    (s.copyRecord src dst d sd).rig = (s.overwritten dst (s.copiedPatch src d sd)).rig := by
  rw [s.copyRecord_eq, State.syncStepTimer_rig, State.refreshAny_frame, State.withLines_rig, State.recreated_rig]

theorem State.copyRecord_fixture (g : Nat) : (s.copyRecord src dst d sd).fixture g =
    if g = dst then ⟨s.copiedPatch src d sd, ((s.fixture dst).gen + 1) % 4294967296⟩ else s.fixture g := by
  rw [← s.overwritten_fixture, State.fixture, s.copyRecord_rig]; rfl

theorem State.copyRecord_motionOf (g : Nat) : (s.copyRecord src dst d sd).motionOf g =
    ((s.overwritten dst (s.copiedPatch src d sd)).recreated dst (s.copiedPatch src d sd) (s.profileOf src)).motionOf g := by
  rw [s.copyRecord_eq, State.syncStepTimer_motionOf, State.refreshAny_frame, State.withLines_motionOf]

theorem State.copyRecord_colourOf (g : Nat) : (s.copyRecord src dst d sd).colourOf g =
    ((s.overwritten dst (s.copiedPatch src d sd)).recreated dst (s.copiedPatch src d sd) (s.profileOf src)).colourOf g := by
  rw [s.copyRecord_eq, State.syncStepTimer_frame, State.withMotion_colourOf, State.refreshAny_frame,
    State.withLines_colourOf]

/-- Line `l` after a record copy, its highest patched slot apart: the old footprint zeroed, the new one written. -/
def State.copiedLine (s : State) (src dst : Nat) (d : Pos) (sd : Int) (l : Nat) : Line :=
  match s.copiedPatch src d sd, s.profileOf src with
  | some p, some k =>
    if l = p.line then (s.zeroedLine dst l).written p.base (createdSlots k p) else s.zeroedLine dst l
  | _, _ => s.zeroedLine dst l

theorem State.zeroedLine_frame (l : Nat) :
    s.zeroedLine dst l = { s.line l with buffer := (s.zeroedLine dst l).buffer } := by
  unfold State.zeroedLine
  split
  · split <;> rfl
  · rfl

theorem State.zeroedLine_buffer (l : Nat) : (s.zeroedLine dst l).buffer =
    match s.patchOf dst, s.profileOf dst with
    | some q, some kq =>
      if l = q.line then
        Store.setAll 0 (s.line l).buffer ((List.range kq.footprint).map fun o => (q.base + o, 0))
      else (s.line l).buffer
    | _, _ => (s.line l).buffer := by
  unfold State.zeroedLine
  cases s.patchOf dst with
  | none => rfl
  | some q =>
    cases s.profileOf dst with
    | none => rfl
    | some kq =>
      dsimp only
      split
      · rw [zeroSlots_written]
      · rfl

theorem State.copiedLine_of_unpatched (l : Nat) (h : s.patchOf src = none) :
    s.copiedLine src dst d sd l = s.zeroedLine dst l := by
  simp [State.copiedLine, State.copiedPatch, h]

theorem State.copiedLine_of_patched (l : Nat) {p : Patch} {k : Profile} (hp : s.patchOf src = some p)
    (hk : s.profileOf src = some k) : s.copiedLine src dst d sd l =
      if l = p.line then (s.zeroedLine dst l).written (copiedRecord d sd p).base (createdSlots k (copiedRecord d sd p))
      else s.zeroedLine dst l := by
  simp [State.copiedLine, State.copiedPatch, hp, hk, copiedRecord]

theorem State.copiedLine_frame (l n : Nat) : ({ s.copiedLine src dst d sd l with highest := n } : Line) =
    { s.line l with buffer := (s.copiedLine src dst d sd l).buffer, highest := n } := by
  unfold State.copiedLine
  rw [s.zeroedLine_frame dst l]
  split
  · split <;> rfl
  · rfl

/-- Whether a record copy forms the highest patched slot of line `l` anew. -/
def State.copyTouches (s : State) (src dst l : Nat) : Prop :=
  (∃ q, s.patchOf dst = some q ∧ l = q.line) ∨ ∃ p k, s.patchOf src = some p ∧ s.profileOf src = some k ∧ l = p.line

theorem State.recreated_line (l : Nat) :
    ∃ n, (((s.overwritten dst (s.copiedPatch src d sd)).recreated dst (s.copiedPatch src d sd) (s.profileOf src)).line l) =
      { s.copiedLine src dst d sd l with highest := n } ∧
      ((∃ p k, s.patchOf src = some p ∧ s.profileOf src = some k ∧ l = p.line) →
        n = (s.copyRecord src dst d sd).highestPatched l) := by
  have hl := s.overwritten_line dst (s.copiedPatch src d sd)
  have hrig := s.copyRecord_rig src dst d sd
  generalize s.overwritten dst (s.copiedPatch src d sd) = u at hl hrig
  unfold State.copiedLine State.recreated
  cases hp : s.patchOf src with
  | none =>
    have hx : s.copiedPatch src d sd = none := by simp [State.copiedPatch, hp]
    rw [hx, hl]
    exact ⟨(s.zeroedLine dst l).highest, rfl, by rintro ⟨p, k, h, -⟩; cases h⟩
  | some p =>
    have hx : s.copiedPatch src d sd = some (copiedRecord d sd p) := by simp [State.copiedPatch, hp]
    rw [hx]
    cases hk : s.profileOf src with
    | none =>
      rw [hl]
      exact ⟨(s.zeroedLine dst l).highest, rfl, by rintro ⟨p, k, -, h, -⟩; cases h⟩
    | some k =>
      dsimp only
      rw [State.createRecords_line, hl, ← State.highestPatched_of_rig hrig]
      by_cases h : l = (copiedRecord d sd p).line
      · rw [if_pos h, if_pos h]
        exact ⟨_, rfl, fun _ => rfl⟩
      · rw [if_neg h, if_neg h]
        refine ⟨(s.zeroedLine dst l).highest, rfl, ?_⟩
        rintro ⟨q, k', hq, -, hql⟩
        cases hq
        exact absurd hql h

/-- A line after a record copy. -/
theorem State.copyRecord_line (l : Nat) :
    ∃ n, (s.copyRecord src dst d sd).line l = { s.copiedLine src dst d sd l with highest := n } ∧
      (s.copyTouches src dst l → n = (s.copyRecord src dst d sd).highestPatched l) := by
  obtain ⟨n, hn, hh⟩ := s.recreated_line src dst d sd l
  have hrig := s.copyRecord_rig src dst d sd
  have he := s.copyRecord_eq src dst d sd
  have hur := State.recreated_rig (s.overwritten dst (s.copiedPatch src d sd)) dst (s.copiedPatch src d sd) (s.profileOf src)
  rw [← hur] at hrig
  generalize (s.overwritten dst (s.copiedPatch src d sd)).recreated dst (s.copiedPatch src d sd) (s.profileOf src) = v
    at hn he hrig
  have hl : (s.copyRecord src dst d sd).line l = (v.refreshAny ((s.patchOf dst).map fun p => p.line)).line l := by
    rw [he, State.syncStepTimer_frame, State.withMotion_line]
  rw [hl, State.refreshAny_line, hn, ← State.highestPatched_of_rig hrig]
  by_cases h : ((s.patchOf dst).map fun p => p.line) = some l
  · rw [if_pos h]
    exact ⟨_, rfl, fun _ => rfl⟩
  · rw [if_neg h]
    refine ⟨n, rfl, fun ht => hh (ht.resolve_left ?_)⟩
    rintro ⟨q, hq, hql⟩
    exact h (by rw [hq, hql]; rfl)

end Copy

theorem exec_recordCopy_of_work {src dst n : Nat} {prs : List (Nat × Nat)} {d : Pos} {sd : Int} (hr : s.resetting = none)
    (hw : s.work = some (.copyRig ((src, dst) :: prs) d sd n)) :
    exec .recordCopy s = .next ((s.copyRecord src dst d sd).goCopy prs d sd (n + 1)).pump := by
  rw [exec_of_enabled s (c := .recordCopy) rfl rfl hr (by simp [rowEnabled, State.copying, hw])]
  simp only [rowEffect, State.copyNext, hw]

/-- COPY_RIG's checks after its count, in order (R16). -/
theorem exec_copyRig_checks {a : CopyArgs} (h : s.handed (.copyRig a) = true) (hc : a.count ≠ 0) :
    exec (.copyRig a) s = .next (if a.pairs.all (s.pairOk a) = false then s.refuse .badArg
      else if s.copyOverlaps a then s.refuse .overlap
      else if a.pairs.any fun pr => s.holdsClaims pr.2 then s.refuse .inUse
      else s.goCopy a.order a.delta a.slotDelta 0).pump := by
  refine exec_of_effect s rfl h ?_
  simp only [rowEffect, State.copyRig, hc, false_or]

/-- The destination's records after a record copy. -/
theorem State.copyRecord_records {src dst : Nat} {d : Pos} {sd : Int} :
    (s.patchOf src = none → (s.copyRecord src dst d sd).motionOf dst = none ∧ (s.copyRecord src dst d sd).colourOf dst = none) ∧
    ∀ p k, s.patchOf src = some p → s.profileOf src = some k →
      (s.copyRecord src dst d sd).motionOf dst = some (Motion.fresh p.homePan p.homeTilt) ∧
        (s.copyRecord src dst d sd).colourOf dst = some (Colour.fresh k.model) := by
  have hover := s.overwritten_records dst (s.copiedPatch src d sd)
  rw [s.copyRecord_motionOf, s.copyRecord_colourOf]
  refine ⟨fun hp => ?_, fun p k hp hk => ?_⟩
  · have hx : s.copiedPatch src d sd = none := by simp [State.copiedPatch, hp]
    rw [hx] at hover ⊢
    exact hover
  · have hx : s.copiedPatch src d sd = some (copiedRecord d sd p) := by simp [State.copiedPatch, hp]
    rw [hx, hk, State.recreated_of_patched, State.createRecords_motionOf, State.createRecords_colourOf]
    exact ⟨rfl, rfl⟩

/-- Settles O26: COPY_RIG's checks, and one record copy. -/
theorem rigIsCopied : Obligations.RigIsCopied := by
  refine ⟨fun s a h hc => ?_, fun s src dst prs d sd n hr hw =>
    ⟨exec_recordCopy_of_work s hr hw, s.copyRecord src dst d sd, rfl, ?_⟩⟩
  · rw [exec_copyRig_checks s h hc]
    refine ⟨fun hp => by rw [if_pos hp]; rfl, fun hp ho => ?_, fun hp ho => ⟨fun hh => ?_, fun hh => ?_⟩⟩
    · rw [if_neg (by simp [hp]), if_pos ho]; rfl
    · rw [if_neg (by simp [hp]), if_neg (by simp [ho]), if_pos hh]; rfl
    · rw [if_neg (by simp [hp]), if_neg (by simp [ho]), if_neg (by simp [hh])]
  · have hre := s.copyRecord_rerigs src dst d sd
    have hline := s.copyRecord_line src dst d sd
    have hfix := s.copyRecord_fixture src dst d sd
    have hrec := s.copyRecord_records (src := src) (dst := dst) (d := d) (sd := sd)
    generalize s.copyRecord src dst d sd = t at hre hline hfix hrec
    refine ⟨?_, fun g hg => ?_, ?_, ?_, hrec.1, hrec.2, fun l => ?_, fun l b hb => ⟨fun hp => ?_,
      fun p k p' hp hk hp' => ?_⟩, fun l hl => ?_, ?_, ?_, ?_, ?_⟩
    · rw [hfix, if_pos rfl]; rfl
    · rw [hfix, if_neg hg]
    · rw [hre.aimStack, s.emptied_aimStack]
    · rw [hre.colourStack, s.emptied_colourStack, if_pos rfl]
    · obtain ⟨m, hm, -⟩ := hline l
      rw [hm, s.copiedLine_frame]
    · obtain ⟨m, hm, -⟩ := hline l
      rw [hm, s.copiedLine_of_unpatched src dst d sd l hp, hb]
      exact s.zeroedLine_buffer dst l
    · obtain ⟨m, hm, -⟩ := hline l
      rw [hm, s.copiedLine_of_patched src dst d sd l hp hk, hb, hp']
      by_cases he : l = p.line
      · rw [if_pos he, if_pos he]
        exact congrArg (fun x => Store.setAll 0 x _) (s.zeroedLine_buffer dst l)
      · rw [if_neg he, if_neg he]
        exact s.zeroedLine_buffer dst l
    · obtain ⟨m, hm, hh⟩ := hline l
      rw [hm]
      exact hh hl
    · rw [hre.kinds, s.emptied_rig]
    · rw [hre.points, s.emptied_points]
    · rw [hre.memory, s.emptied_memory]
    · rw [hre.beat, s.emptied_beat]

end Sys2Proof.Machine
end

