-- ==== Sys2Proof/Proofs/PointRows.lean ====
section
/-! PROOFS. The point commands: point moves, tags, the stale limit and tracking (chapter 2). -/

namespace Sys2Proof.Machine

variable (s : State)

/-! ### A point move (R21) -/

/-- A point move up to its requests: the record, the cache and the notice of a point that was stale. -/
def State.pointMoved (s : State) (p : Nat) (pos : Pos) : State :=
  let u := (s.setPoint p ((s.point p).moved pos s.now s.points.staleLimit)).invalidate fun e => decide (e.point = p)
  if (s.point p).binding.isSome && (s.point p).stale then u.notifyTrackStale .fresh p else u

section Move
variable (p : Nat) (pos : Pos)

theorem State.movePoint_eq :
    s.movePoint p pos = (s.pointMoved p pos).trackReaims p ((s.pointMoved p pos).fixturesAimedAt p) := rfl

theorem State.pointMoved_frame : s.pointMoved p pos =
    ((s.setPoint p ((s.point p).moved pos s.now s.points.staleLimit)).withCache (s.pointMoved p pos).cache).withNotices
      { s.link.notices with
        trackStale :=
          if ((s.point p).binding.isSome && (s.point p).stale) = true then some ⟨.fresh, p⟩
          else s.link.notices.trackStale } := by
  unfold State.pointMoved
  dsimp only
  rw [State.invalidate_frame]
  generalize ((s.setPoint p _).invalidate _).cache = c
  split <;> rfl

theorem State.pointMoved_pointer : (s.pointMoved p pos).cache.pointer = s.cache.pointer := by
  have h := State.invalidate_pointer (s.setPoint p ((s.point p).moved pos s.now s.points.staleLimit))
    fun e => decide (e.point = p)
  unfold State.pointMoved
  dsimp only
  generalize State.invalidate _ _ = u at h
  split <;> exact h

theorem State.pointMoved_cacheEntry {i : Nat} (hi : i < 32) : (s.pointMoved p pos).cacheEntry i =
    { s.cacheEntry i with valid := (s.cacheEntry i).valid && decide ((s.cacheEntry i).point ≠ p) } := by
  have h := State.invalidate_cacheEntry (s.setPoint p ((s.point p).moved pos s.now s.points.staleLimit))
    (fun e => decide (e.point = p)) hi
  have hu : (s.pointMoved p pos).cacheEntry i = ((s.setPoint p ((s.point p).moved pos s.now s.points.staleLimit)).invalidate
      fun e => decide (e.point = p)).cacheEntry i := by
    unfold State.pointMoved
    dsimp only
    generalize State.invalidate _ _ = u
    split <;> rfl
  rw [hu, h, CacheEntry.invalidated]
  simp only [ne_eq, decide_not]
  rfl

theorem State.pointMoved_fixturesAimedAt : (s.pointMoved p pos).fixturesAimedAt p = s.fixturesAimedAt p := by
  rw [s.pointMoved_frame p pos]; rfl

theorem Point.moved_pos (r : Point) (now limit : Nat) : (r.moved pos now limit).pos = some pos := by
  unfold Point.moved
  dsimp only
  split <;> rfl

theorem State.pointMoved_point (q : Nat) : (s.pointMoved p pos).point q =
    if q = p then (s.point p).moved pos s.now s.points.staleLimit else s.point q := by
  rw [s.pointMoved_frame p pos]
  exact State.setPoint_point ..

theorem State.pointMoved_isSet : (s.pointMoved p pos).isSet p = true := by
  rw [State.isSet, s.pointMoved_point, if_pos rfl, Point.moved_pos]
  rfl

end Move

theorem State.trackReaims_fst (p : Nat) (fs : List Nat) :
    (s.trackReaims p fs).1 = fs.foldl (fun v f => (v.reaim f p .chase .track).1) s := by
  induction fs generalizing s with
  | nil => rfl
  | cons f fs ih => exact ih _

/-- For a point that is SET every re-aim issues its request. -/
theorem State.trackReaims_snd {p : Nat} (h : s.isSet p = true) (fs : List Nat) :
    (s.trackReaims p fs).2 = fs.length := by
  induction fs generalizing s with
  | nil => rfl
  | cons f fs ih =>
    have hset : (s.reaim f p .chase .track).1.isSet p = true := by
      rw [State.isSet, (s.aims_reaim f p .chase .track).point]; exact h
    have hreq : (s.reaim f p .chase .track).2 = true := by rw [State.reaim, if_pos h]
    rw [State.trackReaims]
    dsimp only
    rw [hreq, if_pos rfl, ih _ hset, List.length_cons]

theorem State.movePoint_fst (p : Nat) (pos : Pos) : (s.movePoint p pos).1 =
    (s.fixturesAimedAt p).foldl (fun v f => (v.reaim f p .chase .track).1) (s.pointMoved p pos) := by
  rw [s.movePoint_eq, State.trackReaims_fst, s.pointMoved_fixturesAimedAt]

theorem State.movePoint_snd (p : Nat) (pos : Pos) : (s.movePoint p pos).2 = (s.fixturesAimedAt p).length := by
  rw [s.movePoint_eq, State.trackReaims_snd _ (s.pointMoved_isSet p pos), s.pointMoved_fixturesAimedAt]

theorem State.movePoint_aims (p : Nat) (pos : Pos) : (s.pointMoved p pos).Aims (s.movePoint p pos).1 :=
  State.aims_trackReaims _ p _

/-- Settles O27: the point move of an unbound point, and the refusal of a bound one. -/
theorem pointMoves : Obligations.PointMoves := by
  intro s p pos h hp ho
  have hno : ¬ (127 < p ∨ posOk pos = false) := by
    rintro (hp' | ho')
    · omega
    · rw [ho] at ho'; cases ho'
  refine ⟨fun hb => exec_of_answer s rfl h ?_, fun hb => ?_⟩
  · simp only [rowEffect, State.setPointCmd, if_neg hno, if_pos hb, State.refuse]
  have hnb : ¬ (s.point p).binding.isSome = true := by rw [hb]; nofun
  have hmoved : (s.point p).moved pos s.now s.points.staleLimit =
      { s.point p with pos := some pos, gen := ((s.point p).gen + 1) % 4294967296 } := by
    unfold Point.moved; exact if_neg hnb
  have hfr := s.pointMoved_frame p pos
  rw [hmoved, if_neg (by simp [hb])] at hfr
  have hrow : exec (.setPoint p pos) s = .next (((s.movePoint p pos).1).answered .ok
      (le4 ((s.movePoint p pos).1.point p).gen ++ le2 (s.movePoint p pos).2)) := by
    refine exec_of_effect s rfl h ?_
    simp only [rowEffect, State.setPointCmd, if_neg hno, if_neg hnb]
  have haims := s.movePoint_aims p pos
  rw [s.movePoint_snd p pos] at hrow
  have hfold := s.movePoint_fst p pos
  have hptr := s.pointMoved_pointer p pos
  have hce := fun i (hi : i < 32) => s.pointMoved_cacheEntry p pos hi
  generalize s.pointMoved p pos = u at hfr haims hfold hptr hce
  generalize (s.movePoint p pos).1 = t at hrow haims hfold
  have hpt (q : Nat) : t.point q = if q = p then
      { s.point p with pos := some pos, gen := ((s.point p).gen + 1) % 4294967296 } else s.point q := by
    rw [haims.point, hfr]; exact State.setPoint_point ..
  have hgen := congrArg Point.gen (hpt p)
  rw [if_pos rfl] at hgen
  rw [hgen] at hrow
  refine ⟨t, u, hrow, hfr, hptr, hce, hfold, ?_, fun q hq => ?_, ?_, fun i hi => ?_, ?_, ?_, ?_, ?_, ?_, fun g => ?_⟩
  · rw [hpt, if_pos rfl]
  · rw [hpt, if_neg hq]
  · rw [haims.points, hfr]; rfl
  · rw [haims.cacheEntry, hce i hi]
  · rw [haims.rig, hfr]; rfl
  · rw [haims.memory, hfr]; rfl
  · rw [haims.lines, hfr]; rfl
  · rw [haims.colour, hfr]; rfl
  · rw [haims.beat, hfr]; rfl
  · rw [haims.positions, hfr]; rfl

/-! ### Tags and the stale limit (R23, R24, R30, R33) -/

/-- Settles O28: each command on a bound and an unbound point, and the expiry. -/
theorem tagsBindPoints : Obligations.TagsBindPoints := by
  intro s
  refine ⟨fun p tag o h hp ht ho => exec_of_effect s rfl h (if_neg ?_), fun p h hp => ⟨fun hb => ?_, fun hb => ?_⟩,
    fun p e hr he hn => ?_⟩
  · rintro (h' | h' | h')
    · omega
    · omega
    · rw [ho] at h'; cases h'
  · refine exec_of_effect s rfl h ?_
    simp only [rowEffect, State.unbindTag, if_neg (show ¬ 127 < p by omega), if_pos hb]
    rfl
  · refine exec_of_answer s rfl h ?_
    have hnb : ¬ (s.point p).binding.isSome = true := by rw [hb]; nofun
    simp only [rowEffect, State.unbindTag, if_neg (show ¬ 127 < p by omega), if_neg hnb]
  · rw [exec_of_enabled s (c := .staleTimerExpiry p) rfl rfl hr (by simp [rowEnabled, State.staleDue, he, hn])]
    rfl

/-- Settles O29: the stored limit, and its two bytes. -/
theorem staleLimitIsStored : Obligations.StaleLimitIsStored := by
  intro s ms h
  have hn : storedLimit ms = min 5000 (max 100 ms) := rfl
  exact ⟨storedLimit ms, by omega, by omega, by omega, exec_of_effect s rfl h rfl⟩

/-! ### Tracking (R25 to R27) -/

/-- What TRACK makes of its records: the state with the skipped ones counted, the point moves and the three counts. -/
theorem State.takeRecords_spec (rs : List TrackRec) :
    (s.takeRecords rs).2.2.1 + (s.takeRecords rs).2.2.2.1 + (s.takeRecords rs).2.2.2.2 = rs.length ∧
      (s.takeRecords rs).2.2.2.1 = (rs.filter fun r => (s.boundTo r.tag).isEmpty).length ∧
      (s.takeRecords rs).2.2.2.2 = (rs.filter fun r => !(s.boundTo r.tag).isEmpty && !posOk r.pos).length ∧
      (s.takeRecords rs).2.1 = ((rs.filter fun r => posOk r.pos).flatMap fun r =>
        (s.boundTo r.tag).map fun p => (p, clampPos (addPos r.pos (s.offsetOf p)))) ∧
      (s.takeRecords rs).1 = (fun u : State => u.raise .trackSkipped none 1)^[(s.takeRecords rs).2.2.2.2] s := by
  induction rs generalizing s with
  | nil => exact ⟨rfl, rfl, rfl, rfl, rfl⟩
  | cons r rs ih =>
    unfold State.takeRecords State.classify
    dsimp only
    by_cases he : (s.boundTo r.tag).isEmpty = true
    · obtain ⟨h1, h2, h3, h4, h5⟩ := ih s
      rw [if_pos he]
      dsimp only
      have hnil : s.boundTo r.tag = [] := List.isEmpty_iff.1 he
      refine ⟨by rw [List.length_cons]; omega, by simp [he, h2], by simp [he, h3], ?_, h5⟩
      rw [h4, List.filter_cons]
      split
      · simp [hnil]
      · rfl
    · rw [if_neg he]
      by_cases hp : posOk r.pos = true
      · obtain ⟨h1, h2, h3, h4, h5⟩ := ih s
        rw [if_neg (by simp [hp])]
        dsimp only
        exact ⟨by rw [List.length_cons]; omega, by simp [he, h2], by simp [hp, h3], by simp [hp, h4], h5⟩
      · obtain ⟨h1, h2, h3, h4, h5⟩ := ih (s.raiseOnce .trackSkipped)
        have hp' : posOk r.pos = false := by simpa using hp
        have he' : (s.boundTo r.tag).isEmpty = false := by simpa using he
        rw [if_pos (by simp [hp])]
        dsimp only
        refine ⟨by rw [List.length_cons]; omega, ?_, ?_, ?_, h5⟩
        · rw [h2, List.filter_cons, if_neg he]; rfl
        · rw [h3, List.filter_cons, he', hp']; rfl
        · rw [h4, List.filter_cons, if_neg hp]; rfl

/-- Settles O30: TRACK's records, and one of its point moves. -/
theorem trackTakesItsRecords : Obligations.TrackTakesItsRecords := by
  refine ⟨fun s rs h h1 h2 => ?_, fun s p pos rest n a i k m hr hw => ⟨?_, s.movePoint_snd p pos, s.pointMoved p pos,
    s.movePoint_fst p pos, ?_, s.pointMoved_pointer p pos, fun j hj => s.pointMoved_cacheEntry p pos hj,
    (s.movePoint_aims p pos).points⟩⟩
  · obtain ⟨hsum, hign, hskip, hmoves, hstate⟩ := s.takeRecords_spec rs
    refine ⟨(s.takeRecords rs).1, (s.takeRecords rs).2.1, _, _, _, ?_, hsum, hign, hskip, hmoves, ?_⟩
    · refine exec_of_effect s rfl h ?_
      have hno : ¬ (rs.length = 0 ∨ 64 < rs.length) := by omega
      simp only [rowEffect, State.track, if_neg hno]
    · rw [hstate, List.foldl_const, List.length_range]
  · rw [exec_of_enabled s (c := .trackPointMove) rfl rfl hr (by simp [rowEnabled, State.tracking, hw])]
    simp only [rowEffect, State.trackNext, hw]
  · have hmoved : (s.point p).moved pos s.now s.points.staleLimit =
        if (s.point p).binding.isSome then
          ⟨some pos, (s.point p).binding, ((s.point p).gen + 1) % 4294967296, false,
            some (s.now + 1000 * s.points.staleLimit)⟩
        else { s.point p with pos := some pos, gen := ((s.point p).gen + 1) % 4294967296 } := rfl
    rw [← hmoved]
    exact s.pointMoved_frame p pos

end Sys2Proof.Machine
end

