-- ==== Sys2Proof/Proofs/RangeRows.lean ====
section
/-! PROOFS. Commands on fixture ranges: what they begin with, their fixture events and their answers (3.5, 3.7). -/

namespace Sys2Proof.Machine

variable (s : State)

/-! ### Fixture ranges -/

theorem length_filter_range (n a b : Nat) :
    ((List.range n).filter fun f => decide (a ≤ f) && decide (f < b)).length = min n b - a := by
  induction n with
  | zero => simp
  | succ n ih =>
    rw [List.range_succ, List.filter_append, List.length_append, ih, List.filter_singleton]
    by_cases h1 : a ≤ n <;> by_cases h2 : n < b <;> simp [h1, h2] <;> omega

theorem State.mem_rangePatched {f first count : Nat} : f ∈ s.rangePatched first count ↔
    first ≤ f ∧ f < first + count ∧ f ≤ 255 ∧ s.isPatched f = true := by
  simp only [State.rangePatched, rangeMembers, List.mem_filter, List.mem_range, Bool.and_eq_true, decide_eq_true_eq]
  refine ⟨fun ⟨⟨_, _, _⟩, hp⟩ => ⟨?_, ?_, ?_, hp⟩, fun ⟨_, _, _, hp⟩ => ⟨⟨?_, ?_, ?_⟩, hp⟩⟩ <;> omega

theorem State.rangePatched_ascending (first count : Nat) : (s.rangePatched first count).Pairwise (· < ·) :=
  (List.pairwise_lt_range.filter _).filter _

theorem State.rangePatched_length (first count : Nat) :
    (s.rangePatched first count).length + s.rangeSkipped first count = min 256 (first + count) - first := by
  rw [← length_filter_range]
  exact List.length_eq_length_filter_add _ |>.symm

/-! ### What an entry asks for (R45) -/

section Claim
variable {s} {e : RawEntry}

theorem State.toMs_eq (s : State) (quarterBeats : Bool) (t : Nat) :
    s.toMs quarterBeats t = if quarterBeats then (t * s.beat.period + 20) / 40 else t := rfl

theorem State.aimClaim_of_aim {n : Nat} (h : e.aim = n) : s.aimClaim e =
    (({ e with aim := n } : RawEntry).aimTarget (s.toMs (e.units.testBit 1) e.legTime)).map fun t =>
      ⟨t, e.lawOf, s.toMs (e.units.testBit 0) e.moveTime⟩ := by subst h; rfl

theorem State.colourClaim_of_colour {n : Nat} (h : e.colour = n) : s.colourClaim e =
    (({ e with colour := n } : RawEntry).colourTarget).map fun t => ⟨t, s.toMs (e.units.testBit 2) e.fadeTime⟩ := by
  subst h; rfl

end Claim

/-- Settles O32: the ranges, the claims asked for, and the first event of each range command. -/
theorem rangeCommandsBegin : Obligations.RangeCommandsBegin := by
  refine ⟨fun s first count => ⟨s.rangePatched_ascending .., fun f => s.mem_rangePatched, fun h => ?_⟩,
    fun s e law ms h0 h1 hlaw => ?_, fun s => ⟨?_, ?_, ?_, ?_, ?_, ?_, ?_, ?_⟩⟩
  · rw [s.rangePatched_length]
    show _ = min _ _
    omega
  · have hms (q : Bool) (t : Nat) : s.toMs q t = ms q t := by
      rw [s.toMs_eq]
      cases q
      · exact (h0 t).symm
      · exact (h1 t).symm
    obtain rfl : s.toMs = ms := funext fun q => funext fun t => hms q t
    subst hlaw
    exact ⟨hms, fun h => State.aimClaim_of_aim h, fun h => State.aimClaim_of_aim h, fun h => State.aimClaim_of_aim h,
      fun h => State.aimClaim_of_aim h, fun h => State.colourClaim_of_colour h, fun h => State.colourClaim_of_colour h,
      fun h => State.colourClaim_of_colour h, fun h => State.colourClaim_of_colour h⟩
  · exact fun first count h => exec_of_effect s rfl h rfl
  · intro e c h hok hc
    refine exec_of_effect s rfl h ?_
    simp only [rowEffect, State.directAim, hok, hc]
    rfl
  · intro e c h hok hc
    refine exec_of_effect s rfl h ?_
    simp only [rowEffect, State.directColour, hok, hc]
    rfl
  · intro a h hr hs hu
    exact exec_of_effect s rfl h (if_neg (by simp [hr]; omega))
  · intro first count p h hr hp
    exact exec_of_effect s rfl h (if_neg (by simp [hr]; omega))
  · exact fun first count h hr => exec_of_effect s rfl h (if_pos hr)
  · exact fun first count h hr => exec_of_effect s rfl h (if_pos hr)
  · exact fun n h hn => exec_of_effect s rfl h (if_neg (by omega))

/-! ### The fixture events -/

theorem Motion.settle_forced (m : Motion) : m.settle true = ⟨{ m with tag := none }, m.tag, false, false⟩ := by
  rw [Motion.settle, Bool.not_true, Bool.and_false, if_neg Bool.false_ne_true]

theorem Motion.halt_spec (m : Motion) : m.halt.silent ∧
    (m.mode = .held → m.halt.after = m) ∧ (m.mode = .braking → m.halt.after = { m with brake := some .halt }) ∧
    (m.mode ≠ .held → m.mode ≠ .braking → m.halt.after =
      if m.vPan = 0 ∧ m.vTilt = 0 then { m with plan := none, sweep := none, mode := .held, brake := none, tag := none }
      else { m with plan := none, sweep := none, mode := .braking, brake := some .halt }) := by
  have hbrake : (m.startBrake .halt).silent ∧ (m.startBrake .halt).after =
      if m.vPan = 0 ∧ m.vTilt = 0 then { m with plan := none, sweep := none, mode := .held, brake := none, tag := none }
      else { m with plan := none, sweep := none, mode := .braking, brake := some .halt } := by
    unfold Motion.startBrake
    split
    · dsimp only
      rw [if_pos rfl, Motion.settle_forced]
      exact ⟨⟨rfl, rfl⟩, rfl⟩
    · exact ⟨⟨rfl, rfl⟩, rfl⟩
  unfold Motion.halt
  cases hm : m.mode
  case held => exact ⟨⟨rfl, rfl⟩, fun _ => rfl, nofun, fun h => absurd rfl h⟩
  case braking => exact ⟨⟨rfl, rfl⟩, nofun, fun _ => rfl, fun _ h => absurd rfl h⟩
  all_goals exact ⟨hbrake.1, nofun, nofun, fun _ _ => hbrake.2⟩

/-- One fixture halted: its record, and nothing of the link. -/
theorem State.halted_spec {f : Nat} {m : Motion} {k : Profile} (hm : s.motionOf f = some m) (hk : s.profileOf f = some k) :
    ∃ t : State, t = (s.onMotion f fun _ m => m.halt).syncStepTimer ∧
      t = ((s.withMotion t.motion).withClaims t.claims).withPlayback t.playback ∧
      (∀ g, g ≠ f → t.motionOf g = s.motionOf g) ∧ t.motionOf f = some m.halt.after := by
  have hfr := s.onMotion_frame (fun _ m => m.halt) f
  have hl := s.onMotions_link (fun _ m => m.halt) [f] fun _ q => q.halt_spec.1
  have hother (g : Nat) (hg : g ≠ f) := (s.onMotion_other f (fun _ m => m.halt) hg).1
  have hthis : (s.onMotion f fun _ m => m.halt).motionOf f = some m.halt.after := by
    rw [s.onMotion_of_record f _ hm hk, State.applyMotion_motionOf, if_pos rfl]
  change (s.onMotion f _).link = s.link at hl
  generalize (s.onMotion f fun _ m => m.halt) = u at hfr hl hother hthis
  refine ⟨u.syncStepTimer, rfl, ?_, fun g hg => ?_, ?_⟩
  · have hsync := u.syncStepTimer_frame
    generalize u.syncStepTimer = t at hsync
    have hu := hfr.eq
    rw [hl] at hu
    rw [hsync, hu]
    rfl
  · rw [u.syncStepTimer_motionOf, hother g hg]
  · rw [u.syncStepTimer_motionOf, hthis]

theorem State.releaseBoth_eq {t u : State} {f src ms : Nat} {aim colour a b : Bool}
    (ha : (if aim = true then s.releaseAim f src ms else (s, false)) = (t, a))
    (hc : (if colour = true then t.releaseColour f src ms else (t, false)) = (u, b)) :
    s.releaseBoth f src aim colour ms = (u, a || b) := by
  unfold State.releaseBoth
  dsimp only
  rw [ha]
  dsimp only
  rw [hc]

theorem ClaimCounts.add_eq (c : ClaimCounts) (a : ClaimAnswer) (owed : Bool) : c.add a owed =
    ⟨c.active + (if a = .active then 1 else 0), c.below + (if a = .below then 1 else 0),
      c.notPlaced + (if a = .notPlaced then 1 else 0), c.skipped, c.owed + if owed = true then 1 else 0⟩ := by
  cases a <;> cases owed <;> rfl

/-- Settles O33: the event of each range command, the counts, and what a command does with parts left and with none. -/
theorem rangeCommandsTakeEachFixture : Obligations.RangeCommandsTakeEachFixture := by
  refine ⟨fun s f fs hr => ⟨fun claim c hw => ?_, fun claim c hw => ?_, fun aim colour ms c hw => ?_, fun p c hw => ?_,
    fun c hw => ?_, fun c m k hw hm hk => ?_, fun n fade c hw => ?_⟩, fun s t u f src ms aim colour a b ha hc =>
      s.releaseBoth_eq ha hc, ClaimCounts.add_eq, fun c b => by cases b <;> rfl, fun c b => by cases b <;> rfl,
    fun s h w hh => ?_, fun s f fs => ⟨fun _ _ => rfl, fun _ _ _ _ _ => rfl, fun _ _ _ _ _ _ _ => rfl, fun _ _ => rfl,
      fun _ _ => rfl, fun _ _ _ _ => rfl, fun _ _ => rfl, fun _ => rfl, fun _ => rfl, fun _ _ _ => rfl, fun _ _ _ => rfl,
      fun r m c l h => if_pos (by simpa [or_assoc] using h), fun m c l ls h => if_pos (by simpa [or_assoc] using h)⟩,
    fun s one two h1 h2 => ?_⟩
  · rw [exec_of_enabled s (c := .directAimFixture) rfl rfl hr (by simp [rowEnabled, State.directAiming, hw])]
    simp only [rowEffect, State.directAimNext, hw]
  · rw [exec_of_enabled s (c := .directColourFixture) rfl rfl hr (by simp [rowEnabled, State.directColouring, hw])]
    simp only [rowEffect, State.directColourNext, hw]
  · rw [exec_of_enabled s (c := .releaseDirectFixture) rfl rfl hr (by simp [rowEnabled, State.releasingDirect, hw])]
    simp only [rowEffect, State.releaseDirectNext, hw]
  · rw [exec_of_enabled s (c := .bindFollowFixture) rfl rfl hr (by simp [rowEnabled, State.bindingFollow, hw])]
    simp only [rowEffect, State.bindFollowNext, hw]
    rfl
  · rw [exec_of_enabled s (c := .unbindFollowFixture) rfl rfl hr (by simp [rowEnabled, State.unbindingFollow, hw])]
    simp only [rowEffect, State.unbindFollowNext, hw]
  · obtain ⟨t, ht, hframe, hother, hthis⟩ := s.halted_spec hm hk
    refine ⟨t, ?_, hframe, hother, hthis.trans (congrArg some ?_)⟩
    · rw [exec_of_enabled s (c := .haltFixture) rfl rfl hr (by simp [rowEnabled, State.halting, hw])]
      simp only [rowEffect, State.haltNext, hw, State.isHeld, hm, ht]
    · obtain ⟨-, hheld, hbraking, hmoving⟩ := m.halt_spec
      cases hmode : m.mode
      case held => exact hheld hmode
      case braking => rw [hbraking hmode, hmode]
      all_goals exact hmoving (by rw [hmode]; nofun) (by rw [hmode]; nofun)
  · rw [exec_of_enabled s (c := .releaseListFixture) rfl rfl hr (by simp [rowEnabled, State.releasingList, hw])]
    simp only [rowEffect, State.releaseListNext, hw]
  · simp only [State.setWork, Link.setPhase, hh, Option.map_some]
  · obtain rfl : one = le1 := funext h1
    obtain rfl : two = le2 := funext h2
    exact ⟨fun _ _ => rfl, fun _ _ _ => rfl, fun _ _ _ _ _ => rfl, fun _ _ => rfl, fun _ _ => rfl, fun _ _ _ _ => rfl,
      fun _ _ => rfl, fun _ => rfl, fun _ => rfl, fun _ _ _ => rfl, fun _ _ _ => rfl, rfl, rfl⟩

end Sys2Proof.Machine
end

