-- ==== Sys2Proof/Proofs/ClaimPlaces.lean ====
section
/-! PROOFS. Where a claim stands in its stack, what leaves it, and what a release takes out (3.3, 3.6). -/

namespace Sys2Proof.Machine

/-! ### One stack (R38 to R40) -/

section Placing
variable {α : Type} {stack : List (Entry α)} (src prio : Nat) (body : α) (tag : Option LaunchTag)

theorem withoutSource_eq (stack : List (Entry α)) :
    withoutSource src stack = stack.filter fun e => decide (e.source ≠ src) := by
  simp only [ne_eq, decide_not]; rfl

/-- The entries above and below a place in a stack of falling priorities. -/
theorem falling_split {l : List (Entry α)} (h : falling l) :
    l = (l.filter fun x => decide (prio < x.prio)) ++ l.filter fun x => decide (x.prio ≤ prio) := by
  induction l with
  | nil => rfl
  | cons y l ih =>
    obtain ⟨hy, hl⟩ := List.pairwise_cons.1 h
    by_cases hp : prio < y.prio
    · rw [List.filter_cons_of_pos (by simpa using hp), List.filter_cons_of_neg (by simpa using hp), List.cons_append,
        ← ih hl]
    · have hnone : (l.filter fun x => decide (prio < x.prio)) = [] :=
        List.filter_eq_nil_iff.2 fun x hx => by have := hy x hx; simp only [decide_eq_true_eq]; omega
      have hall : (l.filter fun x => decide (x.prio ≤ prio)) = l :=
        List.filter_eq_self.2 fun x hx => by have := hy x hx; simp only [decide_eq_true_eq]; omega
      rw [List.filter_cons_of_neg (by simpa using hp), List.filter_cons_of_pos (by simp only [decide_eq_true_eq]; omega),
        hnone, hall]
      rfl

theorem holdsSource_false {l : List (Entry α)} (h : ∀ x ∈ l, x.source ≠ src) : holdsSource src l = false := by
  rw [← Bool.not_eq_true, holdsSource_iff]
  rintro ⟨x, hx, he⟩
  exact h x hx he

theorem withoutSource_self {l : List (Entry α)} (h : ∀ x ∈ l, x.source ≠ src) : withoutSource src l = l := by
  rw [withoutSource_eq]
  exact List.filter_eq_self.2 fun x hx => by simpa using h x hx

theorem drop_withoutSource (n : Nat) : withoutSource src ((withoutSource src stack).drop n) = (withoutSource src stack).drop n :=
  withoutSource_self src fun _ hx => ((mem_withoutSource ..).1 (List.mem_of_mem_drop hx)).2

theorem clearSecond_cons (e : Entry α) (l : List (Entry α)) :
    clearSecond (e :: l) = e :: ((l.take 1).map (fun x => { x with owed := false }) ++ l.drop 1) := by
  cases l <;> rfl

section Cases
variable (h : stackOk stack = true)
include h

/-- The stack with the claim in it, before it is cut off below the fourth. -/
theorem insertEntry_withoutSource :
    insertEntry ⟨src, prio, body, tag, false⟩ (withoutSource src stack) =
      ((withoutSource src stack).filter fun x => decide (prio < x.prio)) ++
        ⟨src, prio, body, tag, false⟩ :: (withoutSource src stack).filter fun x => decide (x.prio ≤ prio) :=
  insertEntry_eq _ _ (withoutSource_falling src stack ((stackOk_iff stack).1 h).2.2)

/-- A claim that would be the fifth is not placed. -/
theorem placeClaim_of_full (hf : ((withoutSource src stack).filter fun x => decide (prio < x.prio)).length = 4) :
    placeClaim stack src prio body tag = ⟨stack, [], .notPlaced, false⟩ := by
  unfold placeClaim
  dsimp only
  rw [insertEntry_withoutSource src prio body tag h, List.take_append_of_le_length (by omega),
    List.take_of_length_le (by omega), if_neg]
  rw [Bool.not_eq_true]
  exact holdsSource_false src fun x hx => ((mem_withoutSource ..).1 (List.mem_of_mem_filter hx)).2

/-- A claim above every other entry is active. -/
theorem placeClaim_of_top (ht : ∀ x ∈ stack, x.source ≠ src → x.prio ≤ prio) :
    placeClaim stack src prio body tag =
      if topIsSource src stack then
        ⟨⟨src, prio, body, tag, tag.isSome⟩ :: (withoutSource src stack).take 3,
          owedTags (ofSource src stack ++ (withoutSource src stack).drop 3), .active, true⟩
      else
        ⟨clearSecond (⟨src, prio, body, tag, tag.isSome⟩ :: (withoutSource src stack).take 3),
          owedTags (ofSource src stack ++ (withoutSource src stack).drop 3) ++
            owedTags ((withoutSource src stack).take 1), .active, true⟩ := by
  have hle : ∀ x ∈ withoutSource src stack, x.prio ≤ prio := fun x hx =>
    ht x ((mem_withoutSource ..).1 hx).1 ((mem_withoutSource ..).1 hx).2
  have hins : insertEntry ⟨src, prio, body, tag, false⟩ (withoutSource src stack) =
      ⟨src, prio, body, tag, false⟩ :: withoutSource src stack := by
    rw [insertEntry_withoutSource src prio body tag h,
      List.filter_eq_nil_iff.2 fun x hx => by have := hle x hx; simp only [decide_eq_true_eq]; omega,
      List.filter_eq_self.2 fun x hx => by simpa using hle x hx]
    rfl
  unfold placeClaim
  dsimp only
  rw [hins, List.take_succ_cons, List.drop_succ_cons, if_pos (by simp [holdsSource]), drop_withoutSource src]
  dsimp only
  rw [if_pos rfl]

/-- A claim below some entry, of at most three, stands below. -/
theorem placeClaim_of_below (hx : ∃ x ∈ stack, x.source ≠ src ∧ prio < x.prio)
    (hl : ((withoutSource src stack).filter fun x => decide (prio < x.prio)).length ≤ 3) :
    placeClaim stack src prio body tag =
      ⟨List.take 4 (((withoutSource src stack).filter fun x => decide (prio < x.prio)) ++
          ⟨src, prio, body, tag, false⟩ :: (withoutSource src stack).filter fun x => decide (x.prio ≤ prio)),
        owedTags (ofSource src stack ++ (withoutSource src stack).drop 3), .below, topIsSource src stack⟩ := by
  have hsplit := falling_split prio (withoutSource_falling src stack ((stackOk_iff stack).1 h).2.2)
  have hdrop := drop_withoutSource src 3 (stack := stack)
  have hne : ∀ x ∈ withoutSource src stack, x.source ≠ src := fun x hx => ((mem_withoutSource ..).1 hx).2
  obtain ⟨x, hx, hs, hp⟩ := hx
  have hmem : x ∈ (withoutSource src stack).filter fun x => decide (prio < x.prio) :=
    List.mem_filter.2 ⟨(mem_withoutSource ..).2 ⟨hx, hs⟩, by simpa using hp⟩
  unfold placeClaim
  dsimp only
  rw [insertEntry_withoutSource src prio body tag h]
  generalize withoutSource src stack = rest at *
  generalize (rest.filter fun x => decide (x.prio ≤ prio)) = lo at *
  have hnehi : ∀ y ∈ rest.filter (fun x => decide (prio < x.prio)), y.source ≠ src := fun y hy =>
    hne y (List.mem_of_mem_filter hy)
  generalize (rest.filter fun x => decide (prio < x.prio)) = hi at *
  obtain ⟨y, ys, rfl⟩ : ∃ y ys, hi = y :: ys := List.exists_cons_of_ne_nil (List.ne_nil_of_mem hmem)
  have hgone : (y :: ys ++ ⟨src, prio, body, tag, false⟩ :: lo).drop 4 = rest.drop 3 := by
    rw [hsplit, List.drop_append, List.drop_append, List.drop_eq_nil_of_le (by omega), List.drop_eq_nil_of_le hl,
      List.nil_append, List.nil_append, show 4 - (y :: ys).length = 3 - (y :: ys).length + 1 by omega, List.drop_succ_cons]
  rw [hgone, hdrop, if_pos]
  · rw [List.cons_append, List.take_succ_cons]
    dsimp only
    rw [if_neg (hnehi y (by simp))]
  · rw [holdsSource_iff]
    refine ⟨⟨src, prio, body, tag, false⟩, ?_, rfl⟩
    rw [List.take_append, List.mem_append]
    right
    rw [show 4 - (y :: ys).length = 3 - (y :: ys).length + 1 by omega, List.take_succ_cons]
    exact List.mem_cons_self

/-- The three places of a claim: active, below, not placed. -/
theorem placeClaim_cases :
    (∀ x ∈ stack, x.source ≠ src → x.prio ≤ prio) ∨
      (∃ x ∈ stack, x.source ≠ src ∧ prio < x.prio) ∧
        (((withoutSource src stack).filter fun x => decide (prio < x.prio)).length ≤ 3 ∨
          ((withoutSource src stack).filter fun x => decide (prio < x.prio)).length = 4) := by
  have h4 : ((withoutSource src stack).filter fun x => decide (prio < x.prio)).length ≤ 4 :=
    (List.length_filter_le ..).trans ((List.length_filter_le ..).trans ((stackOk_iff stack).1 h).1)
  by_cases hx : ∃ x ∈ stack, x.source ≠ src ∧ prio < x.prio
  · exact .inr ⟨hx, by omega⟩
  · refine .inl fun x hm hs => ?_
    by_contra hp
    exact hx ⟨x, hm, hs, by omega⟩

theorem full_iff : ((withoutSource src stack).filter fun x => decide (prio < x.prio)).length = 4 ↔
    (withoutSource src stack).length = 4 ∧ ∀ x ∈ stack, prio < x.prio := by
  have hlen := ((stackOk_iff stack).1 h).1
  have h1 : (withoutSource src stack).length ≤ stack.length := List.length_filter_le ..
  have h2 : ((withoutSource src stack).filter fun x => decide (prio < x.prio)).length ≤ (withoutSource src stack).length :=
    List.length_filter_le ..
  constructor
  · intro h4
    have hall : (withoutSource src stack).filter (fun x => decide (prio < x.prio)) = withoutSource src stack :=
      List.filter_sublist.eq_of_length (by omega)
    have hself : withoutSource src stack = stack := List.filter_sublist.eq_of_length (by unfold withoutSource at *; omega)
    refine ⟨by omega, fun x hx => ?_⟩
    rw [← hself, ← hall] at hx
    simpa using (List.mem_filter.1 hx).2
  · rintro ⟨h4, hp⟩
    rw [List.filter_eq_self.2 fun x hx => by simpa using hp x ((mem_withoutSource ..).1 hx).1, h4]

/-- R39: when a claim is not placed, and that it then changes nothing. -/
theorem placeClaim_notPlaced_iff : (placeClaim stack src prio body tag).answer = .notPlaced ↔
    (withoutSource src stack).length = 4 ∧ ∀ x ∈ stack, prio < x.prio := by
  rw [← full_iff src prio h]
  rcases placeClaim_cases src prio h with ht | ⟨hx, hl | hf⟩
  · rw [placeClaim_of_top src prio body tag h ht]
    have h0 : ((withoutSource src stack).filter fun x => decide (prio < x.prio)).length = 0 := by
      rw [List.length_eq_zero_iff, List.filter_eq_nil_iff]
      intro x hx
      have := ht x ((mem_withoutSource ..).1 hx).1 ((mem_withoutSource ..).1 hx).2
      simp only [decide_eq_true_eq]; omega
    rw [h0]
    split <;> simp
  · rw [placeClaim_of_below src prio body tag h hx hl]
    simp only [reduceCtorEq, false_iff]
    omega
  · rw [placeClaim_of_full src prio body tag h hf]
    simp [hf]

theorem placeClaim_of_notPlaced (hn : (placeClaim stack src prio body tag).answer = .notPlaced) :
    (placeClaim stack src prio body tag).stack = stack ∧ (placeClaim stack src prio body tag).reports = [] := by
  rw [placeClaim_notPlaced_iff src prio body tag h, ← full_iff src prio h] at hn
  rw [placeClaim_of_full src prio body tag h hn]
  exact ⟨rfl, rfl⟩

/-- R39: a claim is active when no other source's entry has a higher priority. -/
theorem placeClaim_active_iff (hn : (placeClaim stack src prio body tag).answer ≠ .notPlaced) :
    (placeClaim stack src prio body tag).answer = .active ↔ ∀ x ∈ stack, x.source ≠ src → x.prio ≤ prio := by
  rcases placeClaim_cases src prio h with ht | ⟨⟨x, hx, hs, hp⟩, hl | hf⟩
  · rw [placeClaim_of_top src prio body tag h ht]
    split <;> simpa using ht
  · rw [placeClaim_of_below src prio body tag h ⟨x, hx, hs, hp⟩ hl]
    simp only [reduceCtorEq, false_iff]
    intro hall
    have := hall x hx hs
    omega
  · exact absurd (by rw [placeClaim_of_full src prio body tag h hf]) hn

/-- The stack that an active claim leaves, and its superseded reports (R39, R40). -/
theorem placeClaim_of_active (ha : (placeClaim stack src prio body tag).answer = .active) :
    (topIsSource src stack = true →
      (placeClaim stack src prio body tag).stack =
          ⟨src, prio, body, tag, tag.isSome⟩ :: (withoutSource src stack).take 3 ∧
        (placeClaim stack src prio body tag).reports =
          owedTags (ofSource src stack ++ (withoutSource src stack).drop 3)) ∧
    (topIsSource src stack = false →
      (placeClaim stack src prio body tag).stack = ⟨src, prio, body, tag, tag.isSome⟩ ::
          (((withoutSource src stack).take 1).map (fun e => { e with owed := false }) ++
            ((withoutSource src stack).drop 1).take 2) ∧
        (placeClaim stack src prio body tag).reports =
          owedTags (ofSource src stack ++ (withoutSource src stack).drop 3 ++ (withoutSource src stack).take 1)) := by
  have ht := (placeClaim_active_iff src prio body tag h (by rw [ha]; nofun)).1 ha
  rw [placeClaim_of_top src prio body tag h ht]
  refine ⟨fun hs => ?_, fun hs => ?_⟩
  · rw [if_pos hs]; exact ⟨rfl, rfl⟩
  · rw [if_neg (by simp [hs])]
    refine ⟨?_, ?_⟩
    · dsimp only
      rw [clearSecond_cons, List.take_take, List.drop_take]
      rfl
    · simp only [owedTags_eq, List.filterMap_append]

/-- The stack that a claim below leaves, and its superseded reports (R39, R40). -/
theorem placeClaim_of_answeredBelow (ha : (placeClaim stack src prio body tag).answer = .below) :
    (placeClaim stack src prio body tag).stack =
        List.take 4 (((withoutSource src stack).filter fun x => decide (prio < x.prio)) ++
          ⟨src, prio, body, tag, false⟩ :: (withoutSource src stack).filter fun x => decide (x.prio ≤ prio)) ∧
      (placeClaim stack src prio body tag).reports =
        owedTags (ofSource src stack ++ (withoutSource src stack).drop 3) := by
  rcases placeClaim_cases src prio h with ht | ⟨hx, hl | hf⟩
  · rw [placeClaim_of_top src prio body tag h ht] at ha
    split at ha <;> cases ha
  · rw [placeClaim_of_below src prio body tag h hx hl]; exact ⟨rfl, rfl⟩
  · rw [placeClaim_of_full src prio body tag h hf] at ha; cases ha

/-- The sources of the stack that a placed claim leaves, from the top. -/
theorem placeClaim_sources (hn : (placeClaim stack src prio body tag).answer ≠ .notPlaced) :
    ((placeClaim stack src prio body tag).stack.map fun e => e.source) =
      List.take 4
        (((withoutSource src stack).filter fun x => decide (prio < x.prio)).map (fun e => e.source) ++
          src :: ((withoutSource src stack).filter fun x => decide (x.prio ≤ prio)).map fun e => e.source) := by
  have hclear (l : List (Entry α)) : (clearSecond l).map (fun e => e.source) = l.map fun e => e.source := by
    cases l with
    | nil => rfl
    | cons a l => cases l <;> rfl
  rcases placeClaim_cases src prio h with ht | ⟨hx, hl | hf⟩
  · have hle : ∀ x ∈ withoutSource src stack, x.prio ≤ prio := fun x hx =>
      ht x ((mem_withoutSource ..).1 hx).1 ((mem_withoutSource ..).1 hx).2
    have h0 : ((withoutSource src stack).filter fun x => decide (prio < x.prio)) = [] :=
      List.filter_eq_nil_iff.2 fun x hx => by have := hle x hx; simp only [decide_eq_true_eq]; omega
    rw [placeClaim_of_top src prio body tag h ht, h0, List.filter_eq_self.2 fun x hx => by simpa using hle x hx]
    split
    · simp
    · rw [hclear]; simp
  · rw [placeClaim_of_below src prio body tag h hx hl]
    simp
  · exact absurd (by rw [placeClaim_of_full src prio body tag h hf]) hn

/-- A placed claim stands in its stack. -/
theorem placeClaim_mem (hn : (placeClaim stack src prio body tag).answer ≠ .notPlaced) :
    ∃ e ∈ (placeClaim stack src prio body tag).stack, e.source = src ∧ e.prio = prio ∧ e.body = body ∧ e.tag = tag := by
  rcases placeClaim_cases src prio h with ht | ⟨hx, hl | hf⟩
  · rw [placeClaim_of_top src prio body tag h ht]
    refine ⟨⟨src, prio, body, tag, tag.isSome⟩, ?_, rfl, rfl, rfl, rfl⟩
    split
    · exact List.mem_cons_self
    · dsimp only
      rw [clearSecond_cons]
      exact List.mem_cons_self
  · rw [placeClaim_of_below src prio body tag h hx hl]
    refine ⟨⟨src, prio, body, tag, false⟩, ?_, rfl, rfl, rfl, rfl⟩
    dsimp only
    rw [List.take_append, List.mem_append,
      show ∀ n, n ≤ 3 → 4 - n = 3 - n + 1 from fun n hn => by omega]
    · exact .inr (by rw [List.take_succ_cons]; exact List.mem_cons_self)
    · exact hl
  · exact absurd (by rw [placeClaim_of_full src prio body tag h hf]) hn

end Cases

end Placing

/-! ### What an aim leaves at other fixtures -/

variable (s : State)

/-- Every fixture but `f` keeps its motion record and its AIM stack. -/
structure State.AimsAlone (f : Nat) (s t : State) : Prop where
  kept : ∀ g, g ≠ f → t.motionOf g = s.motionOf g ∧ t.aimStack g = s.aimStack g

section Alone
variable (f : Nat)

theorem State.AimsAlone.trans {f : Nat} {s t u : State} (h : s.AimsAlone f t) (h' : t.AimsAlone f u) : s.AimsAlone f u :=
  ⟨fun g hg => ⟨(h'.kept g hg).1.trans (h.kept g hg).1, (h'.kept g hg).2.trans (h.kept g hg).2⟩⟩

theorem State.aimsAlone_withLink (l : Link) : s.AimsAlone f (s.withLink l) := ⟨fun _ _ => ⟨rfl, rfl⟩⟩

theorem State.aimsAlone_withSolver (q : Solver) : s.AimsAlone f (s.withSolver q) := ⟨fun _ _ => ⟨rfl, rfl⟩⟩

theorem State.aimsAlone_setPointer (i : Nat) : s.AimsAlone f (s.setPointer i) := ⟨fun _ _ => ⟨rfl, rfl⟩⟩

theorem State.aimsAlone_onMotion (g : Profile → Motion → MotionOut) : s.AimsAlone f (s.onMotion f g) :=
  ⟨fun _ hg => s.onMotion_other f g hg⟩

theorem State.aimsAlone_requestHit (i : Nat) (c : Cls) : s.AimsAlone f (s.requestHit f i c) := by
  have h : s.AimsAlone f ((s.raiseJob .cacheHit c).setOwed f none) :=
    (s.aimsAlone_withLink f _).trans (State.aimsAlone_withSolver _ f _)
  unfold State.requestHit
  dsimp only
  split
  · exact (h.trans (State.aimsAlone_setPointer ..)).trans (State.aimsAlone_onMotion ..)
  · exact h.trans (State.aimsAlone_onMotion ..)

theorem State.aimsAlone_requestMiss (p : Nat) (c : Cls) : s.AimsAlone f (s.requestMiss f p c).1 := by
  have hraise (u : State) (e : Activity) : u.AimsAlone f (u.raiseJob e c) := u.aimsAlone_withLink f _
  have hocc (u : State) : u.AimsAlone f (u.raiseOccupancy c) := u.aimsAlone_withLink f _
  have howed (u : State) (x : Option Cls) : u.AimsAlone f (u.setOwed f x) := u.aimsAlone_withSolver f _
  unfold State.requestMiss
  dsimp only
  split
  · exact ((hraise s _).trans ((State.aimsAlone_withSolver ..).trans (howed _ _))).trans (hocc _)
  · split
    · exact (((hraise s _).trans ((State.aimsAlone_withSolver ..).trans (howed _ _))).trans (hraise _ _)).trans (hocc _)
    · exact ((((hraise s _).trans (hraise _ _)).trans (howed _ _)).trans (State.aimsAlone_withLink ..)).trans (hocc _)

theorem State.aimsAlone_request (p : Nat) (c : Cls) : s.AimsAlone f (s.request f p c).1 := by
  unfold State.request
  split
  · exact s.aimsAlone_requestHit ..
  · exact s.aimsAlone_requestMiss ..

theorem State.aimsAlone_handAim (e : Entry AimClaim) (ms : Nat) : s.AimsAlone f (s.handAim f e ms).1 := by
  unfold State.handAim
  dsimp only
  split
  · split
    · exact (s.aimsAlone_onMotion f _).trans (State.aimsAlone_request ..)
    · exact s.aimsAlone_onMotion f _
  · exact (s.aimsAlone_onMotion f _).trans (State.aimsAlone_withSolver ..)

theorem State.aimsAlone_handNoAim : s.AimsAlone f (s.handNoAim f) :=
  (s.aimsAlone_onMotion f _).trans (State.aimsAlone_withSolver ..)

end Alone

/-! ### Releases (R46) -/

section Release
variable (f src ms : Nat)

theorem releaseReports_eq {α : Type} (l : List (Entry α)) :
    releaseReports src l = l.filterMap fun e => if e.source = src ∧ e.owed = true then e.tag else none := by
  rw [releaseReports, owedTags_eq, ofSource, List.filterMap_filter]
  refine List.filterMap_congr fun e _ => ?_
  by_cases h : e.source = src <;> simp [h]

/-- The AIM stack of a fixture without a source, and the superseded reports that this sends. -/
def State.aimReleased (s : State) (f src : Nat) : State :=
  (s.setAimStack f (withoutSource src (s.aimStack f))).withPlayback
    { s.playback with
      reports := s.playback.reports ++ (releaseReports src (s.aimStack f)).map fun t => ⟨false, t⟩ }

/-- The COLOUR stack of a fixture without a source, and the superseded reports that this sends. -/
def State.colourReleased (s : State) (f src : Nat) : State :=
  (s.setColourStack f (withoutSource src (s.colourStack f))).withPlayback
    { s.playback with
      reports := s.playback.reports ++ (releaseReports src (s.colourStack f)).map fun t => ⟨false, t⟩ }

theorem State.releaseAim_of_holds (h : holdsSource src (s.aimStack f) = true) : s.releaseAim f src ms =
    if topIsSource src (s.aimStack f) then
      match (withoutSource src (s.aimStack f)).head? with
      | some e => (((s.aimReleased f src).handAim f e ms).1, true)
      | none => ((s.aimReleased f src).handNoAim f, true)
    else (s.aimReleased f src, true) := by
  unfold State.releaseAim
  dsimp only
  rw [if_pos h, State.reportAllSuperseded_eq]
  rfl

theorem State.releaseColour_of_holds (h : holdsSource src (s.colourStack f) = true) : s.releaseColour f src ms =
    if topIsSource src (s.colourStack f) then
      match (withoutSource src (s.colourStack f)).head? with
      | some e => ((s.colourReleased f src).handColour f e.body.target ms e.handedTag, true)
      | none => ((s.colourReleased f src).handNoColour f, true)
    else (s.colourReleased f src, true) := by
  unfold State.releaseColour
  dsimp only
  rw [if_pos h, State.reportAllSuperseded_eq]
  rfl

/-- A release of a held source takes it out of the AIM stack; what follows is an aim of that fixture alone. -/
theorem State.releaseAim_spec (h : holdsSource src (s.aimStack f) = true) : (s.releaseAim f src ms).2 = true ∧
    (s.aimReleased f src).Aims (s.releaseAim f src ms).1 ∧
      (s.aimReleased f src).AimsAlone f (s.releaseAim f src ms).1 := by
  rw [s.releaseAim_of_holds f src ms h]
  split
  · split
    · exact ⟨rfl, State.aims_handAim .., State.aimsAlone_handAim ..⟩
    · exact ⟨rfl, State.aims_handNoAim .., State.aimsAlone_handNoAim ..⟩
  · exact ⟨rfl, .refl _, ⟨fun _ _ => ⟨rfl, rfl⟩⟩⟩

/-- What an event on a colour record keeps of its stack. -/
theorem State.onColour_stacked (g : Profile → Patch → Colour → ColourOut) (i : Nat) :
    ((s.onColour f g).colourStack i).map (fun e => (e.source, e.prio, e.body, e.tag)) =
      (s.colourStack i).map fun e => (e.source, e.prio, e.body, e.tag) := by
  rcases s.onColour_cases f g with ⟨h, -⟩ | ⟨q, k, p, -, -, -, h⟩ <;> rw [h]
  rw [State.applyColour_colourStack]
  split
  · exact clearReported_key ..
  · rfl

theorem State.blocks_of_exceptColour {s t : State} (h : t.exceptColour = s.exceptColour) :
    t.rig = s.rig ∧ t.points = s.points ∧ t.memory = s.memory ∧ t.motion = s.motion ∧ t.solver = s.solver ∧
      t.cache = s.cache ∧ t.beat = s.beat := by
  rw [State.eq_of_exceptColour h]
  exact ⟨rfl, rfl, rfl, rfl, rfl, rfl, rfl⟩

/-- A release of a held source takes it out of the COLOUR stack; what follows is one event on that fixture's record. -/
theorem State.releaseColour_spec (h : holdsSource src (s.colourStack f) = true) : (s.releaseColour f src ms).2 = true ∧
    ((s.releaseColour f src ms).1 = s.colourReleased f src ∨
      ∃ g, (s.releaseColour f src ms).1 = (s.colourReleased f src).onColour f g) := by
  rw [s.releaseColour_of_holds f src ms h]
  split
  · split
    · exact ⟨rfl, .inr ⟨_, rfl⟩⟩
    · exact ⟨rfl, .inr ⟨_, rfl⟩⟩
  · exact ⟨rfl, .inl rfl⟩

end Release

/-- The state with a COLOUR claim placed and its superseded reports sent. -/
theorem State.placeColour_eq (f src : Nat) (c : ColourClaim) (tag : Option LaunchTag) :
    s.placeColour f src c tag =
      ((s.setColourStack f (placeClaim (s.colourStack f) src (s.priority src) c tag).stack).withPlayback
          { s.playback with
            reports := s.playback.reports ++
              (placeClaim (s.colourStack f) src (s.priority src) c tag).reports.map fun t => ⟨false, t⟩ },
        ⟨(placeClaim (s.colourStack f) src (s.priority src) c tag).answer,
          (placeClaim (s.colourStack f) src (s.priority src) c tag).newTop⟩) := by
  unfold State.placeColour
  dsimp only
  rw [State.reportAllSuperseded_eq]
  rfl

theorem State.handTopColour_of_top {f : Nat} {e : Entry ColourClaim} {es : List (Entry ColourClaim)}
    (h : s.colourStack f = e :: es) :
    s.handTopColour f = s.handColour f e.body.target e.body.ms (if e.owed = true then e.tag else none) := by
  rw [State.handTopColour, h]; rfl

/-- The order, the reports and the place of a claim in one stack: the part of O34 that AIM and COLOUR stacks share. -/
theorem placeClaim_reports {α : Type} {stack : List (Entry α)} {src prio : Nat} {body : α} {tag : Option LaunchTag}
    (h : stackOk stack = true) {rest : List (Entry α)} (hr : rest = stack.filter fun e => decide (e.source ≠ src)) :
    ((placeClaim stack src prio body tag).answer = .below →
      (placeClaim stack src prio body tag).stack =
        List.take 4
          ((rest.filter fun x => decide (prio < x.prio)) ++
            ⟨src, prio, body, tag, false⟩ :: rest.filter fun x => decide (x.prio ≤ prio)) ∧
      (placeClaim stack src prio body tag).reports =
        ((stack.filter fun e => decide (e.source = src)) ++ rest.drop 3).filterMap
          fun e => if e.owed = true then e.tag else none) ∧
    ((placeClaim stack src prio body tag).answer = .active →
      (topIsSource src stack = true →
        (placeClaim stack src prio body tag).stack = ⟨src, prio, body, tag, tag.isSome⟩ :: rest.take 3 ∧
        (placeClaim stack src prio body tag).reports =
          ((stack.filter fun e => decide (e.source = src)) ++ rest.drop 3).filterMap
            fun e => if e.owed = true then e.tag else none) ∧
      (topIsSource src stack = false →
        (placeClaim stack src prio body tag).stack =
          ⟨src, prio, body, tag, tag.isSome⟩ ::
            ((rest.take 1).map (fun e => { e with owed := false }) ++ (rest.drop 1).take 2) ∧
        (placeClaim stack src prio body tag).reports =
          ((stack.filter fun e => decide (e.source = src)) ++ rest.drop 3 ++ rest.take 1).filterMap
            fun e => if e.owed = true then e.tag else none)) := by
  rw [← withoutSource_eq] at hr
  subst hr
  simp only [← owedTags_eq]
  exact ⟨placeClaim_of_answeredBelow src prio body tag h, placeClaim_of_active src prio body tag h⟩

/-- Settles O34: the order of a stack, the hand-overs of a COLOUR stack, and the releases. -/
theorem stacksTakeAndGiveUpClaims : Obligations.StacksTakeAndGiveUpClaims := by
  refine ⟨fun stack src prio body tag h => ⟨stackOk_placeClaim src prio body tag h,
      placeClaim_notPlaced_iff src prio body tag h, placeClaim_of_notPlaced src prio body tag h,
      fun hn => ⟨placeClaim_mem src prio body tag h hn, placeClaim_active_iff src prio body tag h hn,
        placeClaim_sources src prio body tag h hn⟩, fun rest hr => placeClaim_reports h hr⟩,
    fun stack src prio body tag h => ⟨stackOk_placeClaim src prio body tag h,
      placeClaim_notPlaced_iff src prio body tag h, placeClaim_of_notPlaced src prio body tag h,
      fun hn => ⟨placeClaim_mem src prio body tag h hn, placeClaim_active_iff src prio body tag h hn,
        placeClaim_sources src prio body tag h hn⟩, fun rest hr => placeClaim_reports h hr⟩,
    fun s u f src ms c p hp hu => ?_, fun s f src ms => ⟨?_, fun h => ?_, ?_, fun h => ?_⟩⟩
  · subst hp
    have hplace := s.placeColour_eq f src c none
    rw [← hu] at hplace
    refine ⟨fun hn => ?_, fun hn e es he => ?_, fun rest v hr hv hh => ?_⟩
    · simp only [State.claimColour, hplace, State.finishColour, hn]
      rfl
    · have htop : u.colourStack f = e :: es := by
        rw [hu, State.withPlayback_colourStack, State.setColourStack_colourStack, if_pos rfl, he]
      simp only [State.claimColour, hplace, State.finishColour, hn, if_true, u.handTopColour_of_top htop]
    · rw [← withoutSource_eq] at hr
      rw [← releaseReports_eq, hr] at hv
      obtain rfl : v = s.colourReleased f src := hv
      rw [s.releaseColour_of_holds f src ms hh]
      refine ⟨fun ht => if_neg (by simp [ht]), fun ht => ⟨fun e es he => ?_, fun he => ?_⟩⟩
      · rw [if_pos ht, ← hr, he]; rfl
      · rw [if_pos ht, ← hr, he]; rfl
  · exact fun h => if_neg (by simp [h])
  · obtain ⟨hheld, ha, halone⟩ := s.releaseAim_spec f src ms h
    have hst (g : Nat) : (s.aimReleased f src).aimStack g =
        if g = f then withoutSource src (s.aimStack f) else s.aimStack g := by
      rw [State.aimReleased, State.withPlayback_aimStack, State.setAimStack_aimStack]
    refine ⟨hheld, ?_, ?_, fun g hg => ?_, ha.colourStack, ha.positions, ha.rig, ha.points, ha.memory, ha.colour,
      ha.lines, ha.beat⟩
    · have hkeys := congrArg (List.map fun x : Nat × Nat × AimClaim × Option LaunchTag => (x.1, x.2.1, x.2.2.1))
        (ha.stacked f)
      rw [List.map_map, List.map_map, hst, if_pos rfl, withoutSource_eq] at hkeys
      exact hkeys
    · rw [← releaseReports_eq]
      exact ha.reports
    · rw [(halone.kept g hg).2, hst, if_neg hg]
  · exact fun h => if_neg (by simp [h])
  · obtain ⟨hheld, hrest⟩ := s.releaseColour_spec f src ms h
    have hst (g : Nat) : (s.colourReleased f src).colourStack g =
        if g = f then withoutSource src (s.colourStack f) else s.colourStack g := by
      rw [State.colourReleased, State.withPlayback_colourStack, State.setColourStack_colourStack]
    have hfr : (s.colourReleased f src).ColourFrame (s.releaseColour f src ms).1 := by
      rcases hrest with h | ⟨g, h⟩ <;> rw [h]
      · exact .refl _
      · exact State.onColour_frame ..
    have hkeys : ((s.releaseColour f src ms).1.colourStack f).map (fun e => (e.source, e.prio, e.body, e.tag)) =
        ((s.colourReleased f src).colourStack f).map fun e => (e.source, e.prio, e.body, e.tag) := by
      rcases hrest with h | ⟨g, h⟩ <;> rw [h]
      exact State.onColour_stacked ..
    have hreports : (s.colourReleased f src).playback.reports <+: (s.releaseColour f src ms).1.playback.reports := by
      rcases hrest with h | ⟨g, h⟩ <;> rw [h]
      rw [State.onColour_playback]
      exact List.prefix_append ..
    have hother (g : Nat) (hg : g ≠ f) : (s.releaseColour f src ms).1.colourStack g = s.colourStack g ∧
        (s.releaseColour f src ms).1.colourOf g = s.colourOf g := by
      rcases hrest with h | ⟨c, h⟩ <;> rw [h]
      · exact ⟨by rw [hst, if_neg hg], rfl⟩
      · obtain ⟨h1, h2⟩ := (s.colourReleased f src).onColour_other f c hg
        exact ⟨by rw [h2, hst, if_neg hg], h1⟩
    have hothers : (s.releaseColour f src ms).1.exceptColour = s.exceptColour :=
      hfr.others.trans (by unfold State.colourReleased; exact rfl)
    have haims := hfr.aims
    generalize (s.releaseColour f src ms).1 = t at *
    refine ⟨hheld, ?_, ?_, hother, fun g => ?_, ?_⟩
    · have hkeys := congrArg (List.map fun x : Nat × Nat × ColourClaim × Option LaunchTag => (x.1, x.2.1, x.2.2.1)) hkeys
      rw [List.map_map, List.map_map, hst, if_pos rfl, withoutSource_eq] at hkeys
      exact hkeys
    · rw [← releaseReports_eq]
      exact hreports
    · rw [State.aimStack, haims]; rfl
    · exact State.blocks_of_exceptColour hothers

end Sys2Proof.Machine
end

