-- ==== Sys2Proof/Proofs/SolverRows.lean ====
section
/-! PROOFS. The Solve Cache, solve requests, the owed service and the solver lane (chapter 5). -/

namespace Sys2Proof.Machine

variable (s : State)

/-! ### The Solve Cache (R76 to R78) -/

section Cache
variable (f p : Nat)

theorem State.cacheHolds_iff {i : Nat} : s.cacheHolds f p i = true ↔
    (s.cacheEntry i).valid = true ∧ (s.cacheEntry i).fixture = f ∧ (s.cacheEntry i).point = p := by
  simp [State.cacheHolds, and_assoc]

theorem State.cacheFind_some {i : Nat} (h : s.cacheFind f p = some i) : i < 32 ∧
    (s.cacheEntry i).valid = true ∧ (s.cacheEntry i).fixture = f ∧ (s.cacheEntry i).point = p :=
  ⟨List.mem_range.1 (List.mem_of_find?_eq_some h), (s.cacheHolds_iff f p).1 (List.find?_some h)⟩

theorem State.cacheFind_none (h : s.cacheFind f p = none) {i : Nat} (hi : i < 32)
    (hv : (s.cacheEntry i).valid = true) (hf : (s.cacheEntry i).fixture = f) : (s.cacheEntry i).point ≠ p :=
  fun hp => List.find?_eq_none.1 h i (List.mem_range.2 hi) ((s.cacheHolds_iff f p).2 ⟨hv, hf, hp⟩)

variable (r : SolveResult)

theorem State.cacheFill_frame : s.cacheFill f p r = s.withCache (s.cacheFill f p r).cache := by
  unfold State.cacheFill; split <;> rfl

theorem State.cacheFill_of_found {i : Nat} (h : s.cacheFind f p = some i) :
    (s.cacheFill f p r).cacheEntry i = ⟨true, f, p, r⟩ ∧ (s.cacheFill f p r).cache.pointer = s.cache.pointer := by
  have hf : s.cacheFill f p r = s.setCacheEntry i ⟨true, f, p, r⟩ := by
    rw [State.cacheFill, h]
  rw [hf]
  exact ⟨State.setCacheEntry_cacheEntry_same .., rfl⟩

theorem State.cacheFill_of_missing (h : s.cacheFind f p = none) :
    (s.cacheFill f p r).cacheEntry s.cache.pointer = ⟨true, f, p, r⟩ ∧
      (s.cacheFill f p r).cache.pointer = if s.cache.pointer = 31 then 0 else s.cache.pointer + 1 := by
  have hf : s.cacheFill f p r = (s.setCacheEntry s.cache.pointer ⟨true, f, p, r⟩).setPointer (nextEntry s.cache.pointer) := by
    rw [State.cacheFill, h]
  have he := s.setCacheEntry_cacheEntry_same s.cache.pointer ⟨true, f, p, r⟩
  rw [hf]
  exact ⟨he, rfl⟩

end Cache

/-! ### Solve requests (R75, R77, R82 to R85) -/

section Request
variable (f p : Nat) (c : Cls)

theorem State.request_of_hit {i : Nat} (h : s.cacheFind f p = some i) :
    ∃ u : State, s.request f p c = (u.deliver f (s.cacheEntry i).result, .hit) ∧
      u = ((s.raise .cacheHit (some c) 1).withSolver ⟨s.solver.queued, s.solver.solving, u.solver.owed⟩).withCache
        ⟨s.cache.entries, if s.cache.pointer = i then (if i = 31 then 0 else i + 1) else s.cache.pointer⟩ ∧
      ∀ g, u.owedMark g = if g = f then none else s.owedMark g := by
  have howed (g : Nat) := (s.raiseJob .cacheHit c).setOwed_owedMark f none g
  refine ⟨if s.cache.pointer = i then ((s.raiseJob .cacheHit c).setOwed f none).setPointer (nextEntry i)
    else (s.raiseJob .cacheHit c).setOwed f none, ?_, ?_, ?_⟩
  · simp only [State.request, h]; rfl
  · split <;> rfl
  · split <;> exact howed

/-- A miss with a job of the fixture QUEUED replaces that job's point and class (R82). -/
theorem State.requestMiss_of_queued (h : s.solver.hasQueued f = true) : s.requestMiss f p c =
    ((((s.raiseJob .cacheMiss c).withSolver
      { s.solver with queued := coalesce f p c s.solver.queued }).setOwed f none).raiseOccupancy c, .queued) :=
  if_pos h

/-- A miss with a free slot gives the fixture a job (R83). -/
theorem State.requestMiss_of_slot (h : s.solver.hasQueued f = false) {pool : Pool} (hp : s.solver.freePool c = some pool) :
    s.requestMiss f p c =
      (((((s.raiseJob .cacheMiss c).withSolver { s.solver with queued := s.solver.queued ++ [⟨f, p, c, pool⟩] }).setOwed f
        none).raiseJob (if pool = .shared then .jobShared else .jobReserved) c).raiseOccupancy c, .queued) := by
  have hp' : (s.raiseJob .cacheMiss c).solver.freePool c = some pool := hp
  have h' : ¬ (s.raiseJob .cacheMiss c).solver.hasQueued f = true := by
    rw [show (s.raiseJob .cacheMiss c).solver = s.solver from rfl, h]; nofun
  simp only [State.requestMiss, if_neg h', hp']
  rfl

/-- A miss without a free slot is rejected (R84). -/
theorem State.requestMiss_of_full (h : s.solver.hasQueued f = false) (hp : s.solver.freePool c = none) :
    s.requestMiss f p c =
      (((((s.raiseJob .cacheMiss c).raiseJob .jobRejected c).setOwed f (some c)).notifySolveRejected f c).raiseOccupancy c,
        .owed) := by
  have hp' : (s.raiseJob .cacheMiss c).solver.freePool c = none := hp
  have h' : ¬ (s.raiseJob .cacheMiss c).solver.hasQueued f = true := by
    rw [show (s.raiseJob .cacheMiss c).solver = s.solver from rfl, h]; nofun
  simp only [State.requestMiss, if_neg h', hp']

theorem Solver.jobs_length (q : Solver) : q.jobs.length = q.queued.length + if q.solving.isSome then 1 else 0 := by
  unfold Solver.jobs
  cases q.solving <;> rfl

theorem Solver.hasQueued_iff (q : Solver) : q.hasQueued f = true ↔ ∃ j ∈ q.queued, j.fixture = f := by
  simp [Solver.hasQueued]

variable {p} (hm : s.cacheFind f p = none)
include hm

theorem State.request_of_miss : s.request f p c = s.requestMiss f p c := by
  rw [State.request, hm]

theorem State.request_of_queued (h : ∃ j ∈ s.solver.queued, j.fixture = f) :
    ∃ u : State, s.request f p c = (u.raise .queueOccupancy (some c) s.solver.jobs.length, .queued) ∧
      u = (s.raise .cacheMiss (some c) 1).withSolver
        ⟨s.solver.queued.map fun j => if j.fixture = f then { j with point := p, cls := c } else j,
          s.solver.solving, u.solver.owed⟩ ∧
      ∀ g, u.owedMark g = if g = f then none else s.owedMark g := by
  refine ⟨((s.raiseJob .cacheMiss c).withSolver { s.solver with queued := coalesce f p c s.solver.queued }).setOwed f
    none, ?_, rfl, State.setOwed_owedMark _ f none⟩
  rw [s.request_of_miss f c hm, s.requestMiss_of_queued f p c ((s.solver.hasQueued_iff f).2 h), State.raiseOccupancy]
  congr 2
  simp only [Solver.usedAll, Solver.jobs_length, State.setOwed, State.withSolver_solver, coalesce, List.length_map]

theorem State.request_of_slot (h : ∀ j ∈ s.solver.queued, j.fixture ≠ f) {pool : Pool}
    (hp : s.solver.freePool c = some pool) :
    ∃ u : State,
      s.request f p c =
        ((u.raise (if pool = .shared then .jobShared else .jobReserved) (some c) 1).raise .queueOccupancy (some c)
          (s.solver.jobs.length + 1), .queued) ∧
      u = (s.raise .cacheMiss (some c) 1).withSolver
        ⟨s.solver.queued ++ [⟨f, p, c, pool⟩], s.solver.solving, u.solver.owed⟩ ∧
      ∀ g, u.owedMark g = if g = f then none else s.owedMark g := by
  have hq : s.solver.hasQueued f = false := by
    rw [← Bool.not_eq_true, s.solver.hasQueued_iff f]
    rintro ⟨j, hj, he⟩
    exact h j hj he
  refine ⟨((s.raiseJob .cacheMiss c).withSolver { s.solver with queued := s.solver.queued ++ [⟨f, p, c, pool⟩] }).setOwed f
    none, ?_, rfl, State.setOwed_owedMark _ f none⟩
  rw [s.request_of_miss f c hm, s.requestMiss_of_slot f p c hq hp, State.raiseOccupancy]
  congr 2
  simp only [Solver.usedAll, Solver.jobs_length, State.raiseJob, State.raise, State.withLink_solver, State.setOwed,
    State.withSolver_solver, List.length_append, List.length_singleton]
  omega

theorem State.request_of_full (h : ∀ j ∈ s.solver.queued, j.fixture ≠ f) (hp : s.solver.freePool c = none) :
    ∃ u : State,
      s.request f p c = (u.raise .queueOccupancy (some c) s.solver.jobs.length, .owed) ∧
      u = ((((s.raise .cacheMiss (some c) 1).raise .jobRejected (some c) 1).withSolver
        ⟨s.solver.queued, s.solver.solving, u.solver.owed⟩).withNotices
          { s.link.notices with solveRejected := some ⟨f, c⟩ }) ∧
      ∀ g, u.owedMark g = if g = f then some c else s.owedMark g := by
  have hq : s.solver.hasQueued f = false := by
    rw [← Bool.not_eq_true, s.solver.hasQueued_iff f]
    rintro ⟨j, hj, he⟩
    exact h j hj he
  refine ⟨(((s.raiseJob .cacheMiss c).raiseJob .jobRejected c).setOwed f (some c)).notifySolveRejected f c, ?_, rfl,
    State.setOwed_owedMark _ f (some c)⟩
  rw [s.request_of_miss f c hm, s.requestMiss_of_full f p c hq hp]
  rfl

end Request

theorem Solver.freePool_of {q : Solver} {c : Cls} {pool : Pool} (h : (pool = .shared ∧ q.used .shared < 24) ∨
    (pool = .reserve c ∧ 24 ≤ q.used .shared ∧ q.used (.reserve c) < 2)) : q.freePool c = some pool := by
  unfold Solver.freePool
  rcases h with ⟨rfl, h⟩ | ⟨rfl, hs, hr⟩
  · rw [if_pos h]
  · rw [if_neg (by omega), if_pos hr]

theorem Solver.freePool_none {q : Solver} {c : Cls} (hs : 24 ≤ q.used .shared) (hr : 2 ≤ q.used (.reserve c)) :
    q.freePool c = none := by
  unfold Solver.freePool
  rw [if_neg (by omega), if_neg (by omega)]

/-! ### Re-aims (R22, R99) -/

section Reaim
variable (f p : Nat)

theorem State.isSet_of_none {p : Nat} (h : (s.point p).pos = none) : s.isSet p = false := by rw [State.isSet, h]; rfl

theorem State.onMotion_quiet (g : Profile → Motion → Motion) : (s.onMotion f fun k m => .quiet (g k m)) =
    s.withMotion (s.onMotion f fun k m => .quiet (g k m)).motion := by
  rcases s.onMotion_cases f fun k m => .quiet (g k m) with ⟨h, -⟩ | ⟨m, k, -, -, h⟩ <;> rw [h]
  · rfl
  · rfl

theorem State.reaim_of_set (law : Law) (c : Cls) (h : (s.point p).pos.isSome = true) :
    ∃ v : State, s.reaim f p law c = ((v.request f p c).1, true) ∧ v = s.withMotion v.motion ∧
      (∀ g, g ≠ f → v.motionOf g = s.motionOf g) ∧
      ∀ m k, s.motionOf f = some m → s.profileOf f = some k →
        v.motionOf f = some (if m.awaiting = true then m else { m with awaiting := true, pendLaw := law, pendMs := 0 }) := by
  refine ⟨s.onMotion f fun _ m => .quiet (m.reaim law), if_pos h, s.onMotion_quiet f fun _ m => m.reaim law,
    fun g hg => (s.onMotion_other f _ hg).1, fun m k hm hk => ?_⟩
  rw [s.onMotion_of_record f _ hm hk, State.applyMotion_motionOf, if_pos rfl]
  rfl

theorem State.reaimLaw_of_point {e : Entry AimClaim} {es : List (Entry AimClaim)} (h : s.aimStack f = e :: es) {q : Nat}
    (ht : e.body.target = .point q) : s.reaimLaw f = e.body.law := by
  simp only [State.reaimLaw, h, List.head?_cons, ht]

theorem State.reaimLaw_of_sweep {e : Entry AimClaim} {es : List (Entry AimClaim)} (h : s.aimStack f = e :: es)
    {cen : Centre} {pa ta lm n : Nat} (ht : e.body.target = .sweep cen pa ta lm n) : s.reaimLaw f = .timed := by
  simp only [State.reaimLaw, h, List.head?_cons, ht]

end Reaim

/-! ### The owed service (R87, R88) -/

section Service
variable (f : Nat) (fs : List Nat)

theorem State.serveMarks_of_unmarked (h : s.owedMark f = none) : s.serveMarks (f :: fs) = s.serveMarks fs := by
  rw [State.serveMarks, h]

theorem State.serveMarks_of_unset {c : Cls} (h : s.owedMark f = some c)
    (hp : s.aimedAt f = none ∨ ∃ p, s.aimedAt f = some p ∧ (s.point p).pos = none) :
    s.serveMarks (f :: fs) = (s.setOwed f none).serveMarks fs := by
  rcases hp with hp | ⟨p, hp, hu⟩
  · simp only [State.serveMarks, h, hp]
  · simp [State.serveMarks, h, hp, s.isSet_of_none hu]

theorem State.serveMarks_of_request {c : Cls} (h : s.owedMark f = some c) {p : Nat} (hp : s.aimedAt f = some p)
    (hs : (s.point p).pos.isSome = true) :
    ((s.request f p c).2 = .hit → s.serveMarks (f :: fs) = (s.request f p c).1.serveMarks fs) ∧
      ((s.request f p c).2 ≠ .hit → s.serveMarks (f :: fs) = ((s.request f p c).1, true)) := by
  have hset : s.isSet p = true := hs
  generalize hr : s.request f p c = r
  obtain ⟨t, d⟩ := r
  cases d <;> simp [State.serveMarks, h, hp, hset, hr]

end Service

/-! ### The solver lane (R89 to R91) -/

/-- A result kept: the cache filled, and nothing else unless the fixture is still aimed at the point. -/
theorem State.keepResult_spec (j : Job) (r : SolveResult) :
    (s.keepResult j r).solver = s.solver ∧
      (s.keepResult j r).cache = (s.cacheFill j.fixture j.point r).cache ∧
      (s.aimedAt j.fixture ≠ some j.point → s.keepResult j r = s.withCache (s.keepResult j r).cache) ∧
      (s.aimedAt j.fixture = some j.point → ∀ m k, s.motionOf j.fixture = some m → s.profileOf j.fixture = some k →
        (s.keepResult j r).motionOf j.fixture = some (m.deliver k s.motionStepping r).after) := by
  have hfill := s.cacheFill_frame j.fixture j.point r
  unfold State.keepResult
  dsimp only
  generalize s.cacheFill j.fixture j.point r = u at hfill
  have haimed : u.aimedAt j.fixture = s.aimedAt j.fixture := by rw [hfill]; rfl
  rw [haimed]
  by_cases h : s.aimedAt j.fixture = some j.point
  · rw [if_pos h]
    have hfr := u.onMotion_frame (fun k m => m.deliver k u.motionStepping r) j.fixture
    refine ⟨hfr.solver.trans (by rw [hfill]; rfl), hfr.cache, fun hn => absurd h hn, fun _ m k hm hk => ?_⟩
    have hm' : u.motionOf j.fixture = some m := by rw [hfill]; exact hm
    have hk' : u.profileOf j.fixture = some k := by rw [hfill]; exact hk
    rw [State.deliver, u.onMotion_of_record _ _ hm' hk', State.applyMotion_motionOf, if_pos rfl, hfill]
    rfl
  · rw [if_neg h]
    exact ⟨by rw [hfill]; rfl, rfl, fun _ => hfill, fun he => absurd he h⟩

theorem State.generationsMatch_iff (j : Job) (g : Snapshot) : s.generationsMatch j g = true ↔
    g.pointGen = (s.point j.point).gen ∧ g.poseGen = (s.fixture j.fixture).gen := by
  simp [State.generationsMatch]

section Completion
variable {s} {j : Job} {g : Snapshot} (hr : s.resetting = none) (hs : s.solver.solving = some (j, g))
include hr hs

theorem exec_jobCompletion_of_stale (hg : s.generationsMatch j g = false) : exec .jobCompletion s = .next
    (((s.raise .resultDiscarded (some j.cls) 1).withSolver
      ⟨s.solver.queued, none, s.solver.owed⟩).owedService j.pool).pump := by
  rw [exec_of_enabled s (c := .jobCompletion) rfl rfl hr (by simp [rowEnabled, hs])]
  simp only [rowEffect, State.completeJob, hs, hg]
  rfl

theorem exec_jobCompletion_of_fresh (hg : s.generationsMatch j g = true) : exec .jobCompletion s = .next
    (((s.keepResult j g.solve).withSolver ⟨s.solver.queued, none, s.solver.owed⟩).owedService j.pool).pump := by
  rw [exec_of_enabled s (c := .jobCompletion) rfl rfl hr (by simp [rowEnabled, hs])]
  simp only [rowEffect, State.completeJob, hs, hg, if_true, (s.keepResult_spec j g.solve).1]

end Completion

theorem State.flushCache_eq :
    s.flushCache = ((s.invalidate fun _ => true).setPointer 0).answer .ok [BitVec.ofNat 8 s.validEntries] := by
  unfold State.flushCache le1; rfl

/-- Settles O35: the lane's rows, then requests, re-aims and the owed service, one conjunct each. -/
theorem solverRunsJobs : Obligations.SolverRunsJobs := by
  refine ⟨fun s => ⟨fun h => ?_, fun j js hr hn hq => ?_, fun j p pos hp hpos => ?_⟩,
    fun s j g hr hs => ⟨fun hg => ?_, fun hg1 hg2 => ?_, fun s f p c => ⟨fun i hi => ?_, fun hm => ⟨?_, ?_, ?_⟩⟩,
    fun s f p law c => ⟨fun hn => ?_, s.reaim_of_set f p law c, fun e es he => ⟨fun q => s.reaimLaw_of_point f he,
      fun cen pa ta lm n => s.reaimLaw_of_sweep f he⟩⟩, fun s c => ⟨rfl, ?_⟩,
    fun s f fs => ⟨rfl, s.serveMarks_of_unmarked f fs, fun c hc => ⟨fun p => s.serveMarks_of_request f fs hc,
      fun p hp hu => s.serveMarks_of_unset f fs hc (.inr ⟨p, hp, hu⟩), fun hn =>
        s.serveMarks_of_unset f fs hc (.inl hn)⟩⟩⟩⟩
  · have hrow := exec_of_effect s rfl h s.flushCache_eq
    have hfr := s.invalidate_frame fun _ => true
    have hce := fun i (hi : i < 32) => s.invalidate_cacheEntry (fun _ => true) hi
    generalize (s.invalidate fun _ => true) = u at hrow hfr hce
    refine ⟨u.setPointer 0, hrow, by rw [hfr]; rfl, rfl, fun i hi => ?_⟩
    have hi := hce i hi
    rw [CacheEntry.invalidated, Bool.not_true, Bool.and_false] at hi
    exact hi
  · rw [exec_of_enabled s (c := .jobStart) rfl rfl hr (by simp [rowEnabled, State.jobReady, hn, hq])]
    simp only [rowEffect, State.startJob, hn, hq]
  · simp only [State.snapshot, hp, hpos, Option.getD_some]
  · refine exec_jobCompletion_of_stale hr hs ?_
    rw [← Bool.not_eq_true, State.generationsMatch_iff]
    exact fun h => hg.elim (fun hne => hne h.1) fun hne => hne h.2
  · obtain ⟨-, hcache, hkept, haimed⟩ := s.keepResult_spec j g.solve
    refine ⟨s.keepResult j g.solve, exec_jobCompletion_of_fresh hr hs ((s.generationsMatch_iff j g).2 ⟨hg1, hg2⟩), ?_, ?_,
      hkept, haimed⟩
    · intro i hi
      rw [State.cacheEntry, hcache]
      exact s.cacheFill_of_found j.fixture j.point g.solve hi
    · intro hn
      rw [State.cacheEntry, hcache]
      exact s.cacheFill_of_missing j.fixture j.point g.solve hn
  · obtain ⟨hlt, hv, hf, hp⟩ := s.cacheFind_some f p hi
    exact ⟨hlt, hv, hf, hp, s.request_of_hit f p c hi⟩
  · exact fun i hi hv hf => s.cacheFind_none f p hm hi hv hf
  · exact s.request_of_queued f c hm
  · exact fun h => ⟨fun pool hp => s.request_of_slot f c hm h (Solver.freePool_of hp),
      fun hsh hre => s.request_of_full f c hm h (Solver.freePool_none hsh hre)⟩
  · exact if_neg (by simp [s.isSet_of_none hn])
  · simp only [State.owedService, State.owedOf, List.flatMap_cons, List.flatMap_nil, List.append_nil, List.append_assoc]

end Sys2Proof.Machine
end

