-- ==== Sys2Proof/Proofs/AimRows.lean ====
section
/-! PROOFS. What becomes of a motion record when an aim is handed over, started, delivered or given up (3.4, 6.3, 6.7). -/

namespace Sys2Proof.Machine

/-! ### The equations of a record's events -/

section Record
variable (k : Profile) (m : Motion)

theorem Motion.underWay_eq : m.underWay = decide (m.mode = .timed ∨ m.mode = .chase ∨ m.mode = .sweep) := by
  unfold Motion.underWay
  cases m.mode <;> rfl

theorem Motion.settle_eq : m.settle false =
    ⟨{ m with tag := if m.awaiting = true then m.tag else none }, if m.awaiting = true then none else m.tag, false, false⟩ := by
  unfold Motion.settle
  by_cases h : m.awaiting = true
  · rw [if_pos (by simp [h]), if_pos h, if_pos h]; rfl
  · rw [if_neg (by simp [h]), if_neg h, if_neg h]

theorem Motion.startTimed_eq (pan tilt : Int) (ms : Nat) (d : Motion)
    (hd : d = { m with tgtPan := pan, tgtTilt := tilt, sweep := none, brake := none, limited := false }) :
    m.startTimed k pan tilt ms =
      if pan = m.pan ∧ tilt = m.tilt then
        ⟨{ d with mode := .held, vPan := 0, vTilt := 0, plan := none, tag := if m.awaiting = true then m.tag else none },
          if m.awaiting = true then none else m.tag, m.underWay, false⟩
      else
        ⟨{ d with
            mode := .timed, vPan := 0, vTilt := 0, plan := some (makePlan k m pan tilt ms 1)
            limited := planLimited k m pan tilt ms }, none, m.underWay, false⟩ := by
  subst hd
  unfold Motion.startTimed
  dsimp only
  split
  · rw [Motion.settle_eq]
  · rfl

theorem Motion.startChase_eq (pan tilt : Int) (d : Motion)
    (hd : d = { m with tgtPan := pan, tgtTilt := tilt, sweep := none, brake := none, limited := false }) :
    m.startChase pan tilt =
      if pan = m.pan ∧ tilt = m.tilt ∧ m.vPan = 0 ∧ m.vTilt = 0 then
        ⟨{ d with mode := .held, plan := none, tag := if m.awaiting = true then m.tag else none },
          if m.awaiting = true then none else m.tag, m.underWay, false⟩
      else ⟨{ d with mode := .chase, plan := none }, none, m.underWay, false⟩ := by
  subst hd
  unfold Motion.startChase
  dsimp only
  split
  · rw [Motion.settle_eq]
  · rfl

theorem endpoint_eq {lo hi : Int} (h : lo ≤ hi) (centre offset : Int) :
    endpoint lo hi centre offset = max (lo * 16) (min (hi * 16) (centre + offset)) := clampInt_eq (by omega) _

theorem Motion.beginSweep_eq (hk : k.rangesOk) (pa ta lm n ms : Nat) (pan tilt : Int) (w : Sweep)
    (hw : w = ⟨pan, tilt, max (k.panMin * 16) (min (k.panMax * 16) (pan + pa * 16)),
      max (k.tiltMin * 16) (min (k.tiltMax * 16) (tilt + ta * 16)),
      max (k.panMin * 16) (min (k.panMax * 16) (pan - pa * 16)),
      max (k.tiltMin * 16) (min (k.tiltMax * 16) (tilt - ta * 16)), pa, ta, lm, n, decide (n = 0), true, .toA, true⟩) :
    m.beginSweep k pa ta lm n pan tilt ms =
      ⟨{ m with
          tgtPan := pan, tgtTilt := tilt, brake := none, mode := .sweep, vPan := 0, vTilt := 0, sweep := some w
          plan := some (makePlan k m w.aPan w.aTilt ms 1), limited := planLimited k m w.aPan w.aTilt ms }, none,
        m.underWay, false⟩ := by
  have hforms : Sweep.formEnds k ⟨pan, tilt, 0, 0, 0, 0, pa, ta, lm, n, decide (n = 0), true, .toA, true⟩ = w := by
    rw [hw]
    simp only [Sweep.formEnds, endpoint_eq (Profile.pan_le hk), endpoint_eq (Profile.tilt_le hk), Int.sub_eq_add_neg]
  unfold Motion.beginSweep
  rw [hforms]
  rfl

theorem clampAngles_eq (hk : k.rangesOk) (pan tilt a b : Int) (ha : a = max k.panMin (min k.panMax pan))
    (hb : b = max k.tiltMin (min k.tiltMax tilt)) :
    clampAngles k pan tilt = (a * 16, b * 16, decide (a ≠ pan ∨ b ≠ tilt)) := by
  subst ha hb
  simp only [clampAngles, clampInt_eq (Profile.pan_le hk), clampInt_eq (Profile.tilt_le hk), Bool.decide_or]

theorem Motion.resumeSweep_of_done (pa ta lm n : Nat) {w : Sweep} (hs : m.sweep = some w) (hc : w.current = true)
    (hp : w.phase = .done) : m.resumeSweep k pa ta lm n =
      ⟨({ m with brake := none } : Motion).toCentre k { w with centrePan := m.tgtPan, centreTilt := m.tgtTilt } 0, none,
        false, false⟩ := by
  simp only [Motion.resumeSweep, hs, hc, hp, decide_true, Bool.and_self, if_true]
  rfl

/-- A sweep that is not the present aim's, or is not DONE, begins anew (R116, log entry 46). -/
theorem Motion.resumeSweep_of_other (pa ta lm n : Nat)
    (h : ∀ w, m.sweep = some w → w.current = false ∨ w.phase ≠ .done) :
    m.resumeSweep k pa ta lm n = m.beginSweep k pa ta lm n m.tgtPan m.tgtTilt 0 := by
  unfold Motion.resumeSweep
  split
  · next w hw =>
    rw [if_neg]
    rcases h w hw with h | h <;> simp [h]
  · rfl

theorem Motion.takeCentre_of_current (pa ta lm n ms : Nat) (pan tilt : Int) {w : Sweep} (hs : m.sweep = some w)
    (hc : w.current = true) :
    (w.phase ≠ .done → m.takeCentre k pa ta lm n ms pan tilt =
      .quiet { m with tgtPan := pan, tgtTilt := tilt, sweep := some { w with centrePan := pan, centreTilt := tilt } }) ∧
    (w.phase = .done → m.takeCentre k pa ta lm n ms pan tilt =
      .quiet (({ m with tgtPan := pan, tgtTilt := tilt, brake := none } : Motion).toCentre k
        { w with centrePan := pan, centreTilt := tilt } w.legMs)) := by
  simp only [Motion.takeCentre, hs, hc, if_true]
  exact ⟨fun h => if_neg h, fun h => if_pos h⟩

theorem Motion.takeCentre_of_other (pa ta lm n ms : Nat) (pan tilt : Int)
    (h : ∀ w, m.sweep = some w → w.current = false) :
    m.takeCentre k pa ta lm n ms pan tilt = m.beginSweep k pa ta lm n pan tilt ms := by
  unfold Motion.takeCentre
  split
  · next w hw => rw [if_neg (by simp [h w hw])]
  · rfl

theorem Motion.takeDegenerate_eq (stepping : Bool) : m.takeDegenerate stepping =
    if stepping = true then
      ⟨{ m with
          awaiting := false, plan := none, sweep := none, brake := none, mode := .held, vPan := 0, vTilt := 0
          clamped := false, tag := none }, m.tag, false, false⟩
    else
      ⟨{ m with awaiting := false, clamped := false, sweep := none, tgtPan := m.pan, tgtTilt := m.tilt }, none, false,
        false⟩ := by
  unfold Motion.takeDegenerate
  rw [Motion.settle_eq]
  rfl

/-- A selected aim delivered to a record, but for the clamp event. -/
theorem Motion.deliver_of_some (stepping : Bool) {r : SolveResult} {c : Scored}
    (h : selectAim k m.pan m.tilt r = some c) : m.deliver k stepping r =
      { ({ m with clamped := decide (c.clamp ≠ 0) } : Motion).takeDelivery k stepping (c.pan * 16) (c.tilt * 16) with
        clampEvent := decide (c.clamp ≠ 0) } := by
  rw [Motion.deliver, h]

theorem Motion.takeDelivery_of_plain (pan tilt : Int) (h : ∀ cen pa ta lm n, m.aim ≠ some (.sweep cen pa ta lm n)) :
    m.takeDelivery k true pan tilt =
      ({ m with awaiting := false } : Motion).startMove k (if m.awaiting = true then m.pendLaw else .chase) m.pendMs pan
        tilt := by
  unfold Motion.takeDelivery
  dsimp only
  rw [if_pos rfl]
  split
  · next ha => exact (h _ _ _ _ _ ha).elim
  · split <;> rfl

theorem Motion.takeDelivery_of_sweep (pan tilt : Int) {cen : Centre} {pa ta lm n : Nat}
    (h : m.aim = some (.sweep cen pa ta lm n)) : m.takeDelivery k true pan tilt =
      ({ m with awaiting := false } : Motion).takeCentre k pa ta lm n m.pendMs pan tilt := by
  simp only [Motion.takeDelivery, h, if_true]

theorem Motion.startBrake_eq {cause : BrakeCause} (h : cause ≠ .halt) : m.startBrake cause =
    ⟨if m.vPan = 0 ∧ m.vTilt = 0 then { m with plan := none, sweep := none, mode := .held, brake := none }
      else { m with plan := none, sweep := none, mode := .braking, brake := some cause }, none, false, false⟩ := by
  unfold Motion.startBrake
  dsimp only
  rw [if_neg h]
  split <;> rfl

/-- The empty stack, mode by mode (R98, R113). -/
theorem Motion.noAim_eq {d : Motion} (hd : d = { m with aim := none, awaiting := false, tag := none }) :
    (m.mode = .held → m.noAim = .quiet { d with tgtPan := m.pan, tgtTilt := m.tilt }) ∧
    (m.mode = .braking → m.noAim = .quiet d) ∧
    (m.mode ≠ .held → m.mode ≠ .braking → m.noAim =
      .quiet (if m.vPan = 0 ∧ m.vTilt = 0 then { d with plan := none, sweep := none, mode := .held, brake := none }
        else { d with plan := none, sweep := none, mode := .braking, brake := some .release })) := by
  subst hd
  have hbrake := Motion.startBrake_eq { m with aim := none, awaiting := false, tag := none } (cause := .release) nofun
  refine ⟨fun h => ?_, fun h => ?_, fun h1 h2 => ?_⟩
  · simp only [Motion.noAim, h]
  · simp only [Motion.noAim, h]
  · refine Eq.trans ?_ hbrake
    unfold Motion.noAim
    split
    · next h => exact absurd h h1
    · rfl
    · rfl
    · rfl
    · next h => exact absurd h h2

/-- A hand-over of angles, clamped to the kind's ranges (R98, R101, R102). -/
theorem Motion.takeAim_of_angles (stepping : Bool) {t : AimTarget} (law : Law) (ms : Nat) (tag : Option LaunchTag)
    {pan tilt x y : Int} {changed : Bool} (ht : t = .angles pan tilt) (hc : clampAngles k pan tilt = (x, y, changed))
    {d : Motion} (hd : d = { m with sweep := m.sweep.map (fun w => { w with current := false }), aim := some t, tag := tag }) :
    (stepping = false → m.takeAim k stepping t law ms tag =
      ⟨{ d with awaiting := false, clamped := changed, tgtPan := x, tgtTilt := y }, none, false, changed⟩) ∧
    (stepping = true → m.takeAim k stepping t law ms tag =
      { ({ d with awaiting := false, clamped := changed } : Motion).startMove k law ms x y with clampEvent := changed }) := by
  subst ht hd
  unfold Motion.takeAim
  dsimp only
  rw [hc]
  exact ⟨fun h => by rw [h]; rfl, fun h => by rw [h]; rfl⟩

/-- A hand-over of a SWEEP about angles (R98, R109). -/
theorem Motion.takeAim_of_sweep (stepping : Bool) {t : AimTarget} (law : Law) (ms : Nat) (tag : Option LaunchTag)
    {pan tilt x y : Int} {pa ta lm n : Nat} {changed : Bool} (ht : t = .sweep (.angles pan tilt) pa ta lm n)
    (hc : clampAngles k pan tilt = (x, y, changed)) {d : Motion}
    (hd : d = { m with sweep := m.sweep.map (fun w => { w with current := false }), aim := some t, tag := tag }) :
    (stepping = false → m.takeAim k stepping t law ms tag =
      ⟨{ d with awaiting := false, clamped := changed, tgtPan := x, tgtTilt := y }, none, false, changed⟩) ∧
    (stepping = true → m.takeAim k stepping t law ms tag =
      { ({ d with awaiting := false, clamped := changed } : Motion).beginSweep k pa ta lm n x y ms with
        clampEvent := changed }) := by
  subst ht hd
  unfold Motion.takeAim
  dsimp only
  rw [hc]
  exact ⟨fun h => by rw [h]; rfl, fun h => by rw [h]; rfl⟩

/-- A hand-over of a point, or of a SWEEP about one, awaits its solve (R98). -/
theorem Motion.takeAim_of_point (stepping : Bool) {t : AimTarget} {law own : Law} (ms : Nat) (tag : Option LaunchTag)
    {p : Nat} (ht : t = .point p ∧ law = own ∨ law = .timed ∧ ∃ pa ta lm n, t = .sweep (.point p) pa ta lm n) :
    t.pointOf = some p ∧ m.takeAim k stepping t own ms tag = .quiet
      { m with
        sweep := m.sweep.map (fun w => { w with current := false }), aim := some t, tag := tag
        awaiting := true, pendLaw := law, pendMs := ms } := by
  rcases ht with ⟨rfl, rfl⟩ | ⟨rfl, pa, ta, lm, n, rfl⟩ <;> exact ⟨rfl, rfl⟩

end Record

/-! ### An outcome carried out -/

section Carry
variable (s : State) (f : Nat)

theorem State.applyMotion_quiet (m : Motion) : s.applyMotion f (.quiet m) = s.setMotionOf f (some m) := rfl

theorem State.applyMotion_activity (o : MotionOut) : (s.applyMotion f o).link =
    (if o.retarget = true then
      if o.clampEvent = true then (s.raise .retarget none 1).raise .limitClamp none 1 else s.raise .retarget none 1
    else if o.clampEvent = true then s.raise .limitClamp none 1 else s).link := by
  unfold State.applyMotion
  cases o.retarget <;> cases o.clampEvent <;> cases o.report <;> rfl

theorem State.applyMotion_of_silent {o : MotionOut} (h : o.report = none) :
    (s.applyMotion f o).playback = s.playback ∧ (s.applyMotion f o).claims = s.claims := by
  unfold State.applyMotion
  rw [h]
  cases o.retarget <;> cases o.clampEvent <;> exact ⟨rfl, rfl⟩

theorem clearOwed_ite {α : Type} (t : LaunchTag) (l : List (Entry α)) :
    clearOwed t l = l.map fun e => if e.tag = some t then { e with owed := false } else e := by
  rw [clearOwed_eq]
  refine List.map_congr_left fun e _ => ?_
  split
  · next h => simp [h]
  · next h => simp [h]

/-! ### Hand-overs (R42, R44, R98) -/

variable {m : Motion} {k : Profile} (hm : s.motionOf f = some m) (hk : s.profileOf f = some k) (e : Entry AimClaim)
  (ms : Nat)
include hm hk

theorem State.handAim_of_angles (ht : e.body.target.pointOf = none) : s.handAim f e ms =
    ((s.applyMotion f (m.takeAim k s.motionStepping e.body.target e.body.law ms e.handedTag)).setOwed f none, false) := by
  unfold State.handAim
  dsimp only
  rw [s.onMotion_of_record f _ hm hk, ht]

theorem State.handAim_of_point {p : Nat} (ht : e.body.target.pointOf = some p) {v : State}
    (hv : s.applyMotion f (m.takeAim k s.motionStepping e.body.target e.body.law ms e.handedTag) = v)
    (hp : v.point p = s.point p) :
    ((s.point p).pos = none → s.handAim f e ms = (v, false)) ∧
    ((s.point p).pos.isSome = true → s.handAim f e ms =
      ((v.request f p (sourceClass e.source)).1, decide ((v.request f p (sourceClass e.source)).2 = .owed))) := by
  have hset : v.isSet p = (s.point p).pos.isSome := by rw [State.isSet, hp]
  unfold State.handAim
  dsimp only
  rw [s.onMotion_of_record f _ hm hk, hv, ht]
  dsimp only
  rw [hset]
  exact ⟨fun h => if_neg (by simp [h]), fun h => if_pos h⟩

theorem State.handNoAim_of_record {d : Motion} (h : m.noAim = .quiet d) :
    s.handNoAim f = (s.setMotionOf f (some d)).setOwed f none := by
  rw [State.handNoAim, s.onMotion_of_record f _ hm hk, h, s.applyMotion_quiet f]

end Carry

theorem sourceClass_eq {n : Nat} {cls : Cls} (hc : n ≤ 7 → cls = .cue) (ht : n = 8 → cls = .track)
    (hd : 8 < n → cls = .direct) : sourceClass n = cls := by
  unfold sourceClass
  split
  · next h => exact (hc h).symm
  · split
    · next h => exact (ht h).symm
    · exact (hd (by omega)).symm

/-! ### Claims and releases of AIM stacks (R42, R46) -/

section Claims
variable (s : State) (f src : Nat)

theorem State.placeAim_eq (c : AimClaim) (tag : Option LaunchTag) :
    s.placeAim f src c tag =
      ((s.setAimStack f (placeClaim (s.aimStack f) src (s.priority src) c tag).stack).withPlayback
          { s.playback with
            reports := s.playback.reports ++
              (placeClaim (s.aimStack f) src (s.priority src) c tag).reports.map fun t => ⟨false, t⟩ },
        ⟨(placeClaim (s.aimStack f) src (s.priority src) c tag).answer,
          (placeClaim (s.aimStack f) src (s.priority src) c tag).newTop⟩) := by
  unfold State.placeAim
  dsimp only
  rw [State.reportAllSuperseded_eq]
  rfl

theorem State.handTopAim_of_top {e : Entry AimClaim} {es : List (Entry AimClaim)} (h : s.aimStack f = e :: es) :
    s.handTopAim f = s.handAim f e e.body.ms := by
  rw [State.handTopAim, h]; rfl

end Claims

/-- Settles O60: an outcome carried out, the moves and sweeps that start, hand-overs, deliveries, claims and releases. -/
theorem aimsAreHandedOver : Obligations.AimsAreHandedOver := by
  refine ⟨fun s f o => ?_, fun k m d ms pan tilt under hd hu => ?_, fun k m pa ta lm n ms pan tilt w hw hk => ?_,
    fun k m => ⟨fun h => ?_, fun p h => ?_, fun a b h => ?_, fun cen pa ta lm n h =>
      have hresume : m.resume k = m.resumeSweep k pa ta lm n := by simp only [Motion.resume, h]
      ⟨?_, ?_, ?_, ?_⟩⟩,
    fun s f ms e m d k hm hk hd => ⟨?_, ?_, ?_, ?_⟩, fun k m r stepping => ⟨?_, fun c d hc hd => ⟨?_, ?_, ?_⟩⟩,
    fun s u f src ms c p hp hu => ?_⟩
  · have hfr := s.applyMotion_frame f o
    refine ⟨s.applyMotion f o, rfl, ?_, by rw [State.applyMotion_motionOf, if_pos rfl],
      fun g hg => by rw [State.applyMotion_motionOf, if_neg hg], s.applyMotion_activity f o, hfr.colours, hfr.prio,
      s.applyMotion_of_silent f, fun tag ht => ⟨?_, fun g hg => ?_, ?_⟩⟩
    · have heq := hfr.eq
      generalize s.applyMotion f o = t at heq
      exact heq
    · rw [s.applyMotion_playback f o, ht]; rfl
    · rw [s.applyMotion_aimStack f o, if_neg hg]
    · rw [s.applyMotion_aimStack f o, if_pos rfl, ht]
      exact clearOwed_ite tag _
  · rw [← m.underWay_eq] at hu
    subst hu
    exact ⟨m.startTimed_eq k pan tilt ms d hd, m.startChase_eq pan tilt d hd⟩
  · rw [← m.underWay_eq]
    exact m.beginSweep_eq k hk pa ta lm n ms pan tilt w hw
  · simp only [Motion.resume, Motion.startLive, h]
    exact ⟨rfl, rfl⟩
  · simp only [Motion.resume, Motion.startLive, h]
    exact ⟨rfl, rfl⟩
  · exact ⟨by simp only [Motion.resume, Motion.startMove, h], by simp only [Motion.resume, Motion.startLive, h]⟩
  · rintro a b rfl
    simp only [Motion.resume, Motion.startLive, h]
  · rintro p rfl
    simp only [Motion.startLive, h]
    rfl
  · intro w hw hcur hph
    rw [hresume, m.resumeSweep_of_done k pa ta lm n hw hcur hph]
  · intro hw
    rw [hresume, m.resumeSweep_of_other k pa ta lm n hw]
  · intro pan tilt a b changed ht ha hb hch hok
    have hc := clampAngles_eq k hok pan tilt a b ha hb
    rw [← hch] at hc
    obtain ⟨hstill, hmove⟩ := m.takeAim_of_angles k s.motionStepping e.body.law ms e.handedTag ht hc hd
    rw [s.handAim_of_angles f hm hk e ms (by rw [ht]; rfl)]
    exact ⟨fun h => by rw [hstill h], fun h => by rw [hmove h]⟩
  · intro pan tilt pa ta lm n a b changed ht ha hb hch hok
    have hc := clampAngles_eq k hok pan tilt a b ha hb
    rw [← hch] at hc
    obtain ⟨hstill, hmove⟩ := m.takeAim_of_sweep k s.motionStepping e.body.law ms e.handedTag ht hc hd
    rw [s.handAim_of_angles f hm hk e ms (by rw [ht]; rfl)]
    exact ⟨fun h => by rw [hstill h], fun h => by rw [hmove h]⟩
  · intro p law cls v ht h7 h8 h9 hv
    obtain ⟨hp, htake⟩ := m.takeAim_of_point k s.motionStepping ms e.handedTag ht
    rw [← sourceClass_eq h7 h8 h9]
    refine s.handAim_of_point f hm hk e ms hp ?_ (by rw [hv]; rfl)
    rw [htake, s.applyMotion_quiet f, hv, hd]
    rfl
  · intro h hh
    obtain ⟨hheld, hbraking, hmoving⟩ := m.noAim_eq hh
    exact ⟨fun hmode => s.handNoAim_of_record f hm hk (hheld hmode),
      fun hmode => s.handNoAim_of_record f hm hk (hbraking hmode),
      fun h1 h2 => s.handNoAim_of_record f hm hk (hmoving h1 h2)⟩
  · intro hdeg
    have hnone : selectAim k m.pan m.tilt r = none := by
      simp [selectAim, candidates, hdeg, bestScored]
    rw [Motion.deliver, hnone]
    exact m.takeDegenerate_eq stepping
  · rintro rfl
    rw [m.deliver_of_some k false hc, hd]
    rfl
  · rintro rfl hns
    rw [m.deliver_of_some k true hc, Motion.takeDelivery_of_plain k { m with clamped := decide (c.clamp ≠ 0) } _ _ hns, hd]
  · rintro rfl cen pa ta lm n haim
    rw [m.deliver_of_some k true hc, Motion.takeDelivery_of_sweep k { m with clamped := decide (c.clamp ≠ 0) } _ _ haim]
    have hd' : d = { ({ m with clamped := decide (c.clamp ≠ 0) } : Motion) with awaiting := false } := hd
    have hsw : d.sweep = m.sweep := by rw [hd]
    rw [← hd']
    refine ⟨fun w hw hcur hph => ?_, fun w hw hcur hph => ?_, fun hw => ?_⟩
    · rw [(d.takeCentre_of_current k pa ta lm n _ _ _ (hsw.trans hw) hcur).1 hph]
      rfl
    · rw [(d.takeCentre_of_current k pa ta lm n _ _ _ (hsw.trans hw) hcur).2 hph]
      rfl
    · rw [d.takeCentre_of_other k pa ta lm n _ _ _ fun w h => hw w (hsw ▸ h)]
  · subst hp
    have hplace := s.placeAim_eq f src c none
    rw [← hu] at hplace
    refine ⟨fun hn => ?_, fun hn e es he => ?_, fun rest v hr hv hh => ?_⟩
    · simp only [State.claimAim, hplace, State.finishAim, hn]
      rfl
    · have htop : u.aimStack f = e :: es := by
        rw [hu, State.withPlayback_aimStack, State.setAimStack_aimStack, if_pos rfl, he]
      simp only [State.claimAim, hplace, State.finishAim, hn, if_true, u.handTopAim_of_top f htop]
    · rw [← withoutSource_eq] at hr
      rw [← releaseReports_eq, hr] at hv
      obtain rfl : v = s.aimReleased f src := hv
      rw [s.releaseAim_of_holds f src ms hh]
      refine ⟨fun ht => if_neg (by simp [ht]), fun ht => ⟨fun e es he => ?_, fun he => ?_⟩⟩
      · rw [if_pos ht, ← hr, he]; rfl
      · rw [if_pos ht, ← hr, he]; rfl

end Sys2Proof.Machine
end

