-- ==== Sys2Proof/Proofs/SolveResults.lean ====
section
/-! PROOFS. The rotation and the angles of a solve (4.2). -/

namespace Sys2Proof.Machine

/-! ### The yaw (R58) -/

theorem toQ14_eq (x : Nat) : toQ14 x = ((16384 * x + 2 ^ 199) / 2 ^ 200 : Nat) := rfl

/-- The coefficients of the four quadrants, by those of the first. -/
theorem yawCoefficients_quadrants {yaw : Nat} (h : yaw < 9000) :
    yawCoefficients yaw = (toQ14 (scaledCos yaw 1), toQ14 (scaledSin yaw 1)) ∧
      yawCoefficients (yaw + 9000) = (-toQ14 (scaledSin yaw 1), toQ14 (scaledCos yaw 1)) ∧
      yawCoefficients (yaw + 18000) = (-toQ14 (scaledCos yaw 1), -toQ14 (scaledSin yaw 1)) ∧
      yawCoefficients (yaw + 27000) = (toQ14 (scaledSin yaw 1), -toQ14 (scaledCos yaw 1)) := by
  have hmod (n : Nat) : (yaw + n * 9000) % 9000 = yaw := by omega
  have hdiv (n : Nat) : (yaw + n * 9000) / 9000 = n := by omega
  refine ⟨?_, ?_, ?_, ?_⟩
  · simp only [yawCoefficients, Nat.mod_eq_of_lt h, Nat.div_eq_of_lt h]
  · simp only [yawCoefficients, hmod 1, hdiv 1]
  · simp only [yawCoefficients, hmod 2, hdiv 2]
  · simp only [yawCoefficients, hmod 3, hdiv 3]

/-! ### The angles (R62, R63) -/

section Angles
variable (u v w : Int)

theorem panAngle_le : panAngle u v ≤ 35999 := by
  have h := (quadrantAngle_spec (v.natAbs ^ 2) (u.natAbs ^ 2)).1
  unfold panAngle
  dsimp only
  generalize quadrantAngle _ _ = q at h
  split
  · split <;> omega
  · split <;> omega

theorem tiltAngle_le : tiltAngle u v w ≤ 18000 := by
  have h := (quadrantAngle_spec (u.natAbs ^ 2 + v.natAbs ^ 2) (w.natAbs ^ 2)).1
  unfold tiltAngle
  dsimp only
  generalize quadrantAngle _ _ = q at h
  split <;> omega

end Angles

/-! ### The result (R61, R64) -/

/-- A direction off the axis gives its two angles. -/
theorem solveDirection_of_plain {q : Pos} (h : q.x ≠ 0 ∨ q.y ≠ 0) :
    solveDirection q = ⟨panAngle q.x q.y, tiltAngle q.x q.y q.z, false, false⟩ :=
  if_neg fun hq => h.elim (fun hx => hx hq.1) fun hy => hy hq.2

theorem solveDirection_of_axis {z : Int} : solveDirection ⟨0, 0, z⟩ =
    if z = 0 then ⟨0, 0, true, false⟩ else if 0 < z then ⟨0, 0, false, true⟩ else ⟨0, 18000, false, true⟩ := rfl

/-- The ranges of a result, and when its flags are set. -/
theorem solveDirection_spec (q : Pos) :
    (solveDirection q).phi ≤ 35999 ∧ (solveDirection q).theta ≤ 18000 ∧
      ((solveDirection q).degenerate = true ↔ q = ⟨0, 0, 0⟩) ∧
      ((solveDirection q).axial = true ↔ q.x = 0 ∧ q.y = 0 ∧ q.z ≠ 0) ∧
      ((solveDirection q).axial = true →
        (solveDirection q).phi = 0 ∧ (solveDirection q).theta = if 0 < q.z then 0 else 18000) := by
  obtain ⟨x, y, z⟩ := q
  by_cases h : x ≠ 0 ∨ y ≠ 0
  · rw [solveDirection_of_plain h]
    refine ⟨panAngle_le .., tiltAngle_le .., ?_, ?_, nofun⟩
    · simp only [Bool.false_eq_true, Pos.mk.injEq, false_iff]
      exact fun hq => h.elim (fun hx => hx hq.1) fun hy => hy hq.2.1
    · simp only [Bool.false_eq_true, false_iff]
      exact fun hq => h.elim (fun hx => hx hq.1) fun hy => hy hq.2.1
  · obtain ⟨rfl, rfl⟩ : x = 0 ∧ y = 0 := by omega
    rw [solveDirection_of_axis]
    rcases lt_trichotomy z 0 with hz | rfl | hz
    · rw [if_neg (by omega), if_neg (by omega), if_neg (show ¬ 0 < z by omega)]
      simp
      omega
    · simp
    · rw [if_neg (by omega), if_pos hz, if_pos hz]
      simp
      omega

/-- The frame of a snapshot: its difference turned by the yaw, and by the mounting (R57 to R60). -/
theorem Snapshot.frame_eq {g : Snapshot} {c q u v : Int} {d : Pos} (hr : yawCoefficients g.yaw = (c, q))
    (hd : d = ⟨g.target.x - (g.truss.x + g.pos.x), g.target.y - (g.truss.y + g.pos.y), g.target.z - (g.truss.z + g.pos.z)⟩)
    (hu : u = (2 * (d.x * c + d.y * q) + 16384) / 32768) (hv : v = (2 * (-(d.x * q) + d.y * c) + 16384) / 32768) :
    (g.mounting = .standing → g.frame = ⟨u, v, d.z⟩) ∧ (g.mounting = .hung → g.frame = ⟨u, -v, -d.z⟩) := by
  have hdiff : g.difference = d := hd.symm
  have hu' : roundHalfUp (d.x * c + d.y * q) 16384 = u := hu.symm
  have hv' : roundHalfUp (-(d.x * q) + d.y * c) 16384 = v := hv.symm
  refine ⟨fun h => ?_, fun h => ?_⟩ <;>
    simp only [Snapshot.frame, hdiff, hr, h, hu', hv']

/-- The half marks that enclose a squared tangent (R62). -/
theorem quadrantAngle_marks (opp adj : Nat) :
    quadrantAngle opp adj ≤ 9000 ∧
      (0 < quadrantAngle opp adj → adj * scaledSin (2 * quadrantAngle opp adj - 1) 2 ^ 2 <
        opp * scaledCos (2 * quadrantAngle opp adj - 1) 2 ^ 2) ∧
      (quadrantAngle opp adj < 9000 → opp * scaledCos (2 * quadrantAngle opp adj + 1) 2 ^ 2 ≤
        adj * scaledSin (2 * quadrantAngle opp adj + 1) 2 ^ 2) := by
  obtain ⟨hle, hbelow, hat⟩ := quadrantAngle_spec opp adj
  generalize quadrantAngle opp adj = q at *
  refine ⟨hle, fun h => ?_, fun h => ?_⟩
  · have hmark := of_decide_eq_true (hbelow h)
    rw [show 2 * (q - 1) + 1 = 2 * q - 1 by omega] at hmark
    rwa [pow_two, pow_two]
  · have hmark := of_decide_eq_false (hat h)
    rw [pow_two, pow_two]
    exact Nat.le_of_not_lt hmark

/-- Settles O36: the listed coefficients, the four quadrants, the frame, the angles and the flags. -/
theorem solveResultsLieInRange : Obligations.SolveResultsLieInRange := by
  refine ⟨by decide +kernel, fun yaw c q h hc hq => ?_, fun g c q u v d => Snapshot.frame_eq, fun opp adj q hq => ?_,
    fun u v w p t hp ht => ?_, fun g => ?_⟩
  · rw [← toQ14_eq] at hc hq
    subst hc hq
    exact yawCoefficients_quadrants h
  · subst hq
    exact quadrantAngle_marks opp adj
  · subst hp ht
    unfold panAngle tiltAngle
    exact ⟨fun hu hv => by rw [if_pos hv, if_pos hu], fun hu hv => by rw [if_pos hv, if_neg (by omega)],
      fun hu hv => by rw [if_neg (by omega), if_neg (by omega)], fun hu hv => by rw [if_neg (by omega), if_pos hu],
      fun hw => if_pos hw, fun hw => if_neg (by omega)⟩
  · obtain ⟨hphi, htheta, hdeg, hax, hflag⟩ := solveDirection_spec g.frame
    exact ⟨fun h => solveDirection_of_plain h, fun h => by rw [Snapshot.solve, h]; rfl, hphi, htheta, hdeg, hax, hflag⟩

end Sys2Proof.Machine
end

