-- ==== Sys2Proof/Proofs/PlanArith.lean ====
section
/-! PROOFS. The integer arithmetic of a TIMED move: square roots, step counts, the fraction and the positions of a plan
(6.4). -/

namespace Sys2Proof.Machine

/-! ### Square roots and quotients -/

theorem isqrtBits_spec (n b r : Nat) (h : r ^ 2 ≤ n) (hb : n < (r + 2 ^ b) ^ 2) :
    isqrtBits n b r ^ 2 ≤ n ∧ n < (isqrtBits n b r + 1) ^ 2 := by
  induction b generalizing r with
  | zero => exact ⟨h, hb⟩
  | succ b ih =>
    unfold isqrtBits
    split
    · next hr =>
      refine ih _ (by rwa [pow_two]) ?_
      rwa [Nat.add_assoc, ← Nat.two_mul, ← Nat.pow_succ']
    · next hr => exact ih _ h (by rw [pow_two]; omega)

/-- `isqrt` is the floor of the square root. -/
theorem isqrt_spec (n : Nat) : isqrt n ^ 2 ≤ n ∧ n < (isqrt n + 1) ^ 2 := by
  refine isqrtBits_spec n _ 0 (by simp) ?_
  calc n < 2 ^ (n.log2 + 1) := Nat.lt_log2_self
    _ ≤ 2 ^ ((n.log2 / 2 + 1) * 2) := Nat.pow_le_pow_right (by omega) (by omega)
    _ = (0 + 2 ^ (n.log2 / 2 + 1)) ^ 2 := by rw [Nat.zero_add, ← pow_mul]

/-- `ceilSqrt` is the least whole number whose square reaches its argument. -/
theorem ceilSqrt_spec (m : Nat) : m ≤ ceilSqrt m ^ 2 ∧ ∀ n, m ≤ n ^ 2 → ceilSqrt m ≤ n := by
  unfold ceilSqrt
  split
  · next h => subst h; exact ⟨Nat.zero_le _, fun _ _ => Nat.zero_le _⟩
  · next h =>
    obtain ⟨hle, hlt⟩ := isqrt_spec (m - 1)
    refine ⟨by omega, fun n hn => ?_⟩
    by_contra hc
    have : n ^ 2 ≤ isqrt (m - 1) ^ 2 := Nat.pow_le_pow_left (by omega) 2
    omega

theorem ceilDiv_spec (a : Nat) {b : Nat} (hb : 0 < b) : a ≤ ceilDiv a b * b ∧ ∀ n, a ≤ n * b → ceilDiv a b ≤ n := by
  have hle (n : Nat) : ceilDiv a b ≤ n ↔ a ≤ n * b := by
    rw [ceilDiv, Nat.div_le_iff_le_mul_add_pred hb, Nat.mul_comm b n]
    omega
  exact ⟨(hle _).1 le_rfl, fun n => (hle n).2⟩

/-! ### Step counts (R103, R104) -/

theorem speedSteps_spec (d : Nat) {v : Nat} (hv : 0 < v) :
    3 * d ≤ speedSteps d v * (2 * v) ∧ ∀ n, 3 * d ≤ n * (2 * v) → speedSteps d v ≤ n :=
  ceilDiv_spec (3 * d) (by omega)

theorem accelSteps_spec (d : Nat) {a : Nat} (ha : 0 < a) :
    6 * d ≤ accelSteps d a ^ 2 * a ∧ ∀ n, 6 * d ≤ n ^ 2 * a → accelSteps d a ≤ n := by
  obtain ⟨hdiv, hleast⟩ := ceilDiv_spec (6 * d) ha
  obtain ⟨hsq, hroot⟩ := ceilSqrt_spec (ceilDiv (6 * d) a)
  exact ⟨hdiv.trans (Nat.mul_le_mul_right a hsq), fun n hn => hroot n (hleast _ hn)⟩

theorem requestedSteps_eq (ms : Nat) : requestedSteps ms = min ((ms + 2) / 4) 32767 := rfl

section Limits
variable (k : Profile) (m : Motion) (pan tilt : Int) (ms : Nat)

/-- The step counts of the four limits of a move (R104). -/
def limitCounts (k : Profile) (m : Motion) (pan tilt : Int) : List Nat :=
  [speedSteps (pan - m.pan).natAbs k.vmaxPan, accelSteps (pan - m.pan).natAbs k.amaxPan,
    speedSteps (tilt - m.tilt).natAbs k.vmaxTilt, accelSteps (tilt - m.tilt).natAbs k.amaxTilt]

theorem limitSteps_spec : limitSteps k (pan - m.pan) (tilt - m.tilt) ∈ limitCounts k m pan tilt ∧
    ∀ i ∈ limitCounts k m pan tilt, i ≤ limitSteps k (pan - m.pan) (tilt - m.tilt) := by
  have h : limitSteps k (pan - m.pan) (tilt - m.tilt) =
      max (max (speedSteps (pan - m.pan).natAbs k.vmaxPan) (accelSteps (pan - m.pan).natAbs k.amaxPan))
        (max (speedSteps (tilt - m.tilt).natAbs k.vmaxTilt) (accelSteps (tilt - m.tilt).natAbs k.amaxTilt)) := rfl
  rw [h]
  simp only [limitCounts, List.mem_cons, List.not_mem_nil, or_false, forall_eq_or_imp, forall_eq]
  omega

theorem planLimited_iff : planLimited k m pan tilt ms = true ↔ ∃ n ∈ limitCounts k m pan tilt, requestedSteps ms < n := by
  obtain ⟨hmem, hle⟩ := limitSteps_spec k m pan tilt
  rw [planLimited, decide_eq_true_eq]
  exact ⟨fun h => ⟨_, hmem, h⟩, fun ⟨n, hn, h⟩ => h.trans_le (hle n hn)⟩

theorem makePlan_spec (least : Nat) : ∃ n, makePlan k m pan tilt ms least =
      ⟨m.pan, m.tilt, pan - m.pan, tilt - m.tilt, n, 0⟩ ∧
    n ∈ least :: requestedSteps ms :: limitCounts k m pan tilt ∧
    ∀ i ∈ least :: requestedSteps ms :: limitCounts k m pan tilt, i ≤ n := by
  obtain ⟨hmem, hle⟩ := limitSteps_spec k m pan tilt
  refine ⟨max least (max (requestedSteps ms) (limitSteps k (pan - m.pan) (tilt - m.tilt))), rfl, ?_, ?_⟩
  · generalize limitSteps k (pan - m.pan) (tilt - m.tilt) = l at hmem
    rcases max_choice least (max (requestedSteps ms) l) with h | h
    · rw [h]; exact List.mem_cons_self
    · rw [h]
      rcases max_choice (requestedSteps ms) l with h | h
      · rw [h]; exact List.mem_cons_of_mem _ List.mem_cons_self
      · rw [h]; exact List.mem_cons_of_mem _ (List.mem_cons_of_mem _ hmem)
  · intro i hi
    simp only [List.mem_cons] at hi
    rcases hi with rfl | rfl | hi
    · exact le_max_left ..
    · exact (le_max_left ..).trans (le_max_right ..)
    · exact (hle i hi).trans ((le_max_right ..).trans (le_max_right ..))

end Limits

/-! ### The fraction and the positions of a plan (R105) -/

/-- The numerator of the fraction rises up to the last step. -/
theorem planNumerator_mono {n i j : Nat} (hij : i ≤ j) (hj : j ≤ n) :
    3 * i ^ 2 * n - 2 * i ^ 3 ≤ 3 * j ^ 2 * n - 2 * j ^ 3 := by
  obtain ⟨a, rfl⟩ := Nat.exists_eq_add_of_le hij
  obtain ⟨b, rfl⟩ := Nat.exists_eq_add_of_le hj
  have hsum : 3 * (i + a) ^ 2 * (i + a + b) + 2 * i ^ 3 =
      3 * i ^ 2 * (i + a + b) + 2 * (i + a) ^ 3 + (3 * i * a ^ 2 + a ^ 3 + 6 * i * a * b + 3 * a ^ 2 * b) := by ring
  omega

theorem planFraction_mono {n i j : Nat} (hij : i ≤ j) (hj : j ≤ n) : planFraction n i ≤ planFraction n j :=
  Nat.div_le_div_right (Nat.add_le_add_right (Nat.mul_le_mul_right _ (planNumerator_mono hij hj)) _)

theorem planFraction_zero {n : Nat} (hn : 0 < n) : planFraction n 0 = 0 := by
  have hpos : 0 < n ^ 3 := Nat.pow_pos hn
  have hnum : (3 * 0 ^ 2 * n - 2 * 0 ^ 3) * 65536 = 0 := by simp
  rw [planFraction, hnum]
  exact Nat.div_eq_of_lt (by omega)

theorem planFraction_self {n : Nat} (hn : 0 < n) : planFraction n n = 65536 := by
  have hpos : 0 < n ^ 3 := Nat.pow_pos hn
  have hnum : 3 * n ^ 2 * n - 2 * n ^ 3 = n ^ 3 := by
    rw [show 3 * n ^ 2 * n = 3 * n ^ 3 by ring]; omega
  rw [planFraction, hnum, Nat.mul_add_div hpos, Nat.div_eq_of_lt (show n ^ 3 / 2 < n ^ 3 by omega)]

theorem planPosition_between (start d : Int) {f : Nat} (hf : f ≤ 65536) :
    min start (start + d) ≤ planPosition start d f ∧ planPosition start d f ≤ max start (start + d) := by
  have hf0 : (0 : Int) ≤ f := by omega
  have hf1 : (f : Int) ≤ 65536 := by omega
  unfold planPosition
  rcases le_total 0 d with hd | hd
  · have h0 : 0 ≤ d * f := mul_nonneg hd hf0
    have h1 : d * f ≤ d * 65536 := mul_le_mul_of_nonneg_left hf1 hd
    generalize d * (f : Int) = x at h0 h1
    omega
  · have h0 : d * f ≤ 0 := mul_nonpos_of_nonpos_of_nonneg hd hf0
    have h1 : d * 65536 ≤ d * f := mul_le_mul_of_nonpos_left hf1 hd
    generalize d * (f : Int) = x at h0 h1
    omega

/-- Settles O39: the fraction, the positions, the step counts, and the plan made of them. -/
theorem plansReachTheirTargets : Obligations.PlansReachTheirTargets := by
  refine ⟨fun n hn => ⟨planFraction_zero hn, planFraction_self hn, fun i j => planFraction_mono⟩,
    fun start d => ⟨?_, ?_, fun f => planPosition_between start d⟩, fun d v => speedSteps_spec d,
    fun d a => accelSteps_spec d, fun ms => ?_, fun n k => rfl, fun start d f => rfl,
    fun k m pan tilt ms least counts hc => ?_⟩
  · unfold planPosition; simp
  · unfold planPosition; omega
  · rw [requestedSteps_eq]; omega
  · obtain rfl : counts = limitCounts k m pan tilt := hc
    exact ⟨planLimited_iff k m pan tilt ms, makePlan_spec k m pan tilt ms least⟩

end Sys2Proof.Machine
end

