-- ==== Sys2Proof/Proofs/MotionRows.lean ====
section
/-! PROOFS. The step timer, one motion step of one record, and the pan and tilt slots (4.4, 6.2 to 6.8). -/

namespace Sys2Proof.Machine

variable (s : State)

/-! ### The step timer (R97) -/

theorem State.stepTimerTick_of_none (h : s.motion.timer = none) : s.stepTimerTick = s := by
  rw [State.stepTimerTick, h]

theorem State.stepTimerTick_of_some {e : Nat} (h : s.motion.timer = some e) :
    (s.now < e → s.stepTimerTick = s) ∧
      (e ≤ s.now → s.stepTimerTick = s.withMotion { s.motion with timer := some (e + 4000), due := s.moving }) := by
  simp only [State.stepTimerTick, h]
  exact ⟨fun hlt => if_neg (by omega), fun hle => if_pos hle⟩

/-- Whether the step timer is to run (R97). -/
def State.stepTimerRuns (s : State) : Prop :=
  s.part = .live ∧ (s.motion.stopSeen = false ∨
    ∃ (f : Nat) (m : Motion), (f, some m) ∈ s.motion.records ∧ m.mode = .braking)

theorem State.anyBraking_iff : s.motion.records.any (fun e => e.2.any fun m => decide (m.mode = .braking)) = true ↔
    ∃ (f : Nat) (m : Motion), (f, some m) ∈ s.motion.records ∧ m.mode = .braking := by
  rw [List.any_eq_true]
  constructor
  · rintro ⟨⟨f, _ | m⟩, hm, hb⟩
    · cases hb
    · exact ⟨f, m, hm, by simpa using hb⟩
  · rintro ⟨f, m, hm, hb⟩
    exact ⟨(f, some m), hm, by simpa using hb⟩

theorem State.syncStepTimer_of_runs (h : s.stepTimerRuns) :
    s.syncStepTimer = s.withMotion { s.motion with timer := some (s.motion.timer.getD (s.now + 4000)) } := by
  unfold State.stepTimerRuns at h
  rw [← s.anyBraking_iff] at h
  unfold State.syncStepTimer
  rw [if_pos h]
  split
  · next t ht =>
    have hm : s.motion = { s.motion with timer := some t } := by rw [← ht]
    rw [ht, Option.getD_some, ← hm]
    rfl
  · next ht => rw [ht]; rfl

theorem State.syncStepTimer_of_rests (h : ¬ s.stepTimerRuns) :
    s.syncStepTimer = s.withMotion { s.motion with timer := none, due := [] } := by
  unfold State.stepTimerRuns at h
  rw [← s.anyBraking_iff] at h
  exact if_neg h

/-! ### The slots of a position (R72 to R74) -/

section Slots
variable {k : Profile} {p : Patch} {pan tilt : Int}

theorem axisCount_eq {lo hi pos span : Int} {a : Nat} (hs : span = (hi - lo) * 16)
    (ha : (a : Int) = ((pos - lo * 16) * 65535 + span / 2) / span) : axisCount lo hi pos = a := by
  subst hs
  rw [axisCount, ← ha, Int.toNat_natCast]

theorem aimSlots_le (hk : k.rangesOk) (hh : k.holds pan tilt) : ∀ w ∈ aimSlots k p pan tilt, w.2 ≤ 255 := by
  obtain ⟨-, hpan, -, htilt⟩ := hh
  have h1 := axisCount_le (Profile.pan_le hk) hpan
  have h2 := axisCount_le (Profile.tilt_le hk) htilt
  intro w hw
  rcases List.mem_append.1 hw with hw | hw
  · refine splitValue_le _ _ ?_ w hw
    unfold panCount invertCount
    split <;> omega
  · refine splitValue_le _ _ ?_ w hw
    unfold tiltCount invertCount
    split <;> omega

end Slots

/-! ### One axis (R106 to R108, R113) -/

theorem rangeClamp_of_below {lo hi pos vel : Int} (h : pos < lo * 16) : rangeClamp lo hi pos vel = (lo * 16, 0) := if_pos h

theorem rangeClamp_of_above {lo hi pos vel : Int} (hl : lo ≤ hi) (h : hi * 16 < pos) :
    rangeClamp lo hi pos vel = (hi * 16, 0) := by
  rw [rangeClamp, if_neg (by omega), if_pos h]

theorem rangeClamp_of_inside {lo hi pos vel : Int} (h1 : lo * 16 ≤ pos) (h2 : pos ≤ hi * 16) :
    rangeClamp lo hi pos vel = (pos, vel) := by
  rw [rangeClamp, if_neg (by omega), if_neg (by omega)]

theorem clampInt_amax (amax : Nat) (x : Int) : clampInt (-(amax : Int)) amax x = max (-(amax : Int)) (min amax x) :=
  clampInt_eq (by omega) x

theorem chaseAxis_snapped {lo hi : Int} {vmax amax gain : Nat} {target pos vel : Int}
    (h : (chaseAxis lo hi vmax amax gain target pos vel).2.2 = true) :
    chaseAxis lo hi vmax amax gain target pos vel = (target, 0, true) := by
  unfold chaseAxis at h ⊢
  dsimp only at h ⊢
  split at h
  · next hc => exact if_pos hc
  · cases h

/-! ### One record (R97, R105 to R113) -/

section Step
variable (k : Profile) (m : Motion)

/-- A step goes by the record's mode. -/
theorem Motion.step_eq : (m.mode = .held → m.step k = .quiet m) ∧ (m.mode = .timed → m.step k = m.timedStep k) ∧
    (m.mode = .chase → m.step k = m.chaseStep k) ∧ (m.mode = .sweep → m.step k = m.sweepStep k) ∧
      (m.mode = .braking → m.step k = m.brakeStep k) := by
  unfold Motion.step
  cases m.mode <;> simp

theorem Motion.planStep_eq {p : Plan} {pan tilt : Int}
    (hpan : pan = planPosition p.startPan p.dPan (planFraction p.n (p.k + 1)))
    (htilt : tilt = planPosition p.startTilt p.dTilt (planFraction p.n (p.k + 1))) (h : k.holds pan tilt) :
    m.planStep k p =
      { m with
        pan := pan, tilt := tilt, vPan := pan - m.pan, vTilt := tilt - m.tilt, plan := some { p with k := p.k + 1 } } := by
  obtain ⟨h1, h2, h3, h4⟩ := h
  unfold Motion.planStep
  dsimp only
  rw [← hpan, ← htilt, rangeClamp_of_inside h1 h2, rangeClamp_of_inside h3 h4]

theorem Motion.timedStep_eq {p : Plan} (hp : m.plan = some p) {m' : Motion} (hm' : m.planStep k p = m') :
    (p.k + 1 < p.n → m.timedStep k = .quiet m') ∧
    (p.n ≤ p.k + 1 → m.timedStep k =
      ({ m' with mode := .held, plan := none, vPan := 0, vTilt := 0 } : Motion).settle false) := by
  simp only [Motion.timedStep, hp, hm']
  exact ⟨fun h => if_pos h, fun h => if_neg (by omega)⟩

theorem Motion.sweepStep_eq {p : Plan} {w : Sweep} (hp : m.plan = some p) (hw : m.sweep = some w) {m' : Motion}
    (hm' : m.planStep k p = m') :
    (p.k + 1 < p.n → m.sweepStep k = .quiet m') ∧
    (p.n ≤ p.k + 1 → m.sweepStep k = ({ m' with vPan := 0, vTilt := 0 } : Motion).endPhase k w) := by
  simp only [Motion.sweepStep, hp, hw, hm']
  exact ⟨fun h => if_pos h, fun h => if_neg (by omega)⟩

theorem Motion.startLeg_awaiting (w : Sweep) :
    (m.startLeg k w).awaiting = m.awaiting ∧ (m.startLeg k w).tag = m.tag := by
  unfold Motion.startLeg
  dsimp only
  split <;> exact ⟨rfl, rfl⟩

theorem Motion.settle_of_awaiting {m : Motion} (h : m.awaiting = true) : m.settle false = .quiet m := if_pos (by simp [h])

theorem Motion.settle_of_known {m : Motion} (h : m.awaiting = false) :
    m.settle false = ⟨{ m with tag := none }, m.tag, false, false⟩ := if_neg (by simp [h])

theorem Motion.endPhase_of_toA {w : Sweep} (h : w.phase = .toA) : m.endPhase k w =
    if w.endless = true ∧ m.awaiting = false then ⟨{ m.startLeg k w with tag := none }, m.tag, false, false⟩
    else ⟨m.startLeg k w, none, false, false⟩ := by
  obtain ⟨ha, ht⟩ := m.startLeg_awaiting k w
  have hend : m.endPhase k w = if w.endless then (m.startLeg k w).settle false else .quiet (m.startLeg k w) := by
    simp only [Motion.endPhase, h]
  rw [hend]
  by_cases he : w.endless = true
  · rw [if_pos he]
    by_cases hw : m.awaiting = true
    · rw [Motion.settle_of_awaiting (ha.trans hw), if_neg (by simp [hw])]; rfl
    · rw [Bool.not_eq_true] at hw
      rw [Motion.settle_of_known (ha.trans hw), ht, if_pos ⟨he, hw⟩]
  · rw [if_neg he, if_neg fun hc => he hc.1]; rfl

theorem Motion.endPhase_of_leg {w : Sweep} (h : w.phase = .leg) : m.endPhase k w =
    ⟨if w.endless = true then m.startLeg k w
      else if w.legsLeft ≤ 1 then m.toCentre k { w with legsLeft := 0 } w.legMs
      else m.startLeg k { w with legsLeft := w.legsLeft - 1 }, none, false, false⟩ := by
  simp only [Motion.endPhase, h]
  split
  · rfl
  · split <;> rfl

theorem Motion.endPhase_of_toCentre {w : Sweep} (h : w.phase = .toCentre) :
    (w.centrePan = m.pan ∧ w.centreTilt = m.tilt → m.endPhase k w =
      ({ m with mode := .held, plan := none, sweep := some { w with phase := .done } } : Motion).settle false) ∧
    (w.centrePan ≠ m.pan ∨ w.centreTilt ≠ m.tilt → m.endPhase k w = .quiet (m.toCentre k w w.legMs)) := by
  simp only [Motion.endPhase, h]
  exact ⟨fun hc => if_pos hc, fun hc => if_neg fun he => hc.elim (fun h => h he.1) fun h => h he.2⟩

theorem Motion.startLeg_eq (hk : k.rangesOk) {w e : Sweep}
    (he : e = { w with
      aPan := max (k.panMin * 16) (min (k.panMax * 16) (w.centrePan + w.panAmp * 16))
      aTilt := max (k.tiltMin * 16) (min (k.tiltMax * 16) (w.centreTilt + w.tiltAmp * 16))
      bPan := max (k.panMin * 16) (min (k.panMax * 16) (w.centrePan - w.panAmp * 16))
      bTilt := max (k.tiltMin * 16) (min (k.tiltMax * 16) (w.centreTilt - w.tiltAmp * 16)) }) :
    m.startLeg k w =
      { m with
        mode := .sweep, vPan := 0, vTilt := 0, sweep := some { e with phase := .leg, nextToB := !w.nextToB }
        plan := some (if w.nextToB = true then makePlan k m e.bPan e.bTilt w.legMs 1
          else makePlan k m e.aPan e.aTilt w.legMs 1)
        limited := if w.nextToB = true then planLimited k m e.bPan e.bTilt w.legMs
          else planLimited k m e.aPan e.aTilt w.legMs } := by
  have hforms : w.formEnds k = e := by
    rw [he]
    simp only [Sweep.formEnds, endpoint_eq (Profile.pan_le hk), endpoint_eq (Profile.tilt_le hk), Int.sub_eq_add_neg]
  have hms : e.legMs = w.legMs := by rw [he]
  unfold Motion.startLeg
  dsimp only
  rw [hforms, ← hms]
  cases hb : w.nextToB
  · simp only [Bool.false_eq_true, if_false]; rfl
  · simp only [if_true]; rfl

theorem Motion.chaseStep_eq {a b : Int × Int × Bool}
    (ha : a = chaseAxis k.panMin k.panMax k.vmaxPan k.amaxPan k.gain m.tgtPan m.pan m.vPan)
    (hb : b = chaseAxis k.tiltMin k.tiltMax k.vmaxTilt k.amaxTilt k.gain m.tgtTilt m.tilt m.vTilt) :
    m.chaseStep k =
      if a.2.2 = true ∧ b.2.2 = true then
        ⟨{ m with
            pan := m.tgtPan, tilt := m.tgtTilt, vPan := 0, vTilt := 0, mode := .held
            tag := if m.awaiting = true then m.tag else none },
          if m.awaiting = true then none else m.tag, false, false⟩
      else ⟨{ m with pan := a.1, tilt := b.1, vPan := a.2.1, vTilt := b.2.1 }, none, false, false⟩ := by
  unfold Motion.chaseStep
  rw [← ha, ← hb]
  dsimp only
  by_cases h : a.2.2 = true ∧ b.2.2 = true
  · obtain ⟨h1, h2⟩ := h
    rw [if_pos (by rw [h1, h2]; rfl), if_pos ⟨h1, h2⟩, Motion.settle_eq]
    rw [ha] at h1
    rw [hb] at h2
    rw [ha, hb, chaseAxis_snapped h1, chaseAxis_snapped h2]
  · rw [if_neg (by rwa [Bool.and_eq_true]), if_neg h]
    rfl

theorem Motion.brakeStep_eq {a b : Int × Int} (ha : a = brakeAxis k.panMin k.panMax k.amaxPan m.pan m.vPan)
    (hb : b = brakeAxis k.tiltMin k.tiltMax k.amaxTilt m.tilt m.vTilt) :
    m.brakeStep k =
      if a.2 = 0 ∧ b.2 = 0 then
        ⟨{ m with
            pan := a.1, tilt := b.1, vPan := 0, vTilt := 0, mode := .held, brake := none
            tag := if m.brake = some .halt then none else m.tag },
          if m.brake = some .halt then m.tag else none, false, false⟩
      else ⟨{ m with pan := a.1, tilt := b.1, vPan := a.2, vTilt := b.2 }, none, false, false⟩ := by
  unfold Motion.brakeStep
  rw [← ha, ← hb]
  dsimp only
  split
  · next h =>
    obtain ⟨h1, h2⟩ := h
    rw [h1, h2, Motion.settle_forced]
    split <;> rfl
  · rfl

/-- A step starts no move and clamps no aim. -/
theorem Motion.settle_silent (force : Bool) : (m.settle force).silent := by
  unfold Motion.settle
  split <;> exact ⟨rfl, rfl⟩

theorem Motion.endPhase_silent (w : Sweep) : (m.endPhase k w).silent := by
  unfold Motion.endPhase
  split
  · dsimp only
    split
    · exact Motion.settle_silent _ _
    · exact ⟨rfl, rfl⟩
  · split
    · exact ⟨rfl, rfl⟩
    · split <;> exact ⟨rfl, rfl⟩
  · split
    · exact Motion.settle_silent _ _
    · exact ⟨rfl, rfl⟩
  · exact ⟨rfl, rfl⟩

theorem Motion.step_silent : (m.step k).silent := by
  unfold Motion.step
  split
  · exact ⟨rfl, rfl⟩
  · unfold Motion.timedStep
    split
    · exact ⟨rfl, rfl⟩
    · dsimp only
      split
      · exact ⟨rfl, rfl⟩
      · exact Motion.settle_silent _ _
  · rw [m.chaseStep_eq k rfl rfl]
    split <;> exact ⟨rfl, rfl⟩
  · unfold Motion.sweepStep
    split
    · dsimp only
      split
      · exact ⟨rfl, rfl⟩
      · exact Motion.endPhase_silent ..
    · exact ⟨rfl, rfl⟩
  · rw [m.brakeStep_eq k rfl rfl]
    split <;> exact ⟨rfl, rfl⟩

end Step

/-! ### The row -/

theorem State.writeAim_lines {f : Nat} {k : Profile} {p : Patch} {t : State} (ht : t.lines = s.lines)
    (hp : t.patchOf f = some p) (hk : t.profileOf f = some k) (pan tilt : Int) :
    t.writeAim f pan tilt = t.withLines (s.setLine p.line
      { s.line p.line with
        buffer := Store.setAll 0 (s.line p.line).buffer
          ((aimSlots k p pan tilt).map fun w => (p.base + w.1, BitVec.ofNat 8 w.2)) }).lines := by
  simp only [State.writeAim, hp, hk, State.writeSlots, State.setLine, State.line, ht, State.withLines_lines]

/-- One step of one record: the record, and its slots when it has moved. -/
theorem State.motionStep_spec {f : Nat} {m : Motion} {k : Profile} {p : Patch} (hm : s.motionOf f = some m)
    (hk : s.profileOf f = some k) (hp : s.patchOf f = some p) :
    ∃ t : State, s.motionStep f = t ∧
      t = (((s.withMotion t.motion).withClaims t.claims).withPlayback t.playback).withLines t.lines ∧
      t.motionOf f = some (m.step k).after ∧ (∀ g, g ≠ f → t.motionOf g = s.motionOf g) ∧
      ((m.step k).after.pan = m.pan ∧ (m.step k).after.tilt = m.tilt → t.lines = s.lines) ∧
      ((m.step k).after.pan ≠ m.pan ∨ (m.step k).after.tilt ≠ m.tilt →
        t.lines = (s.setLine p.line
          { s.line p.line with
            buffer := Store.setAll 0 (s.line p.line).buffer
              ((aimSlots k p (m.step k).after.pan (m.step k).after.tilt).map fun w =>
                (p.base + w.1, BitVec.ofNat 8 w.2)) }).lines) := by
  have hm' : (s.motionTaken f).motionOf f = some m := hm
  have hk' : (s.motionTaken f).profileOf f = some k := hk
  have hu := (s.motionTaken f).onMotion_of_record f (fun k m => m.step k) hm' hk'
  have hfr := (s.motionTaken f).applyMotion_frame f (m.step k)
  have hof (g : Nat) : ((s.motionTaken f).applyMotion f (m.step k)).motionOf g =
      if g = f then some (m.step k).after else (s.motionTaken f).motionOf g := State.applyMotion_motionOf ..
  have hlink := (s.motionTaken f).applyMotion_link f _ (m.step_silent k)
  unfold State.motionStep
  dsimp only
  rw [hu]
  generalize (s.motionTaken f).applyMotion f (m.step k) = u at hfr hof hlink
  have heq : u = ((s.withMotion u.motion).withClaims u.claims).withPlayback u.playback := by
    have h := hfr.eq
    rw [hlink] at h
    exact h
  have hpos : u.position f = some ((m.step k).after.pan, (m.step k).after.tilt) := by
    rw [State.position, hof, if_pos rfl]; rfl
  have hbefore : s.position f = some (m.pan, m.tilt) := by rw [State.position, hm]; rfl
  have hthis : u.motionOf f = some (m.step k).after := by rw [hof, if_pos rfl]
  have hother (g : Nat) (hg : g ≠ f) : u.motionOf g = s.motionOf g := by rw [hof, if_neg hg]; rfl
  have hlines : u.lines = s.lines := by rw [heq]; rfl
  have hwrite : u.writePosition f = u.writeAim f (m.step k).after.pan (m.step k).after.tilt := by
    rw [State.writePosition, hthis]
  rw [s.writeAim_lines (p := p) (k := k) hlines (by rw [heq]; exact hp) (by rw [heq]; exact hk)] at hwrite
  have hsame : u.position f = s.position f ↔ (m.step k).after.pan = m.pan ∧ (m.step k).after.tilt = m.tilt := by
    rw [hpos, hbefore, Option.some.injEq, Prod.mk.injEq]
  by_cases hmove : (m.step k).after.pan = m.pan ∧ (m.step k).after.tilt = m.tilt
  · rw [if_neg (not_not.2 (hsame.2 hmove))]
    refine ⟨u.syncStepTimer, rfl, ?_, ?_, fun g hg => ?_, fun _ => ?_, fun hn => ?_⟩
    · rw [u.syncStepTimer_frame]
      generalize u.syncStepTimer.motion = mo
      rw [heq]; rfl
    · rw [u.syncStepTimer_motionOf, hthis]
    · rw [u.syncStepTimer_motionOf, hother g hg]
    · rw [u.syncStepTimer_frame]; exact hlines
    · exact absurd hmove (by tauto)
  · rw [if_pos fun h => hmove (hsame.1 h), hwrite]
    generalize (s.setLine p.line _).lines = ls
    refine ⟨(u.withLines ls).syncStepTimer, rfl, ?_, ?_, fun g hg => ?_, fun hs => absurd hs hmove, fun _ => ?_⟩
    · rw [(u.withLines ls).syncStepTimer_frame]
      generalize (u.withLines ls).syncStepTimer.motion = mo
      rw [heq]; rfl
    · rw [State.syncStepTimer_motionOf]; exact hthis
    · rw [State.syncStepTimer_motionOf]; exact hother g hg
    · rw [State.syncStepTimer_frame]; rfl

theorem State.tick_motion_of_timer {e : Nat} (h : s.motion.timer = some e) :
    (s.now + 1 < e → s.tick.motion = s.motion) ∧
      (e ≤ s.now + 1 → s.tick.motion = { s.motion with timer := some (e + 4000), due := s.moving }) := by
  obtain ⟨hrun, hover⟩ := (s.withNow (s.now + 1)).stepTimerTick_of_some h
  rw [s.tick_motion]
  exact ⟨fun hlt => by rw [hrun hlt]; rfl, fun hle => by rw [hover hle]; rfl⟩

/-- Settles O38: the timer, the row, the slots, and the laws of a step. -/
theorem motionStepMovesOneRecord : Obligations.MotionStepMovesOneRecord := by
  refine ⟨fun s t ht => ?_, fun s runs hr => ⟨fun h => s.syncStepTimer_of_runs (hr.1 h),
    fun h => s.syncStepTimer_of_rests fun h' => h (hr.2 h')⟩, fun s f m k p hr hf hm hk hp => ?_,
    fun k p pan tilt spanPan spanTilt a b hk hh hsp hst ha hb => ?_,
    fun lo hi pos vel hl => ⟨rangeClamp_of_below, rangeClamp_of_above hl, rangeClamp_of_inside⟩,
    fun lo hi vmax amax gain target pos vel => ?_, fun lo hi amax pos vel v hv => ?_, fun k m hk => ⟨fun h => ?_,
      fun q pan tilt hq hpan htilt hh => ⟨fun hmode => ?_, fun w hmode hw => ?_⟩, fun w e ms he => ⟨m.startLeg_eq k hk he, rfl⟩,
      fun a b ha hb hmode => ?_, fun a b ha hb hmode => ?_⟩⟩
  · subst ht
    refine ⟨s.tick_frame, fun hn => ?_, fun e he => ?_⟩
    · rw [s.tick_motion, (s.withNow (s.now + 1)).stepTimerTick_of_none hn]; rfl
    · obtain ⟨hrun, hover⟩ := s.tick_motion_of_timer he
      refine ⟨hrun, fun hle => ?_⟩
      rw [hover hle]
      exact ⟨rfl, s.mem_moving⟩
  · obtain ⟨t, ht, hframe, hthis, hother, hsame, hmoved⟩ := s.motionStep_spec hm hk hp
    refine ⟨t, ?_, hframe, hthis, hother, fun h1 h2 h3 => (Motion.step_inRange h1 ⟨h2, h3⟩).1, hsame, hmoved⟩
    rw [exec_of_enabled s (c := .motionStep f) rfl rfl hr (by simpa [rowEnabled] using hf), ← ht]
    rfl
  · have ha' := axisCount_eq hsp ha
    have hb' := axisCount_eq hst hb
    refine ⟨ha' ▸ axisCount_le (Profile.pan_le hk) hh.2.1, hb' ▸ axisCount_le (Profile.tilt_le hk) hh.2.2.2,
      aimSlots_le hk hh, fun c d hc hd => ?_, fun outs => rfl⟩
    have hc' : panCount k p pan = c := by rw [panCount, ha', hc]; rfl
    have hd' : tiltCount k p tilt = d := by rw [tiltCount, hb', hd]; rfl
    rw [aimSlots, hc', hd']
    rfl
  · obtain ⟨hle, hlt⟩ := isqrt_spec (2 * amax * (target - pos).natAbs)
    refine ⟨isqrt (2 * amax * (target - pos).natAbs), _, _, _, hle, hlt, rfl, rfl, rfl, ?_⟩
    rw [← clampInt_amax]
    rfl
  · subst hv
    rw [← clampInt_amax]
    rfl
  · exact (m.step_eq k).1 h
  · have hplan := m.planStep_eq k hpan htilt hh
    obtain ⟨hgo, hend⟩ := m.timedStep_eq k hq hplan
    obtain ⟨-, hstep, -⟩ := m.step_eq k
    rw [hstep hmode]
    refine ⟨fun h => (hgo h).trans rfl, fun h => (hend h).trans ?_⟩
    rw [Motion.settle_eq]
  · have hplan := m.planStep_eq k hpan htilt hh
    obtain ⟨hgo, hend⟩ := m.sweepStep_eq k hq hw hplan
    obtain ⟨-, -, -, hstep, -⟩ := m.step_eq k
    rw [hstep hmode]
    refine ⟨fun h => (hgo h).trans rfl, fun h hn hh => ?_⟩
    have hph : m.sweepStep k = h.endPhase k w := by rw [hend hn, hh]
    have hta : h.awaiting = m.awaiting ∧ h.tag = m.tag ∧ h.pan = pan ∧ h.tilt = tilt := by
      rw [hh]; exact ⟨rfl, rfl, rfl, rfl⟩
    obtain ⟨hawait, htag, hp, ht⟩ := hta
    rw [hph, ← hawait, ← htag, ← hp, ← ht]
    refine ⟨h.endPhase_of_toA k, h.endPhase_of_leg k, fun hc => ?_⟩
    obtain ⟨hdone, hgo⟩ := h.endPhase_of_toCentre k hc
    refine ⟨fun hat => (hdone hat).trans ?_, hgo⟩
    rw [Motion.settle_eq]
  · obtain ⟨-, -, hstep, -⟩ := m.step_eq k
    rw [hstep hmode]
    exact m.chaseStep_eq k ha hb
  · obtain ⟨-, -, -, -, hstep⟩ := m.step_eq k
    rw [hstep hmode]
    exact m.brakeStep_eq k ha hb

end Sys2Proof.Machine
end

