-- ==== Sys2Proof/Proofs/ColourRows.lean ====
section
/-! PROOFS. Fade steps, colour hand-overs and the values of colour records (chapter 7). -/

namespace Sys2Proof.Machine

variable (s : State)

/-! ### The emitter solve (R130 to R133) -/

theorem levelOutput_le (b : Nat) : levelOutput b ≤ 65535 := by
  unfold levelOutput
  split <;> omega

theorem trimmedLevels_length (q : HuePair) (white : Bool) (sat i : Nat) (es : List Emitter) (trims : List Nat) :
    (trimmedLevels q white sat i es trims).length = es.length := by
  induction es generalizing i trims with
  | nil => rfl
  | cons e es ih => simp [trimmedLevels, ih]

section Solve
variable (es : List Emitter) (trims : List Nat) (h sat : Nat)

theorem emitterSolve_length : (emitterSolve es trims h sat).1.length = es.length := by
  simp [emitterSolve, trimmedLevels_length]

theorem emitterSolve_le : ∀ v ∈ (emitterSolve es trims h sat).1, v ≤ 65535 := by
  intro v hv
  obtain ⟨b, -, rfl⟩ := List.mem_map.1 hv
  exact levelOutput_le b

theorem emitterSolve_clamped : ∀ i ∈ (emitterSolve es trims h sat).2, (emitterSolve es trims h sat).1[i]? = some 65535 := by
  intro i hi
  obtain ⟨-, b, hb, hlt⟩ := (mem_clampedFrom _ 0 i).1 hi
  rw [Nat.sub_zero] at hb
  simp only [emitterSolve, List.getElem?_map, hb, Option.map_some, levelOutput]
  rw [if_neg (by omega)]

/-- The output of emitter `i`, and whether it is clamped, by its trimmed level. -/
theorem emitterSolve_get {i : Nat} {e : Emitter} {b : Nat} (he : es[i]? = some e)
    (hb : trimmedLevel e.gain (trims.getD i 4096) (satLevel (es.any fun e => e.hue.isNone) sat e.hue.isNone
      (pairLevel (coveringPair (huedFrom 0 es) h) i)) = b) :
    (emitterSolve es trims h sat).1[i]? = some (if b ≤ 4096 then (b * 65535 + 2048) / 4096 else 65535) ∧
      (i ∈ (emitterSolve es trims h sat).2 ↔ 4096 < b) := by
  have hget := trimmedLevels_get (coveringPair (huedFrom 0 es) h) (es.any fun e => e.hue.isNone) sat 0 es trims i e he
  rw [Nat.zero_add, hb] at hget
  refine ⟨?_, ?_⟩
  · simp only [emitterSolve, List.getElem?_map, hget, Option.map_some]
    rfl
  · rw [emitterSolve, mem_clampedFrom, Nat.sub_zero, hget]
    simp

end Solve

/-- The larger fraction is brought to full (R131): the case of the definition is a rounding like the other. -/
theorem roundHalfUpNat_self {m : Nat} (h : 0 < m) : roundHalfUpNat (m * 4096) m = 4096 := by
  rw [roundHalfUpNat, Nat.mul_add_div h, Nat.div_eq_of_lt (by omega)]

theorem pairLevel_eq {q : HuePair} {i fi fj m : Nat} (hfj : fj = (q.offset * 4096 + q.arc / 2) / q.arc)
    (hfi : fi = 4096 - fj) (hm : m = Nat.max fi fj) :
    pairLevel q i =
      if i = q.lower then (fi * 4096 + m / 2) / m else if i = q.upper then (fj * 4096 + m / 2) / m else 0 := by
  have hmax : m = max fi fj := hm
  have hpos : 0 < m := by omega
  have hround : roundHalfUpNat (q.offset * 4096) q.arc = fj := hfj.symm
  unfold pairLevel
  dsimp only
  rw [hround, ← hfi, ← hm]
  have hfull (x : Nat) : (if x = m then 4096 else roundHalfUpNat (x * 4096) m) = (x * 4096 + m / 2) / m := by
    split
    · next h => rw [h]; exact (roundHalfUpNat_self hpos).symm
    · rfl
  rw [hfull, hfull]

theorem satLevel_eq (white isWhite : Bool) (sat l : Nat) : satLevel white sat isWhite l =
    if isWhite = true then ((1000 - sat) * 4096 + 500) / 1000
    else if white = true then (l * sat + 500) / 1000
    else Nat.min 4096 ((l * sat + 500) / 1000 + ((1000 - sat) * 4096 + 500) / 1000) := rfl

/-- The pair that covers a hue (R130). -/
theorem coveringPair_spec {hued : List (Nat × Nat)} (hne : hued ≠ []) (h : Nat) :
    (∃ k a b, hued[k]? = some ((coveringPair hued h).lower, a) ∧ hued[k + 1]? = some ((coveringPair hued h).upper, b) ∧
      a ≤ h ∧ h < b ∧ (coveringPair hued h).arc = b - a ∧ (coveringPair hued h).offset = h - a) ∨
    ((∀ (k : Nat) x y, hued[k]? = some x → hued[k + 1]? = some y → h < x.2 ∨ y.2 ≤ h) ∧
      ∃ a b, hued.head? = some ((coveringPair hued h).upper, a) ∧ hued.getLast? = some ((coveringPair hued h).lower, b) ∧
        (coveringPair hued h).arc = a + 3600 - b ∧ (coveringPair hued h).offset = (h + 3600 - b) % 3600) := by
  cases hf : (huePairs hued).find? fun q => decide (q.1.2 ≤ h) && decide (h < q.2.2) with
  | some q =>
    left
    obtain ⟨⟨i, a⟩, j, b⟩ := q
    have hc : coveringPair hued h = ⟨i, j, b - a, h - a⟩ := by rw [coveringPair, hf]
    obtain ⟨k, h1, h2⟩ := (mem_huePairs ..).1 (List.mem_of_find?_eq_some hf)
    have hp := List.find?_some hf
    simp only [Bool.and_eq_true, decide_eq_true_eq] at hp
    rw [hc]
    exact ⟨k, a, b, h1, h2, hp.1, hp.2, rfl, rfl⟩
  | none =>
    right
    refine ⟨fun k x y h1 h2 => ?_, ?_⟩
    · have hp := List.find?_eq_none.1 hf (x, y) ((mem_huePairs ..).2 ⟨k, h1, h2⟩)
      simp only [Bool.and_eq_true, decide_eq_true_eq, not_and_or] at hp
      omega
    · have hhead : hued.head? = some (hued.headD (0, 0)) := by
        cases hued with
        | nil => exact absurd rfl hne
        | cons x l => rfl
      have hlast : hued.getLast? = some (hued.getLastD (0, 0)) := by
        cases hued with
        | nil => exact absurd rfl hne
        | cons x l => rw [List.getLast?_cons, List.getLastD_cons, List.getLastD_eq_getLast?]
      have hc : coveringPair hued h = ⟨(hued.getLastD (0, 0)).1, (hued.headD (0, 0)).1,
          (hued.headD (0, 0)).2 + 3600 - (hued.getLastD (0, 0)).2, (h + 3600 - (hued.getLastD (0, 0)).2) % 3600⟩ := by
        rw [coveringPair, hf]
      rw [hc]
      exact ⟨_, _, hhead, hlast, rfl, rfl⟩

/-! ### The wheel (R134) -/

theorem wheelMatch_spec (h sat : Nat) (l : List WheelPos) {p : WheelPos} (hp : wheelMatch h sat l = some p) :
    ∃ i : Nat, l[i]? = some p ∧ ∀ (j : Nat) q, l[j]? = some q →
      wheelScore h sat p < wheelScore h sat q ∨ (wheelScore h sat p = wheelScore h sat q ∧ i ≤ j) := by
  induction l generalizing p with
  | nil => cases hp
  | cons x l ih =>
    have hx (hlt : wheelMatch h sat l = none ∨ ∃ q, wheelMatch h sat l = some q ∧ wheelScore h sat x ≤ wheelScore h sat q) :
        ∀ (j : Nat) q, (x :: l)[j]? = some q →
          wheelScore h sat x < wheelScore h sat q ∨ (wheelScore h sat x = wheelScore h sat q ∧ 0 ≤ j) := by
      intro j q hq
      cases j with
      | zero => cases hq; exact .inr ⟨rfl, le_rfl⟩
      | succ j =>
        rcases hlt with hn | ⟨y, hy, hle⟩
        · cases l with
          | nil => cases hq
          | cons z l => simp only [wheelMatch] at hn; split at hn <;> [cases hn; (split at hn <;> cases hn)]
        · obtain ⟨i, -, hmin⟩ := ih hy
          rcases hmin j q hq with h | ⟨h, -⟩ <;> omega
    simp only [wheelMatch] at hp
    split at hp
    · next hn =>
      cases hp
      exact ⟨0, rfl, hx (.inl hn)⟩
    · next q hq =>
      split at hp
      · next hlt =>
        cases hp
        obtain ⟨i, hi, hmin⟩ := ih hq
        refine ⟨i + 1, hi, fun j y hy => ?_⟩
        cases j with
        | zero => cases hy; exact .inl hlt
        | succ j => exact (hmin j y hy).imp_right fun ⟨he, hle⟩ => ⟨he, by omega⟩
      · next hge =>
        cases hp
        exact ⟨0, rfl, hx (.inr ⟨q, hq, by omega⟩)⟩

/-! ### Fades (R135) -/

theorem fadeValue_between (a b : Nat) {k n : Nat} (hk : k ≤ n) :
    min a b ≤ fadeValue a b k n ∧ fadeValue a b k n ≤ max a b := by
  have hle (d : Nat) : d * k / n ≤ d := Nat.div_le_of_le_mul (by rw [Nat.mul_comm n]; exact Nat.mul_le_mul_left d hk)
  unfold fadeValue
  split
  · have hd := hle (b - a)
    generalize (b - a) * k / n = x at hd
    omega
  · have hd := hle (a - b)
    generalize (a - b) * k / n = x at hd
    omega

theorem fadeValue_end (a b : Nat) {n : Nat} (hn : 0 < n) : fadeValue a b n n = b := by
  unfold fadeValue
  rw [Nat.mul_div_cancel _ hn, Nat.mul_div_cancel _ hn]
  split <;> omega

theorem fadeValue_eq (a b : Nat) {k n : Nat} (hk : k ≤ n) :
    (fadeValue a b k n : Int) = a + (((b : Int) - a) * k).tdiv n := by
  unfold fadeValue
  split
  · next h =>
    have hd : ((b : Int) - a) * k = (((b - a) * k : Nat) : Int) := by rw [Nat.cast_mul, Nat.cast_sub h]
    rw [hd, ← Int.ofNat_tdiv]
    push_cast
    rfl
  · next h =>
    have hle : (a - b) * k / n ≤ a - b :=
      Nat.div_le_of_le_mul (by rw [Nat.mul_comm n]; exact Nat.mul_le_mul_left _ hk)
    have hd : ((b : Int) - a) * k = -(((a - b) * k : Nat) : Int) := by
      rw [Nat.cast_mul, Nat.cast_sub (by omega)]; ring
    rw [hd, Int.neg_tdiv, ← Int.ofNat_tdiv, Nat.cast_sub (by omega)]
    ring

section Fade
variable {c : Colour} {d : Fade}

theorem Colour.step_of_end (hf : c.fade = some d) (h : d.steps ≤ d.k + 1) : c.step =
    ⟨{ c with outputs := d.target, fade := none, tag := none }, c.tag, none, decide (d.target ≠ c.outputs)⟩ := by
  simp only [Colour.step, hf]
  split
  · rfl
  · rw [if_neg (by omega)]; rfl

theorem Colour.step_of_under_way (hf : c.fade = some d) (h : d.k + 1 < d.steps) : c.step =
    ⟨{ c with outputs := fadeValues (d.k + 1) d.steps d.start d.target, fade := some { d with k := d.k + 1 } }, none, none,
      decide (fadeValues (d.k + 1) d.steps d.start d.target ≠ c.outputs)⟩ := by
  simp only [Colour.step, hf]
  rw [if_neg (by omega), if_pos h]

theorem Colour.step_of_still (hf : c.fade = none) : c.step = .quiet c := by
  simp only [Colour.step, hf]

/-- A step clamps nothing, and writes when an output changes (R123). -/
theorem Colour.step_write (c : Colour) : c.step.clamp = none ∧ c.step.write = decide (c.step.after.outputs ≠ c.outputs) := by
  cases hf : c.fade with
  | none => rw [c.step_of_still hf]; exact ⟨rfl, (decide_eq_false (by simp [ColourOut.quiet])).symm⟩
  | some d =>
    by_cases h : d.k + 1 < d.steps
    · rw [c.step_of_under_way hf h]; exact ⟨rfl, rfl⟩
    · rw [c.step_of_end hf (by omega)]; exact ⟨rfl, rfl⟩

end Fade

theorem State.fadeTimerTick_of_none (h : s.colour.timer = none) : s.fadeTimerTick = s := by
  rw [State.fadeTimerTick, h]

theorem State.fadeTimerTick_of_some {e : Nat} (h : s.colour.timer = some e) :
    (s.now < e → s.fadeTimerTick = s) ∧
      (e ≤ s.now → s.fadeTimerTick = s.withColour { s.colour with timer := some (e + 8000), due := s.fading }) := by
  simp only [State.fadeTimerTick, h]
  exact ⟨fun hlt => if_neg (by omega), fun hle => if_pos hle⟩

theorem State.tick_colour :
    (s.colour.timer = none → s.tick.colour = s.colour) ∧
    ∀ e, s.colour.timer = some e → (s.now + 1 < e → s.tick.colour = s.colour) ∧
      (e ≤ s.now + 1 → s.tick.colour = { s.colour with timer := some (e + 8000), due := s.fading }) := by
  have hstep := (s.withNow (s.now + 1)).stepTimerTick_frame
  unfold State.tick
  generalize (s.withNow (s.now + 1)).stepTimerTick = u at hstep
  have hc : u.colour = s.colour := by rw [hstep]; rfl
  have hn : u.now = s.now + 1 := by rw [hstep]; rfl
  have hfading : u.fading = s.fading := by rw [State.fading, hc]; rfl
  refine ⟨fun h => ?_, fun e he => ?_⟩
  · rw [u.fadeTimerTick_of_none (hc ▸ h), hc]
  · obtain ⟨hrun, hover⟩ := u.fadeTimerTick_of_some (hc ▸ he)
    rw [hn] at hrun hover
    exact ⟨fun h => by rw [hrun h, hc], fun h => by rw [hover h, ← hc, ← hfading]; rfl⟩

/-! ### What carrying out a colour event writes -/

section Carry
variable {s} {f : Nat} {k : Profile} {p : Patch} (hk : s.profileOf f = some k) (hp : s.patchOf f = some p) (o : ColourOut)

/-- A line's slots with a fixture's colour outputs written. -/
def State.colourLines (s : State) (k : Profile) (p : Patch) (outs : List Nat) : Lines :=
  (s.setLine p.line
    { s.line p.line with
      buffer := Store.setAll 0 (s.line p.line).buffer
        ((colourSlots k outs).map fun w => (p.base + w.1, BitVec.ofNat 8 w.2)) }).lines

include hk hp in
theorem State.writeColour_lines {t : State} (hr : t.rig = s.rig) (hl : t.lines = s.lines) (outs : List Nat) :
    (t.writeColour f outs).lines = s.colourLines k p outs := by
  have hp' : t.patchOf f = some p := by rw [State.patchOf_of_rig hr, hp]
  have hk' : t.profileOf f = some k := by
    rw [← hk]; simp only [State.profileOf, State.patchOf, State.fixture, State.kind, hr]
  simp only [State.writeColour, hp', hk', State.writeSlots, State.setLine, State.line, hl, State.colourLines,
    State.withLines_lines]

include hk hp in
theorem State.applyColour_lines : (s.applyColour f o).lines =
    if o.write = true then s.colourLines k p o.after.outputs else s.lines := by
  have hw : (s.colourWritten f o).lines = if o.write = true then s.colourLines k p o.after.outputs else s.lines := by
    unfold State.colourWritten
    dsimp only
    split <;> split
    · exact State.writeColour_lines hk hp (t := State.withLink (s.setColourOf f (some o.after)) _) rfl rfl _
    · exact State.writeColour_lines hk hp (t := s.setColourOf f (some o.after)) rfl rfl _
    · rfl
    · rfl
  rw [s.applyColour_eq f o, ← hw]
  split <;> rfl

theorem State.colourWritten_link : (o.clamp = none → (s.colourWritten f o).link = s.link) ∧
    ∀ h sat es, o.clamp = some (h, sat, es) → (s.colourWritten f o).link =
      ((s.raise .gamutClamp none 1).withNotices { s.link.notices with gamutClamp := some ⟨f, h, sat, es⟩ }).link := by
  have hwrite (u : State) (outs : List Nat) : (u.writeColour f outs).link = u.link := by
    rw [State.writeColour_eq]; rfl
  unfold State.colourWritten
  refine ⟨fun hc => ?_, fun h sat es hc => ?_⟩
  · rw [hc]
    dsimp only
    split
    · rw [hwrite]; rfl
    · rfl
  · rw [hc]
    dsimp only
    split
    · rw [hwrite]; rfl
    · rfl

theorem State.applyColour_clamp : (o.clamp = none → (s.applyColour f o).link = s.link) ∧
    ∀ h sat es, o.clamp = some (h, sat, es) → (s.applyColour f o).link =
      ((s.raise .gamutClamp none 1).withNotices { s.link.notices with gamutClamp := some ⟨f, h, sat, es⟩ }).link := by
  have hlink : (s.applyColour f o).link = (s.colourWritten f o).link := by
    rw [s.applyColour_eq f o]
    split <;> rfl
  rw [hlink]
  exact State.colourWritten_link o

theorem State.applyColour_of_silent (h : o.report = none) :
    (s.applyColour f o).playback = s.playback ∧ (s.applyColour f o).claims = s.claims := by
  obtain ⟨-, hc, hpb⟩ := s.colourWritten_spec f o
  rw [s.applyColour_eq f o, h]
  exact ⟨hpb, hc⟩

end Carry

/-- Settles O40: the fade timer, and the row by the fade of the record. -/
theorem fadeStepMovesOneRecord : Obligations.FadeStepMovesOneRecord := by
  refine ⟨fun s t ht => ?_, fun s f c k p hr hf hc hk hp => ?_⟩
  · subst ht
    obtain ⟨hnone, hsome⟩ := s.tick_colour
    refine ⟨s.tick_frame, hnone, fun e he => ⟨(hsome e he).1, fun hle => ?_⟩⟩
    rw [(hsome e he).2 hle]
    exact ⟨rfl, s.mem_fading⟩
  · have hu : s.fadeStep f = (s.fadeTaken f).applyColour f c.step :=
      (s.fadeTaken f).onColour_of_record f (fun _ _ c => c.step) hc hk hp
    have hfr := (s.fadeTaken f).applyColour_frame f c.step
    have hof (g : Nat) : ((s.fadeTaken f).applyColour f c.step).colourOf g =
        if g = f then some c.step.after else (s.fadeTaken f).colourOf g := State.applyColour_colourOf ..
    have hlines : ((s.fadeTaken f).applyColour f c.step).lines = if c.step.write = true then
        s.colourLines k p c.step.after.outputs else s.lines := State.applyColour_lines (s := s.fadeTaken f) hk hp c.step
    have hlink : ((s.fadeTaken f).applyColour f c.step).link = s.link :=
      (State.applyColour_clamp (s := s.fadeTaken f) c.step).1 c.step_write.1
    have hsilent := State.applyColour_of_silent (s := s.fadeTaken f) (f := f) c.step
    have hreport := (s.fadeTaken f).applyColour_playback f c.step
    have hrow : exec (.fadeStep f) s = .next ((s.fadeTaken f).applyColour f c.step).pump := by
      rw [exec_of_enabled s (c := .fadeStep f) rfl rfl hr (by simpa [rowEnabled] using hf), ← hu]
      rfl
    rw [c.step_write.2] at hlines
    generalize (s.fadeTaken f).applyColour f c.step = t at *
    have hstill (h : c.step.after.outputs = c.outputs) : t.lines = s.lines := by
      rw [hlines, if_neg (by simp [h])]
    have hthis : t.colourOf f = some c.step.after := by rw [hof, if_pos rfl]
    refine ⟨t, hrow, ?_, fun g hg => ?_, by rw [hfr.colour]; rfl, fun hn => ?_, fun d hd hend => ⟨?_, fun g hg => ?_, ?_⟩,
      fun d hd hgo => ⟨?_, ?_, ?_, ?_⟩, fun q hq hne => ?_⟩
    · have heq := hfr.eq
      rw [hlink] at heq
      exact heq
    · rw [hof, if_neg hg]; rfl
    · rw [c.step_of_still hn] at hthis hstill
      exact ⟨hthis, hstill rfl⟩
    · rw [hthis, c.step_of_end hd hend]
    · rw [hreport, c.step_of_end hd hend, hg]; rfl
    · rw [c.step_of_end hd hend] at hstill
      exact hstill
    · rw [hthis, c.step_of_under_way hd hgo]
    · exact (hsilent (by rw [c.step_of_under_way hd hgo])).1
    · exact (hsilent (by rw [c.step_of_under_way hd hgo])).2
    · rw [c.step_of_under_way hd hgo] at hstill
      exact hstill
    · rw [hthis] at hq
      cases hq
      rw [hlines, if_pos (by simpa using hne)]
      rfl

end Sys2Proof.Machine
end

