-- ==== Sys2Proof/Proofs/ColourTargets.lean ====
section
/-! PROOFS. What colour targets resolve to, and what a hand-over, an update and a resumption make of them (7.4, 7.8, 7.9). -/

namespace Sys2Proof.Machine

variable (s : State)

/-! ### Slot values (R189) -/

section Slots
variable {k : Profile} {outs : List Nat}

theorem colourSlots_of_emitters {es : List Emitter} (h : k.model = .emitter es) :
    colourSlots k outs = (es.zip outs).flatMap fun x => splitValue x.1.coarse x.1.fine x.2 := by
  simp only [colourSlots, h]
  exact emitterSlots_eq es outs

theorem colourSlots_le {es : List Emitter} (h : k.model = .emitter es) (ho : ∀ v ∈ outs, v ≤ 65535) :
    ∀ w ∈ colourSlots k outs, w.2 ≤ 255 := by
  rw [colourSlots_of_emitters h]
  intro w hw
  obtain ⟨⟨e, v⟩, hx, hw⟩ := List.mem_flatMap.1 hw
  exact splitValue_le _ _ (ho v (List.of_mem_zip hx).2) w hw

end Slots

/-! ### Resolution (R127 to R129) -/

section Resolve
variable {k : Profile} {hue : Int} {h sat : Nat} (hh : (h : Int) = hue % 3600)
include hh

theorem wrapHue_eq : wrapHue hue = h := by
  rw [wrapHue, ← hh, Int.toNat_natCast]

theorem resolveHueSat_of_emitters (trims : List Nat) {es : List Emitter} (hm : k.model = .emitter es) :
    resolveHueSat k trims hue sat =
      .levels (emitterSolve es trims h (Nat.min sat 1000)).1 h (Nat.min sat 1000)
        (emitterSolve es trims h (Nat.min sat 1000)).2 := by
  simp only [resolveHueSat, hm, wrapHue_eq hh]
  rfl

theorem resolveHueSat_of_wheel (trims : List Nat) {l : List WheelPos} {role : Nat} (hm : k.model = .wheel l role)
    {x : WheelPos} (hx : wheelMatch h (Nat.min sat 1000) l = some x) : resolveHueSat k trims hue sat = .snap x.value true := by
  have hx' : wheelMatch h (clampSat sat) l = some x := hx
  simp only [resolveHueSat, hm, wrapHue_eq hh, hx']

end Resolve

theorem wheelPosition_of_lt {l : List WheelPos} {i : Nat} {x : WheelPos} (h : l[i]? = some x) : wheelPosition l i = some x := by
  obtain ⟨hlt, -⟩ := List.getElem?_eq_some_iff.1 h
  have hmin : Nat.min i (l.length - 1) = i := Nat.min_eq_left (by omega)
  rw [wheelPosition, hmin, h]

theorem wheelPosition_of_ge {l : List WheelPos} {i : Nat} (hi : l.length ≤ i) : wheelPosition l i = l.getLast? := by
  have hmin : Nat.min i (l.length - 1) = l.length - 1 := Nat.min_eq_right (by omega)
  rw [wheelPosition, hmin, List.getLast?_eq_getElem?]

theorem resolveWheel_of_position {k : Profile} {l : List WheelPos} {role i : Nat} (hm : k.model = .wheel l role)
    {x : WheelPos} (hx : wheelPosition l i = some x) : resolveWheel k i = .snap x.value false := by
  simp only [resolveWheel, hm, hx]

section Palette
variable {s} {e : DirEntry} {kind : Nat}

/-- Slot `i` of a run does not override the kind. -/
def State.noOverride (s : State) (e : DirEntry) (kind i : Nat) : Prop :=
  ∀ v, s.readSlot (e.start + i) ≠ some (.override kind v)

theorem State.findOverride_of_other {n i : Nat} (h : s.noOverride e kind i) :
    s.findOverride e kind (n + 1) i = s.findOverride e kind n (i + 1) := by
  rw [State.findOverride]
  split
  · next k v hs =>
    rw [if_neg]
    rintro rfl
    exact h v hs
  · rfl

/-- The first override of the kind is the one found (R128). -/
theorem State.findOverride_of_first {n i j : Nat} (hij : i ≤ j) (hj : j < i + n)
    (hno : ∀ j', i ≤ j' → j' < j → s.noOverride e kind j') {v : OverrideValue}
    (hv : s.readSlot (e.start + j) = some (.override kind v)) : s.findOverride e kind n i = some v := by
  induction n generalizing i with
  | zero => omega
  | succ n ih =>
    rcases Nat.eq_or_lt_of_le hij with rfl | hlt
    · simp only [State.findOverride, hv, if_true]
    · rw [State.findOverride_of_other (hno i le_rfl hlt)]
      exact ih hlt (by omega) fun j' h1 h2 => hno j' (by omega) h2

theorem State.findOverride_of_none {n i : Nat} (hno : ∀ j, i ≤ j → j < i + n → s.noOverride e kind j) :
    s.findOverride e kind n i = none := by
  induction n generalizing i with
  | zero => rfl
  | succ n ih =>
    rw [State.findOverride_of_other (hno i le_rfl (by omega))]
    exact ih fun j h1 h2 => hno j (by omega) (by omega)

variable {q : Nat}

theorem State.paletteEntry_of_absent (h : ∀ e ∈ s.memory.palettes, e.number ≠ q) : s.paletteEntry q = none :=
  List.find?_eq_none.2 fun e he => by simpa using h e he

theorem State.paletteValue_of_override {v : OverrideValue} {j : Nat} (he : s.paletteEntry q = some e) (h1 : 1 ≤ j)
    (h2 : j < e.length) (hv : s.readSlot (e.start + j) = some (.override kind v))
    (hno : ∀ j', 1 ≤ j' → j' < j → s.noOverride e kind j') : s.paletteValue q kind = some v := by
  have hf : s.findOverride e kind (e.length - 1) 1 = some v := State.findOverride_of_first h1 (by omega) hno hv
  simp only [State.paletteValue, he, hf]

theorem State.paletteValue_of_default {hue : Int} {sat q' fd n : Nat} (he : s.paletteEntry q = some e)
    (hhead : s.readSlot e.start = some (.paletteHeader q' hue sat fd n))
    (hno : ∀ j, 1 ≤ j → j < e.length → s.noOverride e kind j) : s.paletteValue q kind = some (.hueSat hue sat) := by
  have hf : s.findOverride e kind (e.length - 1) 1 = none :=
    State.findOverride_of_none fun j h1 h2 => hno j h1 (by omega)
  simp only [State.paletteValue, he, hf, hhead]

variable (k : Profile) (p : Patch)

theorem State.resolveColour_of_hueSat {hue : Int} {sat : Nat} (h : s.paletteValue q p.kind = some (.hueSat hue sat)) :
    s.resolveColour k p (.palette q) = ((s.resolveColour k p (.hueSat hue sat)).1, some q) := by
  simp only [State.resolveColour, h]

theorem State.resolveColour_of_wheel {i : Nat} (h : s.paletteValue q p.kind = some (.wheel i)) :
    s.resolveColour k p (.palette q) = ((s.resolveColour k p (.wheelSlot i)).1, some q) := by
  simp only [State.resolveColour, h]

theorem State.resolveColour_of_unstored (h : s.paletteEntry q = none) :
    s.resolveColour k p (.palette q) = (.ineffective, none) := by
  have hv : s.paletteValue q p.kind = none := by rw [State.paletteValue, h]
  simp only [State.resolveColour, hv]

end Palette

/-! ### Targets carried out (R124, R134, R140) -/

section Carry
variable (c : Colour) {r : Resolved × Option Nat}

theorem Colour.fadeTo_eq (origin : Option Nat) (outs : List Nat) (hue sat : Nat) (es : List Nat) (steps : Nat) :
    c.fadeTo origin outs hue sat es steps =
      ⟨{ c with fade := some ⟨c.outputs, outs, steps, 0⟩, origin := origin, gamut := !es.isEmpty }, none,
        if es = [] then none else some (hue, sat, es), false⟩ := by
  unfold Colour.fadeTo
  cases es <;> rfl

theorem Colour.carryOut_eq (steps : Nat) :
    (r.1 = .ineffective → c.carryOut r steps = ⟨{ c with fade := none, tag := none }, c.tag, none, false⟩) ∧
    (∀ v matched, r.1 = .snap v matched → c.carryOut r steps =
      ⟨{ c with
          outputs := [v], fade := some ⟨[v], [v], 0, 0⟩, origin := r.2
          gamut := if matched = true then false else c.gamut }, none, none, true⟩) ∧
    (∀ outs hue sat es, r.1 = .levels outs hue sat es → c.carryOut r steps =
      ⟨{ c with fade := some ⟨c.outputs, outs, steps, 0⟩, origin := r.2, gamut := !es.isEmpty }, none,
        if es = [] then none else some (hue, sat, es), false⟩) := by
  refine ⟨fun h => ?_, fun v matched h => ?_, fun outs hue sat es h => ?_⟩
  · simp only [Colour.carryOut, h]; rfl
  · simp only [Colour.carryOut, h]; rfl
  · simp only [Colour.carryOut, h]
    exact c.fadeTo_eq ..

theorem Colour.resume_eq :
    (r.1 = .ineffective → c.resume r = ⟨{ c with tag := none }, c.tag, none, false⟩) ∧
    (∀ v matched, r.1 = .snap v matched → c.resume r =
      ⟨{ c with
          outputs := [v], fade := some ⟨[v], [v], 0, 0⟩, origin := r.2
          gamut := if matched = true then false else c.gamut }, none, none, true⟩) ∧
    (∀ outs hue sat es, r.1 = .levels outs hue sat es → c.resume r =
      ⟨{ c with
          fade := if outs ≠ c.outputs ∨ c.tag.isSome = true then some ⟨c.outputs, outs, 0, 0⟩ else none
          origin := r.2, gamut := !es.isEmpty }, none, if es = [] then none else some (hue, sat, es), false⟩) := by
  refine ⟨fun h => ?_, fun v matched h => ?_, fun outs hue sat es h => ?_⟩
  · simp only [Colour.resume, h]; rfl
  · simp only [Colour.resume, h]; rfl
  · simp only [Colour.resume, h]
    rw [c.fadeTo_eq]
    split <;> rfl

end Carry

theorem State.onColours_eq_foldl (g : State → Profile → Patch → Colour → ColourOut) (fs : List Nat) :
    s.onColours g fs = fs.foldl (fun u f => u.onColour f (g u)) s := by
  induction fs generalizing s with
  | nil => rfl
  | cons f fs ih => rw [State.onColours, ih, List.foldl_cons]

section Events
variable {s} {f : Nat} {k : Profile} {p : Patch} {c : Colour} (hk : s.profileOf f = some k) (hp : s.patchOf f = some p)
  (hc : s.colourOf f = some c)
include hk hp hc

theorem State.handColour_of_record (t : ColourTarget) (ms : Nat) (tag : Option LaunchTag) {d : Colour}
    (hd : d = { c with target := some t, tag := tag }) :
    s.handColour f t ms tag = s.applyColour f
      (if s.colourStepping then d.carryOut (s.resolveColour k p t) (Nat.min ((ms + 4) / 8) 16383) else .quiet d) := by
  subst hd
  exact s.onColour_of_record f _ hc hk hp

theorem State.updatePalette_of_record (q ms : Nat) :
    s.updatePalette f q ms = s.applyColour f
      (if c.target = some (.palette q) ∧ s.colourStepping = true then
        c.carryOut (s.resolveColour k p (.palette q)) (Nat.min ((ms + 4) / 8) 16383) else .quiet c) :=
  s.onColour_of_record f _ hc hk hp

end Events

/-- Settles O41: slot values, fades, the solve, the wheel, resolution, and the events of a record. -/
theorem colourValuesLieInRange : Obligations.ColourValuesLieInRange := by
  refine ⟨fun k outs => ⟨fun h => ?_, fun l role v h ho => ?_, fun es h => ⟨colourSlots_of_emitters h, colourSlots_le h⟩⟩,
    fun a b k n hn hk => ⟨(fadeValue_between a b hk).1, (fadeValue_between a b hk).2, fadeValue_end a b hn,
      fadeValue_eq a b hk⟩,
    fun es trims h sat => ⟨emitterSolve_length es trims h sat, emitterSolve_le es trims h sat,
      emitterSolve_clamped es trims h sat⟩,
    fun es trims h sat hued hh hne => ?_, fun h sat d p hd => by subst hd; rfl, fun h sat l p => wheelMatch_spec h sat l,
    fun s k p hue sat i h hh => ⟨fun es hm => ⟨?_, ?_⟩, fun l role hm => ⟨fun x hx => ?_, fun x hx => ?_, fun x hi hx => ?_⟩,
      fun hm => ⟨?_, ?_⟩, fun q => ⟨fun hq => s.resolveColour_of_unstored k p (State.paletteEntry_of_absent hq),
        fun e he => ⟨fun j v h1 h2 hv hno => ⟨fun hh ss hval => ?_, fun w hval => ?_⟩,
          fun q' hh ss fd n hhead hno => ?_⟩⟩⟩,
    fun s f k p o hk hp => ?_, fun s => ?_, fun s f k p c d t ms tag r hk hp hc hr hd => ?_⟩
  · simp only [colourSlots, h]
  · simp only [colourSlots, h, ho]; rfl
  · rw [← huedFrom_eq 0] at hh
    subst hh
    refine ⟨(coveringPair (huedFrom 0 es) h).lower, (coveringPair (huedFrom 0 es) h).upper,
      (coveringPair (huedFrom 0 es) h).arc, (coveringPair (huedFrom 0 es) h).offset, coveringPair_spec hne h, ?_⟩
    intro i e fi fj m l w v a b he hfj hfi hm hl hw hv ha hb
    refine emitterSolve_get es trims h sat he ?_
    have hlevel : pairLevel (coveringPair (huedFrom 0 es) h) i = l := (pairLevel_eq hfj hfi hm).trans hl.symm
    have hsat : satLevel (es.any fun e => e.hue.isNone) sat e.hue.isNone l = v := by
      rw [satLevel_eq, hv, ← hw]
      exact if_congr Option.isNone_iff_eq_none rfl rfl
    rw [hlevel, hsat, trimmedLevel, ← ha, ← hb]
  · simp only [State.resolveColour, resolveHueSat_of_emitters hh p.trims hm]
  · simp only [State.resolveColour, resolveWheel, hm]
  · simp only [State.resolveColour, resolveHueSat_of_wheel hh p.trims hm hx]
  · simp only [State.resolveColour, resolveWheel_of_position hm (wheelPosition_of_lt hx)]
  · simp only [State.resolveColour, resolveWheel_of_position hm ((wheelPosition_of_ge hi).trans hx)]
  · simp only [State.resolveColour, resolveHueSat, hm]
  · simp only [State.resolveColour, resolveWheel, hm]
  · exact s.resolveColour_of_hueSat k p (hval ▸ State.paletteValue_of_override he h1 h2 hv hno)
  · exact s.resolveColour_of_wheel k p (hval ▸ State.paletteValue_of_override he h1 h2 hv hno)
  · exact s.resolveColour_of_hueSat k p (State.paletteValue_of_default he hhead hno)
  · have hfr := s.applyColour_frame f o
    have hlines := State.applyColour_lines hk hp o
    obtain ⟨hquiet, hclamp⟩ := State.applyColour_clamp (s := s) (f := f) o
    refine ⟨s.applyColour f o, rfl, ?_, by rw [State.applyColour_colourOf, if_pos rfl],
      fun g hg => by rw [State.applyColour_colourOf, if_neg hg], hfr.aims, hfr.prio, ?_, hquiet, hclamp,
      State.applyColour_of_silent o, fun tag ht => ⟨?_, fun g hg => ?_, ?_⟩⟩
    · have heq := hfr.eq
      generalize s.applyColour f o = t at heq
      exact heq
    · rw [hlines]
      split <;> rfl
    · rw [s.applyColour_playback f o, ht]; rfl
    · rw [s.applyColour_colourStack f o, if_neg hg]
    · rw [s.applyColour_colourStack f o, if_pos rfl, ht]
      exact clearOwed_ite tag _
  · rw [State.resumeColours, State.onColours_eq_foldl]
    generalize s.patchedFixtures = fs
    exact congrArg (fun F => List.foldl F s.startFadeTimer fs) (funext fun u => funext fun f => rfl)
  · have hhand := State.handColour_of_record hk hp hc t ms tag hd
    obtain ⟨hine, hsnap, hlev⟩ := d.carryOut_eq (r := r) (Nat.min ((ms + 4) / 8) 16383)
    have hout : d.outputs = c.outputs ∧ d.tag = tag ∧ d.gamut = c.gamut := by rw [hd]; exact ⟨rfl, rfl, rfl⟩
    obtain ⟨houts, htag, hgam⟩ := hout
    rw [htag] at hine
    rw [hgam] at hsnap
    rw [← hr] at hhand
    refine ⟨fun hs => ?_, fun hs => ⟨fun h => ?_, fun v matched h => ?_, fun outs hue sat es h => ?_⟩,
      s.onColour_of_record f (fun _ _ c => c.noTarget) hc hk hp, fun q ht hct hs => ?_, fun q hq => ?_, fun hn => ?_,
      fun ht => ?_⟩
    · rw [hhand, hs]; rfl
    · rw [hhand, if_pos hs, hine h]
    · rw [hhand, if_pos hs, hsnap v matched h]
    · rw [hhand, if_pos hs, hlev outs hue sat es h, houts]
    · have hself : c = { c with target := some t, tag := c.tag } := by rw [← hct]
      rw [State.updatePalette_of_record hk hp hc, State.handColour_of_record hk hp hc t ms c.tag hself, ← ht,
        if_pos ⟨hct, hs⟩, if_pos hs]
    · rw [State.updatePalette_of_record hk hp hc, if_neg fun h => hq.elim (fun hne => hne h.1) fun hf => ?_]
      · rfl
      · rw [h.2] at hf; cases hf
    · rw [State.resumeColour, hn]; rfl
    · have hres : s.resumeColour k p c = c.resume r := by rw [State.resumeColour, ht, hr]
      rw [hres]
      exact c.resume_eq

end Sys2Proof.Machine
end

