-- ==== Sys2Proof/Proofs/LineRows.lean ====
section
/-! PROOFS. SET_LINE, the starts and ends of frames, and the waveform of a frame (chapter 10). -/

namespace Sys2Proof.Machine

variable (s : State)

/-! ### SET_LINE (R193) -/

theorem State.clearSync_spec (ls : List Nat) :
    s.clearSync ls = s.withLines (s.clearSync ls).lines ∧ (s.clearSync ls).lines.sync = s.lines.sync ∧
      ∀ l, (s.clearSync ls).line l = if l ∈ ls then { s.line l with sync := false } else s.line l := by
  induction ls generalizing s with
  | nil => exact ⟨rfl, rfl, fun _ => rfl⟩
  | cons l ls ih =>
    obtain ⟨hfr, hsync, hline⟩ := ih (s.setLine l { s.line l with sync := false })
    rw [State.clearSync]
    generalize (s.setLine l { s.line l with sync := false }).clearSync ls = t at *
    refine ⟨hfr, hsync, fun j => ?_⟩
    rw [hline, State.setLine_line]
    by_cases hj : j = l
    · subst hj
      simp only [if_true, List.mem_cons, true_or]
      split <;> rfl
    · simp only [List.mem_cons, hj, false_or, if_false]

/-- SET_LINE's sync setting: the line's flag, the other lines' flags, and SYNC low when its line lost the flag. -/
theorem State.setSync_spec {l : Nat} (hl : l < 8) (on : Bool) :
    s.setSync l on = s.withLines (s.setSync l on).lines ∧
      (s.setSync l on).line l = { s.line l with sync := on } ∧
      (∀ j < 8, j ≠ l → (s.setSync l on).line j = if on then { s.line j with sync := false } else s.line j) ∧
      (s.setSync l on).lines.sync = if on = false ∧ (s.line l).sync = true then false else s.lines.sync := by
  cases on with
  | true =>
    obtain ⟨hfr, hsync, hline⟩ := s.clearSync_spec (List.range 8)
    unfold State.setSync
    dsimp only
    rw [if_pos rfl]
    generalize s.clearSync (List.range 8) = t at *
    refine ⟨by rw [hfr]; rfl, ?_, fun j hj hne => ?_, ?_⟩
    · rw [State.setLine_line_same, hline, if_pos (List.mem_range.2 hl)]
    · rw [State.setLine_line_other _ _ _ hne, hline, if_pos (List.mem_range.2 hj), if_pos rfl]
    · rw [if_neg (by simp)]
      exact hsync
  | false =>
    unfold State.setSync
    dsimp only
    rw [if_neg (by simp)]
    have hsame := s.setLine_line_same l { s.line l with sync := false }
    have hother (j : Nat) (hne : j ≠ l) := s.setLine_line_other l { s.line l with sync := false } hne
    split
    · next h =>
      refine ⟨rfl, hsame, fun j _ hne => ?_, ?_⟩
      · rw [if_neg (by simp)]; exact hother j hne
      · rw [if_pos ⟨rfl, h⟩]; rfl
    · next h =>
      refine ⟨rfl, hsame, fun j _ hne => ?_, ?_⟩
      · rw [if_neg (by simp)]; exact hother j hne
      · rw [if_neg fun hc => h hc.2]; rfl

/-- Settles O52: the stored values, the sync flag, and the reply. -/
theorem lineIsSet : Obligations.LineIsSet := by
  intro s a h hl hmin hmax
  have hno : ¬ (7 < a.line ∨ a.min < 24 ∨ 512 < a.min) := by omega
  have href : ∃ r, r = min 1000 (max 25 a.refresh) := ⟨_, rfl⟩
  have hgap : ∃ g, g = min 1000 a.gap := ⟨_, rfl⟩
  obtain ⟨refresh, hrefresh⟩ := href
  obtain ⟨gap, hgap⟩ := hgap
  have hstored : storedSettings a.min a.refresh a.gap = ⟨a.min, refresh, gap⟩ := by rw [hrefresh, hgap]; rfl
  obtain ⟨hfr, hthis, hother, hsync⟩ := (s.setLine a.line { s.line a.line with waiting := some ⟨a.min, refresh, gap⟩ }).setSync_spec
    (l := a.line) (by omega) (decide (a.sync ≠ 0))
  have hrow : exec (.setLine a) s = .next
      ((((s.setLine a.line { s.line a.line with waiting := some ⟨a.min, refresh, gap⟩ }).setSync a.line
        (decide (a.sync ≠ 0))).answer .ok (setLineData ⟨a.min, refresh, gap⟩ (((s.setLine a.line
          { s.line a.line with waiting := some ⟨a.min, refresh, gap⟩ }).setSync a.line
            (decide (a.sync ≠ 0))).line a.line).sync)).pump) := by
    refine exec_of_effect s rfl h ?_
    simp only [rowEffect, State.setLineCmd, if_neg hno, hstored]
  rw [State.setLine_line_same] at hthis hsync
  generalize State.setSync _ _ _ = t at *
  have hdata : setLineData ⟨a.min, refresh, gap⟩ (t.line a.line).sync =
      [BitVec.ofNat 8 a.min, BitVec.ofNat 8 (a.min / 256), BitVec.ofNat 8 refresh, BitVec.ofNat 8 (refresh / 256),
        BitVec.ofNat 8 gap, BitVec.ofNat 8 (gap / 256), 1, if a.sync = 0 then 0 else 1] := by
    rw [hthis]
    by_cases h0 : a.sync = 0 <;> simp [setLineData, settingsBytes, flagByte, le2, byteOf, h0]
  rw [hdata] at hrow
  refine ⟨t, refresh, gap, by omega, by omega, by omega, by omega, by omega, hrow, hfr, hthis, fun l hl hne => ?_, ?_⟩
  · rw [hother l hl hne, State.setLine_line_other _ _ _ hne]
    by_cases h0 : a.sync = 0 <;> simp [h0]
  · rw [hsync]
    by_cases h0 : a.sync = 0
    · simp only [h0, ne_eq, not_true, decide_false, true_and]
      rfl
    · simp only [h0, ne_eq, not_false_iff, decide_true, false_and, reduceCtorEq, if_false]
      rfl

/-! ### Frames and pins (R190 to R195) -/

theorem State.frameStart_frame (l : Nat) :
    s.frameStart l = (s.withLines (s.frameStart l).lines).raise .lineFrames none 1 := by
  unfold State.frameStart
  dsimp only
  split <;> rfl

theorem State.frameStart_sync (l : Nat) :
    (s.frameStart l).lines.sync = if (s.line l).sync = true then !s.lines.sync else s.lines.sync := by
  unfold State.frameStart
  dsimp only
  split <;> rfl

theorem Line.startFrame_eq (r : Line) (now : Nat) {g : LineSettings} (hg : r.waiting.getD r.inForce = g) :
    r.startFrame now =
      { r with
        inForce := g, waiting := none, due := false
        frame := some ⟨r.buffer, Nat.max g.min r.highest, g.gap,
          now + (192 + 44 * (Nat.max g.min r.highest + 1) + g.gap * Nat.max g.min r.highest)⟩
        timer := some (r.timer.getD (now + 1000 * g.refresh)) } := by
  subst hg
  unfold Line.startFrame
  dsimp only
  cases r.timer <;> rfl

section Lines
variable {s} {l e : Nat}

theorem State.refreshDue_of_run (hr : (s.line l).run = true) (ht : (s.line l).timer = some e) (he : e ≤ s.now) :
    s.refreshDue l = some e := by
  simp only [State.refreshDue, ht]
  exact if_pos ⟨hr, he⟩

theorem exec_refreshExpiry (hn : s.resetting = none) (h : s.refreshDue l = some e) :
    exec (.refreshExpiry l) s = .next (s.refreshExpiry l e).pump := by
  rw [exec_of_enabled s (c := .refreshExpiry l) rfl rfl hn (by simp [rowEnabled, h])]
  simp only [rowEffect, State.refreshNext, h]

theorem exec_frameEnd {f : LineFrame} (hn : s.resetting = none) (h : (s.line l).frame = some f) (he : f.ends ≤ s.now) :
    exec (.frameEnd l) s = .next (s.frameEnd l).pump := by
  rw [exec_of_enabled s (c := .frameEnd l) rfl rfl hn (by simp [rowEnabled, State.frameOver, h, he])]
  rfl

end Lines

/-- Settles O53: the pins, the frame start, and the two rows by the line's state. -/
theorem linesSendFrames : Obligations.LinesSendFrames := by
  refine ⟨fun s l => ⟨?_, ?_, fun h => ?_, fun f hn hf => ?_⟩, fun s l g hg => ⟨_, rfl, ?_, fun j hj => ?_, s.frameStart_sync l,
    s.frameStart_frame l⟩, fun s l e hn hr ht he => ⟨fun hf => ?_, fun hf => ?_⟩,
    fun s l f hn hf he => ⟨fun hd hr => ?_, fun h => ?_⟩⟩
  · simp [State.ldePin]
  · simp [State.syncPin]
  · unfold State.linePin
    split
    · next f hn hf =>
      rcases h with h | h
      · rw [hn] at h; cases h
      · rw [hf] at h; cases h
    · rfl
  · simp only [State.linePin, hn, hf]
    rfl
  · rw [State.frameStart_line, if_pos rfl, (s.line l).startFrame_eq s.now hg]
  · rw [State.frameStart_line, if_neg hj]
  · rw [exec_refreshExpiry hn (State.refreshDue_of_run hr ht he)]
    simp only [State.refreshExpiry, hf]
  · obtain ⟨f, hf⟩ := Option.isSome_iff_exists.1 hf
    rw [exec_refreshExpiry hn (State.refreshDue_of_run hr ht he)]
    simp only [State.refreshExpiry, hf]
  · rw [exec_frameEnd hn hf he]
    simp only [State.frameEnd, hd, hr, and_self, if_true]
  · rw [exec_frameEnd hn hf he, State.frameEnd]
    dsimp only
    rw [if_neg]
    rintro ⟨hd, hr⟩
    rcases h with h | h
    · rw [hd] at h; cases h
    · rw [hr] at h; cases h

/-! ### The waveform (10.3) -/

section Waveform
variable (f : LineFrame)

/-- The level within slot `i` and the gap after it. -/
theorem slotsLevel_at (fuel start i d : Nat) (hi : i < fuel) (hd : d < 44 + f.gap) :
    slotsLevel f fuel start ((44 + f.gap) * i + d) = if d < 44 then slotLevel (f.value (start + i)) d else true := by
  induction fuel generalizing start i with
  | zero => omega
  | succ fuel ih =>
    rw [slotsLevel]
    cases i with
    | zero =>
      rw [Nat.mul_zero, Nat.zero_add, Nat.add_zero]
      by_cases hslot : d < 44
      · rw [if_pos hslot, if_pos hslot, Nat.add_zero]
      · rw [if_neg hslot, if_neg hslot, if_pos hd]
    | succ i =>
      rw [if_neg (by rw [Nat.mul_succ]; omega), if_neg (by rw [Nat.mul_succ]; omega),
        show (44 + f.gap) * (i + 1) + d - 44 - f.gap = (44 + f.gap) * i + d by rw [Nat.mul_succ]; omega,
        ih (start + 1) i (by omega), show start + 1 + i = start + (i + 1) by omega]

theorem frameLevel_at {i d : Nat} (hi : i ≤ f.count) (hd : d < 44 + f.gap) :
    frameLevel f (192 + (44 + f.gap) * i + d) = if d < 44 then slotLevel (f.value i) d else true := by
  have h := slotsLevel_at f (f.count + 1) 0 i d (by omega) hd
  rw [Nat.zero_add] at h
  unfold frameLevel
  rw [if_neg (by omega), if_neg (by omega),
    show 192 + (44 + f.gap) * i + d - 192 = (44 + f.gap) * i + d by omega, h]

theorem slotLevel_of_start (v : Byte) {d : Nat} (h : d < 4) : slotLevel v d = false := by
  simp only [slotLevel, Nat.div_eq_of_lt h]

theorem slotLevel_of_bit (v : Byte) {b d : Nat} (hb : b < 8) (h : d < 4) : slotLevel v (4 * (b + 1) + d) = v.getLsbD b := by
  have hdiv : (4 * (b + 1) + d) / 4 = b + 1 := by omega
  simp only [slotLevel, hdiv, if_pos hb]

theorem slotLevel_of_stop (v : Byte) {d : Nat} (h : 36 ≤ d) : slotLevel v d = true := by
  obtain ⟨b, hb⟩ : ∃ b, d / 4 = b + 1 := ⟨d / 4 - 1, by omega⟩
  simp only [slotLevel, hb]
  exact if_neg (by omega)

end Waveform

/-- Settles O54: the break, the mark after it, and the start bit, data bits, stop bits and gap of each slot. -/
theorem framesCarryTheirSlots : Obligations.FramesCarryTheirSlots := by
  refine fun f => ⟨fun t h => if_pos h, fun t h1 h2 => ?_, fun i hi => ⟨fun d h => ?_, fun b d hb h => ?_, fun d h1 h2 => ?_⟩⟩
  · rw [frameLevel, if_neg (by omega), if_pos h2]
  · rw [frameLevel_at f hi (by omega), if_pos (by omega), slotLevel_of_start _ h]
  · rw [Nat.add_assoc, frameLevel_at f hi (by omega), if_pos (by omega), slotLevel_of_bit _ hb h]
    rfl
  · rw [frameLevel_at f hi h2]
    split
    · exact slotLevel_of_stop _ h1
    · rfl

end Sys2Proof.Machine
end


-- ==== Sys2Proof/Proofs/BeatObl.lean ====
section
/-! PROOFS. The BEAT input, its edges, and the flywheel (chapter 9). -/

namespace Sys2Proof.Machine

section Beats
variable (s : State)

theorem State.handBar_eq (ns : List Nat) : s.handBar ns = s.withPlayback (s.handBar ns).playback := by
  induction ns generalizing s with
  | nil => rfl
  | cons n ns ih =>
    rw [State.handBar, ih]
    rfl

theorem State.handBar_cueList_other {n : Nat} (ns : List Nat) (h : n ∉ ns) : (s.handBar ns).cueList n = s.cueList n := by
  induction ns generalizing s with
  | nil => rfl
  | cons m ns ih =>
    rw [List.mem_cons, not_or] at h
    rw [State.handBar, ih _ h.2, State.setCueList_cueList_other _ _ _ h.1]

theorem State.handBar_cueList_mem {n : Nat} (ns : List Nat) (hnd : ns.Nodup) (h : n ∈ ns) :
    (s.handBar ns).cueList n = { s.cueList n with barsDue := (s.cueList n).barsDue + 1 } := by
  induction ns generalizing s with
  | nil => cases h
  | cons m ns ih =>
    obtain ⟨hm, hnd⟩ := List.nodup_cons.mp hnd
    rw [State.handBar]
    by_cases hmn : n = m
    · subst hmn
      rw [State.handBar_cueList_other _ _ hm, State.setCueList_cueList_same]
    · rw [ih _ hnd ((List.mem_cons.mp h).resolve_left hmn), State.setCueList_cueList_other _ _ _ hmn]

theorem Beat.countBeat_of_beat {b : Beat} (h : 1 < b.beatsToBar) :
    b.countBeat = { b with beatsToBar := b.beatsToBar - 1 } :=
  if_neg (by rw [Beat.startsBar, decide_eq_true_eq]; omega)

theorem Beat.countBeat_of_bar {b : Beat} (h : b.beatsToBar ≤ 1) :
    b.countBeat = { b with bar := (b.bar + 1) % 65536, beatsToBar := b.beatsPerBar } :=
  if_pos (decide_eq_true h)

theorem State.beatNow_of_beat (h : 1 < s.beat.beatsToBar) : s.beatNow = s.withBeat s.beat.countBeat :=
  if_neg (by rw [Beat.startsBar, decide_eq_true_eq]; omega)

theorem State.beatNow_of_bar (h : s.beat.beatsToBar ≤ 1) :
    s.beatNow = (s.withBeat s.beat.countBeat).handBar (List.range 8) :=
  if_pos (decide_eq_true h)

theorem State.beatNow_eq : s.beatNow = (s.withBeat s.beat.countBeat).withPlayback s.beatNow.playback := by
  rcases Nat.lt_or_ge 1 s.beat.beatsToBar with h | h
  · rw [s.beatNow_of_beat h]
    rfl
  · rw [s.beatNow_of_bar h]
    exact State.handBar_eq _ _

theorem State.beatNow_beat : s.beatNow.beat = s.beat.countBeat := by
  rw [State.beatNow_eq]
  rfl

theorem State.beatNow_cueList {n : Nat} (h : s.beat.beatsToBar ≤ 1) (hn : n < 8) :
    s.beatNow.cueList n = { s.cueList n with barsDue := (s.cueList n).barsDue + 1 } := by
  rw [s.beatNow_of_bar h, State.handBar_cueList_mem _ _ List.nodup_range (List.mem_range.mpr hn)]
  rfl

/-- A beat lowers the beats to the bar, or is a bar start: the bar is counted and handed to all eight lists (R182). -/
theorem State.beatNow_counted :
    (1 < s.beat.beatsToBar →
      s.beatNow.beat.beatsToBar = s.beat.beatsToBar - 1 ∧ s.beatNow.beat.bar = s.beat.bar ∧
      s.beatNow.playback = s.playback) ∧
    (s.beat.beatsToBar ≤ 1 →
      s.beatNow.beat.beatsToBar = s.beat.beatsPerBar ∧ s.beatNow.beat.bar = (s.beat.bar + 1) % 65536 ∧
      ∀ n < 8, s.beatNow.cueList n = { s.cueList n with barsDue := (s.cueList n).barsDue + 1 }) := by
  refine ⟨fun h => ?_, fun h => ?_⟩
  · rw [s.beatNow_of_beat h, State.withBeat_beat, Beat.countBeat_of_beat h]
    exact ⟨rfl, rfl, rfl⟩
  · rw [s.beatNow_beat, Beat.countBeat_of_bar h]
    exact ⟨rfl, rfl, fun n hn => s.beatNow_cueList h hn⟩

end Beats

/-! ### Edges -/

section Edges
variable (b : Beat) (t : Nat)

theorem Beat.rejects_of_close {e : Nat} (he : b.lastEdge = some e) (h : (t - e) / 100 < 2000) : b.rejects t = true := by
  rw [Beat.rejects, Beat.interval, he]
  exact decide_eq_true h

theorem Beat.not_rejects (h : ∀ e, b.lastEdge = some e → 2000 ≤ (t - e) / 100) : ¬ b.rejects t = true := by
  rw [Beat.rejects, Beat.interval]
  cases he : b.lastEdge with
  | none => nofun
  | some e =>
    have := h e he
    simp only [Option.map_some, Option.any_some, decide_eq_true_eq]
    omega

theorem Beat.ringAfter_of_none (he : b.lastEdge = none) : b.ringAfter t = b.ring := by
  simp only [Beat.ringAfter, Beat.interval, he, Option.map_none]

theorem Beat.ringAfter_of_some {e : Nat} (he : b.lastEdge = some e) (h : 2000 ≤ (t - e) / 100) :
    b.ringAfter t =
      if (t - e) / 100 ≤ 20000 then (if b.ring.length < 4 then b.ring else b.ring.drop 1) ++ [(t - e) / 100] else b.ring := by
  simp only [Beat.ringAfter, Beat.interval, he, Option.map_some, h, true_and, ringAdd]
  exact if_congr Iff.rfl (by split <;> rfl) rfl

theorem meanPeriod_eq (ring : List Nat) (period : Nat) :
    meanPeriod ring period = if ring = [] then period else (ring.sum + ring.length / 2) / ring.length :=
  if_congr List.isEmpty_iff rfl rfl

/-- The Beat Clock of an accepted edge, its beat apart: the pulse is taken and the edge's values stand (R174, R175, R178). -/
def Beat.edged : Beat := ({ b with pulse := none } : Beat).takeEdge t

variable (s : State)

/-- The state of an accepted edge before its beat (R178, R179). -/
def State.edged : State :=
  if s.beat.clock = .freewheel then (s.withBeat (s.beat.edged s.now)).notifyBeatState .locked .edge
  else s.withBeat (s.beat.edged s.now)

theorem State.edged_eq :
    s.edged = (s.withBeat (s.beat.edged s.now)).withNotices
      { s.link.notices with
        beatState := if s.beat.clock = .freewheel then some ⟨.locked, .edge⟩ else s.link.notices.beatState } := by
  unfold State.edged
  split <;> rfl

theorem State.takeEdge_of_rejected (h : s.beat.rejects s.now = true) : s.takeEdge = s.withBeat { s.beat with pulse := none } :=
  if_pos h

theorem State.takeEdge_of_counted (h : ¬ s.beat.rejects s.now = true) (hc : s.beat.counts s.now = true) :
    s.takeEdge = (s.edged.withBeat { s.edged.beat with lastBeat := s.now }).beatNow :=
  (if_neg h).trans (if_pos hc)

theorem State.takeEdge_of_uncounted (h : ¬ s.beat.rejects s.now = true) (hc : ¬ s.beat.counts s.now = true) :
    s.takeEdge = s.edged :=
  (if_neg h).trans (if_neg hc)

theorem Beat.countBeat_eq :
    b.countBeat = { b with bar := b.countBeat.bar, beatsToBar := b.countBeat.beatsToBar } := by
  rcases Nat.lt_or_ge 1 b.beatsToBar with h | h
  · rw [Beat.countBeat_of_beat h]
  · rw [Beat.countBeat_of_bar h]

theorem State.edged_beat : s.edged.beat = s.beat.edged s.now := by
  rw [State.edged_eq]
  rfl

theorem State.edged_playback : s.edged.playback = s.playback := by
  rw [State.edged_eq]
  rfl

theorem State.edged_cueList (n : Nat) : s.edged.cueList n = s.cueList n := by
  rw [State.edged_eq]
  rfl

section Taken
variable {s} (h : ¬ s.beat.rejects s.now = true)
include h

theorem State.takeEdge_beat :
    s.takeEdge.beat = { s.beat.edged s.now with
      lastBeat := s.takeEdge.beat.lastBeat, bar := s.takeEdge.beat.bar, beatsToBar := s.takeEdge.beat.beatsToBar } := by
  by_cases hc : s.beat.counts s.now = true
  · rw [s.takeEdge_of_counted h hc, State.beatNow_beat, Beat.countBeat_eq, State.withBeat_beat, State.edged_beat]
  · rw [s.takeEdge_of_uncounted h hc, State.edged_beat]

theorem State.takeEdge_eq :
    s.takeEdge = ((s.withBeat s.takeEdge.beat).withPlayback s.takeEdge.playback).withNotices
      { s.link.notices with
        beatState := if s.beat.clock = .freewheel then some ⟨.locked, .edge⟩ else s.link.notices.beatState } := by
  by_cases hc : s.beat.counts s.now = true
  · rw [s.takeEdge_of_counted h hc, State.beatNow_eq, State.edged_eq]
    rfl
  · rw [s.takeEdge_of_uncounted h hc, State.edged_eq]
    rfl

theorem State.takeEdge_unbeaten (hc : 4 * (s.now - s.beat.lastBeat) ≤ 100 * s.beat.period) :
    s.takeEdge.beat.lastBeat = s.beat.lastBeat ∧ s.takeEdge.beat.beatsToBar = s.beat.beatsToBar ∧
      s.takeEdge.beat.bar = s.beat.bar ∧ s.takeEdge.playback = s.playback := by
  have hc : ¬ s.beat.counts s.now = true := by
    rw [Beat.counts, decide_eq_true_eq, periodMicros]
    omega
  rw [s.takeEdge_of_uncounted h hc, State.edged_beat, State.edged_playback]
  exact ⟨rfl, rfl, rfl, rfl⟩

theorem State.takeEdge_beaten (hc : 100 * s.beat.period < 4 * (s.now - s.beat.lastBeat)) :
    s.takeEdge.beat.lastBeat = s.now ∧
      (1 < s.beat.beatsToBar →
        s.takeEdge.beat.beatsToBar = s.beat.beatsToBar - 1 ∧ s.takeEdge.beat.bar = s.beat.bar ∧
        s.takeEdge.playback = s.playback) ∧
      (s.beat.beatsToBar ≤ 1 →
        s.takeEdge.beat.beatsToBar = s.beat.beatsPerBar ∧ s.takeEdge.beat.bar = (s.beat.bar + 1) % 65536 ∧
        ∀ n < 8, s.takeEdge.cueList n = { s.cueList n with barsDue := (s.cueList n).barsDue + 1 }) := by
  have hc : s.beat.counts s.now = true := by
    rw [Beat.counts, decide_eq_true_eq, periodMicros]
    omega
  have hlast : s.takeEdge.beat.lastBeat = s.now := by
    rw [s.takeEdge_of_counted h hc, State.beatNow_beat, Beat.countBeat_eq]
    rfl
  have hcounted := State.beatNow_counted (s.edged.withBeat { s.edged.beat with lastBeat := s.now })
  rw [← s.takeEdge_of_counted h hc, State.edged_beat] at hcounted
  simp only [State.withBeat_beat, State.withBeat_playback, State.withBeat_cueList, State.edged_playback,
    State.edged_cueList] at hcounted
  exact ⟨hlast, hcounted⟩

end Taken
end Edges

/-- Settles O50: the filter's two rows; a rejected edge takes the pulse alone, any other edge gives the clock of
`State.takeEdge_beat` and is a beat as `State.takeEdge_beaten` says. -/
theorem edgesLockTheClock : Obligations.EdgesLockTheClock := by
  refine fun s hr => ⟨fun hsrc => ?_, fun at' hp hlt => ?_, fun pulse hp hle => ⟨fun e he hclose => ?_, fun hfar => ?_⟩⟩
  · exact exec_of_enabled s (c := .beatRise) rfl rfl hr (decide_eq_true hsrc)
  · exact exec_of_enabled s (c := .beatPulseFall) rfl rfl hr
      (by simp only [rowEnabled, State.pulseTimed, hp, Option.any_some, decide_eq_true hlt, Bool.and_self])
  all_goals
    have hdue : rowEnabled .acceptedEdge s = true := by
      simp only [rowEnabled, State.edgeDue, hp, Option.any_some, decide_eq_true hle]
  · rw [exec_of_enabled s (c := .acceptedEdge) rfl rfl hr hdue]
    exact congrArg (fun t : State => (.next t.pump : Result)) (s.takeEdge_of_rejected (Beat.rejects_of_close _ _ he hclose))
  · have hnot := Beat.not_rejects s.beat s.now hfar
    have hbeat := State.takeEdge_beat hnot
    have hring : s.takeEdge.beat.ring = s.beat.ringAfter s.now := congrArg Beat.ring hbeat
    have hperiod : s.takeEdge.beat.period = meanPeriod (s.beat.ringAfter s.now) s.beat.period := congrArg Beat.period hbeat
    refine ⟨s.takeEdge, exec_of_enabled s (c := .acceptedEdge) rfl rfl hr hdue, State.takeEdge_eq hnot,
      (congrArg Beat.pulse hbeat :), (congrArg Beat.lastEdge hbeat :), (congrArg Beat.lone hbeat :),
      (congrArg Beat.clock hbeat :), ?_, ?_, ?_, (congrArg Beat.tempo hbeat :), (congrArg Beat.source hbeat :),
      (congrArg Beat.filter hbeat :), (congrArg Beat.beatsPerBar hbeat :),
      State.takeEdge_unbeaten hnot, State.takeEdge_beaten hnot⟩
    · rw [hring]
      cases he : s.beat.lastEdge with
      | none => exact s.beat.ringAfter_of_none s.now he
      | some e => exact s.beat.ringAfter_of_some s.now he (hfar e he)
    · rw [hperiod, hring, meanPeriod_eq]
    · rw [hperiod, Nat.mul_comm]
      exact congrArg Beat.flywheel hbeat

/-! ### The flywheel -/

section Flywheel
variable (b : Beat) (e : Nat)

theorem Beat.takeExpiry_of_manual (h : b.source = .manual) :
    b.takeExpiry e = { b with
      flywheel := some (e + 100 * b.period), loaded := b.period, lastBeat := e } := by
  simp only [Beat.takeExpiry, h, reduceCtorEq, false_and, if_false, periodMicros, Nat.mul_comm]

theorem Beat.takeExpiry_of_external (h : b.source = .external) :
    b.takeExpiry e = { b with
      flywheel := some (e + 100 * b.period), loaded := b.period, lastBeat := e, lone := Nat.min 3 (b.lone + 1)
      clock := if 2 ≤ b.lone ∧ b.clock = .locked then .freewheel else b.clock } := by
  have hlone : Nat.min 3 (b.lone + 1) = 3 ↔ 2 ≤ b.lone := by
    rw [show Nat.min 3 (b.lone + 1) = min 3 (b.lone + 1) from rfl]
    omega
  simp only [Beat.takeExpiry, h, true_and, if_true, periodMicros, Nat.mul_comm, hlone]

variable (s : State)

/-- The state of a flywheel expiry before its beat (R177, R179). -/
def State.expired : State :=
  if (s.beat.takeExpiry e).clock ≠ s.beat.clock then (s.withBeat (s.beat.takeExpiry e)).notifyBeatState .freewheel .lost
  else s.withBeat (s.beat.takeExpiry e)

theorem State.flywheelBeat_eq : s.flywheelBeat e = (s.expired e).beatNow := rfl

theorem State.expired_eq :
    s.expired e = (s.withBeat (s.beat.takeExpiry e)).withNotices
      { s.link.notices with
        beatState := if (s.beat.takeExpiry e).clock = s.beat.clock then s.link.notices.beatState
          else some ⟨.freewheel, .lost⟩ } := by
  unfold State.expired
  by_cases h : (s.beat.takeExpiry e).clock = s.beat.clock
  · rw [if_neg (not_not_intro h), if_pos h]
    rfl
  · rw [if_pos h, if_neg h]
    rfl

theorem State.expired_beat : (s.expired e).beat = s.beat.takeExpiry e := by
  rw [State.expired_eq]
  rfl

theorem State.expired_playback : (s.expired e).playback = s.playback := by
  rw [State.expired_eq]
  rfl

theorem State.expired_cueList (n : Nat) : (s.expired e).cueList n = s.cueList n := by
  rw [State.expired_eq]
  rfl

theorem State.flywheelExpiry_of_due (h : s.beat.flywheel = some e) (he : e ≤ s.now) :
    s.flywheelDue = some e ∧ s.flywheelExpiry = (s.expired e).beatNow := by
  have hdue : s.flywheelDue = some e := by simp only [State.flywheelDue, h, if_pos he]
  exact ⟨hdue, by simp only [State.flywheelExpiry, hdue, State.flywheelBeat_eq]⟩

end Flywheel

/-- Settles O51: `Beat.takeExpiry` for each source, and the beat of `State.beatNow`. -/
theorem flywheelBeats : Obligations.FlywheelBeats := by
  intro s e hr hfly he
  obtain ⟨hdue, hexp⟩ := s.flywheelExpiry_of_due e hfly he
  have hbeat : s.flywheelExpiry.beat = (s.beat.takeExpiry e).countBeat := by
    rw [hexp, State.beatNow_beat, State.expired_beat]
  have hsame := hbeat.trans (Beat.countBeat_eq _)
  have hcounted := State.beatNow_counted (s.expired e)
  rw [← hexp, State.expired_beat, State.expired_playback] at hcounted
  simp only [State.expired_cueList] at hcounted
  refine ⟨s.flywheelExpiry,
    exec_of_enabled s (c := .flywheelExpiry) rfl rfl hr (by simp only [rowEnabled, hdue, Option.isSome_some]), ?_,
    (congrArg Beat.lastBeat hsame :), (congrArg Beat.period hsame :), (congrArg Beat.ring hsame :),
    (congrArg Beat.lastEdge hsame :), (congrArg Beat.tempo hsame :), (congrArg Beat.source hsame :),
    (congrArg Beat.filter hsame :), (congrArg Beat.pulse hsame :),
    (congrArg Beat.beatsPerBar hsame :), fun hsrc => ?_, fun hsrc => ?_, hcounted.1, hcounted.2, ?_⟩
  · rw [Nat.mul_comm]
    exact congrArg Beat.flywheel hsame
  · rw [Beat.takeExpiry_of_manual _ _ hsrc] at hsame
    exact ⟨(congrArg Beat.lone hsame :), (congrArg Beat.clock hsame :)⟩
  · rw [Beat.takeExpiry_of_external _ _ hsrc] at hsame
    exact ⟨(congrArg Beat.lone hsame :), (congrArg Beat.clock hsame :)⟩
  · have hclock : s.flywheelExpiry.beat.clock = (s.beat.takeExpiry e).clock :=
      (congrArg Beat.clock hsame :)
    rw [hclock, hexp, State.beatNow_eq, State.expired_eq]
    rfl

end Sys2Proof.Machine
end


-- ==== Sys2Proof/Proofs/ListObl.lean ====
section
/-! PROOFS. The cue lists: DEFINE_LIST, GO and the next cue (8.3 to 8.5). -/

namespace Sys2Proof.Machine

theorem head?_rising {l : List Nat} (hl : l.Pairwise (· < ·)) (c : Nat) :
    l.head? = some c ↔ c ∈ l ∧ ∀ d ∈ l, c ≤ d := by
  cases l with
  | nil => simp
  | cons x l =>
    rw [List.pairwise_cons] at hl
    constructor
    · rintro ⟨⟩
      exact ⟨List.mem_cons_self, fun d hd => (List.mem_cons.mp hd).elim (fun e => e ▸ le_refl _) fun hd => (hl.1 d hd).le⟩
    · rintro ⟨hc, hle⟩
      rcases List.mem_cons.mp hc with rfl | hc
      · rfl
      · exact absurd (hle x List.mem_cons_self) (by have := hl.1 c hc; omega)

section NextCue
variable (s : State) {l : CueList}

theorem State.nextCue_of_none (h : l.current = none) : s.nextCue l = (s.cuesInRange l).head? := by
  simp only [State.nextCue, h]

theorem State.nextCue_of_above {cur c : Nat} (h : l.current = some cur)
    (hf : (s.cuesInRange l).find? (fun n => decide (cur < n)) = some c) : s.nextCue l = some c := by
  simp only [State.nextCue, h, hf]

theorem State.nextCue_of_last {cur : Nat} (h : l.current = some cur)
    (hf : (s.cuesInRange l).find? (fun n => decide (cur < n)) = none) :
    s.nextCue l = if l.wrap = true then (s.cuesInRange l).head? else none := by
  simp only [State.nextCue, h, hf]

/-- The next cue of a list (R156), with the stored numbers in the list's range in ascending order. -/
theorem State.nextCue_eq_some (hok : dirOk s.memory.cues) (c : Nat) :
    s.nextCue l = some c ↔ c ∈ s.cuesInRange l ∧
      ((l.current = none ∧ ∀ d ∈ s.cuesInRange l, c ≤ d) ∨
        ∃ cur, l.current = some cur ∧
          ((cur < c ∧ ∀ d ∈ s.cuesInRange l, cur < d → c ≤ d) ∨
            (l.wrap = true ∧ (∀ d ∈ s.cuesInRange l, d ≤ cur) ∧ ∀ d ∈ s.cuesInRange l, c ≤ d))) := by
  have hrise := s.cuesInRange_rising hok l
  cases hcur : l.current with
  | none => simp [s.nextCue_of_none hcur, head?_rising hrise]
  | some cur =>
    cases hf : (s.cuesInRange l).find? (fun n => decide (cur < n)) with
    | some m =>
      obtain ⟨⟨hm, hlt⟩, hle⟩ := (find_rising hrise _ m).mp hf
      have hfc := find_rising hrise (fun n => decide (cur < n)) c
      rw [hf] at hfc
      rw [s.nextCue_of_above hcur hf, hfc]
      simp only [decide_eq_true_eq] at hlt ⊢
      constructor
      · rintro ⟨⟨hc, hlc⟩, hd⟩
        exact ⟨hc, .inr ⟨cur, rfl, .inl ⟨hlc, hd⟩⟩⟩
      · rintro ⟨hc, ⟨⟨⟩, -⟩ | ⟨_, ⟨⟩, ⟨hlc, hd⟩ | ⟨-, hall, -⟩⟩⟩
        · exact ⟨⟨hc, hlc⟩, hd⟩
        · exact absurd (hall m hm) (by omega)
    | none =>
      have hall : ∀ d ∈ s.cuesInRange l, d ≤ cur := fun d hd => by simpa using List.find?_eq_none.mp hf d hd
      rw [s.nextCue_of_last hcur hf]
      constructor
      · intro h
        split at h
        · next hw =>
          obtain ⟨hc, hd⟩ := (head?_rising hrise c).mp h
          exact ⟨hc, .inr ⟨cur, rfl, .inr ⟨hw, hall, hd⟩⟩⟩
        · cases h
      · rintro ⟨hc, ⟨⟨⟩, -⟩ | ⟨_, ⟨⟩, ⟨hlc, -⟩ | ⟨hw, -, hd⟩⟩⟩
        · exact absurd (hall c hc) (by omega)
        · rw [if_pos hw, head?_rising hrise]
          exact ⟨hc, hd⟩

/-- A named cue resolves to itself exactly when it is stored and in the list's range (R160). -/
theorem State.resolveCue_some (c : Nat) :
    s.resolveCue l (some c) = if c ∈ s.cuesInRange l then some c else none := by
  refine if_congr ?_ rfl rfl
  rw [dirFind_isSome, State.mem_cuesInRange]
  simp only [CueList.inRange, Bool.and_eq_true, List.any_eq_true, decide_eq_true_eq]

end NextCue

/-! ### GO -/

section Go
variable (s : State) (n cue bar : Nat)

theorem State.go_of_standby (hn : n ≤ 7) (hc : cue ≤ 9999) (h : s.part = .standby) :
    State.go n cue bar s = s.refuse .wrongState :=
  (if_neg (by omega)).trans (if_pos h)

variable {n cue} (hn : n ≤ 7) (hc : cue ≤ 9999) (hl : s.part = .live)
include hn hc hl

theorem State.go_of_stopped (h : s.stop = true) : State.go n cue bar s = s.refuse .stopped :=
  (if_neg (by omega)).trans ((if_neg (by rw [hl]; nofun)).trans (if_pos h))

variable (hstop : s.stop = false)
include hstop

theorem State.go_of_unresolved (h : s.resolveCue (s.cueList n) (wantedCue cue) = none) :
    State.go n cue bar s = s.refuse .notFound :=
  (if_neg (by omega)).trans ((if_neg (by rw [hl]; nofun)).trans ((if_neg (by rw [hstop]; nofun)).trans
    (if_pos (by rw [h]; rfl))))

variable {c : Nat} (hres : s.resolveCue (s.cueList n) (wantedCue cue) = some c)
include hres

theorem State.go_of_pending (h : (s.cueList n).mode = .launching) (hp : (s.cueList n).pendingGo.isSome = true) :
    State.go n cue bar s = s.refuse .busy :=
  (if_neg (by omega)).trans ((if_neg (by rw [hl]; nofun)).trans ((if_neg (by rw [hstop]; nofun)).trans
    ((if_neg (by rw [hres]; nofun)).trans (if_pos ⟨h, hp⟩))))

theorem State.go_of_free (h : (s.cueList n).mode = .launching → (s.cueList n).pendingGo = none) :
    State.go n cue bar s = s.takeGo n (wantedCue cue) (decide (bar ≠ 0)) :=
  (if_neg (by omega)).trans ((if_neg (by rw [hl]; nofun)).trans ((if_neg (by rw [hstop]; nofun)).trans
    ((if_neg (by rw [hres]; nofun)).trans (if_neg fun ⟨hm, hp⟩ => by rw [h hm] at hp; cases hp))))

end Go

section TakeGo
variable (s : State) (n : Nat) (want : Option Nat) (bar : Bool)

theorem State.takeGo_of_launching (h : (s.cueList n).mode = .launching) : s.takeGo n want bar = s.goPend n want bar := by
  simp only [State.takeGo, h]

theorem State.takeGo_of_other (h : (s.cueList n).mode ≠ .launching) :
    s.takeGo n want bar = if bar = true then s.goArm n want else s.goLaunch n want := by
  unfold State.takeGo
  cases hm : (s.cueList n).mode with
  | launching => exact absurd hm h
  | released | running | settled | armed => rfl

theorem State.goLaunch_eq :
    s.goLaunch n want = (s.launch n want .host).answer .ok
      (goData 0 (((s.launch n want .host).cueList n).launch.map fun r => (r.cue, r.serial))) := rfl

theorem State.launched_cueList (c : Nat) (cause : LaunchCause) (link : LinkKind) (ms : Nat) :
    ((s.launched n c cause link ms).cueList n).launch =
      some ⟨true, c, ((s.cueList n).serial + 1) % 65536, 0, cause, link, ms, none, false, false, 0, false, 0, false⟩ := by
  rw [State.launched, State.setCueList_cueList_same]

theorem State.goLaunch_of_resolved {c entries ms : Nat} {link : LinkKind}
    (h : s.resolveCue (s.cueList n) want = some c) (h2 : s.cueHeader c = some (entries, link, ms)) :
    s.goLaunch n want = (s.launched n c .host link ms).answer .ok
      (goData 0 (some (c, ((s.cueList n).serial + 1) % 65536))) := by
  rw [State.goLaunch_eq, s.launch_of_resolved .host h h2, State.launched_cueList]
  rfl

end TakeGo

/-- Settles O45: DEFINE_LIST's two cases, the next cue of `State.nextCue_eq_some`, and GO's refusals and outcomes in their
order. -/
theorem listsAreDefinedAndStarted : Obligations.ListsAreDefinedAndStarted := by
  refine ⟨fun s a h hok => ⟨fun hm => ?_, fun hm => ?_⟩, fun s l stored hmem hst => ?_, fun s n cue bar want h hn hc hw => ?_⟩
  · exact exec_of_answer s rfl h ((if_neg (by rw [hok]; nofun)).trans (if_pos hm))
  · exact exec_of_effect s rfl h (((if_neg (by rw [hok]; nofun)).trans (if_neg (not_not_intro hm)) :
      State.defineList a s = _))
  · have hst' : ∀ c, stored c ↔ c ∈ s.cuesInRange l := fun c => (hst c).trans (s.mem_cuesInRange l c).symm
    simp only [hst']
    refine ⟨s.nextCue_eq_some hmem.1, rfl, fun c => ⟨fun hin => ?_, fun hin => ?_⟩⟩
    · rw [State.resolveCue_some, if_pos hin]
    · rw [State.resolveCue_some, if_neg hin]
  · have hwant : wantedCue cue = want := hw.symm
    refine ⟨fun hp => exec_of_answer s rfl h (s.go_of_standby n cue bar hn hc hp), fun hl hs =>
      exec_of_answer s rfl h (s.go_of_stopped bar hn hc hl hs), fun hl hs => ⟨fun hres => ?_, fun c hres => ?_⟩⟩
    · exact exec_of_answer s rfl h (s.go_of_unresolved bar hn hc hl hs (hwant ▸ hres))
    · rw [← hwant] at hres
      refine ⟨fun hm hp => exec_of_answer s rfl h (s.go_of_pending bar hn hc hl hs hres hm hp), fun hm hp => ?_,
        fun hm hb => ?_, fun hm hb entries link ms hhead => ⟨_, rfl, ?_⟩⟩
      · have hgo := s.go_of_free bar hn hc hl hs hres fun _ => hp
        rw [s.takeGo_of_launching _ _ _ hm, hwant] at hgo
        exact exec_of_effect s rfl h hgo
      · have hgo := s.go_of_free bar hn hc hl hs hres fun h => absurd h hm
        rw [s.takeGo_of_other _ _ _ hm, if_pos (decide_eq_true hb), hwant] at hgo
        exact exec_of_effect s rfl h hgo
      · have hgo := s.go_of_free bar hn hc hl hs hres fun h => absurd h hm
        rw [s.takeGo_of_other _ _ _ hm, if_neg (by rw [hb]; nofun), s.goLaunch_of_resolved n _ hres hhead] at hgo
        exact exec_of_effect s rfl h hgo

end Sys2Proof.Machine
end


-- ==== Sys2Proof/Proofs/LinkCues.lean ====
section
/-! PROOFS. Launch reports, link timers, bar starts and the links of a launch (8.5, 8.6). -/

namespace Sys2Proof.Machine

section Live
variable {l : CueList} {r : Launch}

theorem CueList.liveLaunch_eq_some : l.liveLaunch = some r ↔ l.launch = some r ∧ r.live = true := by
  unfold CueList.liveLaunch
  constructor
  · intro h
    split at h
    · next q hq =>
      split at h
      · next hl =>
        cases h
        exact ⟨hq, hl⟩
      · cases h
    · cases h
  · rintro ⟨h, hl⟩
    simp only [h, hl, if_true]

theorem CueList.mapLaunch_of_launch (h : l.launch = some r) (g : Launch → Launch) :
    l.mapLaunch g = { l with launch := some (g r) } := by
  rw [CueList.mapLaunch, h]
  rfl

end Live

/-! ### Links -/

section Links
variable {s : State} {n : Nat} {r : Launch}

theorem State.linkAtSettling_of_stopped (h : s.stop = true) : s.linkAtSettling n = s.setLinkDue n := if_pos h

theorem State.linkAtSettling_of_running (h : s.stop = false) : s.linkAtSettling n = s.autoGo n .done :=
  if_neg (by rw [h]; nofun)

theorem State.setLinkWait_of_launch (h : (s.cueList n).launch = some r) :
    s.setLinkWait n = s.setCueList n { s.cueList n with launch := some { r with wait := true } } := by
  rw [State.setLinkWait, CueList.mapLaunch_of_launch h]

theorem State.setLinkDue_of_launch (h : (s.cueList n).launch = some r) :
    s.setLinkDue n = s.setCueList n { s.cueList n with launch := some { r with due := true } } := by
  rw [State.setLinkDue, CueList.mapLaunch_of_launch h]

theorem State.linkOnReport_of_none (h : s.part = .standby ∨ r.spent = true ∨ r.link = .manual ∨ r.link = .after) :
    s.linkOnReport n r = s := by
  unfold State.linkOnReport
  rcases h with h | h | h | h
  · exact if_pos (.inl h)
  · exact if_pos (.inr h)
  · simp only [h, ite_self]
  · simp only [h, ite_self]

variable (hp : s.part = .live) (hs : r.spent = false)
include hp hs

theorem State.linkOnReport_of_bar (h : r.link = .nextBar) : s.linkOnReport n r = s.setLinkWait n := by
  simp only [State.linkOnReport, hp, hs, h, reduceCtorEq, or_self, if_false]

theorem State.linkOnReport_of_done (h : r.link = .onDone ∨ r.link = .doneOrAfter) :
    s.linkOnReport n r = s.linkAtSettling n := by
  rcases h with h | h <;> simp only [State.linkOnReport, hp, hs, h, reduceCtorEq, or_self, if_false]

end Links

/-! ### Launch reports -/

section Reports
variable {s : State} {tag : LaunchTag} {r q : Launch}

theorem State.takeReport_of_none (h : (s.cueList tag.list).liveLaunch = none) : s.takeReport tag = s := by
  simp only [State.takeReport, h]

variable (h : (s.cueList tag.list).liveLaunch = some r)
include h

theorem State.takeReport_of_other (hr : r.serial ≠ tag.serial ∨ r.count = 0) : s.takeReport tag = s := by
  simp only [State.takeReport, h]
  exact if_neg (by omega)

variable (hr : r.serial = tag.serial) (hq : q = { r with count := r.count - 1 })
include hr hq

theorem State.takeReport_of_more (hc : 1 < r.count) :
    s.takeReport tag = s.setCueList tag.list { s.cueList tag.list with launch := some q } := by
  subst hq
  simp only [State.takeReport, h, hr, true_and, if_pos (show 0 < r.count by omega), if_neg (show ¬ r.count = 1 by omega)]

variable (hc : r.count = 1)
include hc

theorem State.takeReport_of_running (hm : (s.cueList tag.list).mode = .running) :
    s.takeReport tag =
      ((s.setCueList tag.list { s.cueList tag.list with mode := .settled, launch := some q }).settleNotice
        tag.list q).linkOnReport tag.list q := by
  subst hq
  simp only [State.takeReport, h, hr, hc, true_and, if_pos Nat.one_pos, if_true, hm]

theorem State.takeReport_of_armed (hm : (s.cueList tag.list).mode = .armed) :
    s.takeReport tag =
      (s.setCueList tag.list { s.cueList tag.list with launch := some q }).settleNotice tag.list q := by
  subst hq
  simp only [State.takeReport, h, hr, hc, true_and, if_pos Nat.one_pos, if_true, hm]

theorem State.takeReport_of_counting (hm : (s.cueList tag.list).mode ≠ .running ∧ (s.cueList tag.list).mode ≠ .armed) :
    s.takeReport tag = s.setCueList tag.list { s.cueList tag.list with launch := some q } := by
  subst hq
  simp only [State.takeReport, h, hr, hc, true_and, if_pos Nat.one_pos, if_true]
  cases hmode : (s.cueList tag.list).mode with
  | running => exact absurd hmode hm.1
  | armed => exact absurd hmode hm.2
  | released | launching | settled => rfl

end Reports

/-! ### Bar starts -/

section Bars
variable {s : State} {n : Nat}

/-- The state with one bar start of a list taken (R182). -/
def State.barTaken (s : State) (n : Nat) : State :=
  s.setCueList n { s.cueList n with barsDue := (s.cueList n).barsDue - 1 }

theorem State.barTaken_cueList :
    (s.barTaken n).cueList n = { s.cueList n with barsDue := (s.cueList n).barsDue - 1 } :=
  State.setCueList_cueList_same ..

theorem State.takeBar_of_stopped (h : s.stop = true) : s.takeBar n = s.barTaken n := if_pos h

variable (hs : s.stop = false)
include hs

theorem State.takeBar_of_armed {want : Option Nat} (hm : (s.cueList n).mode = .armed)
    (hg : (s.cueList n).armedGo = some want) : s.takeBar n = (s.barTaken n).launch n want .bar := by
  unfold State.takeBar
  refine (if_neg (by rw [show (s.setCueList n _).stop = s.stop from rfl, hs]; nofun)).trans ?_
  split
  · next w _ hw =>
    cases hg.symm.trans hw
    rfl
  · next hno => exact (hno want hm hg).elim

variable (hm : (s.cueList n).mode ≠ .armed)
include hm

theorem State.takeBar_of_unwaiting
    (h : ((s.cueList n).liveLaunch.any fun r => r.wait) = false ∨ s.part = .standby) : s.takeBar n = s.barTaken n := by
  unfold State.takeBar
  refine (if_neg (by rw [show (s.setCueList n _).stop = s.stop from rfl, hs]; nofun)).trans ?_
  split
  · next hmode _ => exact absurd hmode hm
  · split
    · next r hr =>
      refine if_neg ?_
      rintro ⟨hw, hp⟩
      rcases h with h | h
      · rw [hr] at h
        exact absurd (hw.symm.trans h) nofun
      · exact absurd (hp.symm.trans h) nofun
    · rfl

theorem State.takeBar_of_waiting {r : Launch} (hr : (s.cueList n).liveLaunch = some r) (hw : r.wait = true)
    (hp : s.part = .live) :
    s.takeBar n = ((s.barTaken n).setCueList n
      { (s.barTaken n).cueList n with launch := some { r with wait := false } }).autoGo n .bar := by
  have hlaunch : ((s.barTaken n).cueList n).launch = some r := by
    rw [State.barTaken_cueList]
    exact (CueList.liveLaunch_eq_some.mp hr).1
  rw [← CueList.mapLaunch_of_launch hlaunch fun r => { r with wait := false }]
  unfold State.takeBar
  refine (if_neg (by rw [show (s.setCueList n _).stop = s.stop from rfl, hs]; nofun)).trans ?_
  split
  · next hmode _ => exact absurd hmode hm
  · split
    · next q hq =>
      cases hr.symm.trans hq
      exact if_pos ⟨hw, hp⟩
    · next hnone => exact absurd (hr.symm.trans hnone) nofun

end Bars

/-- Settles O47: a report for each state of its list, an expired link timer, and a bar start for each state of the list. -/
theorem reportsTimersAndBars : Obligations.ReportsTimersAndBars := by
  refine ⟨fun s u rep r q hr hmem hu hq => ?_, fun s u n hr hdue hu => ?_, fun s u n hr hbars hu => ?_⟩
  · have hexec : exec (.launchReport rep) s = .next (u.takeReport rep.tag).pump := by
      rw [exec_of_enabled s (c := .launchReport rep) rfl rfl hr (List.contains_iff_mem.mpr hmem), hu]
      rfl
    have hcue : u.cueList rep.tag.list = s.cueList rep.tag.list := by rw [hu]; rfl
    have hnote : u.link = s.link := by rw [hu]; rfl
    have hpart : u.part = s.part := by rw [hu]; rfl
    have hstop : u.stop = s.stop := by rw [hu]; rfl
    rw [hexec, ← hcue, ← hpart, ← hstop, ← hnote]
    refine ⟨fun h => ?_, fun hl hser => ⟨fun hc => ?_, fun hc hm => ?_, fun v hv hc hm => ?_⟩⟩
    · rcases h with h | ⟨h, ho⟩
      · rw [State.takeReport_of_none h]
      · rw [State.takeReport_of_other h ho]
    · rcases hc with hc | ⟨hc, hm⟩
      · rw [State.takeReport_of_more hl hser hq hc]
      · rw [State.takeReport_of_counting hl hser hq hc hm]
    · rw [State.takeReport_of_armed hl hser hq hc hm, hq]
      rfl
    · have htake : u.takeReport rep.tag = v.linkOnReport rep.tag.list q := by
        rw [State.takeReport_of_running hl hser hq hc hm, hv, hq]
        rfl
      have hvl : (v.cueList rep.tag.list).launch = some q := by
        rw [hv]
        exact congrArg CueList.launch (State.setCueList_cueList_same ..)
      have hvp : v.part = u.part := by rw [hv]; rfl
      have hvs : v.stop = u.stop := by rw [hv]; rfl
      have hspent : q.spent = r.spent := by rw [hq]
      have hlink : q.link = r.link := by rw [hq]
      rw [htake, ← hvp, ← hvs, ← hspent, ← hlink]
      refine ⟨fun h => by rw [State.linkOnReport_of_none h], fun hp hs => ⟨fun h => ?_, fun h => ⟨fun hstop => ?_, fun hstop =>
        ⟨_, v.automaticGo_autoGo rep.tag.list .done, ?_⟩⟩⟩⟩
      · rw [State.linkOnReport_of_bar hp hs h, State.setLinkWait_of_launch hvl]
      · rw [State.linkOnReport_of_done hp hs h, State.linkAtSettling_of_stopped hstop, State.setLinkDue_of_launch hvl]
      · rw [State.linkOnReport_of_done hp hs h, State.linkAtSettling_of_running hstop]
  · have hexec : exec (.linkTimerExpiry n) s = .next (s.linkExpiry n).pump :=
      exec_of_enabled s (c := .linkTimerExpiry n) rfl rfl hr hdue
    have hexp : s.linkExpiry n = if s.part = .standby then u else u.autoGo n .time := by
      rw [hu]
      rfl
    rw [hexec, hexp]
    exact ⟨fun hp => by rw [if_pos hp], fun hp => ⟨_, u.automaticGo_autoGo n .time, by rw [if_neg (by rw [hp]; nofun)]⟩⟩
  · have hexec : exec (.listBarStart n) s = .next (s.takeBar n).pump :=
      exec_of_enabled s (c := .listBarStart n) rfl rfl hr (decide_eq_true hbars)
    have hu : u = s.barTaken n := hu
    subst hu
    rw [hexec]
    refine ⟨fun hs => by rw [State.takeBar_of_stopped hs], fun hs hm => ⟨fun h => ?_, fun r hl hw hp =>
      ⟨_, State.automaticGo_autoGo _ n .bar, ?_⟩⟩, fun hs hm want hg => ⟨fun hres => ?_, fun c entries link ms hres hhead => ?_⟩⟩
    · rw [State.takeBar_of_unwaiting hs hm h]
    · rw [State.takeBar_of_waiting hs hm hl hw hp]
    all_goals
      have hsame : (s.barTaken n).resolveCue ((s.barTaken n).cueList n) want = s.resolveCue (s.cueList n) want := by
        rw [State.barTaken_cueList]
        rfl
      rw [State.takeBar_of_armed hs hm hg]
    · rw [State.launch_of_unresolved _ .bar (hsame.trans hres)]
    · rw [State.launch_of_resolved _ .bar (hsame.trans hres) hhead]

end Sys2Proof.Machine
end


-- ==== Sys2Proof/Proofs/WalkObl.lean ====
section
/-! PROOFS. The walk of a launch: its next claim, one claim of it, and its end (8.4, 8.5). -/

namespace Sys2Proof.Machine

section Items
variable (s : State) (n : Nat) (r : Launch)

theorem State.walking_eq_some :
    s.walking n = some r ↔ (s.cueList n).launch = some r ∧ r.live = true ∧ (s.cueList n).mode = .launching ∧
      r.walkDone = false := by
  rw [← and_assoc, ← CueList.liveLaunch_eq_some]
  unfold State.walking
  constructor
  · intro h
    split at h
    · next q hq =>
      split at h
      · next hm =>
        cases h
        exact ⟨hq, hm⟩
      · cases h
    · cases h
  · rintro ⟨h, hm⟩
    simp only [h, hm, and_self, if_true]

theorem State.walkReady_eq_some (o : Option (Nat × WalkItem)) :
    s.walkReady n = some (r, o) ↔ ((s.cueList n).paused = false ∧ (s.cueList n).launch = some r ∧ r.live = true ∧
      (s.cueList n).mode = .launching ∧ r.walkDone = false) ∧ s.nextItem r = o := by
  rw [← s.walking_eq_some n r, State.walkReady]
  cases hp : (s.cueList n).paused with
  | true => simp
  | false =>
    cases hw : s.walking n with
    | none => simp
    | some q =>
      simp only [Bool.false_eq_true, if_false, Option.map_some, Option.some.injEq, Prod.mk.injEq, true_and]
      constructor <;> (rintro ⟨rfl, h⟩; exact ⟨rfl, h⟩)

theorem rangeMembers_eq (first count : Nat) :
    rangeMembers first count = (List.range 256).filter fun f => decide (first ≤ f ∧ f < first + count) :=
  List.filter_congr fun _ _ => (Bool.decide_and ..).symm

theorem State.walkItems_eq {cue count ms : Nat} {link : LinkKind} (h : s.cueHeader cue = some (count, link, ms)) :
    s.walkItems cue = (List.range count).flatMap fun i => (s.cueEntry cue i).elim [] (entryItems i) := by
  unfold State.walkItems
  rw [h]
  refine List.flatMap_congr fun i _ => ?_
  cases s.cueEntry cue i <;> rfl

theorem entryItems_eq (i : Nat) (e : RawEntry) :
    entryItems i e = ((List.range 256).filter fun f => decide (e.first ≤ f ∧ f < e.first + e.count)).flatMap fun f =>
      (if e.aim = 0 then [] else [⟨i, f, .aim⟩]) ++ if e.colour = 0 then [] else [⟨i, f, .colour⟩] :=
  congrArg (fun l => List.flatMap _ l) (rangeMembers_eq e.first e.count)

theorem State.nextItem_eq_none :
    s.nextItem r = none ↔ ∀ (j : Nat) w, r.walk ≤ j → (s.walkItems r.cue)[j]? = some w → s.isPatched w.fixture = false := by
  rw [State.nextItem, State.firstPatched_eq_none]
  simp only [List.getElem?_drop]
  constructor
  · intro h j w hj hw
    exact h (j - r.walk) w (by rw [Nat.add_sub_cancel' hj]; exact hw)
  · exact fun h j w hw => h _ w (Nat.le_add_right ..) hw

theorem State.nextItem_eq_some (pos : Nat) (w : WalkItem) :
    s.nextItem r = some (pos, w) ↔
      ∃ j : Nat, pos = j + 1 ∧ r.walk ≤ j ∧ (s.walkItems r.cue)[j]? = some w ∧ s.isPatched w.fixture = true ∧
        ∀ (j' : Nat) w', r.walk ≤ j' → j' < j → (s.walkItems r.cue)[j']? = some w' → s.isPatched w'.fixture = false := by
  rw [State.nextItem, State.firstPatched_eq_some]
  simp only [List.getElem?_drop]
  constructor
  · rintro ⟨j, hpos, hw, hp, hbefore⟩
    refine ⟨r.walk + j, hpos, Nat.le_add_right .., hw, hp, fun j' w' hle hlt hw' => hbefore (j' - r.walk) w' (by omega) ?_⟩
    rw [Nat.add_sub_cancel' hle]
    exact hw'
  · rintro ⟨j, hpos, hle, hw, hp, hbefore⟩
    refine ⟨j - r.walk, by omega, ?_, hp, fun i v hi hv => hbefore (r.walk + i) v (by omega) (by omega) hv⟩
    rw [Nat.add_sub_cancel' hle]
    exact hw

end Items

/-! ### One claim -/

section Claim
variable (s : State) (n : Nat) (r : Launch) (pos : Nat)

/-- The record of a walk after a claim (R162). -/
def Launch.counted (active : Bool) : Launch := { r with walk := pos, count := if active then r.count + 1 else r.count }

/-- The state after an AIM claim of a walk, before its hand-over: the stack, the superseded reports, and the launch. -/
def State.aimWalked (f : Nat) (q : Launch) (p : Placement AimClaim) : State :=
  ((s.setAimStack f p.stack).withPlayback
    { s.playback with reports := s.playback.reports ++ p.reports.map fun tag => ⟨false, tag⟩ }).setCueList n
    { s.cueList n with launch := some q }

/-- The state after a COLOUR claim of a walk, before its hand-over. -/
def State.colourWalked (f : Nat) (q : Launch) (p : Placement ColourClaim) : State :=
  ((s.setColourStack f p.stack).withPlayback
    { s.playback with reports := s.playback.reports ++ p.reports.map fun tag => ⟨false, tag⟩ }).setCueList n
    { s.cueList n with launch := some q }

theorem State.countClaim_of_launch {s u : State} {n : Nat} {r : Launch} {pos : Nat} {active : Bool}
    (h : u.cueList n = s.cueList n) (hl : (s.cueList n).launch = some r) :
    u.countClaim n pos active = u.setCueList n { s.cueList n with launch := some (r.counted pos active) } := by
  rw [State.countClaim, h, CueList.mapLaunch_of_launch hl]
  rfl

variable {s n r pos} {w : WalkItem} {e : RawEntry} (hl : (s.cueList n).launch = some r)
  (he : s.cueEntry r.cue w.entry = some e)
include hl he

theorem State.walkClaim_aim {c : AimClaim} {p : Placement AimClaim} (ha : w.attr = .aim) (hc : s.aimClaim e = some c)
    (hp : p = placeClaim (s.aimStack w.fixture) n (s.priority n) c (some ⟨n, r.serial⟩)) :
    s.walkClaim n r pos w =
      ((s.aimWalked n w.fixture (r.counted pos (decide (p.answer = .active))) p).finishAim w.fixture
        ⟨p.answer, p.newTop⟩).1 := by
  subst hp
  simp only [State.walkClaim, he, ha, hc, State.placeAim_eq]
  exact congrArg (fun t : State => (t.finishAim _ _).1) (State.countClaim_of_launch (s := s) (by rfl) hl)

theorem State.walkClaim_colour {c : ColourClaim} {p : Placement ColourClaim} (ha : w.attr = .colour)
    (hc : s.colourClaim e = some c)
    (hp : p = placeClaim (s.colourStack w.fixture) n (s.priority n) c (some ⟨n, r.serial⟩)) :
    s.walkClaim n r pos w =
      (s.colourWalked n w.fixture (r.counted pos (decide (p.answer = .active))) p).finishColour w.fixture
        ⟨p.answer, p.newTop⟩ := by
  subst hp
  simp only [State.walkClaim, he, ha, hc, State.placeColour_eq]
  exact congrArg (fun t : State => t.finishColour _ _) (State.countClaim_of_launch (s := s) (by rfl) hl)

end Claim

section Finish
variable (s : State) (f : Nat)

theorem State.finishAim_none (p : Placed) (h : p.newTop = false) : (s.finishAim f p).1 = s := by
  rw [State.finishAim, h]
  rfl

theorem State.finishAim_top {p : Placed} {x : Entry AimClaim} {es : List (Entry AimClaim)} (h : p.newTop = true)
    (hs : s.aimStack f = x :: es) : (s.finishAim f p).1 = (s.handAim f x x.body.ms).1 := by
  rw [State.finishAim, if_pos h, s.handTopAim_of_top f hs]

theorem State.finishAim_aims (p : Placed) : s.Aims (s.finishAim f p).1 ∧ s.AimsAlone f (s.finishAim f p).1 := by
  unfold State.finishAim State.handTopAim
  split
  · split
    · exact ⟨s.aims_handAim .., s.aimsAlone_handAim ..⟩
    · exact ⟨.refl s, ⟨fun _ _ => ⟨rfl, rfl⟩⟩⟩
  · exact ⟨.refl s, ⟨fun _ _ => ⟨rfl, rfl⟩⟩⟩

theorem State.finishColour_none (p : Placed) (h : p.newTop = false) : s.finishColour f p = s := by
  rw [State.finishColour, h]
  rfl

theorem State.finishColour_top {p : Placed} {x : Entry ColourClaim} {es : List (Entry ColourClaim)} (h : p.newTop = true)
    (hs : s.colourStack f = x :: es) :
    s.finishColour f p = s.handColour f x.body.target x.body.ms (if x.owed = true then x.tag else none) := by
  rw [State.finishColour, if_pos h, s.handTopColour_of_top hs]

/-- A finished COLOUR claim is at most one event on its fixture's record. -/
theorem State.finishColour_cases (p : Placed) : s.finishColour f p = s ∨ ∃ g, s.finishColour f p = s.onColour f g := by
  unfold State.finishColour State.handTopColour
  split
  · split
    · exact .inr ⟨_, rfl⟩
    · exact .inl rfl
  · exact .inl rfl

end Finish

/-! ### The end of a walk -/

section End
variable (s : State) (n : Nat) (r : Launch)

/-- The record of a walk that has ended (R163). -/
def Launch.ended : Launch := { r with walkDone := true, endCount := r.count }

/-- The state of a walk's end before the pending GO or the link: the list's state and its notices (R163). -/
def State.walkEnded : State :=
  (s.setCueList n
    { s.cueList n with
      mode := if 0 < r.count then .running else .settled, pendingGo := none, launch := some r.ended }).withNotices
    { s.link.notices with
      cueStep := some ⟨n, .launched, r.cue, r.serial, r.count, r.cause⟩
      listSettled := if r.count = 0 then some ⟨n, r.cue, r.serial⟩ else s.link.notices.listSettled }

theorem State.walkEnded_launch : ((s.walkEnded n r).cueList n).launch = some r.ended :=
  congrArg CueList.launch (State.setCueList_cueList_same ..)

theorem State.walkEnded_pendingGo : ((s.walkEnded n r).cueList n).pendingGo = none :=
  congrArg CueList.pendingGo (State.setCueList_cueList_same ..)

theorem State.walkEnd_notices (l : CueList) :
    (if r.count = 0 then (s.setCueList n l).settleNotice n r else s.setCueList n l).notifyCueStep
        ⟨n, .launched, r.cue, r.serial, r.count, r.cause⟩ =
      (s.setCueList n l).withNotices
        { s.link.notices with
          cueStep := some ⟨n, .launched, r.cue, r.serial, r.count, r.cause⟩
          listSettled := if r.count = 0 then some ⟨n, r.cue, r.serial⟩ else s.link.notices.listSettled } := by
  split <;> rfl

variable {s n}

theorem State.walkEnd_of_pending {g : HeldGo} (h : (s.cueList n).pendingGo = some g) :
    s.walkEnd n r =
      if g.bar = true then (s.walkEnded n r).enterArmed n g.cue else (s.walkEnded n r).launch n g.cue .host := by
  simp only [State.walkEnd, h, State.walkEnd_notices]
  rfl

theorem State.walkEnd_of_none (h : (s.cueList n).pendingGo = none) :
    s.walkEnd n r = (s.walkEnded n r).linkAtWalkEnd n r := by
  simp only [State.walkEnd, h, State.walkEnd_notices]
  rfl

variable {r}

theorem State.linkAtWalkEnd_of_none
    (h : s.part = .standby ∨ r.link = .manual ∨ (0 < r.count ∧ (r.link = .onDone ∨ r.link = .nextBar))) :
    s.linkAtWalkEnd n r = s := by
  unfold State.linkAtWalkEnd
  rcases h with h | h | ⟨hc, h | h⟩
  · exact if_pos h
  · simp only [h, ite_self]
  · simp only [h, if_neg (show ¬ r.count = 0 by omega), ite_self]
  · simp only [h, if_neg (show ¬ r.count = 0 by omega), ite_self]

variable (hp : s.part = .live)
include hp

theorem State.linkAtWalkEnd_of_timer (h : r.link = .after ∨ (r.link = .doneOrAfter ∧ 0 < r.count)) :
    s.linkAtWalkEnd n r = s.startLinkTimer n r.linkMs := by
  unfold State.linkAtWalkEnd
  rw [if_neg (by rw [hp]; nofun)]
  rcases h with h | ⟨h, hc⟩
  · simp only [h]
  · simp only [h, if_neg (show ¬ r.count = 0 by omega)]

theorem State.linkAtWalkEnd_of_bar (h : r.link = .nextBar) (hc : r.count = 0) :
    s.linkAtWalkEnd n r = s.setLinkWait n := by
  unfold State.linkAtWalkEnd
  rw [if_neg (by rw [hp]; nofun)]
  simp only [h, hc, if_true]

theorem State.linkAtWalkEnd_of_done (h : r.link = .onDone ∨ r.link = .doneOrAfter) (hc : r.count = 0) :
    s.linkAtWalkEnd n r = s.linkAtSettling n := by
  unfold State.linkAtWalkEnd
  rw [if_neg (by rw [hp]; nofun)]
  rcases h with h | h <;> simp only [h, hc, if_true]

end End

theorem State.startLinkTimer_of_launch {s : State} {n : Nat} {r : Launch} (ms : Nat) (h : (s.cueList n).launch = some r) :
    s.startLinkTimer n ms = s.setCueList n
      { s.cueList n with launch := some { r with timer := some (.running (s.now + 1000 * Nat.max 1 ms)) } } := by
  rw [State.startLinkTimer, CueList.mapLaunch_of_launch h]

/-- A list that arms with no GO pending, and its launch record (R159). -/
theorem State.enterArmed_of_launch {s : State} {n : Nat} {q : Launch} (want : Option Nat)
    (hl : (s.cueList n).launch = some q) (hp : (s.cueList n).pendingGo = none) :
    s.enterArmed n want = s.setCueList n
      { s.cueList n with
        mode := .armed, armedGo := some want
        launch := some { q with timer := none, wait := false, due := false, spent := true } } := by
  rw [State.enterArmed_eq, hl]
  generalize s.cueList n = l at hp
  cases l
  cases hp
  rfl

/-- What an event on a colour record leaves alone beside its own fixture (chapter 7). -/
theorem State.finishColour_alone (s : State) (f : Nat) (p : Placed) :
    ((s.finishColour f p).colourStack f).map (fun x => (x.source, x.prio, x.body, x.tag)) =
        (s.colourStack f).map (fun x => (x.source, x.prio, x.body, x.tag)) ∧
      s.playback.reports <+: (s.finishColour f p).playback.reports ∧
      (∀ g, g ≠ f → (s.finishColour f p).colourStack g = s.colourStack g) ∧ s.ColourFrame (s.finishColour f p) := by
  rcases s.finishColour_cases f p with h | ⟨g, h⟩ <;> rw [h]
  · exact ⟨rfl, List.prefix_rfl, fun _ _ => rfl, .refl s⟩
  · refine ⟨s.onColour_stacked f g f, ?_, fun i hi => (s.onColour_other f g hi).2, s.onColour_frame f g⟩
    rw [s.onColour_playback g f]
    exact List.prefix_append ..

/-- Settles O46: the walk's next claim by `State.nextItem_eq_some`, one claim of it by `State.walkClaim_aim` and
`State.walkClaim_colour`, and its end by `State.walkEnd_of_pending` and `State.walkEnd_of_none`. -/
theorem walksClaimAndEnd : Obligations.WalksClaimAndEnd := by
  refine ⟨fun s n count ms link r items runs hhead hitems hruns => ?_, fun s n pos r w e hr hw he => ?_,
    fun s u n r q hr hw hq hu => ?_⟩
  · have hitems : items = s.walkItems r.cue := by
      rw [hitems, s.walkItems_eq hhead]
      refine List.flatMap_congr fun i _ => ?_
      cases s.cueEntry r.cue i with
      | none => rfl
      | some e => exact (entryItems_eq i e).symm
    subst hitems
    refine ⟨?_, fun pos w => ?_⟩
    · rw [State.walkReady_eq_some, hruns, State.nextItem_eq_none]
    · rw [State.walkReady_eq_some, hruns, State.nextItem_eq_some]
  · obtain ⟨⟨-, hl, -, -, -⟩, hnext⟩ := (s.walkReady_eq_some n r _).mp hw
    obtain ⟨j, hpos, hle, -, hpatched, -⟩ := (s.nextItem_eq_some r pos w).mp hnext
    have hexec : exec (.walkStep n) s = .next (s.walkClaim n r pos w).pump := by
      rw [exec_of_enabled s (c := .walkStep n) rfl rfl hr (by
        simp only [rowEnabled, State.walkStepReady, hw, Option.any_some, Option.isSome_some])]
      simp only [rowEffect, State.walkNext, hw]
    have hcount (a : ClaimAnswer) : r.counted pos (decide (a = .active)) =
        { r with walk := pos, count := if a = .active then r.count + 1 else r.count } := by
      simp only [Launch.counted, decide_eq_true_eq]
    refine ⟨hpatched, by omega, fun c p ha hc hp => ?_, fun c p ha hc hp => ?_⟩
    · have hclaim := State.walkClaim_aim (pos := pos) hl he ha hc hp
      rw [hcount] at hclaim
      generalize hv : s.aimWalked n w.fixture _ p = v at hclaim
      have hstack : v.aimStack w.fixture = p.stack := by
        rw [← hv]
        exact State.setAimStack_aimStack_same ..
      obtain ⟨haims, halone⟩ := v.finishAim_aims w.fixture ⟨p.answer, p.newTop⟩
      rw [← hclaim] at haims halone
      refine ⟨_, hexec, ?_, ?_, ?_, fun j hj => ?_, fun g => ?_, fun g hg => ?_, ?_, ?_, ?_, ?_, fun hact => ?_,
        fun v' hv' => ⟨fun hnew => ?_, fun x es hnew htop => ?_⟩⟩
      · rw [State.cueList, haims.lists, ← hv]
        exact congrArg CueList.launch (State.setCueList_cueList_same ..)
      · rw [haims.stacked, hstack]
      · rw [← hv] at haims
        exact haims.reports
      · rw [State.cueList, haims.lists, ← hv]
        exact State.setCueList_cueList_other _ _ _ hj
      · rw [haims.colourStack, ← hv]
        rfl
      · rw [(halone.kept g hg).2, ← hv]
        exact State.setAimStack_aimStack_other _ _ _ hg
      · rw [haims.memory, ← hv]
        rfl
      · rw [haims.rig, ← hv]
        rfl
      · rw [haims.points, ← hv]
        rfl
      · rw [haims.beat, ← hv]
        rfl
      · subst hp
        exact placeClaim_active hact
      · rw [hclaim, State.finishAim_none _ _ _ hnew, ← hv, hv']
        rfl
      · have hv' : v' = v := hv'.trans hv
        rw [hclaim, State.finishAim_top _ _ hnew (hstack.trans htop), hv']
    · have hclaim := State.walkClaim_colour (pos := pos) hl he ha hc hp
      rw [hcount] at hclaim
      generalize hv : s.colourWalked n w.fixture _ p = v at hclaim
      have hstack : v.colourStack w.fixture = p.stack := by
        rw [← hv]
        exact State.setColourStack_colourStack_same ..
      obtain ⟨hkey, hreports, hother, hframe⟩ := v.finishColour_alone w.fixture ⟨p.answer, p.newTop⟩
      rw [← hclaim] at hkey hreports hother hframe
      obtain ⟨hrig, hpoints, hmem, hmotion, hsolver, -, hbeat⟩ := State.blocks_of_exceptColour hframe.others
      refine ⟨_, hexec, ?_, ?_, ?_, fun j hj => ?_, fun g => ?_, fun g hg => ?_, ?_, ?_, ?_, ?_, ?_, ?_, fun hact => ?_,
        fun v' hv' => ⟨fun hnew => ?_, fun x es hnew htop => ?_⟩⟩
      · rw [State.cueList, hframe.lists, ← hv]
        exact congrArg CueList.launch (State.setCueList_cueList_same ..)
      · rw [hkey, hstack]
      · rw [← hv] at hreports
        exact hreports
      · rw [State.cueList, hframe.lists, ← hv]
        exact State.setCueList_cueList_other _ _ _ hj
      · rw [State.aimStack, hframe.aims, ← hv]
        rfl
      · rw [hother g hg, ← hv]
        exact State.setColourStack_colourStack_other _ _ _ hg
      · rw [hmem, ← hv]
        rfl
      · rw [hrig, ← hv]
        rfl
      · rw [hpoints, ← hv]
        rfl
      · rw [hbeat, ← hv]
        rfl
      · rw [hmotion, ← hv]
        rfl
      · rw [hsolver, ← hv]
        rfl
      · subst hp
        exact placeClaim_active hact
      · rw [hclaim, State.finishColour_none _ _ _ hnew, ← hv, hv']
        rfl
      · have hv' : v' = v := hv'.trans hv
        rw [hclaim, State.finishColour_top _ _ hnew (hstack.trans htop), hv']
  · have hq : q = r.ended := hq
    subst hq
    have hu : u = s.walkEnded n r := hu
    subst hu
    have hl : ((s.walkEnded n r).cueList n).launch = some r.ended := s.walkEnded_launch n r
    have hexec : exec (.walkEnd n) s = .next (s.walkEnd n r).pump := by
      rw [exec_of_enabled s (c := .walkEnd n) rfl rfl hr (by
        simp only [rowEnabled, State.walkEndReady, hw, Option.any_some, Option.isNone_none])]
      simp only [rowEffect, State.walkLast, hw]
    have hpart : s.part = (s.walkEnded n r).part := rfl
    have hstop : s.stop = (s.walkEnded n r).stop := rfl
    rw [hexec]
    refine ⟨fun g hg => ?_, fun hnone => ?_⟩
    · rw [State.walkEnd_of_pending r hg]
      refine ⟨fun hb => ?_, fun hb hres => ?_, fun c entries link ms hb hres hhead => ?_⟩
      · rw [if_pos hb, State.enterArmed_of_launch _ hl (s.walkEnded_pendingGo n r)]
      · rw [if_neg (by rw [hb]; nofun), State.launch_of_unresolved _ _ hres]
      · rw [if_neg (by rw [hb]; nofun), State.launch_of_resolved _ _ hres hhead]
    · rw [State.walkEnd_of_none r hnone, hpart, hstop]
      refine ⟨fun h => ?_, fun hp => ⟨fun h => ?_, fun h hc => ?_, fun h hc => ⟨fun hs => ?_, fun hs =>
        ⟨_, State.automaticGo_autoGo _ n .done, ?_⟩⟩⟩⟩
      · rw [State.linkAtWalkEnd_of_none h]
      · rw [State.linkAtWalkEnd_of_timer hp h, State.startLinkTimer_of_launch _ hl]
        rfl
      · rw [State.linkAtWalkEnd_of_bar hp h hc, State.setLinkWait_of_launch hl]
      · rw [State.linkAtWalkEnd_of_done hp h hc, State.linkAtSettling_of_stopped hs, State.setLinkDue_of_launch hl]
      · rw [State.linkAtWalkEnd_of_done hp h hc, State.linkAtSettling_of_running hs]

end Sys2Proof.Machine
end


-- ==== Sys2Proof/Proofs/CueObl.lean ====
section
/-! PROOFS. Storing cues: the judgement, the run written and read back, and STORE_CUE in each of its forms (8.1). -/

namespace Sys2Proof.Machine

/-! ### Runs -/

section Runs
variable (m : CueMemory)

theorem CueMemory.writeRun_get_first (start : Nat) (v : Option CueSlot) (l : List (Option CueSlot)) :
    Store.get none (m.writeRun start (v :: l)).slots start = v :=
  m.writeRun_get start (v :: l) 0 v rfl

theorem CueMemory.writeRun_get_next (start : Nat) (v w : Option CueSlot) (l : List (Option CueSlot)) (i : Nat)
    (h : l[i]? = some w) : Store.get none (m.writeRun start (v :: l)).slots (start + 1 + i) = w := by
  rw [Nat.add_assoc, Nat.add_comm 1 i]
  exact m.writeRun_get start (v :: l) (i + 1) w h

theorem CueMemory.freeRun_get (e : DirEntry) (i : Nat) :
    Store.get none (m.freeRun e).slots i =
      if e.start ≤ i ∧ i < e.start + e.length then none else Store.get none m.slots i := by
  split
  · next h =>
    have hget := m.writeRun_get e.start (List.replicate e.length none) (i - e.start) none
      (by rw [List.getElem?_replicate, if_pos (by omega)])
    rw [Nat.add_sub_cancel' h.1] at hget
    exact hget
  · exact m.writeRun_get_other _ _ _ (by rw [List.length_replicate]; omega)

theorem CueMemory.freeNumber_of_some {d : List DirEntry} {n : Nat} {e : DirEntry} (h : dirFind n d = some e) :
    m.freeNumber d n = m.freeRun e := by
  simp only [CueMemory.freeNumber, h]

theorem CueMemory.freeNumber_get_other (d : List DirEntry) (n i : Nat)
    (h : ∀ e, dirFind n d = some e → i < e.start ∨ e.start + e.length ≤ i) :
    Store.get none (m.freeNumber d n).slots i = Store.get none m.slots i := by
  unfold CueMemory.freeNumber
  split
  · next e he =>
    rw [CueMemory.freeRun_get, if_neg]
    have := h e he
    omega
  · rfl

/-- A number's entry put in anew is the one that the directory then finds, and the others stay (R145). -/
theorem dirFind_replaced (d : List DirEntry) (e : DirEntry) :
    dirFind e.number (dirInsert e (dirRemove e.number d)) = some e ∧
      ∀ n, n ≠ e.number → dirFind n (dirInsert e (dirRemove e.number d)) = dirFind n d :=
  ⟨dirFind_dirInsert_same fun _ hx => (mem_dirRemove.mp hx).2,
    fun _ hn => (dirFind_dirInsert_other hn _).trans (dirFind_dirRemove_other hn d)⟩

end Runs

/-! ### The judgement -/

section Judge
variable {m : CueMemory} {n : Nat}

theorem refusalFor_of_room {remaining : Nat} (h : n + remaining ≤ 8192) : refusalFor n remaining = .needsPack := if_pos h

theorem refusalFor_of_none {remaining : Nat} (h : 8192 < n + remaining) : refusalFor n remaining = .full :=
  if_neg (by omega)

theorem CueMemory.judgeCue_of_new {cue : Nat} (h : dirFind cue m.cues = none) (hl : 512 ≤ m.cues.length) :
    m.judgeCue cue n = .full :=
  if_pos (by rw [h]; simpa using hl)

theorem CueMemory.judgeCue_of_room {cue : Nat} (h : (dirFind cue m.cues).isSome = true ∨ m.cues.length < 512) :
    m.judgeCue cue n =
      if fillOf (dirRemove cue m.cues) + n ≤ floorOf m.palettes then
        .stored (fillOf (dirRemove cue m.cues)) (dirFind cue m.cues).isSome
      else refusalFor n (runSlots (dirRemove cue m.cues) + runSlots m.palettes) := by
  refine if_neg ?_
  simp only [Bool.and_eq_true, Bool.not_eq_true', decide_eq_true_eq]
  rintro ⟨hnone, hlen⟩
  rcases h with h | h
  · rw [h] at hnone
    cases hnone
  · omega

theorem runSlots_append (a b : List DirEntry) : runSlots a + runSlots b = ((a ++ b).map fun e => e.length).sum := by
  rw [runSlots_eq, runSlots_eq, List.map_append, List.sum_append]

end Judge

/-! ### STORE_CUE -/

section Store
variable {s : State} {cue : Nat} {link : LinkKind} {ms : Nat} {es : List RawEntry} (clear : Bool)

theorem State.storeCueRun_of_stored {start : Nat} {rep : Bool}
    (h : s.memory.judgeCue cue (es.length + 1) = .stored start rep) :
    s.storeCueRun cue link ms es clear =
      (s.withMemory (if clear then { s.memory.storeCue start cue link ms es with staging := none }
        else s.memory.storeCue start cue link ms es)).answer .ok
        [BitVec.ofNat 8 start, BitVec.ofNat 8 (start / 256), if rep then 1 else 0] := by
  simp only [State.storeCueRun, h]
  cases rep <;> rfl

theorem State.storeCueRun_of_needsPack (h : s.memory.judgeCue cue (es.length + 1) = .needsPack) :
    s.storeCueRun cue link ms es clear = s.refuse .needsPack := by
  simp only [State.storeCueRun, h]

theorem State.storeCueRun_of_full (h : s.memory.judgeCue cue (es.length + 1) = .full) :
    s.storeCueRun cue link ms es clear = s.refuse .full := by
  simp only [State.storeCueRun, h]

variable {a : CueArgs}

theorem State.storeCue_of_ok (hl : linkOfCode a.link = some link) (hok : cueFieldsOk a = true) :
    State.storeCue 0 a s =
      if s.cueBusy a.cue = true then s.refuse .busy else s.storeCueRun a.cue link (Nat.min 600000 a.time) a.entries false := by
  simp only [State.storeCue, hl]
  exact if_neg (by rw [hok]; simp)

theorem State.storeCueFirst_of_ok (hl : linkOfCode a.link = some link) (hok : cueFieldsOk a = true) :
    State.storeCueFirst a s =
      (s.withMemory { s.memory with staging := some ⟨a.cue, link, Nat.min 600000 a.time, a.entries⟩ }).answer .ok
        [BitVec.ofNat 8 a.entries.length] := by
  simp only [State.storeCueFirst, hl]
  exact if_pos hok

variable {g : Staging} (hg : s.memory.staging = some g) (hcue : g.cue = a.cue)
  (hlen : g.entries.length + a.entries.length ≤ 255)
include hg hcue hlen

theorem State.stagedFor_of_fitting : s.stagedFor a = some g := by
  simp only [State.stagedFor, hg]
  exact if_pos ⟨hcue, hlen⟩

variable (hok : morePartOk a = true)
include hok

theorem State.storeCueMore_of_fitting :
    State.storeCueMore a s =
      (s.withMemory { s.memory with staging := some { g with entries := g.entries ++ a.entries } }).answer .ok
        [BitVec.ofNat 8 (g.entries.length + a.entries.length)] := by
  simp only [State.storeCueMore, hok, State.stagedFor_of_fitting hg hcue hlen]
  rfl

theorem State.storeCueLast_of_fitting :
    State.storeCueLast a s =
      if s.cueBusy a.cue = true then s.refuse .busy
      else s.storeCueRun a.cue g.link g.linkMs (g.entries ++ a.entries) true := by
  simp only [State.storeCueLast, hok, State.stagedFor_of_fitting hg hcue hlen, hcue]

end Store

/-- Settles O42: STORE_CUE in one frame and in parts, the judgement, the marks, and the run read back. -/
theorem cuesAreStored : Obligations.CuesAreStored := by
  refine ⟨fun s a link h hl hok => ?_, fun s a link h hl hok => ?_, fun s a g hg hcue hok hlen => ?_,
    fun m cue n rest old hrest hold => ?_, fun d => ?_, fun m start cue ms link es => ?_⟩
  · have hstore := State.storeCue_of_ok (s := s) hl hok
    refine ⟨fun hb => ?_, fun hb => ⟨fun start rep hj => ?_, fun hj => ?_, fun hj => ?_⟩⟩
    · exact exec_of_answer s rfl h (hstore.trans (if_pos hb))
    all_goals rw [if_neg (by rw [hb]; nofun)] at hstore
    · exact exec_of_effect s rfl h (hstore.trans (State.storeCueRun_of_stored false hj))
    · exact exec_of_answer s rfl h (hstore.trans (State.storeCueRun_of_needsPack false hj))
    · exact exec_of_answer s rfl h (hstore.trans (State.storeCueRun_of_full false hj))
  · exact exec_of_effect s rfl h (State.storeCueFirst_of_ok hl hok)
  · have hlast := State.storeCueLast_of_fitting hg hcue hlen hok
    rw [← List.length_append]
    refine ⟨fun h => ?_, fun h hb => ?_, fun h hb start rep hj => ?_, fun h hb => ⟨fun hj => ?_, fun hj => ?_⟩⟩
    · rw [List.length_append]
      exact exec_of_effect s rfl h (State.storeCueMore_of_fitting hg hcue hlen hok)
    · exact exec_of_answer s rfl h (hlast.trans (if_pos hb))
    all_goals rw [if_neg (by rw [hb]; nofun)] at hlast
    · exact exec_of_effect s rfl h (hlast.trans (State.storeCueRun_of_stored true hj))
    · exact exec_of_answer s rfl h (hlast.trans (State.storeCueRun_of_needsPack true hj))
    · exact exec_of_answer s rfl h (hlast.trans (State.storeCueRun_of_full true hj))
  · rw [← dirRemove_eq] at hrest
    rw [← dirFind_isSome] at hold
    subst hrest hold
    refine ⟨fun hnew hl => CueMemory.judgeCue_of_new (Option.not_isSome_iff_eq_none.mp (by rw [hnew]; nofun)) hl,
      fun hroom => ?_⟩
    rw [CueMemory.judgeCue_of_room hroom, runSlots_append]
    refine ⟨fun hfit => if_pos hfit, fun hlow => ?_⟩
    rw [if_neg (by omega)]
    exact ⟨refusalFor_of_room, refusalFor_of_none⟩
  · exact ⟨fun e he => ⟨le_fillOf he, floorOf_le he⟩, floorOf_le_end d, fillOf_cases d, floorOf_cases d⟩
  · obtain ⟨-, hpal, hpack, hstage⟩ := CueMemory.freeNumber_pack (m := m) m.cues cue
    obtain ⟨hfind, hother⟩ := dirFind_replaced m.cues ⟨cue, start, es.length + 1⟩
    refine ⟨_, rfl, CueMemory.writeRun_get_first .., fun i e he => ?_, hfind, hother, fun i hi hold => ?_, hpal, hpack, hstage⟩
    · exact CueMemory.writeRun_get_next _ _ _ _ _ _ (by rw [List.getElem?_map, he]; rfl)
    · refine (CueMemory.writeRun_get_other _ _ _ _ ?_).trans (m.freeNumber_get_other _ _ _ hold)
      rw [List.length_cons, List.length_map]
      omega

end Sys2Proof.Machine
end


-- ==== Sys2Proof/Proofs/PaletteObl.lean ====
section
/-! PROOFS. Storing palettes, the records that show them, and the deletion of cues and palettes (8.1, 7.8). -/

namespace Sys2Proof.Machine

theorem CueMemory.judgePalette_eq (m : CueMemory) (q n : Nat) :
    m.judgePalette q n =
      if fillOf m.cues + n ≤ floorOf (dirRemove q m.palettes) then
        .stored (floorOf (dirRemove q m.palettes) - n) (dirFind q m.palettes).isSome
      else refusalFor n (runSlots m.cues + runSlots (dirRemove q m.palettes)) := rfl

section StorePalette
variable {s : State} {a : PaletteArgs}

theorem State.storePalette_of_packing (hok : paletteOk a = true) (hp : s.memory.packing = true) :
    State.storePalette a s = s.refuse .busy :=
  (if_neg (by rw [hok]; nofun)).trans (if_pos hp)

variable (hok : paletteOk a = true) (hp : s.memory.packing = false)
include hok hp

theorem State.storePalette_of_stored {start : Nat} {rep : Bool}
    (h : s.memory.judgePalette a.palette (a.overrides.length + 1) = .stored start rep) :
    State.storePalette a s =
      (s.withMemory (s.memory.storePalette start a.palette a.hue a.sat a.fade
        (a.overrides.map RawOverride.stored))).goPalette (s.showing a.palette) a.palette start
        (s.showing a.palette).length := by
  unfold State.storePalette
  rw [if_neg (by rw [hok]; nofun), if_neg (by rw [hp]; nofun)]
  simp only [h]
  rfl

theorem State.storePalette_of_needsPack
    (h : s.memory.judgePalette a.palette (a.overrides.length + 1) = .needsPack) :
    State.storePalette a s = s.refuse .needsPack := by
  unfold State.storePalette
  rw [if_neg (by rw [hok]; nofun), if_neg (by rw [hp]; nofun)]
  simp only [h]

theorem State.storePalette_of_full (h : s.memory.judgePalette a.palette (a.overrides.length + 1) = .full) :
    State.storePalette a s = s.refuse .full := by
  unfold State.storePalette
  rw [if_neg (by rw [hok]; nofun), if_neg (by rw [hp]; nofun)]
  simp only [h]

end StorePalette

theorem State.paletteFade_of_header {s : State} {q number sat fade n : Nat} {hue : Int} {e : DirEntry}
    (he : s.paletteEntry q = some e) (h : s.readSlot e.start = some (.paletteHeader number hue sat fade n)) :
    s.paletteFade q = fade := by
  simp only [State.paletteFade, he, h]

/-! ### Deletions -/

section Deletes
variable {s : State}

theorem State.deleteCue_of_absent {n : Nat} (h1 : 1 ≤ n) (h2 : n ≤ 9999) (h : dirFind n s.memory.cues = none) :
    State.deleteCue n s = s.refuse .notFound := by
  unfold State.deleteCue
  rw [if_neg (by omega)]
  simp only [h]

theorem State.deleteCue_of_stored {n : Nat} {e : DirEntry} (h1 : 1 ≤ n) (h2 : n ≤ 9999)
    (h : dirFind n s.memory.cues = some e) :
    State.deleteCue n s =
      if s.cueBusy n = true then s.refuse .busy
      else (s.withMemory (s.memory.deleteCue n)).answer .ok [BitVec.ofNat 8 e.length, BitVec.ofNat 8 (e.length / 256)] := by
  unfold State.deleteCue
  rw [if_neg (by omega)]
  simp only [h]
  rfl

theorem State.deletePalette_of_absent {q : Nat} (hq : q ≤ 63) (h : s.paletteEntry q = none) :
    State.deletePalette q s = s.refuse .notFound :=
  (if_neg (by omega)).trans (if_pos (by rw [h]; rfl))

theorem State.deletePalette_of_stored {q : Nat} (hq : q ≤ 63) (h : (s.paletteEntry q).isSome = true) :
    State.deletePalette q s =
      if s.memory.packing = true then s.refuse .busy
      else ((s.withMemory (s.memory.deletePalette q)).clearOrigins q (List.range 256)).answer .ok [] :=
  (if_neg (by omega)).trans (if_neg (by simpa using Option.isSome_iff_ne_none.mp h))

/-- The record without the palette as its origin (R137). -/
def Colour.without (q : Nat) (c : Colour) : Colour := if c.origin = some q then { c with origin := none } else c

theorem State.clearOrigin_eq (q f : Nat) :
    s.clearOrigin q f = s.withColour (s.clearOrigin q f).colour ∧
      (s.clearOrigin q f).colour.timer = s.colour.timer ∧ (s.clearOrigin q f).colour.due = s.colour.due ∧
      (s.clearOrigin q f).colour.stopSeen = s.colour.stopSeen := by
  unfold State.clearOrigin
  split
  · split <;> exact ⟨rfl, rfl, rfl, rfl⟩
  · exact ⟨rfl, rfl, rfl, rfl⟩

theorem State.clearOrigin_colourOf (q f g : Nat) :
    (s.clearOrigin q f).colourOf g = if g = f then (s.colourOf g).map (Colour.without q) else s.colourOf g := by
  unfold State.clearOrigin
  by_cases hg : g = f
  · subst hg
    rw [if_pos rfl]
    split
    · next c hc =>
      rw [hc]
      by_cases ho : c.origin = some q
      · rw [if_pos ho, State.setColourOf_colourOf_same, Option.map_some, Colour.without, if_pos ho]
      · rw [if_neg ho, hc, Option.map_some, Colour.without, if_neg ho]
    · next hc =>
      rw [hc]
      rfl
  · rw [if_neg hg]
    split
    · split
      · exact State.setColourOf_colourOf_other _ _ _ hg
      · rfl
    · rfl

theorem State.clearOrigins_eq (q : Nat) (fs : List Nat) :
    s.clearOrigins q fs = s.withColour (s.clearOrigins q fs).colour ∧
      (s.clearOrigins q fs).colour.timer = s.colour.timer ∧ (s.clearOrigins q fs).colour.due = s.colour.due ∧
      (s.clearOrigins q fs).colour.stopSeen = s.colour.stopSeen := by
  induction fs generalizing s with
  | nil => exact ⟨rfl, rfl, rfl, rfl⟩
  | cons f fs ih =>
    obtain ⟨heq, htimer, hdue, hseen⟩ := s.clearOrigin_eq q f
    obtain ⟨heq', htimer', hdue', hseen'⟩ := ih (s := s.clearOrigin q f)
    refine ⟨?_, htimer'.trans htimer, hdue'.trans hdue, hseen'.trans hseen⟩
    rw [State.clearOrigins]
    rw [heq] at heq' ⊢
    exact heq'

theorem Colour.without_without (q : Nat) (c : Colour) : (c.without q).without q = c.without q := by
  unfold Colour.without
  by_cases h : c.origin = some q
  · rw [if_pos h, if_neg nofun]
  · rw [if_neg h, if_neg h]

theorem State.clearOrigins_colourOf (q : Nat) (fs : List Nat) (g : Nat) :
    (s.clearOrigins q fs).colourOf g = if g ∈ fs then (s.colourOf g).map (Colour.without q) else s.colourOf g := by
  induction fs generalizing s with
  | nil => rfl
  | cons f fs ih =>
    rw [State.clearOrigins, ih, State.clearOrigin_colourOf]
    by_cases hg : g = f <;> by_cases hm : g ∈ fs <;> simp [hg, hm, Colour.without_without, Function.comp_def]

end Deletes

/-- What a deletion of a stored run leaves (R148, R150): its slots empty, every other slot as it was. -/
theorem CueMemory.freeNumber_get (m : CueMemory) {d : List DirEntry} {n : Nat} {e : DirEntry} (h : dirFind n d = some e)
    (i : Nat) :
    Store.get none (m.freeNumber d n).slots i =
      if e.start ≤ i ∧ i < e.start + e.length then none else Store.get none m.slots i := by
  rw [m.freeNumber_of_some h, CueMemory.freeRun_get]

/-- Settles O43: STORE_PALETTE and its updates, the judgement and the run read back, and the two deletions. -/
theorem palettesAndDeletes : Obligations.PalettesAndDeletes := by
  refine ⟨fun s a h hok => ⟨fun hp => ?_, fun hp => ⟨fun start rep hj => ?_, fun hj => ?_, fun hj => ?_⟩⟩,
    fun s f fs q start n hr hw => ?_, fun s q number sat fade n hue e he h => State.paletteFade_of_header he h,
    fun m q n rest old hrest hold => ?_, fun m start q sat fade hue os => ?_, fun s n h h1 h2 => ⟨fun ha => ?_, fun e he =>
      ⟨fun hb => ?_, fun hb => ?_⟩⟩, fun s q h hq => ⟨fun ha => ?_, fun he hp => ?_, fun e he hp => ?_⟩⟩
  · exact exec_of_answer s rfl h (State.storePalette_of_packing hok hp)
  · exact exec_of_effect s rfl h (State.storePalette_of_stored hok hp hj)
  · exact exec_of_answer s rfl h (State.storePalette_of_needsPack hok hp hj)
  · exact exec_of_answer s rfl h (State.storePalette_of_full hok hp hj)
  · rw [exec_of_enabled s (c := .paletteUpdate) rfl rfl hr (by simp only [rowEnabled, State.updating, hw])]
    simp only [rowEffect, State.updateNext, hw]
  · rw [← dirRemove_eq] at hrest
    rw [← dirFind_isSome] at hold
    subst hrest hold
    rw [CueMemory.judgePalette_eq, runSlots_append]
    refine ⟨fun hfit => if_pos hfit, fun hlow => ?_⟩
    rw [if_neg (by omega)]
    exact ⟨refusalFor_of_room, refusalFor_of_none⟩
  · obtain ⟨hcues, -, hpack, hstage⟩ := CueMemory.freeNumber_pack (m := m) m.palettes q
    obtain ⟨hfind, hother⟩ := dirFind_replaced m.palettes ⟨q, start, os.length + 1⟩
    refine ⟨_, rfl, CueMemory.writeRun_get_first .., fun i o ho => ?_, hfind, hother, fun i hi hold => ?_, hcues, hpack,
      hstage⟩
    · exact CueMemory.writeRun_get_next _ _ _ _ _ _ (by rw [List.getElem?_map, ho]; rfl)
    · refine (CueMemory.writeRun_get_other _ _ _ _ ?_).trans (m.freeNumber_get_other _ _ _ hold)
      rw [List.length_cons, List.length_map]
      omega
  · exact exec_of_answer s rfl h (State.deleteCue_of_absent h1 h2 ha)
  · exact exec_of_answer s rfl h ((State.deleteCue_of_stored h1 h2 he).trans (if_pos hb))
  · obtain ⟨-, hpal, hpack, hstage⟩ := CueMemory.freeNumber_pack (m := s.memory) s.memory.cues n
    exact ⟨s.withMemory (s.memory.deleteCue n),
      exec_of_effect s rfl h ((State.deleteCue_of_stored h1 h2 he).trans (if_neg (by rw [hb]; nofun))), rfl,
      dirFind_dirRemove_same .., fun j hj => dirFind_dirRemove_other hj _, hpal, hpack, hstage,
      s.memory.freeNumber_get he⟩
  · exact exec_of_answer s rfl h (State.deletePalette_of_absent hq ha)
  · exact exec_of_answer s rfl h ((State.deletePalette_of_stored hq he).trans (if_pos hp))
  · obtain ⟨hcues, -, hpack, hstage⟩ := CueMemory.freeNumber_pack (m := s.memory) s.memory.palettes q
    have hdelete := (State.deletePalette_of_stored hq (by rw [he]; rfl)).trans (if_neg (by rw [hp]; nofun))
    obtain ⟨heq, htimer, hdue, hseen⟩ :=
      State.clearOrigins_eq (s := s.withMemory (s.memory.deletePalette q)) q (List.range 256)
    have hrecords := State.clearOrigins_colourOf (s := s.withMemory (s.memory.deletePalette q)) q (List.range 256)
    generalize (s.withMemory (s.memory.deletePalette q)).clearOrigins q (List.range 256) = t at *
    have hmem : t.memory = s.memory.deletePalette q := by rw [heq]; rfl
    refine ⟨t, exec_of_effect s rfl h hdelete, hmem ▸ heq, ?_⟩
    rw [hmem]
    exact ⟨dirFind_dirRemove_same .., fun j hj => dirFind_dirRemove_other hj _, hcues, hpack, hstage,
      s.memory.freeNumber_get he, htimer, hdue, hseen, fun f hf => (hrecords f).trans (if_pos (List.mem_range.mpr hf))⟩

end Sys2Proof.Machine
end


-- ==== Sys2Proof/Proofs/PackObl.lean ====
section
/-! PROOFS. Packing: the run that a step moves, and the contents that every run keeps (8.2). -/

namespace Sys2Proof.Machine

section Moves
variable (m : CueMemory)

/-! ### The run that a step takes -/

theorem CueMemory.cueMove_of_arranged {m : CueMemory} (h : dirOk m.cues) {i d : Nat} {l : List DirEntry} {e : DirEntry}
    (hp : l.Perm m.cues) (hl : l.Pairwise fun a b => a.start < b.start) (hi : l[i]? = some e)
    (hd : (i = 0 ∧ d = 0) ∨ ∃ j b, i = j + 1 ∧ l[j]? = some b ∧ d = b.start + b.length) :
    m.cueMove i = some (e, d) := by
  unfold CueMemory.cueMove
  rw [byStart_eq h hp hl]
  simp only [hi]
  rcases hd with ⟨rfl, rfl⟩ | ⟨j, b, rfl, hj, rfl⟩
  · rfl
  · rw [if_neg (Nat.succ_ne_zero j), Nat.add_sub_cancel, hj]
    rfl

theorem CueMemory.paletteMove_of_arranged {m : CueMemory} (h : dirOk m.palettes) {i d : Nat} {l : List DirEntry}
    {e : DirEntry} (hp : l.Perm m.palettes) (hl : l.Pairwise fun a b => b.start < a.start) (hi : l[i]? = some e)
    (hd : (i = 0 ∧ d = 8192 - e.length) ∨ ∃ j b, i = j + 1 ∧ l[j]? = some b ∧ d = b.start - e.length) :
    m.paletteMove i = some (e, d) := by
  unfold CueMemory.paletteMove
  rw [byStart_eq h ((List.reverse_perm l).trans hp) (List.pairwise_reverse.mpr hl), List.reverse_reverse]
  simp only [hi]
  rcases hd with ⟨rfl, rfl⟩ | ⟨j, b, rfl, hj, rfl⟩
  · rfl
  · rw [if_neg (Nat.succ_ne_zero j), Nat.add_sub_cancel, hj]
    rfl

theorem CueMemory.paletteMove_of_end {i : Nat} (h : m.palettes.length ≤ i) : m.paletteMove i = none := by
  unfold CueMemory.paletteMove
  rw [List.getElem?_eq_none (by rw [List.length_reverse, (byStart_perm _).length_eq]; exact h)]

/-- A run's slots copied to its new place, unless it stands there already (R152). -/
def CueMemory.moved (e : DirEntry) (d : Nat) : CueMemory := if d = e.start then m else m.copyRun e d

theorem CueMemory.packStep_of_cue {e : DirEntry} {d : Nat} (h : m.pack.taken < m.cues.length)
    (hm : m.cueMove m.pack.taken = some (e, d)) :
    m.packStep = { m.moved e d with
      cues := moveEntry e.number d m.cues, pack := m.countStep (movedSlots e d) } := by
  unfold CueMemory.packStep
  rw [if_pos h]
  simp only [hm]
  rfl

theorem CueMemory.packStep_of_palette {e : DirEntry} {d : Nat} (h : ¬ m.pack.taken < m.cues.length)
    (hm : m.paletteMove (m.pack.taken - m.cues.length) = some (e, d)) :
    m.packStep = { m.moved e d with
      palettes := moveEntry e.number d m.palettes, pack := m.countStep (movedSlots e d) } := by
  unfold CueMemory.packStep
  rw [if_neg h]
  simp only [hm]
  rfl

theorem CueMemory.packStep_of_end (h : m.cues.length + m.palettes.length ≤ m.pack.taken) :
    m.packStep = { m with pack := m.countStep 0 } := by
  unfold CueMemory.packStep
  rw [if_neg (by omega), m.paletteMove_of_end (by omega)]

/-- A step of a pack takes a cue run, a palette run, or none (R152). -/
theorem CueMemory.packStep_cases :
    (∃ e d, m.cueMove m.pack.taken = some (e, d) ∧
        m.packStep = { m.moved e d with
          cues := moveEntry e.number d m.cues, pack := m.countStep (movedSlots e d) }) ∨
      (∃ e d, m.paletteMove (m.pack.taken - m.cues.length) = some (e, d) ∧
        m.packStep = { m.moved e d with
          palettes := moveEntry e.number d m.palettes, pack := m.countStep (movedSlots e d) }) ∨
      m.packStep = { m with pack := m.countStep 0 } := by
  by_cases h : m.pack.taken < m.cues.length
  · cases hm : m.cueMove m.pack.taken with
    | some w => exact .inl ⟨w.1, w.2, rfl, m.packStep_of_cue h hm⟩
    | none =>
      refine .inr (.inr ?_)
      unfold CueMemory.packStep
      rw [if_pos h, hm]
  · cases hm : m.paletteMove (m.pack.taken - m.cues.length) with
    | some w => exact .inr (.inl ⟨w.1, w.2, rfl, m.packStep_of_palette h hm⟩)
    | none =>
      refine .inr (.inr ?_)
      unfold CueMemory.packStep
      rw [if_neg h, hm]

theorem CueMemory.packStep_taken : m.packStep.pack.taken = m.pack.taken + 1 := by
  rcases m.packStep_cases with ⟨e, d, -, h⟩ | ⟨e, d, -, h⟩ | h <;> rw [h] <;> rfl

theorem CueMemory.countStep_eq (n : Nat) :
    m.countStep n =
      { m.pack with
        phase :=
          if m.pack.total ≤ m.pack.taken + 1 then .idle
          else if m.pack.taken + 1 < m.cues.length then .cues else .palettes
        taken := m.pack.taken + 1
        moved := m.pack.moved + n } := by
  unfold CueMemory.countStep
  rw [if_congr (Nat.not_le (a := m.pack.total)).symm rfl rfl, ite_not]

/-! ### What a move keeps -/

theorem CueMemory.moved_eq (e : DirEntry) (d : Nat) : m.moved e d = { m with slots := (m.moved e d).slots } := by
  unfold CueMemory.moved
  split <;> rfl

theorem CueMemory.moved_get_other (e : DirEntry) (d a : Nat) (h1 : a < d ∨ d + e.length ≤ a)
    (h2 : a < e.start ∨ e.start + e.length ≤ a) :
    Store.get none (m.moved e d).slots a = Store.get none m.slots a := by
  unfold CueMemory.moved
  split
  · rfl
  · exact m.copyRun_get_other e d a h1 h2

theorem CueMemory.runContents_congr {m m' : CueMemory} {e e' : DirEntry} (hl : e'.length = e.length)
    (h : ∀ i < e.length, Store.get none m'.slots (e'.start + i) = Store.get none m.slots (e.start + i)) :
    m'.runContents e' = m.runContents e := by
  unfold CueMemory.runContents
  rw [hl]
  exact List.map_congr_left fun i hi => h i (List.mem_range.mp hi)

theorem CueMemory.runContents_get (e : DirEntry) {i : Nat} (h : i < e.length) :
    (m.runContents e)[i]? = some (Store.get none m.slots (e.start + i)) := by
  rw [CueMemory.runContents, List.getElem?_map, List.getElem?_range h]
  rfl

theorem CueMemory.moved_contents (e : DirEntry) (d : Nat) :
    (m.moved e d).runContents { e with start := d } = m.runContents e := by
  refine CueMemory.runContents_congr rfl fun i hi => ?_
  unfold CueMemory.moved
  split
  · next h => rw [h]
  · exact CueMemory.writeRun_get _ _ _ _ _ (m.runContents_get e hi)

/-- A run that shares no slot with a moved run's old or new place keeps its contents. -/
theorem CueMemory.moved_contents_other {e x : DirEntry} {d : Nat} (hold : e.apart x)
    (hnew : ({ e with start := d } : DirEntry).apart x) : (m.moved e d).runContents x = m.runContents x := by
  refine CueMemory.runContents_congr rfl fun i hi => m.moved_get_other e d _ ?_ ?_
  · unfold DirEntry.apart at hnew
    dsimp only at hnew
    omega
  · unfold DirEntry.apart at hold
    omega

theorem dirFind_moveEntry (n k d : Nat) (l : List DirEntry) :
    dirFind n (moveEntry k d l) = (dirFind n l).map fun e => if e.number = k then { e with start := d } else e := by
  rw [dirFind, moveEntry, List.find?_map, dirFind]
  congr 1
  refine List.find?_congr fun e _ => ?_
  dsimp only [Function.comp_apply]
  split <;> rfl

/-- After a move every run of the moved run's directory is found with its length and its contents (R152, R153). -/
theorem CueMemory.moved_run {l : List DirEntry} {e x : DirEntry} {d n : Nat} (hok : dirOk l) (he : e ∈ l)
    (hfit : fitsAmong l e d) (hx : dirFind n l = some x) :
    ∃ x', dirFind n (moveEntry e.number d l) = some x' ∧ x'.length = x.length ∧
      (x' = x ∨ (x = e ∧ x'.start = d)) ∧ (m.moved e d).runContents x' = m.runContents x := by
  obtain ⟨hmem, -⟩ := dirFind_eq_some hx
  rw [dirFind_moveEntry, hx, Option.map_some]
  by_cases hxe : x = e
  · subst hxe
    rw [if_pos rfl]
    exact ⟨_, rfl, rfl, .inr ⟨rfl, rfl⟩, m.moved_contents x d⟩
  · rw [if_neg fun hn => hxe (dirOk_unique hok hmem he hn)]
    exact ⟨x, rfl, rfl, .inl rfl, m.moved_contents_other (dirOk_apart hok he hmem (Ne.symm hxe)) (hfit x hmem hxe)⟩

end Moves

section Step
variable {m : CueMemory} (hok : m.ok)
include hok

/-- The runs of cues end at or below the runs of palettes (R144). -/
theorem CueMemory.cue_below_palette {c p : DirEntry} (hc : c ∈ m.cues) (hp : p ∈ m.palettes) :
    c.start + c.length ≤ p.start := by
  obtain ⟨-, -, -, -, -, hmark⟩ := hok
  exact ((le_fillOf hc).trans hmark).trans (floorOf_le hp)

/-- A step leaves every cue's length and contents, and moves none of them up (R152). -/
theorem CueMemory.packStep_cue {n : Nat} {x : DirEntry} (hx : dirFind n m.cues = some x) :
    ∃ x', dirFind n m.packStep.cues = some x' ∧ x'.length = x.length ∧ x'.start ≤ x.start ∧
      m.packStep.runContents x' = m.runContents x := by
  obtain ⟨hmem, -⟩ := dirFind_eq_some hx
  have ⟨hc, hp, _, _, hend, _⟩ := hok
  rcases m.packStep_cases with ⟨e, d, hm, h⟩ | ⟨e, d, hm, h⟩ | h
  · obtain ⟨he, hle, hfit⟩ := CueMemory.cueMove_spec hc hm
    obtain ⟨x', hfind, hlen, hstart, hrun⟩ := m.moved_run hc he hfit hx
    rw [h]
    refine ⟨x', hfind, hlen, ?_, hrun⟩
    rcases hstart with rfl | ⟨rfl, hd⟩
    · exact Nat.le_refl _
    · rw [hd]
      exact hle
  · obtain ⟨he, hle, -, -⟩ := CueMemory.paletteMove_spec hp hend hm
    have hbelow := CueMemory.cue_below_palette hok hmem he
    rw [h, m.moved_eq]
    exact ⟨x, hx, rfl, Nat.le_refl _, m.moved_contents_other (.inr hbelow) (.inr (hbelow.trans hle))⟩
  · rw [h]
    exact ⟨x, hx, rfl, Nat.le_refl _, rfl⟩

/-- A step leaves every palette's length and contents, and moves none of them down (R152). -/
theorem CueMemory.packStep_palette {n : Nat} {x : DirEntry} (hx : dirFind n m.palettes = some x) :
    ∃ x', dirFind n m.packStep.palettes = some x' ∧ x'.length = x.length ∧ x.start ≤ x'.start ∧
      m.packStep.runContents x' = m.runContents x := by
  obtain ⟨hmem, -⟩ := dirFind_eq_some hx
  have ⟨hc, hp, _, _, hend, _⟩ := hok
  rcases m.packStep_cases with ⟨e, d, hm, h⟩ | ⟨e, d, hm, h⟩ | h
  · obtain ⟨he, hle, -⟩ := CueMemory.cueMove_spec hc hm
    have hbelow := CueMemory.cue_below_palette hok he hmem
    rw [h, m.moved_eq]
    exact ⟨x, hx, rfl, Nat.le_refl _,
      m.moved_contents_other (.inl hbelow) (.inl ((Nat.add_le_add_right hle _).trans hbelow))⟩
  · obtain ⟨he, hle, -, hfit⟩ := CueMemory.paletteMove_spec hp hend hm
    obtain ⟨x', hfind, hlen, hstart, hrun⟩ := m.moved_run hp he hfit hx
    rw [h]
    refine ⟨x', hfind, hlen, ?_, hrun⟩
    rcases hstart with rfl | ⟨rfl, hd⟩
    · exact Nat.le_refl _
    · rw [hd]
      exact hle
  · rw [h]
    exact ⟨x, hx, rfl, Nat.le_refl _, rfl⟩

end Step

/-! ### PACK and ABORT_PACK -/

section Commands
variable {s : State}

theorem State.packDone_eq (c : PackCause) {fill floor hole : Nat} (hf : s.memory.fill = fill) (hl : s.memory.floor = floor)
    (hh : s.memory.hole = hole) :
    s.packDone c = s.withNotices
      { s.link.notices with packDone := some ⟨c, s.memory.pack.taken, s.memory.pack.moved, fill, floor, hole⟩ } := by
  subst hf hl hh
  rfl

theorem State.beginPack_of_packing (h : s.memory.packing = true) : s.beginPack = s.refuse .busy := if_pos h

theorem State.beginPack_of_runs (h : s.memory.packing = false) (hr : 0 < s.memory.cues.length + s.memory.palettes.length) :
    s.beginPack =
      (s.withMemory { s.memory with pack := ⟨.cues, 0, s.memory.cues.length + s.memory.palettes.length, 0⟩ }).answer
        .accepted [] := by
  unfold State.beginPack
  rw [if_neg (by rw [h]; nofun)]
  refine congrArg (fun t : State => t.answer .accepted []) (if_neg ?_)
  exact Nat.pos_iff_ne_zero.mp hr

theorem State.beginPack_of_none (h : s.memory.packing = false) (hc : s.memory.cues = []) (hp : s.memory.palettes = []) :
    s.beginPack =
      ((s.withMemory { s.memory with pack := ⟨.idle, 0, 0, 0⟩ }).withNotices
        { s.link.notices with packDone := some ⟨.complete, 0, 0, 0, 8192, 0⟩ }).answer .accepted [] := by
  have hlen : s.memory.cues.length + s.memory.palettes.length = 0 := by rw [hc, hp]; rfl
  have htotal : s.memory.beginPack = { s.memory with pack := ⟨.cues, 0, 0, 0⟩ } :=
    congrArg (fun t => { s.memory with pack := ⟨.cues, 0, t, 0⟩ }) hlen
  have hfill (p : PackState) : ({ s.memory with pack := p } : CueMemory).fill = 0 := by rw [CueMemory.fill, hc]; rfl
  have hfloor (p : PackState) : ({ s.memory with pack := p } : CueMemory).floor = 8192 := by
    rw [CueMemory.floor, hp]; rfl
  have hhole (p : PackState) : ({ s.memory with pack := p } : CueMemory).hole = 0 := CueMemory.hole_of_empty hc hp
  unfold State.beginPack
  rw [if_neg (by rw [h]; nofun), htotal]
  refine congrArg (fun t : State => t.answer .accepted []) ((if_pos rfl).trans ?_)
  exact State.packDone_eq .complete (hfill _) (hfloor _) (hhole _)

theorem State.abortPack_of_idle (h : s.memory.packing = false) : s.abortPack = s.refuse .wrongState :=
  if_neg (by rw [h]; nofun)

theorem State.abortPack_of_packing (h : s.memory.packing = true) :
    s.abortPack =
      ((s.withMemory { s.memory with pack := { s.memory.pack with phase := .idle } }).withNotices
        { s.link.notices with
          packDone := some ⟨.aborted, s.memory.pack.taken, s.memory.pack.moved, s.memory.fill, s.memory.floor,
            s.memory.hole⟩ }).answer .ok
        [BitVec.ofNat 8 s.memory.pack.taken, BitVec.ofNat 8 (s.memory.pack.taken / 256),
          BitVec.ofNat 8 s.memory.pack.moved, BitVec.ofNat 8 (s.memory.pack.moved / 256)] :=
  if_pos h

theorem State.packNext_of_packing (h : s.memory.packStep.packing = true) :
    s.packNext = s.withMemory s.memory.packStep := if_pos h

theorem State.packNext_of_last (h : s.memory.packStep.packing = false) :
    s.packNext = (s.withMemory s.memory.packStep).withNotices
      { s.link.notices with
        packDone := some ⟨.complete, s.memory.packStep.pack.taken, s.memory.packStep.pack.moved,
          s.memory.packStep.fill, s.memory.packStep.floor, s.memory.packStep.hole⟩ } :=
  if_neg (fun h' : s.memory.packStep.packing = true => by rw [h] at h'; cases h')

end Commands

/-- Settles O44: PACK and ABORT_PACK, the run that a step moves and where to, and the contents that every run keeps. -/
theorem packsKeepEveryRun : Obligations.PacksKeepEveryRun := by
  refine ⟨fun s => ⟨fun h hp => ?_, fun h hp hr => ?_, fun h hp hc hpal => ?_, fun h hp => ?_, fun h hp => ?_, fun hr hp =>
    ⟨fun hs => ?_, fun hs => ?_⟩⟩, fun m hok => ⟨CueMemory.packStep_ok hok, m.packStep_taken, fun i d l e h => ?_, fun h => ?_,
      fun n e he => CueMemory.packStep_cue hok he, fun n e he => CueMemory.packStep_palette hok he⟩⟩
  · exact exec_of_answer s rfl h (State.beginPack_of_packing hp)
  · exact exec_of_effect s rfl h (State.beginPack_of_runs hp hr)
  · exact exec_of_effect s rfl h (State.beginPack_of_none hp hc hpal)
  · exact exec_of_answer s rfl h (State.abortPack_of_idle hp)
  · exact exec_of_effect s rfl h (State.abortPack_of_packing hp)
  · rw [exec_of_enabled s (c := .packStep) rfl rfl hr hp]
    exact congrArg (fun t : State => (.next t.pump : Result)) (State.packNext_of_packing hs)
  · rw [exec_of_enabled s (c := .packStep) rfl rfl hr hp]
    exact congrArg (fun t : State => (.next t.pump : Result)) (State.packNext_of_last hs)
  · obtain ⟨hc, hpal, -, -, hend, -⟩ := hok
    have hslots (m' : CueMemory) (h : m'.slots = (m.moved e d).slots) :
        (d = e.start → m'.slots = m.slots) ∧
          ∀ a, (a < d ∨ d + e.length ≤ a) → (a < e.start ∨ e.start + e.length ≤ a) →
            Store.get none m'.slots a = Store.get none m.slots a := by
      rw [h]
      exact ⟨fun hd => by rw [CueMemory.moved, if_pos hd], fun a => m.moved_get_other e d a⟩
    rcases h with ⟨hlt, rfl, hp, hl, hi, hd⟩ | ⟨hi', hp, hl, hi, hd⟩
    · have hm := CueMemory.cueMove_of_arranged hc hp hl hi hd
      have hstep := m.packStep_of_cue hlt hm
      refine ⟨?_, hslots _ (by rw [hstep])⟩
      rw [if_pos hlt, if_pos hlt, hstep, m.moved_eq, moveEntry_eq hc (hp.mem_iff.mp (List.mem_of_getElem? hi)),
        CueMemory.countStep_eq]
      rfl
    · have hge : ¬ m.pack.taken < m.cues.length := by omega
      have hm := CueMemory.paletteMove_of_arranged hpal hp hl hi hd
      rw [show i = m.pack.taken - m.cues.length by omega] at hm
      have hstep := m.packStep_of_palette hge hm
      refine ⟨?_, hslots _ (by rw [hstep])⟩
      rw [if_neg hge, if_neg hge, hstep, m.moved_eq, moveEntry_eq hpal (hp.mem_iff.mp (List.mem_of_getElem? hi)),
        CueMemory.countStep_eq]
      rfl
  · rw [m.packStep_of_end h]

end Sys2Proof.Machine
end


-- ==== Sys2Proof/Proofs/PayloadReads.lean ====
section
/-! PROOFS. The fields, records and payloads of the host link read back (11.8). -/

namespace Sys2Proof.Machine

/-! ### Fields -/

section Offsets
variable (p : List Byte) (o : Nat)

@[simp] theorem u1_at : u1 p (o + 1) = u1 (p.drop (o + 1)) 0 := by simp [u1, List.getD_eq_getElem?_getD]

@[simp] theorem u2_at : u2 p (o + 1) = u2 (p.drop (o + 1)) 0 := by rw [u2, u2, u1_at, u1_at, u1_at, List.drop_drop]

@[simp] theorem u4_at : u4 p (o + 1) = u4 (p.drop (o + 1)) 0 := by rw [u4, u4, u2_at, u2_at, u2_at, List.drop_drop]

@[simp] theorem s2_at : s2 p (o + 1) = s2 (p.drop (o + 1)) 0 := by rw [s2, s2, u2_at]

@[simp] theorem s4_at : s4 p (o + 1) = s4 (p.drop (o + 1)) 0 := by rw [s4, s4, u4_at]

@[simp] theorem posAt_at : posAt p (o + 1) = posAt (p.drop (o + 1)) 0 := by
  rw [posAt, posAt, s4_at, s4_at, s4_at, s4_at, s4_at, List.drop_drop, List.drop_drop]

end Offsets

section Drops
variable (n : Nat) (i : Int) (x : Pos) (p : List Byte) (o : Nat)

@[simp] theorem drop_le1 : (le1 n ++ p).drop (o + 1) = p.drop o := rfl

@[simp] theorem drop_le2 : (le2 n ++ p).drop (o + 2) = p.drop o := rfl

@[simp] theorem drop_le4 : (le4 n ++ p).drop (o + 4) = p.drop o := rfl

@[simp] theorem drop_se2 : (se2 i ++ p).drop (o + 2) = p.drop o := rfl

@[simp] theorem drop_se4 : (se4 i ++ p).drop (o + 4) = p.drop o := rfl

@[simp] theorem drop_posBytes : (posBytes x ++ p).drop (o + 12) = p.drop o := rfl

@[simp] theorem tail_le1 : (le1 n ++ p).tail = p := rfl

@[simp] theorem length_le1 : (le1 n).length = 1 := rfl

@[simp] theorem length_le2 : (le2 n).length = 2 := rfl

@[simp] theorem length_le4 : (le4 n).length = 4 := rfl

@[simp] theorem length_se2 : (se2 i).length = 2 := rfl

@[simp] theorem length_se4 : (se4 i).length = 4 := rfl

@[simp] theorem length_posBytes : (posBytes x).length = 12 := rfl

end Drops

/-- A field read back from a payload that goes on, and from one that ends with it. -/
theorem fits1_reads {n : Nat} (h : fits1 n = true) : (∀ p, u1 (le1 n ++ p) 0 = n) ∧ u1 (le1 n) 0 = n := by
  have hread := fun p => u1_le1 n p (of_decide_eq_true h)
  exact ⟨hread, hread []⟩

theorem fits2_reads {n : Nat} (h : fits2 n = true) : (∀ p, u2 (le2 n ++ p) 0 = n) ∧ u2 (le2 n) 0 = n := by
  have hread := fun p => u2_le2 n p (of_decide_eq_true h)
  exact ⟨hread, hread []⟩

theorem fits4_reads {n : Nat} (h : fits4 n = true) : (∀ p, u4 (le4 n ++ p) 0 = n) ∧ u4 (le4 n) 0 = n := by
  have hread := fun p => u4_le4 n p (of_decide_eq_true h)
  exact ⟨hread, hread []⟩

theorem fitsS2_reads {i : Int} (h : fitsS2 i = true) : (∀ p, s2 (se2 i ++ p) 0 = i) ∧ s2 (se2 i) 0 = i := by
  simp only [fitsS2, Bool.and_eq_true, decide_eq_true_eq] at h
  have hread := fun p => s2_se2 i p h.1 h.2
  exact ⟨hread, hread []⟩

theorem fitsS4_reads {i : Int} (h : fitsS4 i = true) : (∀ p, s4 (se4 i ++ p) 0 = i) ∧ s4 (se4 i) 0 = i := by
  simp only [fitsS4, Bool.and_eq_true, decide_eq_true_eq] at h
  have hread := fun p => s4_se4 i p h.1 h.2
  exact ⟨hread, hread []⟩

theorem posFits_reads {x : Pos} (h : x.fits = true) : (∀ p, posAt (posBytes x ++ p) 0 = x) ∧ posAt (posBytes x) 0 = x := by
  simp only [Pos.fits, Bool.and_eq_true] at h
  obtain ⟨⟨hx, hy⟩, hz⟩ := h
  have hread : ∀ p, posAt (posBytes x ++ p) 0 = x := fun p => by
    simp only [posAt, posBytes, List.append_assoc, s4_at, Nat.zero_add, drop_se4, List.drop_zero, fitsS4_reads hx,
      fitsS4_reads hy, fitsS4_reads hz]
  exact ⟨hread, hread []⟩

/-- Records of one width, each read back from its bytes, are read back from the bytes of all of them. -/
theorem recordsAt_flatMap {α : Type} (w : Nat) (get : List Byte → α) (enc : α → List Byte) (l : List α) (p : List Byte)
    (h : ∀ x ∈ l, (enc x).length = w ∧ ∀ q, get (enc x ++ q) = x) :
    recordsAt w get l.length (l.flatMap enc ++ p) = l := by
  induction l with
  | nil => rfl
  | cons x l ih =>
    obtain ⟨⟨hlen, hget⟩, hl⟩ := List.forall_mem_cons.mp h
    rw [List.flatMap_cons, List.append_assoc, List.length_cons, recordsAt, hget, List.drop_left' hlen, ih hl]

theorem length_flatMap_width {α : Type} (w : Nat) (enc : α → List Byte) (l : List α) (h : ∀ x ∈ l, (enc x).length = w) :
    (l.flatMap enc).length = w * l.length := by
  induction l with
  | nil => rfl
  | cons x l ih =>
    obtain ⟨hx, hl⟩ := List.forall_mem_cons.mp h
    rw [List.flatMap_cons, List.length_append, hx, ih hl, List.length_cons, Nat.mul_succ, Nat.add_comm]

end Sys2Proof.Machine

/-! ### Records -/

namespace Sys2Proof

open Machine

@[simp] theorem RawEntry.length_bytes (e : RawEntry) : e.bytes.length = 35 := by simp [RawEntry.bytes]

theorem entryAt_bytes {e : RawEntry} (h : e.fits = true) (p : List Byte) : entryAt (e.bytes ++ p) = e := by
  simp only [RawEntry.fits, Bool.and_eq_true] at h
  simp [entryAt, RawEntry.bytes, fits1_reads, fits2_reads, fits4_reads, fitsS2_reads, fitsS4_reads, h]

@[simp] theorem RawEmitter.length_bytes (e : RawEmitter) : e.bytes.length = 6 := by simp [RawEmitter.bytes]

theorem emitterAt_bytes {e : RawEmitter} (h : e.fits = true) (p : List Byte) : emitterAt (e.bytes ++ p) = e := by
  simp only [RawEmitter.fits, Bool.and_eq_true] at h
  simp [emitterAt, RawEmitter.bytes, fits1_reads, fits2_reads, h]

@[simp] theorem WheelPos.length_bytes (w : WheelPos) : w.bytes.length = 5 := by simp [WheelPos.bytes]

theorem wheelAt_bytes {w : WheelPos} (h : w.fits = true) (p : List Byte) : wheelAt (w.bytes ++ p) = w := by
  simp only [WheelPos.fits, Bool.and_eq_true] at h
  simp [wheelAt, WheelPos.bytes, fits1_reads, fits2_reads, h]

@[simp] theorem TrackRec.length_bytes (r : TrackRec) : r.bytes.length = 13 := by simp [TrackRec.bytes]

theorem trackAt_bytes {r : TrackRec} (h : r.fits = true) (p : List Byte) : trackAt (r.bytes ++ p) = r := by
  simp only [TrackRec.fits, Bool.and_eq_true] at h
  simp [trackAt, TrackRec.bytes, fits1_reads, posFits_reads, h]

@[simp] theorem RawOverride.length_bytes (o : RawOverride) : o.bytes.length = 6 := by
  unfold RawOverride.bytes
  split <;> simp [zeroBytes]

theorem overrideAt_bytes {o : RawOverride} (h : o.fits = true) (p : List Byte) : overrideAt (o.bytes ++ p) = o := by
  obtain ⟨kind, form, hue, sat, wheel⟩ := o
  simp only [RawOverride.fits, Bool.and_eq_true] at h
  obtain ⟨⟨hkind, hform⟩, hrest⟩ := h
  by_cases hf : form = 1
  · simp only [if_pos hf, Bool.and_eq_true, decide_eq_true_eq] at hrest
    obtain ⟨⟨hwheel, rfl⟩, rfl⟩ := hrest
    subst hf
    simp [overrideAt, RawOverride.bytes, fits1_reads, hkind, hform, hwheel]
  · simp only [if_neg hf, Bool.and_eq_true, decide_eq_true_eq] at hrest
    obtain ⟨⟨rfl, hhue⟩, hsat⟩ := hrest
    simp [overrideAt, RawOverride.bytes, fits1_reads, fits2_reads, fitsS2_reads, hkind, hform, hhue, hsat, hf]

/-! ### Payloads of a fixed length -/

theorem patchAt_bytes {a : PatchArgs} (h : a.fits = true) : patchAt a.bytes = a ∧ a.bytes.length = 27 := by
  simp only [PatchArgs.fits, Bool.and_eq_true] at h
  simp [patchAt, PatchArgs.bytes, fits1_reads, fits2_reads, fitsS2_reads, fitsS4_reads, posFits_reads, h]

theorem poseAt_bytes {a : PoseArgs} (h : a.fits = true) : poseAt a.bytes = a ∧ a.bytes.length = 22 := by
  simp only [PoseArgs.fits, Bool.and_eq_true] at h
  simp [poseAt, PoseArgs.bytes, fits1_reads, fits2_reads, fitsS2_reads, fitsS4_reads, posFits_reads, h]

theorem copyAt_bytes {a : CopyArgs} (h : a.fits = true) : copyAt a.bytes = a ∧ a.bytes.length = 18 := by
  simp only [CopyArgs.fits, Bool.and_eq_true] at h
  simp [copyAt, CopyArgs.bytes, fits1_reads, fits2_reads, fitsS2_reads, posFits_reads, h]

theorem releaseAt_bytes {a : ReleaseArgs} (h : a.fits = true) : releaseAt a.bytes = a ∧ a.bytes.length = 9 := by
  simp only [ReleaseArgs.fits, Bool.and_eq_true] at h
  simp [releaseAt, ReleaseArgs.bytes, fits1_reads, fits2_reads, fits4_reads, h]

theorem listAt_bytes {a : ListArgs} (h : a.fits = true) : listAt a.bytes = a ∧ a.bytes.length = 10 := by
  simp only [ListArgs.fits, Bool.and_eq_true] at h
  simp [listAt, ListArgs.bytes, fits1_reads, fits2_reads, fits4_reads, h]

theorem lineAt_bytes {a : LineArgs} (h : a.fits = true) : lineAt a.bytes = a ∧ a.bytes.length = 8 := by
  simp only [LineArgs.fits, Bool.and_eq_true] at h
  simp [lineAt, LineArgs.bytes, fits1_reads, fits2_reads, h]

/-! ### Payloads with lists -/

theorem recordsAt_le1 {l : List Nat} (h : l.all fits1 = true) (p : List Byte) :
    recordsAt 1 (fun q => u1 q 0) l.length (l.flatMap le1 ++ p) = l :=
  recordsAt_flatMap 1 _ _ l p fun x hx => ⟨rfl, (fits1_reads (List.all_eq_true.mp h x hx)).1⟩

theorem recordsAt_le2 {l : List Nat} (h : l.all fits2 = true) (p : List Byte) :
    recordsAt 2 (fun q => u2 q 0) l.length (l.flatMap le2 ++ p) = l :=
  recordsAt_flatMap 2 _ _ l p fun x hx => ⟨rfl, (fits2_reads (List.all_eq_true.mp h x hx)).1⟩

theorem length_flatMap_le1 (l : List Nat) : (l.flatMap le1).length = l.length := by
  rw [length_flatMap_width 1 le1 l fun _ _ => rfl, Nat.one_mul]

theorem length_flatMap_le2 (l : List Nat) : (l.flatMap le2).length = 2 * l.length :=
  length_flatMap_width 2 le2 l fun _ _ => rfl

theorem trackRecords {rs : List TrackRec} (h : rs.all (·.fits) = true) (p : List Byte) :
    recordsAt 13 trackAt rs.length (rs.flatMap TrackRec.bytes ++ p) = rs :=
  recordsAt_flatMap 13 _ _ rs p fun r hr => ⟨r.length_bytes, trackAt_bytes (List.all_eq_true.mp h r hr)⟩

theorem entryRecords {es : List RawEntry} (h : es.all (·.fits) = true) (p : List Byte) :
    recordsAt 35 entryAt es.length (es.flatMap RawEntry.bytes ++ p) = es :=
  recordsAt_flatMap 35 _ _ es p fun e he => ⟨e.length_bytes, entryAt_bytes (List.all_eq_true.mp h e he)⟩

theorem overrideRecords {os : List RawOverride} (h : os.all (·.fits) = true) (p : List Byte) :
    recordsAt 6 overrideAt os.length (os.flatMap RawOverride.bytes ++ p) = os :=
  recordsAt_flatMap 6 _ _ os p fun o ho => ⟨o.length_bytes, overrideAt_bytes (List.all_eq_true.mp h o ho)⟩

theorem emitterRecords {es : List RawEmitter} (h : es.all (·.fits) = true) (p : List Byte) :
    recordsAt 6 emitterAt es.length (es.flatMap RawEmitter.bytes ++ p) = es :=
  recordsAt_flatMap 6 _ _ es p fun e he => ⟨e.length_bytes, emitterAt_bytes (List.all_eq_true.mp h e he)⟩

theorem wheelRecords {ws : List WheelPos} (h : ws.all (·.fits) = true) (p : List Byte) :
    recordsAt 5 wheelAt ws.length (ws.flatMap WheelPos.bytes ++ p) = ws :=
  recordsAt_flatMap 5 _ _ ws p fun w hw => ⟨w.length_bytes, wheelAt_bytes (List.all_eq_true.mp h w hw)⟩

/-- A STORE_CUE payload: its length, its part mark and count, and its fields (11.8, R209). -/
theorem CueArgs.bytes_read {mark : Nat} {a : CueArgs} (hm : fits1 mark = true) (h : a.fits = true) :
    (a.bytes mark).length = 9 + 35 * a.entries.length ∧ u1 (a.bytes mark) 7 = mark ∧
      u1 (a.bytes mark) 8 = a.entries.length ∧ cueAt (a.bytes mark) = a := by
  simp only [CueArgs.fits, Bool.and_eq_true, decide_eq_true_eq] at h
  obtain ⟨⟨⟨⟨hcue, hlink⟩, htime⟩, hlen⟩, hall⟩ := h
  have hcount : fits1 a.entries.length = true := decide_eq_true (by omega)
  have hrec := entryRecords hall []
  rw [List.append_nil] at hrec
  have hbytes := length_flatMap_width 35 RawEntry.bytes a.entries fun e _ => e.length_bytes
  simp [cueAt, CueArgs.bytes, fits1_reads, fits2_reads, fits4_reads, *]
  omega

end Sys2Proof
end


-- ==== Sys2Proof/Proofs/CommandReads.lean ====
section
/-! PROOFS. Every well-formed command's payload is read back as that command (R200, 11.8, 11.9). -/

namespace Sys2Proof

open Machine

/-- A STORE_PALETTE payload: its length, its count and its fields (11.8). -/
theorem PaletteArgs.bytes_read {a : PaletteArgs} (h : a.fits = true) :
    a.bytes.length = 8 + 6 * a.overrides.length ∧ u1 a.bytes 7 = a.overrides.length ∧ paletteAt a.bytes = a := by
  simp only [PaletteArgs.fits, Bool.and_eq_true, decide_eq_true_eq] at h
  obtain ⟨⟨⟨⟨⟨hpal, hhue⟩, hsat⟩, hfade⟩, hlen⟩, hall⟩ := h
  have hcount : fits1 a.overrides.length = true := decide_eq_true (by omega)
  have hrec := overrideRecords hall []
  rw [List.append_nil] at hrec
  have hbytes := length_flatMap_width 6 RawOverride.bytes a.overrides fun o _ => o.length_bytes
  simp [paletteAt, PaletteArgs.bytes, fits1_reads, fits2_reads, fitsS2_reads, *]
  omega

/-! ### DEFINE_KIND -/

section Kind
variable {k : RawKind}

@[simp] theorem RawKind.length_header : k.header.length = 32 := by simp [RawKind.header]

theorem RawKind.header_read (h : k.fieldsFit = true) (hp : fits1 k.pass.length = true) (p : List Byte) :
    u1 (k.header ++ p) 28 = k.model ∧ u1 (k.header ++ p) 29 = k.listCount ∧ u1 (k.header ++ p) 31 = k.pass.length ∧
      kindAt (k.header ++ p) =
        { k with
          emitters := if k.model = 1 then recordsAt 6 emitterAt k.listCount p else []
          wheel := if k.model = 2 then recordsAt 5 wheelAt k.listCount p else []
          pass := recordsAt 1 (fun q => u1 q 0) k.pass.length (p.drop (kindListBytes k.model k.listCount)) } := by
  simp only [RawKind.fieldsFit, Bool.and_eq_true] at h
  have hdrop : (k.header ++ p).drop 32 = p := List.drop_left' k.length_header
  have hmodel : u1 (k.header ++ p) 28 = k.model := by simp [RawKind.header, fits1_reads, h]
  have hcount : u1 (k.header ++ p) 29 = k.listCount := by simp [RawKind.header, fits1_reads, h]
  have hpass : u1 (k.header ++ p) 31 = k.pass.length := by simp [RawKind.header, fits1_reads, hp]
  refine ⟨hmodel, hcount, hpass, ?_⟩
  unfold kindAt
  rw [hmodel, hcount, hpass, ← List.drop_drop, hdrop]
  simp [RawKind.header, fits1_reads, fits2_reads, fitsS2_reads, fitsS4_reads, h]

/-- The lists of a DEFINE_KIND payload are read back in the form that its colour model gives them (11.8). -/
theorem RawKind.lists_read (h : k.listsOk = true) (he : k.emitters.all (·.fits) = true) (hw : k.wheel.all (·.fits) = true)
    (hp : k.pass.all fits1 = true) {p : List Byte}
    (hb : p = k.emitters.flatMap RawEmitter.bytes ++ (k.wheel.flatMap WheelPos.bytes ++ k.pass.flatMap le1)) :
    p.length = kindListBytes k.model k.listCount + k.pass.length ∧
      (if k.model = 1 then recordsAt 6 emitterAt k.listCount p else []) = k.emitters ∧
      (if k.model = 2 then recordsAt 5 wheelAt k.listCount p else []) = k.wheel ∧
      recordsAt 1 (fun q => u1 q 0) k.pass.length (p.drop (kindListBytes k.model k.listCount)) = k.pass := by
  have hpass := recordsAt_le1 hp []
  rw [List.append_nil] at hpass
  have hem := length_flatMap_width 6 RawEmitter.bytes k.emitters fun e _ => e.length_bytes
  have hwh := length_flatMap_width 5 WheelPos.bytes k.wheel fun w _ => w.length_bytes
  unfold RawKind.listsOk at h
  split at h
  · next hm =>
    simp only [Bool.and_eq_true, decide_eq_true_eq, List.isEmpty_iff] at h
    obtain ⟨hlen, hnil⟩ := h
    rw [hnil, List.flatMap_nil, List.nil_append] at hb
    rw [hm, if_pos rfl, if_neg (by decide), hnil, ← hlen, hb, emitterRecords he]
    refine ⟨?_, rfl, rfl, ?_⟩
    · rw [List.length_append, hem, length_flatMap_le1]
      rfl
    · rw [List.drop_left' (show _ = kindListBytes 1 _ from hem), hpass]
  · next hm =>
    simp only [Bool.and_eq_true, decide_eq_true_eq, List.isEmpty_iff] at h
    obtain ⟨hnil, hlen⟩ := h
    rw [hnil, List.flatMap_nil, List.nil_append] at hb
    rw [hm, if_neg (by decide), if_pos rfl, hnil, ← hlen, hb, wheelRecords hw]
    refine ⟨?_, rfl, rfl, ?_⟩
    · rw [List.length_append, hwh, length_flatMap_le1]
      rfl
    · rw [List.drop_left' (show _ = kindListBytes 2 _ from hwh), hpass]
  · next h1 h2 =>
    simp only [Bool.and_eq_true, List.isEmpty_iff] at h
    obtain ⟨hnil, hnil'⟩ := h
    have hbytes : kindListBytes k.model k.listCount = 0 := by
      unfold kindListBytes
      split
      · next hm => exact (h1 hm).elim
      · next hm => exact (h2 hm).elim
      · rfl
    rw [hnil, hnil', List.flatMap_nil, List.flatMap_nil, List.nil_append, List.nil_append] at hb
    rw [if_neg h1, if_neg h2, hnil, hnil', hbytes, hb, List.drop_zero, hpass, length_flatMap_le1, Nat.zero_add]
    exact ⟨rfl, rfl, rfl, rfl⟩

theorem RawKind.bytes_eq :
    k.bytes = k.header ++ (k.emitters.flatMap RawEmitter.bytes ++ (k.wheel.flatMap WheelPos.bytes ++ k.pass.flatMap le1)) := by
  simp only [RawKind.bytes, List.append_assoc]

/-- A DEFINE_KIND payload: its length and its fields (11.8). -/
theorem RawKind.bytes_read (h : k.fits = true) :
    32 ≤ k.bytes.length ∧ k.bytes.length = kindLength k.bytes ∧ kindAt k.bytes = k ∧ k.bytes.length ≤ 1020 := by
  simp only [RawKind.fits, Bool.and_eq_true, decide_eq_true_eq] at h
  obtain ⟨⟨⟨⟨⟨⟨hfields, hcount⟩, hlists⟩, he⟩, hw⟩, hp⟩, hmax⟩ := h
  obtain ⟨hlen, hem, hwh, hpass⟩ := RawKind.lists_read hlists he hw hp rfl
  rw [RawKind.bytes_eq]
  obtain ⟨hmodel, hlist, hnum, hkind⟩ := RawKind.header_read hfields hcount (k.emitters.flatMap RawEmitter.bytes ++
    (k.wheel.flatMap WheelPos.bytes ++ k.pass.flatMap le1))
  have hbytes : k.listBytes = kindListBytes k.model k.listCount := rfl
  rw [kindLength, hmodel, hlist, hnum, hkind, hem, hwh, hpass, List.length_append, RawKind.length_header, hlen]
  exact ⟨by omega, by omega, rfl, by omega⟩

end Kind

/-! ### Commands -/

/-- The dispatcher's checks pass a payload and read it as a command, and a frame can carry it (R198, R200). -/
structure Reads (kind : Nat) (p : List Byte) (c : Instr) : Prop where
  parsed : parseCommand kind p = .command c
  short : p.length ≤ 1020

theorem reads_fixed {kind n : Nat} {p : List Byte} {c c' : Instr} (h : parseCommand kind p = fixedLength p n c')
    (hl : p.length = n) (hn : n ≤ 1020) (hc : c' = c) : Reads kind p c :=
  ⟨by rw [h, fixedLength, if_pos hl, hc], by omega⟩

theorem reads_kind {k : RawKind} (h : k.fits = true) : Reads 0x10 k.bytes (.defineKind k) := by
  obtain ⟨h32, hlen, hkind, hmax⟩ := RawKind.bytes_read h
  refine ⟨?_, hmax⟩
  rw [show parseCommand 0x10 k.bytes = parseKind k.bytes from rfl, parseKind, if_pos ⟨h32, hlen⟩, hkind]

theorem reads_cue {mark : Nat} {a : CueArgs} (hm : fits1 mark = true) (h : a.fits = true) :
    Reads 0x40 (a.bytes mark) (cueRow mark a) := by
  obtain ⟨hlen, hmark, hcount, hcue⟩ := CueArgs.bytes_read hm h
  simp only [CueArgs.fits, Bool.and_eq_true, decide_eq_true_eq] at h
  refine ⟨?_, by omega⟩
  rw [show parseCommand 0x40 (a.bytes mark) = parseCue (a.bytes mark) from rfl, parseCue, hcount,
    if_pos ⟨by omega, hlen⟩, hmark, hcue]

theorem cueRow_of_other {mark : Nat} {a : CueArgs} (h : mark = 0 ∨ 3 < mark) : cueRow mark a = .storeCue mark a := by
  unfold cueRow
  split
  · omega
  · omega
  · omega
  · rfl

theorem reads_palette {a : PaletteArgs} (h : a.fits = true) : Reads 0x42 a.bytes (.storePalette a) := by
  obtain ⟨hlen, hcount, hpal⟩ := PaletteArgs.bytes_read h
  simp only [PaletteArgs.fits, Bool.and_eq_true, decide_eq_true_eq] at h
  refine ⟨?_, by omega⟩
  rw [show parseCommand 0x42 a.bytes = parsePalette a.bytes from rfl, parsePalette, hcount, if_pos ⟨by omega, hlen⟩, hpal]

theorem reads_track {rs : List TrackRec} (hl : rs.length ≤ 78) (h : rs.all (·.fits) = true) :
    Reads 0x23 (le1 rs.length ++ rs.flatMap TrackRec.bytes) (.track rs) := by
  have hcount : fits1 rs.length = true := decide_eq_true (by omega)
  have hlen : (le1 rs.length ++ rs.flatMap TrackRec.bytes).length = 1 + 13 * rs.length := by
    rw [List.length_append, length_flatMap_width 13 _ rs fun r _ => r.length_bytes, length_le1]
  have hrec := trackRecords h []
  rw [List.append_nil] at hrec
  refine ⟨?_, by omega⟩
  rw [show parseCommand 0x23 (le1 rs.length ++ rs.flatMap TrackRec.bytes) =
    parseTrack (le1 rs.length ++ rs.flatMap TrackRec.bytes) from rfl, parseTrack, (fits1_reads hcount).1,
    if_pos ⟨by omega, hlen⟩, drop_le1, List.drop_zero, hrec]

theorem reads_trim {f : Nat} {ts : List Nat} (hf : fits1 f = true) (h : ts.all fits2 = true) (hl : ts.length ≤ 509) :
    Reads 0x16 (le1 f ++ ts.flatMap le2) (.setTrim f ts) := by
  have hlen : (le1 f ++ ts.flatMap le2).length = 1 + 2 * ts.length := by
    rw [List.length_append, length_flatMap_le2, length_le1]
  have hrec := recordsAt_le2 h []
  rw [List.append_nil] at hrec
  refine ⟨?_, by omega⟩
  rw [show parseCommand 0x16 (le1 f ++ ts.flatMap le2) = parseTrim (le1 f ++ ts.flatMap le2) from rfl, parseTrim, hlen,
    if_pos (by omega), (fits1_reads hf).1, drop_le1, List.drop_zero, show (1 + 2 * ts.length) / 2 = ts.length by omega, hrec]

theorem reads_pass {f : Nat} {vs : List Nat} (hf : fits1 f = true) (h : vs.all fits1 = true) (hl : vs.length ≤ 1019) :
    Reads 0x17 (le1 f ++ vs.flatMap le1) (.setPassthrough f vs) := by
  have hlen : (le1 f ++ vs.flatMap le1).length = 1 + vs.length := by
    rw [List.length_append, length_flatMap_le1, length_le1]
  have hrec := recordsAt_le1 h []
  rw [List.append_nil] at hrec
  refine ⟨?_, by omega⟩
  rw [show parseCommand 0x17 (le1 f ++ vs.flatMap le1) = parsePass (le1 f ++ vs.flatMap le1) from rfl, parsePass, hlen,
    if_neg (by omega), (fits1_reads hf).1, drop_le1, List.drop_zero, show 1 + vs.length - 1 = vs.length by omega, hrec]

theorem reads_levels {levels : List Nat} (hl : levels.length = 9) (h : levels.all fits1 = true) :
    Reads 0x05 (levels.flatMap le1) (.setNotice levels) := by
  have hrec := recordsAt_le1 h []
  rw [List.append_nil, hl] at hrec
  exact reads_fixed rfl ((length_flatMap_le1 levels).trans hl) (by omega) (congrArg Instr.setNotice hrec)

/-- Every well-formed command is read back from its payload. -/
theorem reads_of_encoded {c : Instr} {kind : Nat} {p : List Byte} (hw : c.wellFormed = true)
    (h : encodeCommand c = some (kind, p)) : Reads kind p c := by
  cases c <;> cases h
  case setNotice levels =>
    simp only [Instr.wellFormed, Bool.and_eq_true, decide_eq_true_eq] at hw
    exact reads_levels hw.1 hw.2
  case defineKind k => exact reads_kind hw
  case setTrim f ts =>
    simp only [Instr.wellFormed, Bool.and_eq_true, decide_eq_true_eq] at hw
    exact reads_trim hw.1.1 hw.1.2 hw.2
  case setPassthrough f vs =>
    simp only [Instr.wellFormed, Bool.and_eq_true, decide_eq_true_eq] at hw
    exact reads_pass hw.1.1 hw.1.2 hw.2
  case track rs =>
    simp only [Instr.wellFormed, Bool.and_eq_true, decide_eq_true_eq] at hw
    exact reads_track hw.1 hw.2
  case storeCue mark a =>
    simp only [Instr.wellFormed, Bool.and_eq_true, Bool.or_eq_true, decide_eq_true_eq] at hw
    obtain ⟨⟨hm, hother⟩, ha⟩ := hw
    exact cueRow_of_other hother ▸ reads_cue hm ha
  case storeCueFirst a => exact reads_cue rfl hw
  case storeCueMore a => exact reads_cue rfl hw
  case storeCueLast a => exact reads_cue rfl hw
  case storePalette a => exact reads_palette hw
  case patch a => exact reads_fixed rfl (patchAt_bytes hw).2 (by decide) (congrArg Instr.patch (patchAt_bytes hw).1)
  case setPose a => exact reads_fixed rfl (poseAt_bytes hw).2 (by decide) (congrArg Instr.setPose (poseAt_bytes hw).1)
  case copyRig a => exact reads_fixed rfl (copyAt_bytes hw).2 (by decide) (congrArg Instr.copyRig (copyAt_bytes hw).1)
  case releaseDirect a =>
    exact reads_fixed rfl (releaseAt_bytes hw).2 (by decide) (congrArg Instr.releaseDirect (releaseAt_bytes hw).1)
  case defineList a => exact reads_fixed rfl (listAt_bytes hw).2 (by decide) (congrArg Instr.defineList (listAt_bytes hw).1)
  case setLine a => exact reads_fixed rfl (lineAt_bytes hw).2 (by decide) (congrArg Instr.setLine (lineAt_bytes hw).1)
  case directAim e =>
    have hread := entryAt_bytes hw []
    rw [List.append_nil] at hread
    exact reads_fixed rfl e.length_bytes (by decide) (congrArg Instr.directAim hread)
  case directColour e =>
    have hread := entryAt_bytes hw []
    rw [List.append_nil] at hread
    exact reads_fixed rfl e.length_bytes (by decide) (congrArg Instr.directColour hread)
  all_goals
    refine reads_fixed rfl rfl (by decide) ?_
    simp only [Instr.wellFormed, Bool.and_eq_true] at hw
    simp [fits1_reads, fits2_reads, posFits_reads, hw]

/-- The kind of a command that a frame carries is a command kind of 11.9. -/
theorem kind_of_encoded {c : Instr} {kind : Nat} {p : List Byte} (h : encodeCommand c = some (kind, p)) : kind < 0x60 := by
  have hc : Laws.Carried.Statement c := by cases c <;> rfl
  rw [Laws.Carried.Statement, h] at hc
  simp only [Option.all_some, Bool.and_eq_true, decide_eq_true_eq] at hc
  exact hc.2

/-- Settles O3: `reads_of_encoded`, one lemma for each payload form. -/
theorem commandPayloadsReadBack : Obligations.CommandPayloadsReadBack := by
  intro c kind payload hw h
  have hreads := reads_of_encoded hw h
  exact ⟨hreads.parsed, hreads.short, kind_of_encoded h⟩

end Sys2Proof
end


-- ==== Sys2Proof/Proofs/FrameObl.lean ====
section
/-! PROOFS. Frames received byte by byte: the whole frame, the queue, and what is discarded (11.1, 11.2). -/

namespace Sys2Proof.Machine

/-! ### The bytes of a frame -/

/-- The bytes of a frame after its sync byte (11.8). -/
def frameBytes (kind tag : Nat) (payload : List Byte) : List Byte :=
  le2 payload.length ++ (le1 kind ++ (le1 tag ++ payload))

/-- A byte as it arrives with its stop bit. -/
def whole (b : Byte) : RxByte := ⟨b, true⟩

theorem wireBytes_eq (kind tag : Nat) (payload : List Byte) :
    wireBytes kind tag payload = whole 0xC3 :: (frameBytes kind tag payload).map whole := by
  unfold wireBytes frameBytes
  simp only [List.append_assoc, List.map_cons]
  rfl

theorem u2_append {p : List Byte} (q : List Byte) (h : 2 ≤ p.length) : u2 (p ++ q) 0 = u2 p 0 := by
  match p, h with
  | _ :: _ :: _, _ => rfl

theorem frameBytes_length (kind tag : Nat) (payload : List Byte) :
    (frameBytes kind tag payload).length = 4 + payload.length := by
  simp only [frameBytes, List.length_append, length_le1, length_le2]
  omega

theorem frameBytes_ne_nil (kind tag : Nat) (payload : List Byte) : frameBytes kind tag payload ≠ [] := List.cons_ne_nil _ _

section Whole
variable {kind tag : Nat} {payload : List Byte} (hp : payload.length ≤ 1020)
include hp

theorem frameBytes_length_field (q : List Byte) : u2 (frameBytes kind tag payload ++ q) 0 = payload.length := by
  rw [frameBytes, List.append_assoc]
  exact u2_le2 _ _ (by omega)

theorem frameOf_frameBytes (hk : kind < 256) (ht : tag < 256) :
    frameOf (frameBytes kind tag payload) = some ⟨kind, tag, payload⟩ := by
  have hlen := frameBytes_length_field hp (kind := kind) (tag := tag) []
  rw [List.append_nil] at hlen
  have hkind : u1 (frameBytes kind tag payload) 2 = kind := by
    simp [frameBytes, fits1_reads, show fits1 kind = true from decide_eq_true hk]
  have htag : u1 (frameBytes kind tag payload) 3 = tag := by
    simp [frameBytes, fits1_reads, show fits1 tag = true from decide_eq_true ht]
  have hdrop : (frameBytes kind tag payload).drop 4 = payload := by simp [frameBytes]
  rw [frameOf, hlen, frameBytes_length, if_pos ⟨by omega, rfl⟩, hkind, htag, hdrop]

/-- No part of a frame but the whole of it is one, and no part of it gives a length above 1,020. -/
theorem frameOf_part {got rest : List Byte} (h : got ++ rest = frameBytes kind tag payload) :
    tooLong got = false ∧ (rest ≠ [] → frameOf got = none) := by
  have hlen := frameBytes_length_field hp (kind := kind) (tag := tag) []
  rw [List.append_nil, ← h] at hlen
  have htotal := frameBytes_length kind tag payload
  rw [← h, List.length_append] at htotal
  refine ⟨?_, fun hne => if_neg ?_⟩
  · simp only [tooLong, Bool.and_eq_false_iff, decide_eq_false_iff_not]
    by_cases h2 : 2 ≤ got.length
    · rw [u2_append rest h2] at hlen
      exact .inr (by omega)
    · exact .inl h2
  · rintro ⟨h4, hgot⟩
    rw [u2_append rest (by omega)] at hlen
    have := List.length_pos_iff.mpr hne
    omega

end Whole

/-! ### Bytes received -/

section Receive
variable (s : State)

theorem State.withReceiver_hunting (h : s.link.receiver = .hunting) : s.withReceiver .hunting = s := by
  rw [← h]
  rfl

theorem State.hunt_sync : s.hunt (whole 0xC3) = s.withReceiver (.inFrame [] s.now) := rfl

theorem gapOver_self (t : Nat) : gapOver t t = false := by
  simp only [gapOver, decide_eq_false_iff_not]
  omega

theorem State.receiveByte_of_hunting (b : RxByte) (h : s.link.receiver = .hunting) : s.receiveByte b = s.hunt b := by
  simp only [State.receiveByte, h]

theorem State.receiveByte_of_inFrame (b : RxByte) {got : List Byte} {last : Nat}
    (h : s.link.receiver = .inFrame got last) :
    s.receiveByte b = if gapOver last s.now = true then s.discardFrame.hunt b else s.frameByte got b := by
  simp only [State.receiveByte, h]

theorem State.receiveByte_of_now (b : RxByte) {got : List Byte} (h : s.link.receiver = .inFrame got s.now) :
    s.receiveByte b = s.frameByte got b := by
  rw [s.receiveByte_of_inFrame b h, if_neg (by rw [gapOver_self]; nofun)]

theorem State.frameByte_of_long {got : List Byte} {v : Byte} (h : tooLong (got ++ [v]) = true) :
    s.frameByte got (whole v) = s.discardFrame := by
  unfold State.frameByte
  rw [if_neg (by simp [whole])]
  exact if_pos h

theorem State.frameByte_of_part {got : List Byte} {v : Byte} (h : tooLong (got ++ [v]) = false)
    (hf : frameOf (got ++ [v]) = none) : s.frameByte got (whole v) = s.withReceiver (.inFrame (got ++ [v]) s.now) := by
  unfold State.frameByte
  simp only [whole, h, hf]
  rfl

theorem State.frameByte_of_last {got : List Byte} {v : Byte} {f : LinkFrame} (h : tooLong (got ++ [v]) = false)
    (hf : frameOf (got ++ [v]) = some f) : s.frameByte got (whole v) = (s.withReceiver .hunting).frameArrives f := by
  unfold State.frameByte
  simp only [whole, h, hf]
  rfl

/-- The bytes of a frame that follow each other at one time complete it, from any part of it on (R198). -/
theorem State.receive_rest {kind tag : Nat} {payload got rest : List Byte} (hp : payload.length ≤ 1020) (hk : kind < 256)
    (ht : tag < 256) (hrest : rest ≠ []) (hsplit : got ++ rest = frameBytes kind tag payload)
    (h : s.link.receiver = .inFrame got s.now) :
    s.receive (rest.map whole) = (s.withReceiver .hunting).frameArrives ⟨kind, tag, payload⟩ := by
  induction rest generalizing s got with
  | nil => exact absurd rfl hrest
  | cons b rest ih =>
    have hsplit' : (got ++ [b]) ++ rest = frameBytes kind tag payload := by rw [List.append_assoc]; exact hsplit
    obtain ⟨hshort, hnone⟩ := frameOf_part hp hsplit'
    rw [List.map_cons, State.receive, s.receiveByte_of_now _ h]
    by_cases hend : rest = []
    · subst hend
      rw [List.append_nil] at hsplit'
      rw [s.frameByte_of_last hshort (by rw [hsplit']; exact frameOf_frameBytes hp hk ht)]
      rfl
    · rw [s.frameByte_of_part hshort (hnone hend), ih _ hend hsplit' rfl]
      rfl

/-- A hunting receiver takes a whole frame's bytes as that frame (R198). -/
theorem State.receive_wireBytes {kind tag : Nat} {payload : List Byte} (hp : payload.length ≤ 1020) (hk : kind < 256)
    (ht : tag < 256) (h : s.link.receiver = .hunting) :
    s.receive (wireBytes kind tag payload) = s.frameArrives ⟨kind, tag, payload⟩ := by
  rw [wireBytes_eq, State.receive, s.receiveByte_of_hunting _ h, State.hunt_sync,
    State.receive_rest _ hp hk ht (got := []) (frameBytes_ne_nil kind tag payload) rfl rfl]
  exact congrArg (fun t : State => t.frameArrives _) (s.withReceiver_hunting h)

theorem exec_receiveFrame (bytes : List RxByte) (hr : s.resetting = none) :
    exec (.receiveFrame bytes) s = .next (s.receive bytes).pump :=
  exec_of_enabled s (c := .receiveFrame bytes) rfl rfl hr rfl

/-- The command of a well-formed frame is with its owner (R200, R201). -/
theorem State.frameArrives_of_free {f : LinkFrame} {c : Instr} (hf : s.free = true) (hq : s.link.queue = [])
    (hc : parseCommand f.kind f.payload = .command c) :
    s.frameArrives f = s.withLink { s.link with held := some ⟨f.kind, f.tag, 8, .handed c⟩ } := by
  unfold State.frameArrives
  have hqueue : (s.withLink { s.link with queue := s.link.queue ++ [f] }).link.queue = f :: [] := by
    rw [State.withLink_link, hq]
    rfl
  have hfree : (s.withLink { s.link with queue := s.link.queue ++ [f] }).free = true := hf
  rw [if_pos (by rw [hq]; exact Nat.zero_lt_succ 7), State.dispatch_of_free _ hfree hqueue]
  unfold State.check
  rw [hc]
  exact congrArg (fun q => s.withLink { s.link with queue := q, held := some ⟨f.kind, f.tag, 8, .handed c⟩ }) hq.symm

/-- A busy dispatcher leaves a frame in the queue (R199). -/
theorem State.frameArrives_of_held {f : LinkFrame} (hh : s.link.held.isSome = true) (hq : s.link.queue.length < 8) :
    s.frameArrives f = s.withLink { s.link with queue := s.link.queue ++ [f] } := by
  refine (if_pos hq).trans (if_neg fun hfree => ?_)
  have hnone := ((State.free_iff _).mp hfree).2.2
  rw [show s.link.held = none from hnone] at hh
  cases hh

theorem State.frameArrives_of_full {f : LinkFrame} (hq : 8 ≤ s.link.queue.length) :
    s.frameArrives f = s.notifyLinkOverrun f.kind f.tag :=
  if_neg (by omega)

end Receive

/-- Settles O4: the bytes give the frame, and `reads_of_encoded` its command. -/
theorem frameReachesItsOwner : Obligations.FrameReachesItsOwner := by
  intro s c kind tag payload hw hc ht hf hq hrec
  have hreads := reads_of_encoded hw hc
  have hk := kind_of_encoded hc
  obtain ⟨hr, -, -⟩ := s.free_iff.mp hf
  rw [exec_receiveFrame s _ hr, s.receive_wireBytes hreads.short (by omega) ht hrec,
    s.frameArrives_of_free hf hq hreads.parsed]

/-- Settles O5: a frame that completes while a command is held, and each ground for discarding one. -/
theorem framesQueueOrDrop : Obligations.FramesQueueOrDrop := by
  refine fun s hr => ⟨fun kind tag payload hk ht hp hrec hheld => ⟨fun hq => ?_, fun hq => ?_⟩, fun got last h hgap => ?_,
    fun got last v h hgap => ?_, fun got last v h hgap hv => ?_, fun low high hlong hrec => ?_⟩
  · rw [exec_receiveFrame s _ hr, s.receive_wireBytes hp hk ht hrec, s.frameArrives_of_held hheld hq]
  · rw [exec_receiveFrame s _ hr, s.receive_wireBytes hp hk ht hrec, s.frameArrives_of_full hq]
    rfl
  · refine exec_of_enabled s (c := .interByteTimeout) rfl rfl hr ?_
    simp only [rowEnabled, State.interByteOver, h]
    exact decide_eq_true hgap
  · have hover : gapOver last s.now = false := decide_eq_false (by show ¬ last + 1005 < s.now; omega)
    rw [exec_receiveFrame s _ hr, State.receive, State.receive, s.receiveByte_of_inFrame _ h,
      if_neg (by rw [hover]; nofun)]
    rfl
  · have hover : gapOver last s.now = true := decide_eq_true hgap
    rw [exec_receiveFrame s _ hr, State.receive, State.receive, s.receiveByte_of_inFrame _ h, if_pos hover, State.hunt,
      if_neg fun hsync => hv (of_decide_eq_true (Bool.and_eq_true_iff.mp hsync).2)]
    rfl
  · have hfield : u2 [low, high] 0 = low.toNat + 256 * high.toNat := rfl
    have hshort : tooLong [low] = false := rfl
    have htoolong : tooLong [low, high] = true := by simp [tooLong, hfield, hlong]
    rw [exec_receiveFrame s _ hr]
    refine congrArg (fun t : State => (.next t.pump : Result)) ?_
    show s.receive [whole 0xC3, whole low, whole high] = _
    rw [State.receive, s.receiveByte_of_hunting _ hrec, State.hunt_sync, State.receive, State.receiveByte_of_now _ _ rfl,
      State.frameByte_of_part _ hshort rfl, State.receive, State.receiveByte_of_now _ _ rfl,
      State.frameByte_of_long _ htoolong]
    exact congrArg (fun t : State => t.raise .linkError none 1) (s.withReceiver_hunting hrec)

end Sys2Proof.Machine
end
